-- ==== Sys2Proof/Word.lean ====
section
/-! DEFINITION. The bit vectors of the 4210: octets, LCP words and 32-bit counts (00 "Numbers and units"). -/

namespace Sys2Proof

/-- An octet (00, "Octet: 8 bits"). -/
abbrev Byte := BitVec 8

/-- A word: the width of an LCP register (00, "Word: 16 bits"). Also point numbers, generations,
revisions and incarnations (R2, R3, R10, R11, R12). -/
abbrev Word := BitVec 16

/-- A 32-bit count: the directory clock, due times (R84, R94) and link counters (R178). -/
abbrev LongWord := BitVec 32

end Sys2Proof
end

