-- ==== Sys2Proof/Syntax.lean ====
section
/-! DEFINITION. The commands of the 4210: one constructor of `Instr` per row of spec/opcode_table.json.
The table gives no row any bits; the operands are those the rules name (INVENTORY.md, Instructions). -/

namespace Sys2Proof

/-- The two sweep links (00, "Block overview"). -/
inductive Link where
  | a
  | b
  deriving DecidableEq, Repr

/-- A word of a request slot that a parameter or data write names (R182, R183). -/
inductive SlotWord where
  /-- base + 00h with none of GO, CANCEL and CLEAR set. -/
  | op
  /-- base + 01h. -/
  | point
  /-- base + 02h to 05h. -/
  | argument (i : Fin 4)
  /-- base + 10h to 2Fh. -/
  | data (i : Fin 32)
  deriving DecidableEq, Repr

/-- The select words of the indexed windows (R188). -/
inductive Select where
  | station
  | fence
  | link
  | bank
  | entry
  deriving DecidableEq, Repr

/-- The field words of the fence window (R182: 161h to 167h). -/
inductive FenceField where
  | enable
  | low
  | high
  | readMaskLow
  | readMaskHigh
  | writeMaskLow
  | writeMaskHigh
  deriving DecidableEq, Repr

/-- The five counters of a remote station, in register order (R141, R182: 14Eh to 152h). -/
inductive StationCounter where
  | executed
  | repeated
  | refusals
  | strayAcks
  | timesLeft
  deriving DecidableEq, Repr

/-- The four link parameters, in register order (R171, R182: 175h to 178h). -/
inductive LinkParameter where
  | bitRate
  | replyTimeout
  | retryLimit
  | missLimit
  deriving DecidableEq, Repr

/-- The nine link counters, in the order of R178. -/
inductive LinkCounter where
  | visitsSent
  | goodReplies
  | retries
  | crcFailures
  | timeouts
  | misses
  | repeats
  | strayFrames
  | mismatchedSlots
  deriving DecidableEq, Repr

/-- What breaks a frame (R149). -/
inductive BreakCause where
  /-- The gap between two characters exceeds 2 character times. -/
  | gap
  /-- A character has a framing error. -/
  | framing
  /-- The length octet is above 96. -/
  | length (octet : Byte)
  deriving DecidableEq, Repr

/-- The commands. Each docstring gives the row's mnemonic and rule. -/
inductive Instr where
  /-- GRANT (R39). -/
  | grant
  /-- READ completes (R59). -/
  | read
  /-- WRITE completes (R61). -/
  | write
  /-- CREATE completes (R69). -/
  | create
  /-- RETIRE completes (R73). -/
  | retire
  /-- CLAIM completes (R86). -/
  | claim
  /-- RELEASE completes (R91). -/
  | release
  /-- SUBSCRIBE completes (R105). -/
  | subscribe
  /-- UNSUBSCRIBE completes (R107). -/
  | unsubscribe
  /-- NEXT completes (R75). -/
  | next
  /-- PIN completes (R78). -/
  | pin
  /-- UNPIN completes (R80). -/
  | unpin
  /-- PURGE completes (R81). -/
  | purge
  /-- NOTICE_FETCH completes (R113). -/
  | noticeFetch
  /-- NOTICE_ACK completes (R114). -/
  | noticeAck
  /-- EXPIRE completes (R97). -/
  | expire
  /-- CLEAR_CHUNK completes (R137). -/
  | clearChunk
  /-- DEADLINE_DUE (R96). -/
  | deadlineDue
  /-- WALK_ENTRY: the link comes to the next entry (R173). -/
  | walkEntry (l : Link)
  /-- SEND_VISIT: the link begins sending the VISIT (R155). -/
  | sendVisit (l : Link)
  /-- VISIT_FRAME_SENT: the end of the VISIT's last octet (R156). -/
  | visitFrameSent (l : Link)
  /-- FRAME_RECEIVED: the frame in progress is whole (R156). -/
  | frameReceived (l : Link) (address type flags : Byte) (payload : List Byte) (crcLow crcHigh : Byte)
  /-- FRAME_BROKEN: the frame in progress breaks (R149). -/
  | frameBroken (l : Link) (cause : BreakCause)
  /-- REPLY_TIMEOUT: the reply window closes with no start octet (R156). -/
  | replyTimeout (l : Link)
  /-- SEND_RESULT: the link begins sending the RESULT (R162). -/
  | sendResult (l : Link)
  /-- RESULT_FRAME_SENT: the end of the RESULT's last octet (R162). -/
  | resultFrameSent (l : Link)
  /-- FULL_RESET: power-on, or RESET asserted (R193). -/
  | fullReset
  /-- RESET_RELEASE: RESET released (R193). -/
  | resetRelease
  /-- SOFT_RESET: PORT_CONTROL written with bit 0 set; `latch` is its bit 1 (R192). -/
  | softReset (latch : Bool)
  /-- CLOCK_LATCH: PORT_CONTROL written with bit 1 alone (R189). -/
  | clockLatch
  /-- GO: the OP word of slot `k` written with GO alone set (R184). -/
  | go (k : Fin 4) (code : Byte) (expect force : Bool)
  /-- CANCEL: the OP word of slot `k` written with CANCEL alone set (R184). -/
  | cancel (k : Fin 4) (code : Byte) (expect force : Bool)
  /-- CLEAR: the OP word of slot `k` written with CLEAR alone set (R184). -/
  | clear (k : Fin 4) (code : Byte) (expect force : Bool)
  /-- SLOT_PARAMETER_WRITE (R183). -/
  | slotParameterWrite (k : Fin 4) (w : SlotWord) (value : Word)
  /-- TAKE: NOTICE_CONTROL written with TAKE alone (R187). -/
  | take
  /-- ACK: NOTICE_CONTROL written with ACK alone (R187). -/
  | ack
  /-- ATTN_CAUSE_WRITE (R190). -/
  | attnCauseWrite (value : Word)
  /-- ATTN_ENABLE_WRITE (R190). -/
  | attnEnableWrite (value : Word)
  /-- STATION_CHANGED_WRITE: 004h, or 005h when `high` (R142). -/
  | stationChangedWrite (high : Bool) (value : Word)
  /-- POOL_LOW_THRESHOLD_WRITE (R32). -/
  | poolLowThresholdWrite (value : Word)
  /-- LEASE_MAX_WRITE (R92). -/
  | leaseMaxWrite (value : Word)
  /-- SELECT_WRITE (R188). -/
  | selectWrite (which : Select) (value : Word)
  /-- LINK_ASSIGNMENT_WRITE of the selected station (R133). -/
  | linkAssignmentWrite (value : Word)
  /-- BAR of the selected station (R131). -/
  | bar
  /-- UNBAR of the selected station (R131). -/
  | unbar
  /-- STATION_COUNTER_WRITE of the selected station (R141). -/
  | stationCounterWrite (which : StationCounter) (value : Word)
  /-- FENCE_WRITE of the selected fence (R46). -/
  | fenceWrite (field : FenceField) (value : Word)
  /-- ENTRY_VALUE_WRITE of the selected link, bank and entry (R172). -/
  | entryValueWrite (value : Word)
  /-- RUN: the selected link's control word written with RUN 1; `switchBit` is its SWITCH (R167, R168). -/
  | run (switchBit : Bool)
  /-- RUN_CLEARED: the same word written with RUN 0 (R167, R169). -/
  | runCleared (switchBit : Bool)
  /-- SWITCH: the same word written with SWITCH 1; `runBit` is its RUN (R167, R175). -/
  | switch (runBit : Bool)
  /-- SWITCH_WITHDRAW: the same word written with SWITCH 0 (R167, R175). -/
  | switchWithdraw (runBit : Bool)
  /-- LINK_PARAMETER_WRITE of the selected link (R171). -/
  | linkParameterWrite (which : LinkParameter) (value : Word)
  /-- LINK_COUNTER_WRITE: the low word, or the high word when `high`, of a counter of the selected link (R178). -/
  | linkCounterWrite (which : LinkCounter) (high : Bool) (value : Word)
  /-- LINK_COUNTER_LOW_READ of a counter of the selected link (R189). -/
  | linkCounterLowRead (which : LinkCounter)
  /-- REGISTER_WRITE: a bus write of any word of the window (R181). -/
  | registerWrite (address : BitVec 9) (value : Word)
  /-- DIRECTORY_CLOCK_TICK (R84). -/
  | directoryClockTick
  /-- START_OCTET_RECEIVED: an octet received with its stop bit (R145, R149). -/
  | startOctetReceived (l : Link) (octet : Byte) (stopBit : Bool)
  deriving DecidableEq, Repr

end Sys2Proof
end

