-- ==== Sys2Proof/Config.lean ====
section
/-! DEFINITION. What is fixed for the part: its capacities and limits, and the free values. -/

namespace Sys2Proof.Config

/-- R1: the directory has 1024 record slots. -/
def recordSlots : Nat := 1024

/-- R25: the Value Pool has 2048 cells. -/
def poolCells : Nat := 2048

/-- R24, R25: a cell holds 16 octets. -/
def cellOctets : Nat := 16

/-- R8, R23: a value of 8 octets or fewer is held inline. -/
def inlineOctets : Nat := 8

/-- R7: no class accepts a value longer than 64 octets. -/
def maxValueOctets : Nat := 64

/-- R126: no station's claims count exceeds 64. -/
def claimLimit : Nat := 64

/-- R106, R126: no station's subscription count exceeds 256. -/
def subscriptionLimit : Nat := 256

/-- R136: a CLEAR_CHUNK covers 64 record slots. -/
def chunkSlots : Nat := 64

/-- R68: the largest refresh argument. -/
def maxRefresh : Nat := 6000

/-- R92: LEASE_MAX is at most 6000. -/
def maxLeaseMax : Nat := 6000

/-- R92: LEASE_MAX after a full reset. -/
def resetLeaseMax : Nat := 600

/-- R147, R149: the largest payload length of a whole frame. -/
def maxPayload : Nat := 96

/-- R147: the start octet of a frame. -/
def startOctet : Byte := 0xC5#8

/-- R77: the value length of a PIN without a value. -/
def noValueLength : Word := 0xFFFF#16

/-- FREE VALUE, log entry 22. What a word of the notice window holds where the spec does not state it: in the
fields that a RETIRED snapshot does not carry, and past the value of a STATE snapshot. It is given the word
address and the number of the fetch that filled the window (`State.fills`), so that the word stays as it is
until the next fetch (R120) and nothing relates two fetches. -/
opaque openWindowWord (address fill : Nat) : Word

/-- FREE VALUE, log entry 22. What a read of the station window returns where the spec does not state it: the
in-flight numbers while no notice is in flight, and the tag while no tag is present. It is given the word
address, the directory clock and the selected station, so that nothing relates reads that differ in one of them. -/
opaque openWord (address : Nat) (clock : LongWord) (station : Nat) : Word

end Sys2Proof.Config
end

