-- ==== Sys2Proof/Machine/State.lean ====
section
/-! DEFINITION. The state of the 4210 as plain data, its full-reset value, and the two reason types. -/

namespace Sys2Proof.Machine

/-- No command of the 4210 stops the part: every refusal is a result code (R51, R52) and every misuse is
PORT_FAULT (R191). So no meaning raises a fault, and the type has no constructor; a claim that no step
faults is safe, for it follows from the type alone. -/
inductive Fault
  deriving DecidableEq, Repr

/-- The reasons for which a command has no meaning. -/
inductive Refusal where
  /-- Raised by an arm of `exec` for a command that is not modelled; no arm raises it. Safe: the model stops. -/
  | notModelled (mnemonic : String)
  deriving DecidableEq, Repr

/-! ## Records -/

/-- A station number, 0 (the local station) to 30 (R2, R124). -/
abbrev Station := Fin 31

/-- A set of stations 0 to 30: bit n stands for station n, as in the mask words of the port (R17, R46, R142, R182). -/
abbrev StationSet := BitVec 31

/-- The class of a point; the block size is present for BLOCK only (R7). -/
inductive PointClass where
  | word
  | long
  | quad
  | block (size : Nat)
  | text
  deriving DecidableEq, Repr

/-- The quality of an ACTIVE point (R9). -/
inductive Quality where
  | unset
  | good
  | stale
  deriving DecidableEq, Repr

/-- The fields a record carries while ACTIVE and loses when it becomes RETIRING (R2, R5). -/
structure Active where
  /-- The class, with the block size of a BLOCK (R7). -/
  cls : PointClass
  /-- The value, absent until the first accepted write; its length is the length field (R8). -/
  value : Option (List Byte)
  /-- R9. -/
  quality : Quality
  /-- R10. -/
  generation : Word
  /-- R14. -/
  owner : Option Station
  /-- The lease interval, in units of 100 ms (R14). -/
  lease : Option Nat
  /-- The refresh interval, in units of 10 ms (R15). -/
  refresh : Option Nat
  /-- R16. -/
  pinned : Bool
  /-- The number of cells in the record's chain (R23, R24); the octets are those of `value`. -/
  cells : Nat
  deriving DecidableEq, Repr

/-- The phase of a record in use (R4). -/
inductive Phase where
  | active (fields : Active)
  | retiring
  deriving DecidableEq, Repr

/-- A record in use (R2). -/
structure Record where
  /-- R3. -/
  point : Word
  /-- The record slot that holds it, 0 to 1023 (R1). -/
  slot : Nat
  /-- R12. -/
  incarnation : Word
  /-- R11. -/
  revision : Word
  /-- R17. -/
  subscribers : StationSet
  /-- R17, R108. -/
  pendingSet : StationSet
  /-- R4, R5. -/
  phase : Phase
  deriving DecidableEq, Repr

/-! ## Deadlines -/

/-- The two kinds of deadline (R94). -/
inductive DeadlineKind where
  | lease
  | freshness
  deriving DecidableEq, Repr

/-- An entry of the deadline list (R94). -/
structure Deadline where
  point : Word
  incarnation : Word
  kind : DeadlineKind
  due : LongWord
  deriving DecidableEq, Repr

/-! ## Requests and results -/

/-- A request: operation code, flags, point number, the four argument words of R182 and the octets of
the value field (R54). -/
structure Request where
  code : Byte
  expect : Bool
  force : Bool
  point : Word
  /-- Expected generation (WRITE, PIN); class (CREATE); lease (CLAIM); "after" (NEXT). -/
  arg0 : Word
  /-- Value length (WRITE, PIN); block size (CREATE). -/
  arg1 : Word
  /-- Refresh (CREATE). -/
  arg2 : Word
  /-- Claim lease (CREATE). -/
  arg3 : Word
  /-- The value field. -/
  data : List Byte
  deriving DecidableEq, Repr

/-- The result codes 0 to 18, in code order (R52). -/
inductive ResultCode where
  | ok
  | notFound
  | exists_
  | retiring
  | badPoint
  | badClass
  | badLength
  | badArg
  | denied
  | held
  | notOwner
  | pinned
  | conflict
  | noRecord
  | noSpace
  | limit
  | notOnline
  | badOp
  | cancelled
  deriving DecidableEq, Repr

/-- The state of an ACTIVE record as READ and STATE notices show it, beside the revision and the
incarnation (R60, R112). The value is empty when the length is 0. -/
structure PointView where
  cls : PointClass
  quality : Quality
  generation : Word
  owner : Option Station
  pinned : Bool
  value : List Byte
  deriving DecidableEq, Repr

/-- The result fields of a completed request (R52 and each operation). -/
inductive ResultFields where
  | none
  /-- READ with OK (R60). -/
  | read (revision incarnation : Word) (view : PointView)
  /-- WRITE and PIN with OK, and CONFLICT (R52, R67, R78). -/
  | generation (g : Word)
  /-- CREATE with OK (R71). -/
  | created (incarnation lease : Word)
  /-- CLAIM with OK (R87, R88). -/
  | lease (granted : Word)
  /-- NEXT with OK (R76). -/
  | next (point : Word) (cls : PointClass)
  /-- HELD (R52). -/
  | owner (station : Station)
  deriving DecidableEq, Repr

/-- The outcome of a request (R51). -/
structure Result where
  code : ResultCode
  fields : ResultFields
  deriving DecidableEq, Repr

/-! ## Notices -/

/-- What names a notice: point number, incarnation and revision (R110). -/
structure NoticeId where
  point : Word
  incarnation : Word
  revision : Word
  deriving DecidableEq, Repr

/-- The two kinds of snapshot (R112). -/
inductive SnapshotBody where
  | state (view : PointView)
  | retired
  deriving DecidableEq, Repr

/-- A snapshot of a record (R112). -/
structure Snapshot where
  id : NoticeId
  body : SnapshotBody
  deriving DecidableEq, Repr

/-! ## Arbiter and fences -/

/-- The five requesters (R36). -/
inductive Requester where
  | linkA
  | linkB
  | local_
  | deadline
  | clear
  deriving DecidableEq, Repr

/-- Who gets the outcome of an operation: a link engine, a request slot, the notice window, the Deadline
Monitor or the Clear Engine (R40). -/
inductive Origin where
  | link (l : Link)
  | slot (k : Fin 4)
  | window
  | deadline
  | clear
  deriving DecidableEq, Repr

/-- The work of an operation, with what it takes at its grant (R41). -/
inductive Work where
  | request (station : Station) (q : Request)
  | noticeFetch (station : Station)
  | noticeAck (station : Station) (id : NoticeId)
  | expire
  | clearChunk (station : Station) (chunk : Fin 16)
  deriving DecidableEq, Repr

/-- An access fence (R46). -/
structure Fence where
  enabled : Bool
  low : Word
  high : Word
  readMask : StationSet
  writeMask : StationSet
  deriving DecidableEq, Repr

/-- An operation in progress: what it took at its grant (R40, R41, R49, R84, R92). -/
structure Granted where
  origin : Origin
  work : Work
  /-- The clock reading of the grant, called now (R58, R84). -/
  now : LongWord
  /-- The fences as they stood at the grant (R49). -/
  fences : Vector Fence 8
  /-- LEASE_MAX as it stood at the grant (R92). -/
  leaseMax : Nat
  deriving DecidableEq, Repr

/-! ## Station table -/

/-- Station states (R124). -/
inductive StationState where
  | local_
  | offline
  | online
  | leaving
  | barred
  deriving DecidableEq, Repr

/-- A RESULT payload with the tag of its request: a last request tag with its last-result record (R140),
or a visit's RESULT payload with its echo (R153). -/
structure TaggedPayload where
  tag : Bool
  payload : List Byte
  deriving DecidableEq, Repr

/-- A station entry (R124). -/
structure StationEntry where
  state : StationState
  /-- The link assignment; none is NONE (R133). -/
  link : Option Link
  barredMark : Bool
  missCount : Nat
  claims : Nat
  subscriptions : Nat
  pendingCount : Nat
  cursor : Word
  inflight : Option NoticeId
  freshOwed : Bool
  /-- The last request tag and the last-result record, present or absent together (R140, R160). -/
  last : Option TaggedPayload
  executed : Word
  repeated : Word
  refusals : Word
  strayAcks : Word
  timesLeft : Word
  deriving DecidableEq, Repr

/-! ## Link engines -/

/-- Link states (R167). -/
inductive LinkState where
  | stopped
  | running
  | stopping
  deriving DecidableEq, Repr

/-- The phases of a visit (R153). -/
inductive VisitPhase where
  | fetch
  | sendVisit
  | awaitReply
  | ack
  | request
  | sendResult
  deriving DecidableEq, Repr

/-- The REPLY held: its acknowledgement part, its request part and its tag (R151, R153). -/
structure Reply where
  ack : Option NoticeId
  request : Option Request
  tag : Bool
  deriving DecidableEq, Repr

/-- A visit (R153). -/
structure Visit where
  station : Station
  entry : Fin 32
  phase : VisitPhase
  /-- The try number, from 1. -/
  tryNumber : Nat
  /-- FRESH of the VISIT as built. -/
  fresh : Bool
  /-- The snapshot of the VISIT as built; present when NOTICE is set. -/
  notice : Option Snapshot
  reply : Option Reply
  result : Option TaggedPayload
  deriving DecidableEq, Repr

/-- The receiver of a link engine: hunting for a start octet, or inside a frame whose start octet came
within the reply window of a try, or outside one (R149, R156, R164). -/
inductive Receiver where
  | hunting
  | inFrame (inWindow : Bool)
  deriving DecidableEq, Repr

/-- The nine counters of a link (R178). -/
structure LinkCounters where
  visitsSent : LongWord
  goodReplies : LongWord
  retries : LongWord
  crcFailures : LongWord
  timeouts : LongWord
  misses : LongWord
  repeats : LongWord
  strayFrames : LongWord
  mismatchedSlots : LongWord
  deriving DecidableEq, Repr

/-- A link engine (R153, R167, R171, R172, R175). -/
structure LinkEngine where
  state : LinkState
  /-- The bit rate code, 0 to 5 (R171). -/
  bitRate : Fin 6
  /-- In ms (R171). -/
  replyTimeout : Nat
  retryLimit : Nat
  missLimit : Nat
  /-- Entry codes: 0 END, 1 to 30 a station, 31 SKIP (R172). -/
  banks : Vector (Vector (Fin 32) 32) 2
  activeBank : Fin 2
  switchRequest : Bool
  /-- The entry the walk stands at or comes to next (R173). -/
  walk : Fin 32
  visit : Option Visit
  /-- The frame being sent; driver enable is asserted exactly while there is one (R145). -/
  sending : Option (List Byte)
  receiver : Receiver
  counters : LinkCounters
  deriving DecidableEq, Repr

/-! ## Local Controller Port -/

/-- Slot states (R183). -/
inductive SlotState where
  | idle
  | queued
  | running
  | done
  deriving DecidableEq, Repr

/-- A request slot (R183). -/
structure Slot where
  state : SlotState
  code : Byte
  expect : Bool
  force : Bool
  point : Word
  args : Vector Word 4
  data : Vector Word 32
  result : ResultCode
  /-- What the seven result field words hold (R186). -/
  fields : ResultFields
  deriving DecidableEq, Repr

/-- A notice-window operation (R37). -/
inductive WindowOp where
  | fetch
  | ack
  deriving DecidableEq, Repr

/-- The notice window (R120, R187). -/
structure NoticeWindow where
  /-- The snapshot; NOTICE_VALID is its presence (R120). -/
  snapshot : Option Snapshot
  /-- Set from the taking of a TAKE or ACK to the completion of its operation (R187). -/
  busy : Bool
  /-- The notice-window operation waiting for its grant (R37). -/
  waiting : Option WindowOp
  deriving DecidableEq, Repr

/-! ## The machine -/

/-- The state of the 4210. -/
structure State where
  /-- The point index with its records, in ascending point-number order (R19). -/
  index : List Record
  /-- The incarnation counter (R13). -/
  incarnation : Word
  /-- The free-cell count (R25). -/
  freeCells : Nat
  /-- The pool-low threshold (R32). -/
  poolThreshold : Nat
  /-- The round-robin pointer (R39). -/
  pointer : Requester
  /-- The operation in progress (R40). -/
  running : Option Granted
  /-- The eight access fences (R46). -/
  fences : Vector Fence 8
  /-- The directory clock (R84). -/
  clock : LongWord
  /-- The deadline list, in due-time order (R94). -/
  deadlines : List Deadline
  /-- The Deadline Monitor has an EXPIRE presented (R96). -/
  expirePresented : Bool
  /-- LEASE_MAX (R92). -/
  leaseMax : Nat
  /-- The station table (R124). -/
  stations : Vector StationEntry 31
  /-- The clear queue, its head first (R135). -/
  clearQueue : List Station
  /-- The next chunk of the current clear (R136). -/
  clearProgress : Fin 16
  /-- The station-changed set (R142). -/
  stationChanged : StationSet
  /-- Link Engine A. -/
  linkA : LinkEngine
  /-- Link Engine B. -/
  linkB : LinkEngine
  /-- The four request slots (R183). -/
  slots : Vector Slot 4
  /-- The local submission queue, its head first (R185). -/
  submission : List (Fin 4)
  /-- The notice window (R120, R187). -/
  window : NoticeWindow
  /-- The model's own: how many fetches have filled the notice window, the number that the window's free words
  are taken by (log entry 22). Both resets keep it. -/
  fills : Nat
  /-- The stored attention causes; bit 4, NOTICE, is a level and is not stored (R119, R190). -/
  causes : Word
  /-- ATTN_ENABLE (R190). -/
  enables : Word
  /-- The select words (R188). -/
  stationSelect : Station
  fenceSelect : Fin 8
  linkSelect : Link
  bankSelect : Fin 2
  entrySelect : Fin 32
  /-- The latched clock words (R189). -/
  clockWords : LongWord
  /-- The counter hold word (R189). -/
  counterHold : Word
  /-- The word the last LINK_COUNTER_LOW_READ drove on the data lines (R181, R189; log entry 10). -/
  dataLines : Word
  /-- RESET is held asserted (R193). -/
  resetHeld : Bool
  /-- The commands that are waiting, first in first out. -/
  pending : List Instr
  deriving DecidableEq, Repr

/-! ## Full reset -/

/-- A fence after a full reset (R50). -/
def Fence.reset : Fence :=
  { enabled := false, low := 0, high := 0, readMask := 0, writeMask := 0 }

/-- A station entry after a full reset (R124, R143). -/
def StationEntry.reset (st : StationState) : StationEntry :=
  { state := st, link := none, barredMark := false, missCount := 0, claims := 0, subscriptions := 0,
    pendingCount := 0, cursor := 0, inflight := none, freshOwed := false, last := none,
    executed := 0, repeated := 0, refusals := 0, strayAcks := 0, timesLeft := 0 }

/-- The station table after a full reset: station 0 LOCAL, the others OFFLINE (R124, R143). -/
def resetStations : Vector StationEntry 31 :=
  (Vector.replicate 31 (StationEntry.reset .offline)).set 0 (StationEntry.reset .local_)

/-- Link counters after a reset (R179, R180). -/
def LinkCounters.reset : LinkCounters :=
  { visitsSent := 0, goodReplies := 0, retries := 0, crcFailures := 0, timeouts := 0, misses := 0,
    repeats := 0, strayFrames := 0, mismatchedSlots := 0 }

/-- A link engine after a full reset (R166, R179). -/
def LinkEngine.reset : LinkEngine :=
  { state := .stopped, bitRate := 2, replyTimeout := 20, retryLimit := 2, missLimit := 3,
    banks := Vector.replicate 2 (Vector.replicate 32 0), activeBank := 0, switchRequest := false,
    walk := 0, visit := none, sending := none, receiver := .hunting, counters := LinkCounters.reset }

/-- A slot after a full or soft reset (R192, R193). -/
def Slot.reset : Slot :=
  { state := .idle, code := 0, expect := false, force := false, point := 0,
    args := Vector.replicate 4 0, data := Vector.replicate 32 0, result := .ok, fields := .none }

/-- The notice window after a full or soft reset (R123, R187). -/
def NoticeWindow.reset : NoticeWindow := { snapshot := none, busy := false, waiting := none }

/-- The machine right after a full reset, RESET released (R22, R35, R45, R50, R104, R123, R143, R179,
R193; log entries 9, 10 and 22). -/
def State.reset : State :=
  { index := [], incarnation := 0, freeCells := Config.poolCells, poolThreshold := 0,
    pointer := .linkA, running := none, fences := Vector.replicate 8 Fence.reset,
    clock := 0, deadlines := [], expirePresented := false, leaseMax := Config.resetLeaseMax,
    stations := resetStations, clearQueue := [], clearProgress := 0, stationChanged := 0,
    linkA := LinkEngine.reset, linkB := LinkEngine.reset,
    slots := Vector.replicate 4 Slot.reset, submission := [], window := NoticeWindow.reset, fills := 0,
    causes := 0, enables := 0, stationSelect := 0, fenceSelect := 0, linkSelect := .a,
    bankSelect := 0, entrySelect := 0, clockWords := 0, counterHold := 0, dataLines := 0,
    resetHeld := false, pending := [] }

end Sys2Proof.Machine
end

