-- ==== Sys2Proof/Machine/Bits.lean ====
section
/-! DEFINITION. Octets of words, wrapping counts, the comparison of clock times, and sets of stations. -/

namespace Sys2Proof.Machine

/-- The low octet of a word. -/
def lowByte (w : Word) : Byte := w.extractLsb' 0 8

/-- The high octet of a word. -/
def highByte (w : Word) : Byte := w.extractLsb' 8 8

/-- The word with the given low and high octets. -/
def wordOf (low high : Byte) : Word := high ++ low

/-- A number of two octets as a frame carries it, low octet first (R147). -/
def twoOctets (w : Word) : List Byte := [lowByte w, highByte w]

/-- A one-bit word. -/
def bitWord (b : Bool) : Word := if b then 1 else 0

/-- A number read as an octet of a frame. -/
def octetOf (n : Nat) : Byte := BitVec.ofNat 8 n

/-- A number read as a word of a register. -/
def wordOfNat (n : Nat) : Word := BitVec.ofNat 16 n

/-- `a` is `b` or earlier: the count forward from `a` to `b` round the wrap is below 2147483648 (R84). -/
def notAfter (a b : LongWord) : Bool := (b - a).toNat < 2147483648

/-- The generation after `g`: after 65535 comes 1 (R10). -/
def nextGeneration (g : Word) : Word := if g = 0xFFFF#16 then 1 else g + 1

/-- Station `st` is in the set. -/
def setHas (set : StationSet) (st : Station) : Bool := set.getLsbD st

/-- The set with `st` added. -/
def setAdd (set : StationSet) (st : Station) : StationSet := set ||| BitVec.twoPow 31 st

/-- The set with `st` taken out. -/
def setDrop (set : StationSet) (st : Station) : StationSet := set &&& ~~~BitVec.twoPow 31 st

/-- Stations 1 to 30 laid out in two words: 1 to 15 at bits 1 to 15 of the low word, 16 to 30 at bits 0 to
14 of the high word; the unused places, bit 0 and bit 15, are ignored (R182, R188). -/
def setOfWords (low high : Word) : StationSet :=
  ((high ++ low : BitVec 32) &&& 0x7FFFFFFE#32).setWidth 31

/-- The low word of a set of stations (R182). -/
def setLowWord (set : StationSet) : Word := set.extractLsb' 0 16

/-- The high word of a set of stations (R182). -/
def setHighWord (set : StationSet) : Word := set.extractLsb' 16 16

end Sys2Proof.Machine
end

