-- ==== Sys2Proof/Machine/Flags.lean ====
section
/-! DEFINITION. The attention causes and the ATTN output, PORT_FAULT, POOL_LOW and the NOTICE level (R33, R119, R190, R191). -/

namespace Sys2Proof.Machine

/-- The stored attention causes: all of R190's but NOTICE, which is a level. -/
inductive Cause where
  | slotDone (k : Fin 4)
  | station
  | bank (l : Link)
  | poolLow
  | linkStopped (l : Link)
  | portFault
  deriving DecidableEq, Repr

/-- The cause's bit in ATTN_CAUSE and ATTN_ENABLE (R190). -/
def causeBit : Cause → Nat
  | .slotDone k => k
  | .station => 5
  | .bank .a => 6
  | .bank .b => 7
  | .poolLow => 8
  | .linkStopped .a => 9
  | .linkStopped .b => 10
  | .portFault => 11

/-- The bit of NOTICE (R190). -/
def noticeBit : Nat := 4

/-- The twelve bits that have a meaning in ATTN_CAUSE and ATTN_ENABLE (R181, R190). -/
def attnBits : Word := 0x0FFF#16

/-- The eleven causes that a write of 1 clears: all but NOTICE (R190). -/
def clearableBits : Word := 0x0FEF#16

/-- Set a cause; one that is set stays set (R190). -/
def setCause (c : Cause) (s : State) : State :=
  { s with causes := s.causes ||| BitVec.twoPow 16 (causeBit c) }

/-- A stored cause is set. -/
def causeSet (c : Cause) (s : State) : Bool := s.causes.getLsbD (causeBit c)

/-- The LCP ignores a write as misuse: PORT_FAULT is set and nothing else changes (R191). -/
def portFault (s : State) : State := setCause .portFault s

/-- NOTICE: the local station's pending count is above 0 (R119). -/
def noticeLevel (s : State) : Bool := 0 < (s.stations[0]).pendingCount

/-- ATTN_CAUSE as read (R190). -/
def attnCause (s : State) : Word :=
  (s.causes &&& clearableBits) ||| (if noticeLevel s then BitVec.twoPow 16 noticeBit else 0)

/-- The ATTN output is asserted: at least one cause is set with its enable set (R190). While RESET is
held it is released (R193). -/
def attnAsserted (s : State) : Bool := !s.resetHeld && (attnCause s &&& s.enables) != 0

/-- The crossing test of the pool-low threshold at the completion of an operation: `before` is the
free-cell count at its grant; `s` has the count at its completion and the threshold held then (R33). -/
def poolLowTest (before : Nat) (s : State) : State :=
  if s.poolThreshold ≠ 0 ∧ s.poolThreshold ≤ before ∧ s.freeCells < s.poolThreshold
  then setCause .poolLow s else s

end Sys2Proof.Machine
end

