-- ==== Sys2Proof/Machine/Ops.lean ====
section
/-! DEFINITION. The named operations that the meanings share: access to the table and the links, records
and their counts, the deadline list, departures of stations, bank switches, stops and the steps of a
visit that come from several commands. -/

namespace Sys2Proof.Machine

/-! ## Access to the parts of State -/

/-- A station's entry (R124). -/
def State.station (s : State) (st : Station) : StationEntry := s.stations[st]

/-- Change one station's entry. -/
def State.modStation (s : State) (st : Station) (f : StationEntry → StationEntry) : State :=
  { s with stations := s.stations.set st (f s.stations[st]) }

/-- A link engine. -/
def State.link (s : State) : Link → LinkEngine
  | .a => s.linkA
  | .b => s.linkB

/-- Change one link engine. -/
def State.modLink (s : State) (l : Link) (f : LinkEngine → LinkEngine) : State :=
  match l with
  | .a => { s with linkA := f s.linkA }
  | .b => { s with linkB := f s.linkB }

/-- Change one request slot. -/
def State.modSlot (s : State) (k : Fin 4) (f : Slot → Slot) : State :=
  { s with slots := s.slots.set k (f s.slots[k]) }

/-- Change one fence. -/
def State.modFence (s : State) (k : Fin 8) (f : Fence → Fence) : State :=
  { s with fences := s.fences.set k (f s.fences[k]) }

/-- Change the counters of a link. -/
def State.modCounters (s : State) (l : Link) (f : LinkCounters → LinkCounters) : State :=
  s.modLink l fun e => { e with counters := f e.counters }

/-- Change the visit of a link, if it has one. -/
def State.modVisit (s : State) (l : Link) (f : Visit → Visit) : State :=
  s.modLink l fun e => { e with visit := e.visit.map f }

/-- The station is ONLINE and assigned to link `l` (R42, R128, R129, R160). -/
def onlineOn (e : StationEntry) (l : Link) : Bool := e.state = .online ∧ e.link = some l

/-! ## Values and cells -/

/-- The cells a value of `n` octets needs: none up to 8 octets, else its length divided by 16 and rounded
up (R23). -/
def cellsFor (n : Nat) : Nat :=
  if n ≤ Config.inlineOctets then 0 else (n + (Config.cellOctets - 1)) / Config.cellOctets

/-- The class takes a value of `n` octets (R7, R63). -/
def lengthSuits : PointClass → Nat → Bool
  | .word, n => n = 2
  | .long, n => n = 4
  | .quad, n => n = 8
  | .block size, n => n = size
  | .text, n => n ≤ Config.maxValueOctets

/-- The class code (R7). -/
def classCode : PointClass → Byte
  | .word => 1
  | .long => 2
  | .quad => 3
  | .block _ => 4
  | .text => 5

/-- The quality code (R9). -/
def qualityCode : Quality → Byte
  | .unset => 0
  | .good => 1
  | .stale => 2

/-! ## Records -/

/-- The owner of a record; a RETIRING record has none (R5, R14). -/
def Record.owner (r : Record) : Option Station :=
  match r.phase with
  | .active a => a.owner
  | .retiring => none

/-- The cells a record holds; a RETIRING record holds none (R23). -/
def Record.cells (r : Record) : Nat :=
  match r.phase with
  | .active a => a.cells
  | .retiring => 0

/-- The length field: the value's length, 0 when it is absent (R8). -/
def Active.length (a : Active) : Nat := (a.value.getD []).length

/-- The octets that cell `k` of a record's chain holds: octets 16k to 16k + 15 of a value of more than 8
octets (R24). -/
def Active.cellOctets (a : Active) (k : Nat) : List Byte :=
  if Config.inlineOctets < a.length
  then ((a.value.getD []).drop (Config.cellOctets * k)).take Config.cellOctets else []

/-- The record is RETIRING (R4). -/
def Record.isRetiring (r : Record) : Bool :=
  match r.phase with
  | .active _ => false
  | .retiring => true

/-- The record with the given point number, in either phase (R19, R20). -/
def State.findRecord (s : State) (p : Word) : Option Record := s.index.find? fun r => r.point = p

/-- The record with the given point number and incarnation (R12). -/
def State.findIncarnation (s : State) (p inc : Word) : Option Record :=
  s.index.find? fun r => r.point = p ∧ r.incarnation = inc

/-- Insert a record at its place in the ascending order of point numbers (R19). -/
def indexInsert (r : Record) : List Record → List Record
  | [] => [r]
  | x :: xs => if r.point.toNat < x.point.toNat then r :: x :: xs else x :: indexInsert r xs

/-- Replace the record with the same point number; a change of phase leaves the entry in place (R19). -/
def indexReplace (r : Record) (l : List Record) : List Record :=
  l.map fun x => if x.point = r.point then r else x

/-- Remove the record with point number `p` (R6). -/
def indexRemove (p : Word) (l : List Record) : List Record := l.filter fun x => x.point ≠ p

/-- A slot holds a record. -/
def slotUsed (l : List Record) (n : Nat) : Bool := l.any fun r => r.slot = n

/-- The lowest-numbered FREE slot (R1). -/
def lowestFreeSlot (s : State) : Option Nat :=
  (List.range Config.recordSlots).find? fun n => !slotUsed s.index n

/-- The free-slot count (R1, R21). -/
def freeSlots (s : State) : Nat := Config.recordSlots - s.index.length

/-- 1 when the record is there and `st` owns it. -/
def ownsCount (r : Option Record) (st : Station) : Nat := if r.bind Record.owner = some st then 1 else 0

/-- 1 when the record is there and its subscriber set holds `st`. -/
def followsCount (r : Option Record) (st : Station) : Nat :=
  if (r.map fun x => setHas x.subscribers st) = some true then 1 else 0

/-- 1 when the record is there and its pending set holds `st`. -/
def owedCount (r : Option Record) (st : Station) : Nat :=
  if (r.map fun x => setHas x.pendingSet st) = some true then 1 else 0

/-- The counts of `st` after a record changes from `old` to `new`: each count follows the membership it
counts, in the same operation (R14, R17, R126). -/
def StationEntry.recount (e : StationEntry) (old new : Option Record) (st : Station) : StationEntry :=
  { e with
    claims := e.claims + ownsCount new st - ownsCount old st
    subscriptions := e.subscriptions + followsCount new st - followsCount old st
    pendingCount := e.pendingCount + owedCount new st - owedCount old st }

/-- The counts of every station after a record changes from `old` to `new` (R17, R126). -/
def State.recount (s : State) (old new : Option Record) : State :=
  { s with stations := Vector.ofFn fun i : Fin 31 => (s.stations[i]).recount old new i }

/-- A record changes from `old` to `new` under the same point number: the index, the counts and the
free-cell count follow (R17, R25, R126). -/
def State.putRecord (s : State) (old new : Record) : State :=
  { s.recount (some old) (some new) with
    index := indexReplace new s.index
    freeCells := s.freeCells + old.cells - new.cells }

/-- A new record enters the directory (R1, R18, R19, R27). -/
def State.addRecord (s : State) (new : Record) : State :=
  { s.recount none (some new) with
    index := indexInsert new s.index
    freeCells := s.freeCells - new.cells }

/-- An entry of the deadline list belongs to a record (R94). -/
def Deadline.belongs (d : Deadline) (r : Record) : Bool := d.point = r.point ∧ d.incarnation = r.incarnation

/-- Freeing a record: the index entry, the slot, the cells, the deadline entries and the counts (R6). -/
def State.freeRecord (s : State) (old : Record) : State :=
  { s.recount (some old) none with
    index := indexRemove old.point s.index
    freeCells := s.freeCells + old.cells
    deadlines := s.deadlines.filter fun d => !d.belongs old }

/-- Announcing a change: every subscriber but `except` that is not already pending becomes pending
(R57, R87, R91, R98, R99, R137). -/
def Record.announce (r : Record) (except : Option Station) : Record :=
  { r with pendingSet := r.pendingSet |||
      (match except with
       | none => r.subscribers
       | some st => setDrop r.subscribers st) }

/-- A record with its ACTIVE fields replaced. -/
def Record.withActive (r : Record) (a : Active) : Record := { r with phase := .active a }

/-- A notice-worthy operation adds 1 to the revision, once (R11). -/
def Record.revised (r : Record) : Record := { r with revision := r.revision + 1 }

/-- A record with `st` taken out of both sets (R107, R116, R137). -/
def Record.without (r : Record) (st : Station) : Record :=
  { r with subscribers := setDrop r.subscribers st, pendingSet := setDrop r.pendingSet st }

/-- A station leaves both sets of a record, which is freed when it is RETIRING and its subscriber set is
now empty (R107, R116, R137). -/
def State.putOrFree (s : State) (old new : Record) : State :=
  if new.isRetiring ∧ new.subscribers = 0 then s.freeRecord old else s.putRecord old new

/-! ## The deadline list -/

/-- Insert an entry in due-time order, after every entry with the same due time (R58, R94). -/
def insertDeadline (d : Deadline) : List Deadline → List Deadline
  | [] => [d]
  | x :: xs => if notAfter x.due d.due then x :: insertDeadline d xs else d :: x :: xs

/-- Take a record's entry of one kind out of the list, if it has one (R58). -/
def State.dropDeadline (s : State) (r : Record) (kind : DeadlineKind) : State :=
  { s with deadlines := s.deadlines.filter fun d => !(d.belongs r && d.kind == kind) }

/-- Re-arm a record's deadline of one kind (R58). -/
def State.rearm (s : State) (r : Record) (kind : DeadlineKind) (due : LongWord) : State :=
  let d : Deadline := { point := r.point, incarnation := r.incarnation, kind := kind, due := due }
  { s with deadlines := insertDeadline d (s.dropDeadline r kind).deadlines }

/-- now + 100 ms times the lease interval (R58). -/
def leaseDue (now : LongWord) (lease : Nat) : LongWord := now + BitVec.ofNat 32 (100 * lease)

/-- now + 10 ms times the refresh interval (R58). -/
def freshnessDue (now : LongWord) (refresh : Nat) : LongWord := now + BitVec.ofNat 32 (10 * refresh)

/-- An EXPIRE is in progress. -/
def expireRunning (s : State) : Bool := (s.running.map fun g => g.work) = some .expire

/-- The head of the deadline list is due at the clock (R84, R96). -/
def headDue (s : State) (now : LongWord) : Bool :=
  match s.deadlines with
  | [] => false
  | d :: _ => notAfter d.due now

/-- The Deadline Monitor looks at the head: it presents an EXPIRE when the head is due, none is presented
and none is in progress (R96). -/
def monitorLook (s : State) : State :=
  if headDue s s.clock ∧ ¬ s.expirePresented ∧ ¬ expireRunning s then { s with expirePresented := true } else s

/-! ## Station states -/

/-- A change of a remote station's state: the station-changed set and STATION (R127, R142). -/
def State.changeState (s : State) (st : Station) (new : StationState) : State :=
  setCause .station
    { s.modStation st (fun e => { e with state := new }) with stationChanged := setAdd s.stationChanged st }

/-- A station enters LEAVING (R130). -/
def State.leave (s : State) (st : Station) : State :=
  let s1 := s.changeState st .leaving
  let s2 := s1.modStation st fun e => { e with timesLeft := e.timesLeft + 1 }
  { s2 with clearQueue := s2.clearQueue ++ [st] }

/-- The ONLINE stations assigned to link `l` that satisfy `p`, in ascending station number. -/
def onlineStations (s : State) (l : Link) (p : Station → Bool) : List Station :=
  (List.finRange 31).filter fun st => onlineOn (s.station st) l && p st

/-- Stations enter LEAVING in the order given (R170, R177). -/
def State.leaveAll (s : State) (sts : List Station) : State := sts.foldl State.leave s

/-! ## Sweep banks -/

/-- What an entry means in the walk (R172). -/
inductive EntryMeaning where
  | end_
  | station (st : Station)
  | skip
  deriving DecidableEq, Repr

/-- The meaning of an entry code: 0 END, 1 to 30 a station, 31 SKIP (R172). -/
def entryMeaning (code : Fin 32) : EntryMeaning :=
  if code = 0 then .end_ else if h : code.val < 31 then .station ⟨code.val, h⟩ else .skip

/-- The entries of the active bank. -/
def LinkEngine.bank (e : LinkEngine) : Vector (Fin 32) 32 := e.banks[e.activeBank]

/-- The sweep of a bank: the entries before the first END, or all 32 (R172). -/
def sweepOf (bank : Vector (Fin 32) 32) : List (Fin 32) := bank.toList.takeWhile fun c => c ≠ 0

/-- The station stands in the sweep of the bank (R177). -/
def inSweep (bank : Vector (Fin 32) 32) (st : Station) : Bool :=
  (sweepOf bank).any fun c => entryMeaning c = .station st

/-- The active bank is empty: its entry 0 is END (R174). -/
def LinkEngine.emptyBank (e : LinkEngine) : Bool := e.bank[0] = 0

/-- The taking of a switch request (R176), with the dismissals of R177. The walk begins at entry 0. -/
def State.takeSwitch (s : State) (l : Link) : State :=
  let s1 := setCause (.bank l)
    (s.modLink l fun e => { e with activeBank := e.activeBank + 1, switchRequest := false, walk := 0 })
  s1.leaveAll (onlineStations s1 l fun st => !inSweep (s1.link l).bank st)

/-- The link stands at a wrap point between commands: STOPPED, or RUNNING and idle at an empty bank
(R174, R176). -/
def LinkEngine.atWrapPoint (e : LinkEngine) : Bool :=
  e.state = .stopped ∨ (e.state = .running ∧ e.emptyBank)

/-- A RUNNING walk comes to a wrap point: it returns to entry 0, and a waiting switch request is taken
(R173, R176). -/
def State.wrap (s : State) (l : Link) : State :=
  let s1 := s.modLink l fun e => { e with walk := 0 }
  if (s.link l).switchRequest then s1.takeSwitch l else s1

/-- The walk goes on to the next entry; after entry 31 it is at the wrap point (R173, R176). -/
def State.advance (s : State) (l : Link) : State :=
  if (s.link l).walk = 31 then s.wrap l else s.modLink l fun e => { e with walk := e.walk + 1 }

/-- The completion of a stop (R170): the link is STOPPED, its ONLINE stations enter LEAVING, LINK_STOPPED
is set, and a switch request still set is taken. -/
def State.completeStop (s : State) (l : Link) : State :=
  let s1 := s.modLink l fun e => { e with state := .stopped, visit := none, walk := 0 }
  let s2 := setCause (.linkStopped l) (s1.leaveAll (onlineStations s1 l fun _ => true))
  if (s.link l).switchRequest then s2.takeSwitch l else s2

/-! ## Steps of a visit -/

/-- A visit ends: its fields are discarded; the walk goes on, or a STOPPING link completes its stop
(R153, R169, R170). -/
def State.endVisit (s : State) (l : Link) : State :=
  let s1 := s.modLink l fun e => { e with visit := none }
  if (s.link l).state = .stopping then s1.completeStop l else s1.advance l

/-- The visit enters SEND_VISIT from FETCH or from its start: the VISIT is built, FRESH from FRESH-owed as
it stands (R154, R155, R163). -/
def State.buildVisit (s : State) (l : Link) (notice : Option Snapshot) : State :=
  s.modVisit l fun v => { v with phase := .sendVisit, fresh := (s.station v.station).freshOwed, notice }

/-- The stored payload that answers a repeat: the station is ONLINE on this link and its last request tag
equals the REPLY's (R160). -/
def repeatOf (e : StationEntry) (l : Link) (tag : Bool) : Option TaggedPayload :=
  match e.last with
  | some t => if onlineOn e l ∧ t.tag = tag then some t else none
  | none => none

/-- The visit passes the ACK phase: it ends without REQ; with REQ it enters REQUEST, where a repeat is
answered from the last-result record (R159, R160). -/
def State.enterRequest (s : State) (l : Link) : State :=
  match (s.link l).visit with
  | none => s
  | some v =>
    match v.reply with
    | none => s
    | some reply =>
      match reply.request with
      | none => s.endVisit l
      | some _ =>
        match repeatOf (s.station v.station) l reply.tag with
        | some t =>
          ((s.modVisit l fun v => { v with phase := .sendResult, result := some t }).modCounters l
            fun c => { c with repeats := c.repeats + 1 }).modStation v.station
              fun e => { e with repeated := e.repeated + 1 }
        | none => s.modVisit l fun v => { v with phase := .request }

end Sys2Proof.Machine
end

