-- ==== Sys2Proof/Machine/Frames.lean ====
section
/-! DEFINITION. Frames on a sweep line: CRC, VISIT, REPLY and RESULT (R147 to R152). -/

namespace Sys2Proof.Machine

/-! ## Characters on the line (R145) -/

/-- The 10 bits of a character: a start bit, the octet with its least significant bit first, a stop bit (R145). -/
def characterBits (octet : Byte) : List Bool :=
  false :: ((List.range 8).map fun i => octet.getLsbD i) ++ [true]

/-- The bit rates by their codes, in bit/s (R145, R171). -/
def bitsPerSecond (code : Fin 6) : Nat :=
  #v[19200, 57600, 115200, 250000, 500000, 1000000][code]

/-- The clock periods of one bit, by the bit rate code (R145). -/
def bitPeriods (code : Fin 6) : Nat :=
  #v[833, 278, 139, 64, 32, 16][code]

/-- Driver enable is asserted just while a frame is sent (R145), and not while RESET is held (R193). -/
def driverEnable (s : State) (l : Link) : Bool := !s.resetHeld && (s.link l).sending.isSome

/-! ## CRC (R148) -/

/-- One bit of the CRC: generator x^16 + x^12 + x^5 + 1, most significant bit first (R148). -/
def crcBit (reg : Word) : Word := if reg.getLsbD 15 then (reg <<< 1) ^^^ 0x1021#16 else reg <<< 1

/-- `n` bits of the CRC. -/
def crcBits : Nat → Word → Word
  | 0, reg => reg
  | n + 1, reg => crcBits n (crcBit reg)

/-- Take one octet into the check register (R148). -/
def crcOctet (reg : Word) (octet : Byte) : Word := crcBits 8 (reg ^^^ (octet ++ (0 : Byte) : BitVec 16))

/-- The CRC of a run of octets: the register starts at FFFFh (R148). -/
def crcOf (octets : List Byte) : Word := octets.foldl crcOctet 0xFFFF#16

/-! ## Frames sent (R147) -/

/-- The octets of a frame (R147). -/
def frameOctets (address type flags : Byte) (payload : List Byte) : List Byte :=
  let body := address :: type :: flags :: octetOf payload.length :: payload
  Config.startOctet :: (body ++ twoOctets (crcOf body))

/-- Type codes (R147). -/
def typeVisit : Byte := 1
def typeReply : Byte := 2
def typeResult : Byte := 3

/-- A station's number as an address octet (R147). -/
def stationOctet (st : Station) : Byte := octetOf st

/-- An owner as an octet: the station, or FFh for none (R150, R152, R186). -/
def ownerOctet : Option Station → Byte
  | some st => stationOctet st
  | none => 0xFF#8

/-- A flag as an octet. -/
def flagOctet (b : Bool) : Byte := if b then 1 else 0

/-- Kind codes (R112). -/
def kindCode : SnapshotBody → Byte
  | .state _ => 1
  | .retired => 2

/-- The payload of a VISIT with a notice: the snapshot (R150). -/
def snapshotPayload (n : Snapshot) : List Byte :=
  twoOctets n.id.point ++ twoOctets n.id.incarnation ++ twoOctets n.id.revision ++ [kindCode n.body] ++
    (match n.body with
     | .retired => []
     | .state v => [classCode v.cls, qualityCode v.quality] ++ twoOctets v.generation ++
         [ownerOctet v.owner, flagOctet v.pinned, octetOf v.value.length] ++ v.value)

/-- The VISIT of a visit as built (R150, R155). -/
def visitFrame (v : Visit) : List Byte :=
  frameOctets (stationOctet v.station) typeVisit
    (flagOctet v.notice.isSome ||| (if v.fresh then 2 else 0))
    (match v.notice with
     | some n => snapshotPayload n
     | none => [])

/-- The result code's number (R52). -/
def resultNumber : ResultCode → Byte
  | .ok => 0
  | .notFound => 1
  | .exists_ => 2
  | .retiring => 3
  | .badPoint => 4
  | .badClass => 5
  | .badLength => 6
  | .badArg => 7
  | .denied => 8
  | .held => 9
  | .notOwner => 10
  | .pinned => 11
  | .conflict => 12
  | .noRecord => 13
  | .noSpace => 14
  | .limit => 15
  | .notOnline => 16
  | .badOp => 17
  | .cancelled => 18

/-- The result fields of a RESULT payload, after the operation code (R152). -/
def fieldOctets : ResultFields → List Byte
  | .none => []
  | .read revision incarnation v =>
    [classCode v.cls, qualityCode v.quality] ++ twoOctets v.generation ++ twoOctets revision ++
      twoOctets incarnation ++ [ownerOctet v.owner, flagOctet v.pinned, octetOf v.value.length] ++ v.value
  | .generation g => twoOctets g
  | .created incarnation lease => twoOctets incarnation ++ twoOctets lease
  | .lease granted => twoOctets granted
  | .next point cls => twoOctets point ++ [classCode cls]
  | .owner st => [stationOctet st]

/-- The RESULT payload: result code, the operation code of the REPLY, and the fields (R152). -/
def resultPayload (code : Byte) (res : Result) : List Byte :=
  resultNumber res.code :: code :: fieldOctets res.fields

/-- The RESULT that echoes a tag (R152, R162). -/
def resultFrame (st : Station) (t : TaggedPayload) : List Byte :=
  frameOctets (stationOctet st) typeResult (if t.tag then 4 else 0) t.payload

/-! ## REPLY received (R151) -/

/-- The arguments of a remote request after its point number, by operation code; none when the octets are
not those the table of R151 gives for the code. -/
def parseArguments (code : Byte) (point : Word) (expect : Bool) (octets : List Byte) : Option Request :=
  let base : Request :=
    { code, expect := false, force := false, point, arg0 := 0, arg1 := 0, arg2 := 0, arg3 := 0, data := [] }
  if code = 2 then
    match expect, octets with
    | true, low :: high :: n :: value =>
      if value.length = n.toNat
      then some { base with expect := true, arg0 := wordOf low high, arg1 := wordOf n 0, data := value }
      else none
    | false, n :: value =>
      if value.length = n.toNat then some { base with arg1 := wordOf n 0, data := value } else none
    | _, _ => none
  else if code = 3 then
    match octets with
    | [cls, length, refreshLow, refreshHigh, leaseLow, leaseHigh] =>
      some { base with
        arg0 := wordOf cls 0, arg1 := wordOf length 0
        arg2 := wordOf refreshLow refreshHigh, arg3 := wordOf leaseLow leaseHigh }
    | _ => none
  else if code = 5 ∨ code = 9 then
    match octets with
    | [low, high] => some { base with arg0 := wordOf low high }
    | _ => none
  else
    match octets with
    | [] => some base
    | _ :: _ => none

/-- The request part of a REPLY (R151). -/
def parseRequest (expect : Bool) : List Byte → Option Request
  | code :: low :: high :: rest => parseArguments code (wordOf low high) expect rest
  | _ => none

/-- The acknowledgement part of a REPLY and what follows it (R151). -/
def parseAck : List Byte → Option (NoticeId × List Byte)
  | p0 :: p1 :: i0 :: i1 :: r0 :: r1 :: rest =>
    some ({ point := wordOf p0 p1, incarnation := wordOf i0 i1, revision := wordOf r0 r1 }, rest)
  | _ => none

/-- The parts of a REPLY after its acknowledgement part (R151). -/
def parseAfterAck (ack : Option NoticeId) (flags : Byte) (rest : List Byte) : Option Reply :=
  if flags.getLsbD 1 then
    (parseRequest (flags.getLsbD 3) rest).map fun q => { ack, request := some q, tag := flags.getLsbD 2 }
  else if rest = [] then some { ack, request := none, tag := flags.getLsbD 2 } else none

/-- The parts of a well-formed REPLY: flag bits 0 ACK, 1 REQ, 2 TAG, 3 EXPECT; none when its payload length
is not the sum of its parts (R147, R151). -/
def parseReply (flags : Byte) (payload : List Byte) : Option Reply :=
  if flags.getLsbD 0 then
    match parseAck payload with
    | some (id, rest) => parseAfterAck (some id) flags rest
    | none => none
  else parseAfterAck none flags payload

end Sys2Proof.Machine
end

