-- ==== Sys2Proof/Machine/Operands.lean ====
section
/-! DEFINITION. What an operation takes and what it must pass: the request of a slot (R41, R54), the fences
(R47), and the checks that several operations share (R3, R20, R62 to R64, R68, R85). -/

namespace Sys2Proof.Machine

/-! ## The request of a slot -/

/-- The octets of the 32 data words: octet 2k in bits 0 to 7 of word k (R182). -/
def dataOctets (data : Vector Word 32) : List Byte := data.toList.flatMap twoOctets

/-- The data words that hold the octets given, then 0 to the end of the data area (R185). -/
def wordsOfOctets (octets : List Byte) : Vector Word 32 :=
  Vector.ofFn fun i : Fin 32 => wordOf (octets.getD (2 * i) 0) (octets.getD (2 * i + 1) 0)

/-- A slot's operation, read from its parameter and data words (R41, R182). -/
def slotRequest (k : Slot) : Request :=
  { code := k.code, expect := k.expect, force := k.force, point := k.point, arg0 := k.args[0],
    arg1 := k.args[1], arg2 := k.args[2], arg3 := k.args[3], data := dataOctets k.data }

/-! ## Fences -/

/-- The fence is enabled and its range contains the point (R46, R47). -/
def Fence.covers (f : Fence) (p : Word) : Bool := f.enabled ∧ f.low.toNat ≤ p.toNat ∧ p.toNat ≤ f.high.toNat

/-- The permission of station `st` at a point by one of the masks: no covering fence, or one with the
station in its mask; fences do not apply to the local station (R47). -/
def permits (mask : Fence → StationSet) (fences : Vector Fence 8) (st : Station) (p : Word) : Bool :=
  let covering := fences.toList.filter fun f => f.covers p
  st = 0 ∨ covering = [] ∨ covering.any fun f => setHas (mask f) st

/-- `st` may read the point by the fences taken at grant (R47, R49). -/
def mayRead (g : Granted) (st : Station) (p : Word) : Bool := permits Fence.readMask g.fences st p

/-- `st` may write the point by the fences taken at grant (R47, R49). -/
def mayWrite (g : Granted) (st : Station) (p : Word) : Bool := permits Fence.writeMask g.fences st p

/-! ## Checks -/

/-- A refusal with its code alone (R52). -/
def refuse {α : Type} (code : ResultCode) : Except Result α := .error { code, fields := .none }

/-- A refusal with HELD, naming the owner (R52). -/
def refuseHeld {α : Type} (owner : Station) : Except Result α :=
  .error { code := .held, fields := .owner owner }

/-- OK with its result fields (R51). -/
def okWith (fields : ResultFields) : Result := { code := .ok, fields }

/-- An operation: refused by its checks with nothing changed (R51), or its effects. -/
def checked {α : Type} (checks : Except Result α) (effects : α → Result × State) (s : State) : Result × State :=
  match checks with
  | .error res => (res, s)
  | .ok x => effects x

/-- A number from 1 to 65534 names a point (R3). -/
def validPoint (p : Word) : Bool := p ≠ 0 ∧ p ≠ 0xFFFF#16

/-- The point-number check and the lookup of a record in either phase (R3, R20). -/
def lookupAny (s : State) (p : Word) : Except Result Record :=
  if validPoint p then
    match s.findRecord p with
    | some r => .ok r
    | none => refuse .notFound
  else refuse .badPoint

/-- The point-number check and the lookup of an ACTIVE record (R3, R20). -/
def lookupActive (s : State) (p : Word) : Except Result (Record × Active) :=
  if validPoint p then
    match s.findRecord p with
    | some r =>
      match r.phase with
      | .active a => .ok (r, a)
      | .retiring => refuse .notFound
    | none => refuse .notFound
  else refuse .badPoint

/-- The fence, pinned and held checks of WRITE and RETIRE, in order (R56, R62, R72). -/
def writerCheck (g : Granted) (st : Station) (p : Word) (a : Active) : Except Result Unit :=
  if ¬ mayWrite g st p then refuse .denied
  else if a.pinned ∧ st ≠ 0 then refuse .pinned
  else match a.owner with
    | none => .ok ()
    | some o => if o = st ∨ st = 0 then .ok () else refuseHeld o

/-- The cells the record holds after an accepted write of `n` octets: those of the value for TEXT; those it
holds for the other classes (R26, R28). -/
def cellsAfter (a : Active) (n : Nat) : Nat :=
  match a.cls with
  | .text => cellsFor n
  | .word | .long | .quad | .block _ => a.cells

/-- The length, expected-generation and cell checks of a value write, in order; for the cells only the
difference must be free (R28, R61, R63, R64, R77). -/
def valueCheck (free : Nat) (q : Request) (a : Active) : Except Result Unit :=
  if ¬ lengthSuits a.cls q.arg1.toNat then refuse .badLength
  else if q.expect ∧ q.arg0 ≠ a.generation then
    .error { code := .conflict, fields := .generation a.generation }
  else if a.cells + free < cellsAfter a q.arg1.toNat then refuse .noSpace
  else .ok ()

/-- The value write: value, length, chain, generation and quality (R65). -/
def writeValue (q : Request) (a : Active) : Active :=
  { a with
    value := some (q.data.take q.arg1.toNat)
    quality := .good
    generation := nextGeneration a.generation
    cells := cellsAfter a q.arg1.toNat }

/-- The class that CREATE names, with the block size of a BLOCK (R7, R68). -/
def classOf (code size : Word) : Option PointClass :=
  match code.toNat with
  | 1 => some .word
  | 2 => some .long
  | 3 => some .quad
  | 4 => some (.block size.toNat)
  | 5 => some .text
  | _ => none

/-- The cells a record of the class takes at CREATE (R23, R27). -/
def cellsAtCreate : PointClass → Nat
  | .block size => cellsFor size
  | .word | .long | .quad | .text => 0

/-- A class that CREATE accepts: a block size is 1 to 64 (R69). -/
def blockSizeOk : PointClass → Bool
  | .block size => 1 ≤ size ∧ size ≤ Config.maxValueOctets
  | .word | .long | .quad | .text => true

/-- The granted lease: the lease asked for, cut to LEASE_MAX as it stood at grant; 0 for the local station
(R71, R85, R92). -/
def grantedLease (g : Granted) (st : Station) (asked : Word) : Nat :=
  if st = 0 then 0 else min asked.toNat g.leaseMax

/-- The lease interval of an owner: present for a remote station alone (R14). -/
def leaseOf (st : Station) (granted : Nat) : Option Nat := if st = 0 then none else some granted

/-- What READ and a STATE notice show of an ACTIVE record (R60, R112). -/
def viewOf (a : Active) : PointView :=
  { cls := a.cls, quality := a.quality, generation := a.generation, owner := a.owner, pinned := a.pinned,
    value := a.value.getD [] }

/-- A snapshot of a record, of the kind its phase decides (R112). -/
def snapshotOf (r : Record) : Snapshot :=
  { id := { point := r.point, incarnation := r.incarnation, revision := r.revision }
    body := match r.phase with
      | .active a => .state (viewOf a)
      | .retiring => .retired }

end Sys2Proof.Machine
end

