-- ==== Sys2Proof/Machine/Arbiter.lean ====
section
/-! DEFINITION. The Operation Arbiter: what each requester presents (R36, R37), the grant with its checks
(R39 to R43), and the completion of an operation with the delivery of its outcome (R40, R53). Also the
directory clock and the Deadline Monitor's presentation (R84, R96). -/

namespace Sys2Proof.Machine

/-- While RESET is held the part holds its full-reset state and acts on nothing (R193). -/
def whileReleased (f : State → State) (s : State) : Host.Outcome State Fault Refusal :=
  .next (if s.resetHeld then s else f s)

/-! ## Delivery of outcomes (R40) -/

/-- The outcome of a slot's operation: result, fields, the data words of a READ with OK, DONE and SLOT_DONE
(R184, R185). -/
def completeSlot (k : Fin 4) (res : Result) (s : State) : State :=
  setCause (.slotDone k) (s.modSlot k fun x =>
    { x with
      state := .done
      result := res.code
      fields := res.fields
      data := match res.fields with
        | .read _ _ v => wordsOfOctets v.value
        | .none | .generation _ | .created _ _ | .lease _ | .next _ _ | .owner _ => x.data })

/-- The counters of a station at the completion of one of its requests (R141). -/
def countRequest (code : ResultCode) (e : StationEntry) : StationEntry :=
  { e with
    executed := if code = .notOnline then e.executed else e.executed + 1
    refusals := if code = .ok then e.refusals else e.refusals + 1 }

/-- The outcome of a link's request: the RESULT payload and its echo, the last request tag and last-result
record unless the result is NOT_ONLINE, and the station's counters (R140, R141, R161). -/
def completeLinkRequest (l : Link) (st : Station) (q : Request) (res : Result) (s : State) : State :=
  let tag := (((s.link l).visit.bind (·.reply)).map (·.tag)).getD false
  let t : TaggedPayload := { tag, payload := resultPayload q.code res }
  (s.modVisit l fun v => { v with phase := .sendResult, result := some t }).modStation st fun e =>
    { countRequest res.code e with last := if res.code = .notOnline then e.last else some t }

/-- Hand the outcome of a request to its requester (R40). -/
def deliver (o : Origin) (st : Station) (q : Request) (res : Result) (s : State) : State :=
  match o with
  | .slot k => completeSlot k res s
  | .link l => completeLinkRequest l st q res s
  | .window | .deadline | .clear => s

/-- Hand the outcome of a NOTICE_FETCH to its requester: the visit's VISIT is built, or the notice window
is filled, with the number of this fetch for its free words (R53, R120, R154; log entry 22). -/
def deliverFetch (o : Origin) (found : Option Snapshot) (s : State) : State :=
  match o with
  | .link l => s.buildVisit l found
  | .window => { s with window := { s.window with snapshot := found, busy := false }, fills := s.fills + 1 }
  | .slot _ | .deadline | .clear => s

/-- Hand the completion of a NOTICE_ACK to its requester: the visit goes on, or the notice window is
emptied (R121, R159). -/
def deliverAck (o : Origin) (s : State) : State :=
  match o with
  | .link l => s.enterRequest l
  | .window => { s with window := { s.window with snapshot := none, busy := false } }
  | .slot _ | .deadline | .clear => s

/-! ## What the requesters present (R36, R37) -/

/-- The operation in progress came from this requester's block. -/
def runningFor (s : State) (o : Origin) : Bool := (s.running.map fun g => g.origin) = some o

/-- The operation that the phase of a visit waits on (R154, R159, R161). -/
def visitWork (v : Visit) : Option Work :=
  match v.phase with
  | .fetch => some (.noticeFetch v.station)
  | .ack => (v.reply.bind (·.ack)).map fun id => .noticeAck v.station id
  | .request => (v.reply.bind (·.request)).map fun q => .request v.station q
  | .sendVisit | .awaitReply | .sendResult => none

/-- What a link engine has presented and waiting: the operation of its visit, unless it is in progress (R36). -/
def linkPresented (s : State) (l : Link) : Option (Origin × Work) :=
  if runningFor s (.link l) then none
  else ((s.link l).visit.bind visitWork).map fun w => (.link l, w)

/-- The numbers the notice window shows; they read 0 while NOTICE_VALID is 0 (R120, R121). -/
def windowId (s : State) : NoticeId :=
  match s.window.snapshot with
  | some n => n.id
  | none => { point := 0, incarnation := 0, revision := 0 }

/-- What the local requester presents: the waiting notice-window operation, else the head slot of the
submission queue (R37). -/
def localPresented (s : State) : Option (Origin × Work) :=
  match s.window.waiting with
  | some .fetch => some (.window, .noticeFetch 0)
  | some .ack => some (.window, .noticeAck 0 (windowId s))
  | none =>
    match s.submission with
    | k :: _ => some (.slot k, .request 0 (slotRequest s.slots[k]))
    | [] => none

/-- What the Clear Engine presents: the next chunk of the station at the head of the clear queue, unless a
chunk is in progress (R136). -/
def clearPresented (s : State) : Option (Origin × Work) :=
  match s.clearQueue with
  | st :: _ => if runningFor s .clear then none else some (.clear, .clearChunk st s.clearProgress)
  | [] => none

/-- What a requester has presented and waiting (R36). -/
def presented (s : State) : Requester → Option (Origin × Work)
  | .linkA => linkPresented s .a
  | .linkB => linkPresented s .b
  | .local_ => localPresented s
  | .deadline => if s.expirePresented then some (.deadline, .expire) else none
  | .clear => clearPresented s

/-! ## Grant (R39) -/

/-- The cyclic order of the requesters (R39). -/
def nextRequester : Requester → Requester
  | .linkA => .linkB
  | .linkB => .local_
  | .local_ => .deadline
  | .deadline => .clear
  | .clear => .linkA

/-- The first waiting requester among `n`, from `r` on in the cyclic order, with what it presents (R39). -/
def firstWaiting (s : State) : Nat → Requester → Option (Requester × Origin × Work)
  | 0, _ => none
  | n + 1, r =>
    match presented s r with
    | some (o, w) => some (r, o, w)
    | none => firstWaiting s n (nextRequester r)

/-- The operation code is open to the requester (R43). -/
def codeOpen (o : Origin) (code : Byte) : Bool :=
  match o with
  | .slot _ => 1 ≤ code.toNat ∧ code.toNat ≤ 12
  | .link _ | .window | .deadline | .clear => 1 ≤ code.toNat ∧ code.toNat ≤ 9

/-- The station an operation acts for (R36). -/
def workStation : Work → Option Station
  | .request st _ | .noticeFetch st | .noticeAck st _ | .clearChunk st _ => some st
  | .expire => none

/-- The check of the station's standing: an operation of a link passes when the station it acts for is
ONLINE and assigned to that link; the others are not checked or pass (R42). -/
def standingOk (s : State) (o : Origin) (w : Work) : Bool :=
  match o, workStation w with
  | .link l, some st => onlineOn (s.station st) l
  | _, _ => true

/-- The check of the operation code, for requests (R43). -/
def workCodeOk (o : Origin) (w : Work) : Bool :=
  match w with
  | .request _ q => codeOpen o q.code
  | .noticeFetch _ | .noticeAck _ _ | .expire | .clearChunk _ _ => true

/-- The checks at grant, in order: NOT_ONLINE, then BAD_OP (R42, R43). -/
def grantRefusal (s : State) (o : Origin) (w : Work) : Option ResultCode :=
  if ¬ standingOk s o w then some .notOnline
  else if ¬ workCodeOk o w then some .badOp
  else none

/-- The granted operation leaves its requester: a slot becomes RUNNING and leaves the queue, a
notice-window operation and an EXPIRE are no longer waiting (R37, R184). -/
def leaveRequester (o : Origin) (s : State) : State :=
  match o with
  | .slot k =>
    { s.modSlot k (fun x => { x with state := .running }) with submission := s.submission.filter fun j => j ≠ k }
  | .window => { s with window := { s.window with waiting := none } }
  | .deadline => { s with expirePresented := false }
  | .link _ | .clear => s

/-- An operation refused at its grant completes there: a request with the code, a NOTICE_FETCH as one that
found nothing, a NOTICE_ACK with no effect (R42, R43; log entry 4). -/
def refuseAtGrant (o : Origin) (w : Work) (code : ResultCode) (s : State) : State :=
  match w with
  | .request st q => deliver o st q { code, fields := .none } s
  | .noticeFetch _ => deliverFetch o none s
  | .noticeAck _ _ => deliverAck o s
  | .expire | .clearChunk _ _ => s

/-- An operation goes in progress with what it takes at its grant (R41). -/
def startWork (o : Origin) (w : Work) (s : State) : State :=
  { s with running := some { origin := o, work := w, now := s.clock, fences := s.fences, leaseMax := s.leaseMax } }

/-- GRANT: when the directory is free, the first waiting requester from the pointer is granted and the
pointer moves past it (R39). -/
def grantEffect (s : State) : State :=
  if s.running.isSome then s
  else
    match firstWaiting s 5 s.pointer with
    | none => s
    | some (r, o, w) =>
      let s1 := leaveRequester o { s with pointer := nextRequester r }
      match grantRefusal s o w with
      | none => startWork o w s1
      | some code => monitorLook (refuseAtGrant o w code s1)

/-- GRANT (R39). -/
def execGrant (s : State) : Host.Outcome State Fault Refusal := whileReleased grantEffect s

/-! ## Completion (R40) -/

/-- The completion of a request: its effects, the crossing test, the delivery, and the monitor's look at the
head of the list (R33, R40, R96). -/
def completeRequest (g : Granted) (st : Station) (q : Request)
    (op : Granted → Station → Request → State → Result × State) (s : State) : State :=
  let out := op g st q s
  monitorLook (deliver g.origin st q out.1 (poolLowTest s.freeCells { out.2 with running := none }))

/-- The command "a granted request with this operation code completes": it has no effect unless such a
request is in progress (log entry 1). -/
def finishRequest (code : Byte) (op : Granted → Station → Request → State → Result × State) (s : State) : State :=
  match s.running with
  | none => s
  | some g =>
    match g.work with
    | .request st q => if q.code = code then completeRequest g st q op s else s
    | .noticeFetch _ | .noticeAck _ _ | .expire | .clearChunk _ _ => s

/-! ## The clock and the Deadline Monitor -/

/-- DIRECTORY_CLOCK_TICK: the clock adds 1 and wraps (R84). -/
def execDirectoryClockTick (s : State) : Host.Outcome State Fault Refusal :=
  whileReleased (fun s => { s with clock := s.clock + 1 }) s

/-- DEADLINE_DUE: the head of the list is due and the monitor presents EXPIRE (R96). -/
def execDeadlineDue (s : State) : Host.Outcome State Fault Refusal := whileReleased monitorLook s

end Sys2Proof.Machine
end

