-- ==== Sys2Proof/Machine/PointOps.lean ====
section
/-! DEFINITION. The point operations READ, WRITE, CREATE, RETIRE, NEXT, PIN, UNPIN and PURGE (chapter 4). Each has
its checks in order and its effects; `checked` joins them, so that a refused operation changes nothing (R51). -/

namespace Sys2Proof.Machine

/-! ## READ -/

/-- The checks of READ (R59); SUBSCRIBE makes the same three (R105). -/
def readChecks (g : Granted) (st : Station) (q : Request) (s : State) : Except Result (Record × Active) :=
  match lookupActive s q.point with
  | .error res => .error res
  | .ok (r, a) => if mayRead g st q.point then .ok (r, a) else refuse .denied

/-- READ (R59, R60). -/
def opRead (g : Granted) (st : Station) (q : Request) (s : State) : Result × State :=
  checked (readChecks g st q s) (fun (r, a) => (okWith (.read r.revision r.incarnation (viewOf a)), s)) s

/-- READ completes (R59). -/
def execRead (s : State) : Host.Outcome State Fault Refusal := whileReleased (finishRequest 1 opRead) s

/-! ## WRITE -/

/-- The eight checks of WRITE (R61). -/
def writeChecks (g : Granted) (st : Station) (q : Request) (s : State) : Except Result (Record × Active) :=
  match lookupActive s q.point with
  | .error res => .error res
  | .ok (r, a) =>
    match writerCheck g st q.point a with
    | .error res => .error res
    | .ok () =>
      match valueCheck s.freeCells q a with
      | .error res => .error res
      | .ok () => .ok (r, a)

/-- A supervised record that is not pinned has its FRESHNESS entry re-armed (R66). -/
def rearmFreshness (now : LongWord) (r : Record) (a : Active) (s : State) : State :=
  match a.refresh with
  | some n => if a.pinned then s else s.rearm r .freshness (freshnessDue now n)
  | none => s

/-- A remote owner's write re-arms its LEASE entry with the lease interval the record holds (R66, R93). -/
def rearmLease (now : LongWord) (st : Station) (r : Record) (a : Active) (s : State) : State :=
  if st ≠ 0 ∧ a.owner = some st then
    match a.lease with
    | some n => s.rearm r .lease (leaseDue now n)
    | none => s
  else s

/-- The effects of WRITE (R65 to R67); the FRESHNESS entry is re-armed before the LEASE entry (log entry 23). -/
def writeEffect (g : Granted) (st : Station) (q : Request) (s : State) (r : Record) (a : Active) : Result × State :=
  let a1 := writeValue q a
  let r1 := ((r.withActive a1).revised).announce (some st)
  (okWith (.generation a1.generation),
    rearmLease g.now st r a (rearmFreshness g.now r a (s.putRecord r r1)))

/-- WRITE (R61 to R67). -/
def opWrite (g : Granted) (st : Station) (q : Request) (s : State) : Result × State :=
  checked (writeChecks g st q s) (fun (r, a) => writeEffect g st q s r a) s

/-- WRITE completes (R61). -/
def execWrite (s : State) : Host.Outcome State Fault Refusal := whileReleased (finishRequest 2 opWrite) s

/-! ## CREATE -/

/-- The checks of CREATE on its arguments and the directory's room: class, block size, refresh, slot, claim
limit and cells (R69 steps 5 to 10). -/
def createRoom (st : Station) (q : Request) (s : State) : Except Result (PointClass × Nat) :=
  match classOf q.arg0 q.arg1 with
  | none => refuse .badClass
  | some cls =>
    if ¬ blockSizeOk cls then refuse .badLength
    else if Config.maxRefresh < q.arg2.toNat then refuse .badArg
    else
      match lowestFreeSlot s with
      | none => refuse .noRecord
      | some n =>
        if q.arg3 ≠ 0 ∧ Config.claimLimit ≤ (s.station st).claims then refuse .limit
        else if s.freeCells < cellsAtCreate cls then refuse .noSpace
        else .ok (cls, n)

/-- The ten checks of CREATE (R69). -/
def createChecks (g : Granted) (st : Station) (q : Request) (s : State) : Except Result (PointClass × Nat) :=
  if ¬ validPoint q.point then refuse .badPoint
  else if ¬ mayWrite g st q.point then refuse .denied
  else
    match s.findRecord q.point with
    | some r => if r.isRetiring then refuse .retiring else refuse .exists_
    | none => createRoom st q s

/-- The new record (R18). -/
def newRecord (g : Granted) (st : Station) (q : Request) (s : State) (cls : PointClass) (slot : Nat) : Record :=
  let claims : Bool := q.arg3 ≠ 0
  { point := q.point, slot, incarnation := s.incarnation, revision := 0, subscribers := 0, pendingSet := 0
    phase := .active
      { cls, value := none, quality := .unset, generation := 0
        owner := if claims then some st else none
        lease := if claims then leaseOf st (grantedLease g st q.arg3) else none
        refresh := if q.arg2 = 0 then none else some q.arg2.toNat
        pinned := false, cells := cellsAtCreate cls } }

/-- The effects of CREATE (R71). -/
def createEffect (g : Granted) (st : Station) (q : Request) (s : State) (cls : PointClass) (slot : Nat) :
    Result × State :=
  let r := newRecord g st q s cls slot
  let granted := if q.arg3 = 0 then 0 else grantedLease g st q.arg3
  let s1 := { s.addRecord r with incarnation := s.incarnation + 1 }
  (okWith (.created s.incarnation (wordOfNat granted)),
    if q.arg3 ≠ 0 ∧ st ≠ 0 then s1.rearm r .lease (leaseDue g.now granted) else s1)

/-- CREATE (R68 to R71). -/
def opCreate (g : Granted) (st : Station) (q : Request) (s : State) : Result × State :=
  checked (createChecks g st q s) (fun (cls, slot) => createEffect g st q s cls slot) s

/-- CREATE completes (R69). -/
def execCreate (s : State) : Host.Outcome State Fault Refusal := whileReleased (finishRequest 3 opCreate) s

/-! ## RETIRE -/

/-- The checks of RETIRE (R72). -/
def retireChecks (g : Granted) (st : Station) (q : Request) (s : State) : Except Result (Record × Active) :=
  match lookupActive s q.point with
  | .error res => .error res
  | .ok (r, a) =>
    match writerCheck g st q.point a with
    | .error res => .error res
    | .ok () => .ok (r, a)

/-- The record after a RETIRE by `st`: RETIRING, the requester out of both sets, every remaining subscriber
pending (R5, R73). -/
def retiredRecord (r : Record) (st : Station) : Record :=
  let r1 := { r.revised.without st with phase := .retiring }
  { r1 with pendingSet := r1.pendingSet ||| r1.subscribers }

/-- The effects of RETIRE (R73): the record drains, or is freed when no subscriber is left. -/
def retireEffect (st : Station) (s : State) (r : Record) : Result × State :=
  let r1 := retiredRecord r st
  (okWith .none,
    (((s.dropDeadline r .lease).dropDeadline r .freshness).putOrFree r r1))

/-- RETIRE (R72, R73). -/
def opRetire (g : Granted) (st : Station) (q : Request) (s : State) : Result × State :=
  checked (retireChecks g st q s) (fun (r, _) => retireEffect st s r) s

/-- RETIRE completes (R73). -/
def execRetire (s : State) : Host.Outcome State Fault Refusal := whileReleased (finishRequest 4 opRetire) s

/-! ## NEXT -/

/-- The class of the record when NEXT by `st` stops at it: ACTIVE, above "after" and readable (R75). -/
def nextStops (g : Granted) (st : Station) (after : Word) (r : Record) : Option (Word × PointClass) :=
  match r.phase with
  | .active a => if after.toNat < r.point.toNat ∧ mayRead g st r.point then some (r.point, a.cls) else none
  | .retiring => none

/-- NEXT (R75, R76). -/
def opNext (g : Granted) (st : Station) (q : Request) (s : State) : Result × State :=
  if q.arg0 = 0xFFFF#16 then ({ code := .badArg, fields := .none }, s)
  else
    match s.index.findSome? (nextStops g st q.arg0) with
    | some (p, cls) => (okWith (.next p cls), s)
    | none => ({ code := .notFound, fields := .none }, s)

/-- NEXT completes (R75). -/
def execNext (s : State) : Host.Outcome State Fault Refusal := whileReleased (finishRequest 9 opNext) s

/-! ## PIN and UNPIN -/

/-- The PIN carries a value (R77). -/
def pinHasValue (q : Request) : Bool := q.arg1 ≠ Config.noValueLength

/-- The held check of PIN: open, owned by the local station, or FORCE (R77). -/
def pinHeldCheck (q : Request) (a : Active) : Except Result Unit :=
  match a.owner with
  | none => .ok ()
  | some o => if o = 0 ∨ q.force then .ok () else refuseHeld o

/-- The checks of PIN (R77). -/
def pinChecks (q : Request) (s : State) : Except Result (Record × Active) :=
  match lookupActive s q.point with
  | .error res => .error res
  | .ok (r, a) =>
    match pinHeldCheck q a with
    | .error res => .error res
    | .ok () =>
      if pinHasValue q then
        match valueCheck s.freeCells q a with
        | .error res => .error res
        | .ok () => .ok (r, a)
      else .ok (r, a)

/-- The effects of PIN (R78, R79). -/
def pinEffect (st : Station) (q : Request) (s : State) (r : Record) (a : Active) : Result × State :=
  let a1 := if pinHasValue q then writeValue q a else a
  let r1 := ((r.withActive { a1 with pinned := true }).revised).announce (some st)
  (okWith (.generation a1.generation),
    if a.pinned then (if pinHasValue q then s.putRecord r r1 else s)
    else (s.putRecord r r1).dropDeadline r .freshness)

/-- PIN (R77 to R79). -/
def opPin (_g : Granted) (st : Station) (q : Request) (s : State) : Result × State :=
  checked (pinChecks q s) (fun (r, a) => pinEffect st q s r a) s

/-- PIN completes (R78). -/
def execPin (s : State) : Host.Outcome State Fault Refusal := whileReleased (finishRequest 10 opPin) s

/-- An UNPIN of a GOOD supervised point inserts a FRESHNESS entry (R80). -/
def unpinFreshness (now : LongWord) (r : Record) (a : Active) (s : State) : State :=
  match a.refresh with
  | some n => if a.quality = .good then s.rearm r .freshness (freshnessDue now n) else s
  | none => s

/-- The effects of UNPIN (R80). -/
def unpinEffect (g : Granted) (st : Station) (s : State) (r : Record) (a : Active) : Result × State :=
  let r1 := ((r.withActive { a with pinned := false }).revised).announce (some st)
  (okWith .none, if a.pinned then unpinFreshness g.now r a (s.putRecord r r1) else s)

/-- UNPIN (R80). -/
def opUnpin (g : Granted) (st : Station) (q : Request) (s : State) : Result × State :=
  checked (lookupActive s q.point) (fun (r, a) => unpinEffect g st s r a) s

/-- UNPIN completes (R80). -/
def execUnpin (s : State) : Host.Outcome State Fault Refusal := whileReleased (finishRequest 11 opUnpin) s

/-! ## PURGE -/

/-- PURGE frees a record in either phase and announces nothing (R81, R82). -/
def opPurge (_g : Granted) (_st : Station) (q : Request) (s : State) : Result × State :=
  checked (lookupAny s q.point) (fun r => (okWith .none, s.freeRecord r)) s

/-- PURGE completes (R81). -/
def execPurge (s : State) : Host.Outcome State Fault Refusal := whileReleased (finishRequest 12 opPurge) s

end Sys2Proof.Machine
end

