-- ==== Sys2Proof/Machine/Claims.lean ====
section
/-! DEFINITION. CLAIM, RELEASE and EXPIRE (chapter 5). -/

namespace Sys2Proof.Machine

/-! ## CLAIM -/

/-- Steps 3 to 5 of CLAIM: fence, pinned and held; the local station meets the held check (R86). -/
def claimantCheck (g : Granted) (st : Station) (p : Word) (a : Active) : Except Result Unit :=
  if ¬ mayWrite g st p then refuse .denied
  else if a.pinned ∧ st ≠ 0 then refuse .pinned
  else match a.owner with
    | none => .ok ()
    | some o => if o = st then .ok () else refuseHeld o

/-- The checks of CLAIM (R86). -/
def claimChecks (g : Granted) (st : Station) (q : Request) (s : State) : Except Result (Record × Active) :=
  match lookupActive s q.point with
  | .error res => .error res
  | .ok (r, a) =>
    match claimantCheck g st q.point a with
    | .error res => .error res
    | .ok () =>
      if st ≠ 0 ∧ q.arg0 = 0 then refuse .badArg
      else if a.owner = some st then .ok (r, a)
      else if Config.claimLimit ≤ (s.station st).claims then refuse .limit
      else .ok (r, a)

/-- The LEASE entry of a remote owner is inserted or re-armed; a local claim has none (R85, R87, R88). -/
def claimLease (g : Granted) (st : Station) (granted : Nat) (r : Record) (s : State) : State :=
  if st = 0 then s else s.rearm r .lease (leaseDue g.now granted)

/-- The effects of CLAIM: a renewal by the owner, else a new claim (R87, R88). -/
def claimEffect (g : Granted) (st : Station) (q : Request) (s : State) (r : Record) (a : Active) : Result × State :=
  let granted := grantedLease g st q.arg0
  let r1 := r.withActive { a with owner := some st, lease := leaseOf st granted }
  let r2 := if a.owner = some st then r1 else r1.revised.announce (some st)
  (okWith (.lease (wordOfNat granted)), claimLease g st granted r (s.putRecord r r2))

/-- CLAIM (R85 to R88). -/
def opClaim (g : Granted) (st : Station) (q : Request) (s : State) : Result × State :=
  checked (claimChecks g st q s) (fun (r, a) => claimEffect g st q s r a) s

/-- CLAIM completes (R86). -/
def execClaim (s : State) : Host.Outcome State Fault Refusal := whileReleased (finishRequest 5 opClaim) s

/-! ## RELEASE -/

/-- The checks of RELEASE (R90). -/
def releaseChecks (st : Station) (q : Request) (s : State) : Except Result (Record × Active) :=
  match lookupActive s q.point with
  | .error res => .error res
  | .ok (r, a) =>
    match a.owner with
    | none => .ok (r, a)
    | some o => if o = st ∨ (st = 0 ∧ q.force) then .ok (r, a) else refuse .notOwner

/-- A record that loses its owner: owner and lease interval go, the revision adds 1, the subscribers but
`except` become pending (R91, R99, R137). -/
def disowned (r : Record) (a : Active) (except : Option Station) : Record :=
  ((r.withActive { a with owner := none, lease := none }).revised).announce except

/-- The effects of RELEASE (R91). -/
def releaseEffect (st : Station) (s : State) (r : Record) (a : Active) : Result × State :=
  (okWith .none,
    match a.owner with
    | none => s
    | some _ => (s.putRecord r (disowned r a (some st))).dropDeadline r .lease)

/-- RELEASE (R90, R91). -/
def opRelease (_g : Granted) (st : Station) (q : Request) (s : State) : Result × State :=
  checked (releaseChecks st q s) (fun (r, a) => releaseEffect st s r a) s

/-- RELEASE completes (R91). -/
def execRelease (s : State) : Host.Outcome State Fault Refusal := whileReleased (finishRequest 6 opRelease) s

/-! ## EXPIRE -/

/-- An expiry on the record its entry names: FRESHNESS makes a GOOD record STALE (R98); LEASE removes the
owner (R99). Every subscriber is marked. On a record that R95 gives no such entry there is nothing to do
(log entry 20). -/
def expireRecord (kind : DeadlineKind) (r : Record) (s : State) : State :=
  match r.phase with
  | .retiring => s
  | .active a =>
    match kind with
    | .freshness =>
      if a.quality = .good
      then s.putRecord r (((r.withActive { a with quality := .stale }).revised).announce none) else s
    | .lease =>
      match a.owner with
      | none => s
      | some _ => s.putRecord r (disowned r a none)

/-- EXPIRE takes the head entry when it is due at the reading of its grant (R97). -/
def expireHead (now : LongWord) (s : State) : State :=
  match s.deadlines with
  | [] => s
  | d :: rest =>
    if notAfter d.due now then
      match s.findIncarnation d.point d.incarnation with
      | none => { s with deadlines := rest }
      | some r => expireRecord d.kind r { s with deadlines := rest }
    else s

/-- EXPIRE completes when one is in progress (R97, R53). -/
def expireEffect (s : State) : State :=
  match s.running with
  | none => s
  | some g =>
    match g.work with
    | .expire => monitorLook (expireHead g.now { s with running := none })
    | .request _ _ | .noticeFetch _ | .noticeAck _ _ | .clearChunk _ _ => s

/-- EXPIRE completes (R97). -/
def execExpire (s : State) : Host.Outcome State Fault Refusal := whileReleased expireEffect s

end Sys2Proof.Machine
end

