-- ==== Sys2Proof/Machine/Notices.lean ====
section
/-! DEFINITION. SUBSCRIBE, UNSUBSCRIBE, NOTICE_FETCH, NOTICE_ACK (chapter 6) and CLEAR_CHUNK (R136 to R139). -/

namespace Sys2Proof.Machine

/-! ## SUBSCRIBE and UNSUBSCRIBE -/

/-- The checks of SUBSCRIBE (R105). -/
def subscribeChecks (g : Granted) (st : Station) (q : Request) (s : State) : Except Result Record :=
  match readChecks g st q s with
  | .error res => .error res
  | .ok (r, _) =>
    if setHas r.subscribers st then .ok r
    else if Config.subscriptionLimit ≤ (s.station st).subscriptions then refuse .limit
    else .ok r

/-- The effects of SUBSCRIBE: none for a station already in the set (R105). -/
def subscribeEffect (st : Station) (s : State) (r : Record) : Result × State :=
  let r1 := { r with subscribers := setAdd r.subscribers st, pendingSet := setAdd r.pendingSet st }
  (okWith .none, if setHas r.subscribers st then s else s.putRecord r r1)

/-- SUBSCRIBE (R105, R106). -/
def opSubscribe (g : Granted) (st : Station) (q : Request) (s : State) : Result × State :=
  checked (subscribeChecks g st q s) (fun r => subscribeEffect st s r) s

/-- SUBSCRIBE completes (R105). -/
def execSubscribe (s : State) : Host.Outcome State Fault Refusal := whileReleased (finishRequest 7 opSubscribe) s

/-- UNSUBSCRIBE (R107). -/
def opUnsubscribe (_g : Granted) (st : Station) (q : Request) (s : State) : Result × State :=
  checked (lookupAny s q.point) (fun r => (okWith .none, s.putOrFree r (r.without st))) s

/-- UNSUBSCRIBE completes (R107). -/
def execUnsubscribe (s : State) : Host.Outcome State Fault Refusal :=
  whileReleased (finishRequest 8 opUnsubscribe) s

/-! ## NOTICE_FETCH -/

/-- The record a NOTICE_FETCH finds: ascending from just above the cursor, then wrapping up to and
including the cursor's number (R111). -/
def fetchSearch (s : State) (st : Station) : Option Record :=
  let cursor := (s.station st).cursor.toNat
  let above := s.index.filter fun r => cursor < r.point.toNat
  let upTo := s.index.filter fun r => r.point.toNat ≤ cursor
  (above ++ upTo).find? fun r => setHas r.pendingSet st

/-- The in-flight notice and the cursor after a fetch that found a record (R113). -/
def fetchMark (st : Station) (found : Option Record) (s : State) : State :=
  match found with
  | none => s
  | some r => s.modStation st fun e => { e with inflight := some (snapshotOf r).id, cursor := r.point }

/-- NOTICE_FETCH completes when one is in progress (R111 to R113). -/
def noticeFetchEffect (s : State) : State :=
  match s.running with
  | none => s
  | some g =>
    match g.work with
    | .noticeFetch st =>
      let found := fetchSearch s st
      monitorLook (deliverFetch g.origin (found.map snapshotOf) (fetchMark st found { s with running := none }))
    | .request _ _ | .noticeAck _ _ | .expire | .clearChunk _ _ => s

/-- NOTICE_FETCH completes (R113). -/
def execNoticeFetch (s : State) : Host.Outcome State Fault Refusal := whileReleased noticeFetchEffect s

/-! ## NOTICE_ACK -/

/-- The record after the acknowledgement of its present revision by `st`: out of the pending set, and of
the subscriber set too when the record is RETIRING (R115, R116). -/
def ackedRecord (r : Record) (st : Station) : Record :=
  if r.isRetiring then r.without st else { r with pendingSet := setDrop r.pendingSet st }

/-- An acknowledgement equal to the in-flight notice acts on the record it names (R115 to R117). -/
def ackRecord (st : Station) (id : NoticeId) (s : State) : State :=
  match s.findIncarnation id.point id.incarnation with
  | none => s
  | some r =>
    if r.revision = id.revision ∧ setHas r.pendingSet st then s.putOrFree r (ackedRecord r st) else s

/-- The stray-ack counter adds 1; entry 0's counters stay 0 (R114, R125, R141). -/
def countStray (st : Station) (s : State) : State :=
  if st = 0 then s else s.modStation st fun e => { e with strayAcks := e.strayAcks + 1 }

/-- The comparison with the in-flight notice (R114). -/
def ackNotice (st : Station) (id : NoticeId) (s : State) : State :=
  if (s.station st).inflight = some id
  then ackRecord st id (s.modStation st fun e => { e with inflight := none })
  else countStray st s

/-- NOTICE_ACK completes when one is in progress (R114 to R117). -/
def noticeAckEffect (s : State) : State :=
  match s.running with
  | none => s
  | some g =>
    match g.work with
    | .noticeAck st id => monitorLook (deliverAck g.origin (ackNotice st id { s with running := none }))
    | .request _ _ | .noticeFetch _ | .expire | .clearChunk _ _ => s

/-- NOTICE_ACK completes (R114). -/
def execNoticeAck (s : State) : Host.Outcome State Fault Refusal := whileReleased noticeAckEffect s

/-! ## CLEAR_CHUNK -/

/-- `st` owns or follows the record (R137). -/
def holds (r : Record) (st : Station) : Bool :=
  r.owner = some st ∨ setHas r.subscribers st ∨ setHas r.pendingSet st

/-- Step 1 of a chunk on a record: the departing owner is removed (R137). -/
def clearOwner (st : Station) (r : Record) : Record :=
  match r.phase with
  | .active a => if a.owner = some st then disowned r a (some st) else r
  | .retiring => r

/-- A chunk on one record that holds `st`, both steps (R137). -/
def clearRecord (st : Station) (r : Record) (s : State) : State :=
  let s1 := if r.owner = some st then s.dropDeadline r .lease else s
  s1.putOrFree r ((clearOwner st r).without st)

/-- A chunk on one slot (R137). -/
def clearSlot (st : Station) (s : State) (slot : Nat) : State :=
  match s.index.find? fun r => r.slot = slot with
  | none => s
  | some r => if holds r st then clearRecord st r s else s

/-- The record slots of chunk `k`, ascending (R136). -/
def chunkRange (k : Fin 16) : List Nat := (List.range Config.chunkSlots).map fun i => Config.chunkSlots * k + i

/-- The end of a clear, at the completion of chunk 15 (R139). -/
def clearEnd (st : Station) (s : State) : State :=
  let new : StationState := if (s.station st).barredMark then .barred else .offline
  { (s.modStation st fun e => { e with inflight := none, last := none, barredMark := false, freshOwed := true }).changeState
      st new with clearQueue := s.clearQueue.filter fun x => x ≠ st }

/-- A chunk on its slots, the progress, and the end of the clear after chunk 15 (R136, R137, R139). -/
def clearChunkOn (st : Station) (k : Fin 16) (s : State) : State :=
  let s1 := { (chunkRange k).foldl (clearSlot st) s with clearProgress := k + 1 }
  if k = 15 then clearEnd st s1 else s1

/-- CLEAR_CHUNK completes when one is in progress (R137). -/
def clearChunkEffect (s : State) : State :=
  match s.running with
  | none => s
  | some g =>
    match g.work with
    | .clearChunk st k => monitorLook (clearChunkOn st k { s with running := none })
    | .request _ _ | .noticeFetch _ | .noticeAck _ _ | .expire => s

/-- CLEAR_CHUNK completes (R137). -/
def execClearChunk (s : State) : Host.Outcome State Fault Refusal := whileReleased clearChunkEffect s

end Sys2Proof.Machine
end

