-- ==== Sys2Proof/Machine/Sweep.lean ====
section
/-! DEFINITION. The link engines: the walk (R173), the frames and tries of a visit (R149, R155 to R164). A
line event that cannot occur in the link's state has no effect (log entry 1). -/

namespace Sys2Proof.Machine

/-! ## The walk -/

/-- A visit begins: in FETCH when the station is ONLINE with a pending count above 0, else in SEND_VISIT with
the VISIT built without a notice (R153, R155, R163). -/
def beginVisit (l : Link) (st : Station) (s : State) : State :=
  let e := s.station st
  let fetch : Bool := e.state = .online ∧ 0 < e.pendingCount
  s.modLink l fun x =>
    let v : Visit :=
      { station := st, entry := x.walk, phase := if fetch then .fetch else .sendVisit, tryNumber := 1,
        fresh := e.freshOwed, notice := none, reply := none, result := none }
    { x with visit := some v }

/-- What the walk does at an entry that names a station (R133, R173). -/
def walkStation (l : Link) (st : Station) (s : State) : State :=
  match (s.station st).link with
  | none => s.advance l
  | some l' =>
    if l' ≠ l then (s.modCounters l fun c => { c with mismatchedSlots := c.mismatchedSlots + 1 }).advance l
    else
      match (s.station st).state with
      | .leaving | .barred => s.advance l
      | .offline | .online => beginVisit l st s
      | .local_ => s.advance l

/-- WALK_ENTRY: a RUNNING link with no visit comes to its next entry (R173). -/
def walkEffect (l : Link) (s : State) : State :=
  let e := s.link l
  if e.state = .running ∧ e.visit = none then
    match entryMeaning e.bank[e.walk] with
    | .end_ => s.wrap l
    | .skip => s.advance l
    | .station st => walkStation l st s
  else s

/-- WALK_ENTRY (R173). -/
def execWalkEntry (l : Link) (s : State) : Host.Outcome State Fault Refusal := whileReleased (walkEffect l) s

/-! ## Frames sent -/

/-- The link can begin a frame in this phase of its visit: it is not sending, and no received frame is still
arriving (R146). -/
def mayBegin (e : LinkEngine) (phase : VisitPhase) : Bool :=
  (e.visit.map fun v => v.phase) = some phase ∧ e.sending = none ∧ e.receiver = .hunting

/-- SEND_VISIT: the VISIT as built begins, and visits sent adds 1 (R155). -/
def sendVisitEffect (l : Link) (s : State) : State :=
  if mayBegin (s.link l) .sendVisit then
    (s.modLink l fun e => { e with sending := e.visit.map visitFrame }).modCounters l
      fun c => { c with visitsSent := c.visitsSent + 1 }
  else s

/-- SEND_VISIT (R155). -/
def execSendVisit (l : Link) (s : State) : Host.Outcome State Fault Refusal := whileReleased (sendVisitEffect l) s

/-- The link is sending the frame of this phase of its visit. -/
def sendingIn (e : LinkEngine) (phase : VisitPhase) : Bool :=
  (e.visit.map fun v => v.phase) = some phase ∧ e.sending.isSome

/-- VISIT_FRAME_SENT: driver enable is released and the reply window of the try opens (R145, R155, R156). -/
def visitSentEffect (l : Link) (s : State) : State :=
  if sendingIn (s.link l) .sendVisit then
    (s.modLink l fun e => { e with sending := none }).modVisit l fun v => { v with phase := .awaitReply }
  else s

/-- VISIT_FRAME_SENT (R156). -/
def execVisitFrameSent (l : Link) (s : State) : Host.Outcome State Fault Refusal :=
  whileReleased (visitSentEffect l) s

/-- SEND_RESULT: the RESULT begins (R162). -/
def sendResultEffect (l : Link) (s : State) : State :=
  if mayBegin (s.link l) .sendResult then
    s.modLink l fun e => { e with sending := e.visit.bind fun v => v.result.map (resultFrame v.station) }
  else s

/-- SEND_RESULT (R162). -/
def execSendResult (l : Link) (s : State) : Host.Outcome State Fault Refusal := whileReleased (sendResultEffect l) s

/-- RESULT_FRAME_SENT: driver enable is released and the visit ends (R145, R162). -/
def resultSentEffect (l : Link) (s : State) : State :=
  if sendingIn (s.link l) .sendResult then (s.modLink l fun e => { e with sending := none }).endVisit l else s

/-- RESULT_FRAME_SENT (R162). -/
def execResultFrameSent (l : Link) (s : State) : Host.Outcome State Fault Refusal :=
  whileReleased (resultSentEffect l) s

/-! ## Tries -/

/-- The reply window of a try is open: the visit is in AWAIT_REPLY (R156). -/
def windowOpen (e : LinkEngine) : Bool := (e.visit.map fun v => v.phase) = some .awaitReply

/-- The act of a miss on the visited station's entry: an ONLINE station of this link counts it and leaves at
the miss limit (R129). -/
def missStation (l : Link) (st : Station) (s : State) : State :=
  if onlineOn (s.station st) l then
    let s1 := s.modStation st fun e => { e with missCount := e.missCount + 1 }
    if (s1.station st).missCount = (s.link l).missLimit then s1.leave st else s1
  else s

/-- The visit ends as a miss (R157). -/
def missVisit (l : Link) (st : Station) (s : State) : State :=
  (missStation l st (s.modCounters l fun c => { c with misses := c.misses + 1 })).endVisit l

/-- A failed try: another try while tries are left and the link is not STOPPING, else a miss (R157). -/
def failTry (l : Link) (s : State) : State :=
  match (s.link l).visit with
  | none => s
  | some v =>
    if v.tryNumber < (s.link l).retryLimit + 1 ∧ (s.link l).state ≠ .stopping then
      (s.modVisit l fun v => { v with tryNumber := v.tryNumber + 1, phase := .sendVisit }).modCounters l
        fun c => { c with retries := c.retries + 1 }
    else missVisit l v.station s

/-- The act of a valid REPLY on the visited station's entry (R128). -/
def replyStation (l : Link) (st : Station) (s : State) : State :=
  let e := s.station st
  if e.state = .offline ∧ e.link = some l then
    (s.changeState st .online).modStation st fun e => { e with missCount := 0, freshOwed := false }
  else if onlineOn e l then s.modStation st fun e => { e with missCount := 0 }
  else s

/-- A valid REPLY: the station entry first, then the ACK phase, which passes at once without ACK (R128,
R156, R158, R159). -/
def validReply (l : Link) (st : Station) (reply : Reply) (s : State) : State :=
  let s1 := replyStation l st (s.modCounters l fun c => { c with goodReplies := c.goodReplies + 1 })
  let s2 := s1.modVisit l fun v => { v with phase := .ack, reply := some reply }
  match reply.ack with
  | some _ => s2
  | none => s2.enterRequest l

/-- The REPLY a whole good frame is to the visit: type 2, the visited station's address, well formed (R156). -/
def replyOf (e : LinkEngine) (address type flags : Byte) (payload : List Byte) : Option (Station × Reply) :=
  match e.visit with
  | none => none
  | some v =>
    if type = typeReply ∧ address = stationOctet v.station
    then (parseReply flags payload).map fun r => (v.station, r) else none

/-- A broken or CRC-bad frame: CRC failures adds 1, and a frame of the window fails the try (R149, R156, R164). -/
def badFrame (l : Link) (inWindow : Bool) (s : State) : State :=
  let s1 := s.modCounters l fun c => { c with crcFailures := c.crcFailures + 1 }
  if inWindow then failTry l s1 else s1

/-- A stray frame: stray frames adds 1, and a frame of the window fails the try (R156, R164). -/
def strayFrame (l : Link) (inWindow : Bool) (s : State) : State :=
  let s1 := s.modCounters l fun c => { c with strayFrames := c.strayFrames + 1 }
  if inWindow then failTry l s1 else s1

/-- The CRC octets of a received frame are those of its contents (R148). -/
def crcGood (address type flags : Byte) (payload : List Byte) (crcLow crcHigh : Byte) : Bool :=
  crcOf (address :: type :: flags :: octetOf payload.length :: payload) = wordOf crcLow crcHigh

/-- What a whole frame does (R149, R156, R164). A payload above 96 octets is a broken frame (R149; log
entry 18). -/
def wholeFrame (l : Link) (inWindow : Bool) (address type flags : Byte) (payload : List Byte)
    (crcLow crcHigh : Byte) (s : State) : State :=
  if Config.maxPayload < payload.length ∨ ¬ crcGood address type flags payload crcLow crcHigh then
    badFrame l inWindow s
  else if inWindow then
    match replyOf (s.link l) address type flags payload with
    | some (st, reply) => validReply l st reply s
    | none => strayFrame l true s
  else strayFrame l false s

/-- The receiver returns to the hunt (R149). -/
def State.hunt (s : State) (l : Link) : State := s.modLink l fun e => { e with receiver := .hunting }

/-- FRAME_RECEIVED: the frame in progress is whole (R149, R156). -/
def frameReceivedEffect (l : Link) (address type flags : Byte) (payload : List Byte) (crcLow crcHigh : Byte)
    (s : State) : State :=
  match (s.link l).receiver with
  | .hunting => s
  | .inFrame inWindow => wholeFrame l inWindow address type flags payload crcLow crcHigh (s.hunt l)

/-- FRAME_RECEIVED (R156). -/
def execFrameReceived (l : Link) (address type flags : Byte) (payload : List Byte) (crcLow crcHigh : Byte)
    (s : State) : Host.Outcome State Fault Refusal :=
  whileReleased (frameReceivedEffect l address type flags payload crcLow crcHigh) s

/-- FRAME_BROKEN: the frame in progress breaks; each of the three causes has the same effect (R149). -/
def frameBrokenEffect (l : Link) (s : State) : State :=
  match (s.link l).receiver with
  | .hunting => s
  | .inFrame inWindow => badFrame l inWindow (s.hunt l)

/-- FRAME_BROKEN (R149). -/
def execFrameBroken (l : Link) (_cause : BreakCause) (s : State) : Host.Outcome State Fault Refusal :=
  whileReleased (frameBrokenEffect l) s

/-- REPLY_TIMEOUT: the window closes with no start octet received in it, and the try fails (R156). -/
def replyTimeoutEffect (l : Link) (s : State) : State :=
  if windowOpen (s.link l) ∧ (s.link l).receiver = .hunting then
    failTry l (s.modCounters l fun c => { c with timeouts := c.timeouts + 1 })
  else s

/-- REPLY_TIMEOUT (R156). -/
def execReplyTimeout (l : Link) (s : State) : Host.Outcome State Fault Refusal :=
  whileReleased (replyTimeoutEffect l) s

/-- START_OCTET_RECEIVED: an octet C5h without a framing error begins a frame when the receiver hunts and
driver enable is released; any other octet outside a frame is discarded (R145, R149). -/
def startOctetEffect (l : Link) (octet : Byte) (stopBit : Bool) (s : State) : State :=
  let e := s.link l
  if e.sending = none ∧ e.receiver = .hunting ∧ octet = Config.startOctet ∧ stopBit then
    s.modLink l fun e => { e with receiver := .inFrame (windowOpen e) }
  else s

/-- START_OCTET_RECEIVED (R149). -/
def execStartOctetReceived (l : Link) (octet : Byte) (stopBit : Bool) (s : State) :
    Host.Outcome State Fault Refusal :=
  whileReleased (startOctetEffect l octet stopBit) s

end Sys2Proof.Machine
end

