-- ==== Sys2Proof/Machine/Port.lean ====
section
/-! DEFINITION. The writes of the Local Controller Port (chapter 10), each at once on the state it names. -/

namespace Sys2Proof.Machine

/-! ## Request slots (R183, R184) -/

/-- The parameters that an OP write carries (R183). -/
def storeOp (code : Byte) (expect force : Bool) (x : Slot) : Slot := { x with code, expect, force }

/-- A slot's parameters can be written: it is IDLE or DONE (R183). -/
def slotOpen (x : Slot) : Bool := x.state = .idle ∨ x.state = .done

/-- GO on slot `k` (R183, R184): in IDLE or DONE the parameters are stored, the result is zeroed, and the slot
joins the tail of the queue; otherwise PORT_FAULT. -/
def goEffect (k : Fin 4) (code : Byte) (expect force : Bool) (s : State) : State :=
  if slotOpen s.slots[k] then
    { s.modSlot k (fun x => { storeOp code expect force x with state := .queued, result := .ok, fields := .none }) with
      submission := s.submission ++ [k] }
  else portFault s

/-- CANCEL on slot `k`: a QUEUED slot is withdrawn and becomes DONE with CANCELLED; a RUNNING slot is left; in
IDLE and DONE the parameters are stored and the command has no effect (R38, R183, R184). -/
def cancelEffect (k : Fin 4) (code : Byte) (expect force : Bool) (s : State) : State :=
  match (s.slots[k]).state with
  | .queued =>
    setCause (.slotDone k)
      { s.modSlot k (fun x => { x with state := .done, result := .cancelled, fields := .none }) with
        submission := s.submission.filter fun j => j ≠ k }
  | .running => s
  | .idle | .done => s.modSlot k (storeOp code expect force)

/-- CLEAR on slot `k`: a DONE slot becomes IDLE with its result zeroed; PORT_FAULT in QUEUED and RUNNING; in
IDLE the parameters are stored and the command has no effect (R183, R184). -/
def clearEffect (k : Fin 4) (code : Byte) (expect force : Bool) (s : State) : State :=
  match (s.slots[k]).state with
  | .done =>
    s.modSlot k fun x => { storeOp code expect force x with state := .idle, result := .ok, fields := .none }
  | .idle => s.modSlot k (storeOp code expect force)
  | .queued | .running => portFault s

/-- A parameter or data word stored in a slot (R182, R183). -/
def storeSlotWord (w : SlotWord) (value : Word) (x : Slot) : Slot :=
  match w with
  | .op => storeOp (lowByte value) (value.getLsbD 8) (value.getLsbD 9) x
  | .point => { x with point := value }
  | .argument i => { x with args := x.args.set i value }
  | .data i => { x with data := x.data.set i value }

/-- A parameter or data write: taken in IDLE and DONE, else PORT_FAULT (R183). -/
def slotWriteEffect (k : Fin 4) (w : SlotWord) (value : Word) (s : State) : State :=
  if slotOpen s.slots[k] then s.modSlot k (storeSlotWord w value) else portFault s

/-- A write of an OP word: a parameter write, one command, or misuse with two or three (R183). -/
def opWordWrite (k : Fin 4) (value : Word) (s : State) : State :=
  let code := lowByte value
  let expect := value.getLsbD 8
  let force := value.getLsbD 9
  match value.getLsbD 12, value.getLsbD 13, value.getLsbD 14 with
  | false, false, false => slotWriteEffect k .op value s
  | true, false, false => goEffect k code expect force s
  | false, true, false => cancelEffect k code expect force s
  | false, false, true => clearEffect k code expect force s
  | _, _, _ => portFault s

/-- A write of a word of a slot; the OP word holds commands too (R183). -/
def slotWordWrite (k : Fin 4) (w : SlotWord) (value : Word) (s : State) : State :=
  match w with
  | .op => opWordWrite k value s
  | .point | .argument _ | .data _ => slotWriteEffect k w value s

/-- GO (R184). -/
def execGo (k : Fin 4) (code : Byte) (expect force : Bool) (s : State) : Host.Outcome State Fault Refusal :=
  whileReleased (goEffect k code expect force) s

/-- CANCEL (R184). -/
def execCancel (k : Fin 4) (code : Byte) (expect force : Bool) (s : State) : Host.Outcome State Fault Refusal :=
  whileReleased (cancelEffect k code expect force) s

/-- CLEAR (R184). -/
def execClear (k : Fin 4) (code : Byte) (expect force : Bool) (s : State) : Host.Outcome State Fault Refusal :=
  whileReleased (clearEffect k code expect force) s

/-- SLOT_PARAMETER_WRITE (R183). A term that writes the OP word with a command bit set is not well formed; it acts as
such a write of the word does (log entry 24). -/
def execSlotParameterWrite (k : Fin 4) (w : SlotWord) (value : Word) (s : State) :
    Host.Outcome State Fault Refusal :=
  whileReleased (slotWordWrite k w value) s

/-! ## Notice window (R187) -/

/-- TAKE alone: taken unless busy (R187). -/
def takeEffect (s : State) : State :=
  if s.window.busy then portFault s
  else { s with window := { s.window with busy := true, waiting := some .fetch } }

/-- ACK alone: taken with NOTICE_VALID 1 unless busy (R121, R187). -/
def ackEffect (s : State) : State :=
  if s.window.busy ∨ s.window.snapshot = none then portFault s
  else { s with window := { s.window with busy := true, waiting := some .ack } }

/-- TAKE (R187). -/
def execTake (s : State) : Host.Outcome State Fault Refusal := whileReleased takeEffect s

/-- ACK (R187). -/
def execAck (s : State) : Host.Outcome State Fault Refusal := whileReleased ackEffect s

/-! ## Attention and the station-changed set (R142, R190) -/

/-- A write of ATTN_CAUSE clears the causes written 1, but NOTICE (R119, R190). -/
def causeWriteEffect (value : Word) (s : State) : State :=
  { s with causes := s.causes &&& ~~~(value &&& clearableBits) }

/-- ATTN_CAUSE_WRITE (R190). -/
def execAttnCauseWrite (value : Word) (s : State) : Host.Outcome State Fault Refusal :=
  whileReleased (causeWriteEffect value) s

/-- A write of ATTN_ENABLE; bits with no meaning are ignored (R181, R190). -/
def enableWriteEffect (value : Word) (s : State) : State := { s with enables := value &&& attnBits }

/-- ATTN_ENABLE_WRITE (R190). -/
def execAttnEnableWrite (value : Word) (s : State) : Host.Outcome State Fault Refusal :=
  whileReleased (enableWriteEffect value) s

/-- A write of a STATION_CHANGED word removes the stations written 1 (R142, R182). -/
def changedWriteEffect (high : Bool) (value : Word) (s : State) : State :=
  let removed := if high then setOfWords 0 value else setOfWords value 0
  { s with stationChanged := s.stationChanged &&& ~~~removed }

/-- STATION_CHANGED_WRITE (R142). -/
def execStationChangedWrite (high : Bool) (value : Word) (s : State) : Host.Outcome State Fault Refusal :=
  whileReleased (changedWriteEffect high value) s

/-! ## Plain registers (R32, R92, R189) -/

/-- The threshold: above 2048 stores 2048 (R32). -/
def thresholdEffect (value : Word) (s : State) : State :=
  { s with poolThreshold := min value.toNat Config.poolCells }

/-- POOL_LOW_THRESHOLD_WRITE (R32). -/
def execPoolLowThresholdWrite (value : Word) (s : State) : Host.Outcome State Fault Refusal :=
  whileReleased (thresholdEffect value) s

/-- LEASE_MAX: 0 stores 1, above 6000 stores 6000 (R92). -/
def leaseMaxEffect (value : Word) (s : State) : State :=
  { s with leaseMax := max 1 (min value.toNat Config.maxLeaseMax) }

/-- LEASE_MAX_WRITE (R92). -/
def execLeaseMaxWrite (value : Word) (s : State) : Host.Outcome State Fault Refusal :=
  whileReleased (leaseMaxEffect value) s

/-- The clock words take the directory clock (R189). -/
def clockLatchEffect (s : State) : State := { s with clockWords := s.clock }

/-- CLOCK_LATCH (R189). -/
def execClockLatch (s : State) : Host.Outcome State Fault Refusal := whileReleased clockLatchEffect s

/-! ## Selects (R188) -/

/-- Link 0 is A, link 1 is B (R182). -/
def linkOfNumber (n : Nat) : Link := if n = 0 then .a else .b

/-- A select write in range is stored; out of range it sets PORT_FAULT (R188). -/
def selectEffect (which : Select) (value : Word) (s : State) : State :=
  match which with
  | .station => if h : value.toNat < 31 then { s with stationSelect := ⟨value.toNat, h⟩ } else portFault s
  | .fence => if h : value.toNat < 8 then { s with fenceSelect := ⟨value.toNat, h⟩ } else portFault s
  | .link => if value.toNat < 2 then { s with linkSelect := linkOfNumber value.toNat } else portFault s
  | .bank => if h : value.toNat < 2 then { s with bankSelect := ⟨value.toNat, h⟩ } else portFault s
  | .entry => if h : value.toNat < 32 then { s with entrySelect := ⟨value.toNat, h⟩ } else portFault s

/-- SELECT_WRITE (R188). -/
def execSelectWrite (which : Select) (value : Word) (s : State) : Host.Outcome State Fault Refusal :=
  whileReleased (selectEffect which value) s

/-! ## Station window (R125, R131, R133, R141, R188) -/

/-- The link that an assignment value names: 0 NONE, 1 A, 2 B (R182). -/
def assignmentOf (n : Nat) : Option Link := if n = 0 then none else some (linkOfNumber (n - 1))

/-- A write of the link assignment of the selected station (R125, R133, R188). -/
def assignmentEffect (value : Word) (s : State) : State :=
  let st := s.stationSelect
  if st = 0 ∨ 2 < value.toNat then portFault s
  else
    match (s.station st).state with
    | .offline | .barred => s.modStation st fun e => { e with link := assignmentOf value.toNat }
    | .online | .leaving | .local_ => portFault s

/-- LINK_ASSIGNMENT_WRITE (R133). -/
def execLinkAssignmentWrite (value : Word) (s : State) : Host.Outcome State Fault Refusal :=
  whileReleased (assignmentEffect value) s

/-- BAR of the selected station, by its state (R125, R131). -/
def barEffect (s : State) : State :=
  let st := s.stationSelect
  if st = 0 then portFault s
  else
    match (s.station st).state with
    | .online => (s.modStation st fun e => { e with barredMark := true }).leave st
    | .leaving => s.modStation st fun e => { e with barredMark := true }
    | .offline => s.changeState st .barred
    | .barred | .local_ => s

/-- BAR (R131). -/
def execBar (s : State) : Host.Outcome State Fault Refusal := whileReleased barEffect s

/-- UNBAR of the selected station, by its state (R125, R131). -/
def unbarEffect (s : State) : State :=
  let st := s.stationSelect
  if st = 0 then portFault s
  else
    match (s.station st).state with
    | .leaving => s.modStation st fun e => { e with barredMark := false }
    | .barred => (s.modStation st fun e => { e with freshOwed := true }).changeState st .offline
    | .online | .offline | .local_ => s

/-- UNBAR (R131). -/
def execUnbar (s : State) : Host.Outcome State Fault Refusal := whileReleased unbarEffect s

/-- A station entry with one counter 0 (R141). -/
def zeroStationCounter (which : StationCounter) (e : StationEntry) : StationEntry :=
  match which with
  | .executed => { e with executed := 0 }
  | .repeated => { e with repeated := 0 }
  | .refusals => { e with refusals := 0 }
  | .strayAcks => { e with strayAcks := 0 }
  | .timesLeft => { e with timesLeft := 0 }

/-- A write to a station counter sets it to 0, whatever the value (R141). -/
def stationCounterEffect (which : StationCounter) (s : State) : State :=
  s.modStation s.stationSelect (zeroStationCounter which)

/-- STATION_COUNTER_WRITE (R141). -/
def execStationCounterWrite (which : StationCounter) (_value : Word) (s : State) :
    Host.Outcome State Fault Refusal :=
  whileReleased (stationCounterEffect which) s

/-! ## Fence window (R46, R188) -/

/-- A field of a fence stored; unused mask places are ignored (R46, R188). -/
def storeFence (field : FenceField) (value : Word) (f : Fence) : Fence :=
  match field with
  | .enable => { f with enabled := value.getLsbD 0 }
  | .low => { f with low := value }
  | .high => { f with high := value }
  | .readMaskLow => { f with readMask := setOfWords value (setHighWord f.readMask) }
  | .readMaskHigh => { f with readMask := setOfWords (setLowWord f.readMask) value }
  | .writeMaskLow => { f with writeMask := setOfWords value (setHighWord f.writeMask) }
  | .writeMaskHigh => { f with writeMask := setOfWords (setLowWord f.writeMask) value }

/-- A write to a field of the selected fence (R46). -/
def fenceEffect (field : FenceField) (value : Word) (s : State) : State :=
  s.modFence s.fenceSelect (storeFence field value)

/-- FENCE_WRITE (R46). -/
def execFenceWrite (field : FenceField) (value : Word) (s : State) : Host.Outcome State Fault Refusal :=
  whileReleased (fenceEffect field value) s

/-! ## Sweep window (R167, R171, R172, R175, R178, R189) -/

/-- A write of a sweep entry: stored in the inactive bank; PORT_FAULT for the active bank or a code above 31
(R172). -/
def entryEffect (value : Word) (s : State) : State :=
  if h : value.toNat < 32 then
    if s.bankSelect = (s.link s.linkSelect).activeBank then portFault s
    else s.modLink s.linkSelect fun e =>
      { e with banks := e.banks.set s.bankSelect (e.banks[s.bankSelect].set s.entrySelect ⟨value.toNat, h⟩) }
  else portFault s

/-- ENTRY_VALUE_WRITE (R172). -/
def execEntryValueWrite (value : Word) (s : State) : Host.Outcome State Fault Refusal :=
  whileReleased (entryEffect value) s

/-- The SWITCH control of a link: 1 sets the request, which is taken at once at a wrap point; 0 withdraws it
(R175, R176). -/
def switchControl (l : Link) (switchBit : Bool) (s : State) : State :=
  if switchBit then
    let s1 := s.modLink l fun e => { e with switchRequest := true }
    if (s.link l).atWrapPoint then s1.takeSwitch l else s1
  else s.modLink l fun e => { e with switchRequest := false }

/-- The RUN control of a link, by the link state (R167 to R169). -/
def runControl (l : Link) (runBit : Bool) (s : State) : State :=
  match (s.link l).state, runBit with
  | .stopped, true => s.modLink l fun e => { e with state := .running, walk := 0 }
  | .running, false =>
    let s1 := s.modLink l fun e => { e with state := .stopping }
    if (s.link l).visit = none then s1.completeStop l else s1
  | .stopping, true => portFault s
  | .stopped, false | .running, true | .stopping, false => s

/-- A write of the link control word of the selected link: SWITCH acts first, then RUN (R167). -/
def linkControl (runBit switchBit : Bool) (s : State) : State :=
  runControl s.linkSelect runBit (switchControl s.linkSelect switchBit s)

/-- RUN: the control word with RUN 1 (R168). -/
def execRun (switchBit : Bool) (s : State) : Host.Outcome State Fault Refusal :=
  whileReleased (linkControl true switchBit) s

/-- RUN_CLEARED: the control word with RUN 0 (R169). -/
def execRunCleared (switchBit : Bool) (s : State) : Host.Outcome State Fault Refusal :=
  whileReleased (linkControl false switchBit) s

/-- SWITCH: the control word with SWITCH 1 (R175). -/
def execSwitch (runBit : Bool) (s : State) : Host.Outcome State Fault Refusal :=
  whileReleased (linkControl runBit true) s

/-- SWITCH_WITHDRAW: the control word with SWITCH 0 (R175). -/
def execSwitchWithdraw (runBit : Bool) (s : State) : Host.Outcome State Fault Refusal :=
  whileReleased (linkControl runBit false) s

/-- A parameter stored, clamped; none for a bit rate code of 6 or more (R171). -/
def storeParameter (which : LinkParameter) (value : Word) (e : LinkEngine) : Option LinkEngine :=
  match which with
  | .bitRate => if h : value.toNat < 6 then some { e with bitRate := ⟨value.toNat, h⟩ } else none
  | .replyTimeout => some { e with replyTimeout := max 1 (min value.toNat 255) }
  | .retryLimit => some { e with retryLimit := min value.toNat 5 }
  | .missLimit => some { e with missLimit := max 1 (min value.toNat 15) }

/-- A write of a parameter of the selected link: taken while STOPPED, else PORT_FAULT (R171). -/
def parameterEffect (which : LinkParameter) (value : Word) (s : State) : State :=
  if (s.link s.linkSelect).state = .stopped then
    match storeParameter which value (s.link s.linkSelect) with
    | some e => s.modLink s.linkSelect fun _ => e
    | none => portFault s
  else portFault s

/-- LINK_PARAMETER_WRITE (R171). -/
def execLinkParameterWrite (which : LinkParameter) (value : Word) (s : State) : Host.Outcome State Fault Refusal :=
  whileReleased (parameterEffect which value) s

/-- A counter's value (R178). -/
def counterValue (which : LinkCounter) (c : LinkCounters) : LongWord :=
  match which with
  | .visitsSent => c.visitsSent
  | .goodReplies => c.goodReplies
  | .retries => c.retries
  | .crcFailures => c.crcFailures
  | .timeouts => c.timeouts
  | .misses => c.misses
  | .repeats => c.repeats
  | .strayFrames => c.strayFrames
  | .mismatchedSlots => c.mismatchedSlots

/-- One counter set to 0, the others left (R178). -/
def zeroCounter (which : LinkCounter) (c : LinkCounters) : LinkCounters :=
  match which with
  | .visitsSent => { c with visitsSent := 0 }
  | .goodReplies => { c with goodReplies := 0 }
  | .retries => { c with retries := 0 }
  | .crcFailures => { c with crcFailures := 0 }
  | .timeouts => { c with timeouts := 0 }
  | .misses => { c with misses := 0 }
  | .repeats => { c with repeats := 0 }
  | .strayFrames => { c with strayFrames := 0 }
  | .mismatchedSlots => { c with mismatchedSlots := 0 }

/-- A write to either word of a counter of the selected link sets it to 0 (R178, R189). -/
def counterWriteEffect (which : LinkCounter) (s : State) : State := s.modCounters s.linkSelect (zeroCounter which)

/-- LINK_COUNTER_WRITE (R178). -/
def execLinkCounterWrite (which : LinkCounter) (_high : Bool) (_value : Word) (s : State) :
    Host.Outcome State Fault Refusal :=
  whileReleased (counterWriteEffect which) s

/-- The low half of a 32-bit quantity, as its low word shows it (R189). -/
def lowHalf (n : LongWord) : Word := n.extractLsb' 0 16

/-- The high half of a 32-bit quantity (R189). -/
def highHalf (n : LongWord) : Word := n.extractLsb' 16 16

/-- A read of a counter's low word: the low half goes to the data lines, the high half to the hold word (R189). -/
def counterReadEffect (which : LinkCounter) (s : State) : State :=
  let n := counterValue which (s.link s.linkSelect).counters
  { s with dataLines := lowHalf n, counterHold := highHalf n }

/-- LINK_COUNTER_LOW_READ (R189). While RESET is held every read returns 0000h (R193). -/
def execLinkCounterLowRead (which : LinkCounter) (s : State) : Host.Outcome State Fault Refusal :=
  .next (if s.resetHeld then { s with dataLines := 0 } else counterReadEffect which s)

end Sys2Proof.Machine
end

