-- ==== Sys2Proof/Machine/Resets.lean ====
section
/-! DEFINITION. Full reset, its release, and soft reset (R22, R35, R45, R50, R104, R123, R143, R144, R166,
R179, R180, R192, R193). -/

namespace Sys2Proof.Machine

/-- A station's state after a soft reset: LOCAL and BARRED stay, every other becomes OFFLINE (R125, R144). -/
def softResetStationState : StationState → StationState
  | .local_ => .local_
  | .barred => .barred
  | .offline | .online | .leaving => .offline

/-- A station entry after a soft reset (R144): the link assignment is kept; FRESH-owed is set for every remote
station. -/
def StationEntry.softReset (e : StationEntry) : StationEntry :=
  { StationEntry.reset (softResetStationState e.state) with
    link := e.link
    freshOwed := decide (e.state ≠ .local_) }

/-- A link engine after a soft reset: STOPPED with no visit and nothing being sent or received; parameters,
banks and active bank kept (R166, R180). -/
def LinkEngine.softReset (e : LinkEngine) : LinkEngine :=
  { e with
    state := .stopped, switchRequest := false, walk := 0, visit := none, sending := none,
    receiver := .hunting, counters := LinkCounters.reset }

/-- A soft reset (R192): what is not named keeps its value. -/
def softResetEffect (s : State) : State :=
  { s with
    index := [], incarnation := 0, freeCells := Config.poolCells
    pointer := .linkA, running := none
    deadlines := [], expirePresented := false
    stations := s.stations.map StationEntry.softReset
    clearQueue := [], clearProgress := 0, stationChanged := 0
    linkA := s.linkA.softReset, linkB := s.linkB.softReset
    slots := Vector.replicate 4 Slot.reset, submission := [], window := NoticeWindow.reset
    causes := 0, counterHold := 0 }

/-- SOFT_RESET, with the CLOCK_LATCH bit of the same write (R192). -/
def portControlReset (latch : Bool) (s : State) : State :=
  let s1 := softResetEffect s
  if latch then clockLatchEffect s1 else s1

/-- SOFT_RESET (R192). -/
def execSoftReset (latch : Bool) (s : State) : Host.Outcome State Fault Refusal :=
  whileReleased (portControlReset latch) s

/-- FULL_RESET: every block at its full-reset state while RESET is held (R193); the queue and the count of fills,
which are the model's own, stay (log entries 9 and 22). -/
def execFullReset (s : State) : Host.Outcome State Fault Refusal :=
  .next { State.reset with resetHeld := true, fills := s.fills, pending := s.pending }

/-- RESET_RELEASE: the part begins to work from the full-reset state (R193). -/
def execResetRelease (s : State) : Host.Outcome State Fault Refusal := .next { s with resetHeld := false }

end Sys2Proof.Machine
end

