-- ==== Sys2Proof/Machine/Registers.lean ====
section
/-! DEFINITION. The register window of the Local Controller Port (R181, R182): what a read of each word
returns, and what a write of each word does. -/

namespace Sys2Proof.Machine

/-! ## Which register stands at an address (R182) -/

/-- The place of a word of the window. -/
inductive Place where
  | portControl
  | portStatus
  | attnCause
  | attnEnable
  | stationChanged (high : Bool)
  | recordsInUse
  | freeCells
  | poolThreshold
  | leaseMax
  | clockWord (high : Bool)
  | slotWord (k : Fin 4) (w : SlotWord)
  | slotState (k : Fin 4)
  /-- Result field word base + 09h + i. -/
  | slotResult (k : Fin 4) (i : Fin 7)
  | noticeControl
  /-- Snapshot word 101h + i. -/
  | snapshot (i : Fin 8)
  | snapshotValue (i : Fin 32)
  | select (which : Select)
  | stationState
  | assignment
  | stationCommand
  /-- Station word 144h + i: miss count, claims, subscriptions, pending, cursor. -/
  | stationCount (i : Fin 5)
  /-- In-flight word 149h + i. -/
  | inflight (i : Fin 4)
  | lastRequest
  | stationCounter (which : StationCounter)
  | fence (field : FenceField)
  | entryValue
  | linkControl
  | linkParameter (which : LinkParameter)
  | linkCounter (which : LinkCounter) (high : Bool)
  | nothing
  deriving DecidableEq, Repr

/-- The station counters in register order (R182). -/
def stationCounterAt (n : Nat) : StationCounter :=
  match n with
  | 0 => .executed
  | 1 => .repeated
  | 2 => .refusals
  | 3 => .strayAcks
  | _ => .timesLeft

/-- The fence fields in register order (R182). -/
def fenceFieldAt (n : Nat) : FenceField :=
  match n with
  | 0 => .enable
  | 1 => .low
  | 2 => .high
  | 3 => .readMaskLow
  | 4 => .readMaskHigh
  | 5 => .writeMaskLow
  | _ => .writeMaskHigh

/-- The link parameters in register order (R182). -/
def linkParameterAt (n : Nat) : LinkParameter :=
  match n with
  | 0 => .bitRate
  | 1 => .replyTimeout
  | 2 => .retryLimit
  | _ => .missLimit

/-- The link counters in the order of R178 (R182). -/
def linkCounterAt (n : Nat) : LinkCounter :=
  match n with
  | 0 => .visitsSent
  | 1 => .goodReplies
  | 2 => .retries
  | 3 => .crcFailures
  | 4 => .timeouts
  | 5 => .misses
  | 6 => .repeats
  | 7 => .strayFrames
  | _ => .mismatchedSlots

/-- A word of a slot block, by its offset from the base (R182). -/
def slotPlace (k : Fin 4) (offset : Nat) : Place :=
  if offset = 0 then .slotWord k .op
  else if offset = 1 then .slotWord k .point
  else if h : 2 ≤ offset ∧ offset < 6 then .slotWord k (.argument ⟨offset - 2, by omega⟩)
  else if offset = 8 then .slotState k
  else if h : 9 ≤ offset ∧ offset < 16 then .slotResult k ⟨offset - 9, by omega⟩
  else if h : 16 ≤ offset ∧ offset < 48 then .slotWord k (.data ⟨offset - 16, by omega⟩)
  else .nothing

/-- The plain registers below the slots (R182). -/
def portPlace (a : Nat) : Place :=
  match a with
  | 0x000 => .portControl
  | 0x001 => .portStatus
  | 0x002 => .attnCause
  | 0x003 => .attnEnable
  | 0x004 => .stationChanged false
  | 0x005 => .stationChanged true
  | 0x010 => .recordsInUse
  | 0x011 => .freeCells
  | 0x012 => .poolThreshold
  | 0x013 => .leaseMax
  | 0x014 => .clockWord false
  | 0x015 => .clockWord true
  | _ => .nothing

/-- The notice window (R182). -/
def noticePlace (a : Nat) : Place :=
  if a = 0x100 then .noticeControl
  else if h : 0x101 ≤ a ∧ a < 0x109 then .snapshot ⟨a - 0x101, by omega⟩
  else if h : 0x110 ≤ a ∧ a < 0x130 then .snapshotValue ⟨a - 0x110, by omega⟩
  else .nothing

/-- The station window (R182). -/
def stationPlace (a : Nat) : Place :=
  if a = 0x140 then .select .station
  else if a = 0x141 then .stationState
  else if a = 0x142 then .assignment
  else if a = 0x143 then .stationCommand
  else if h : 0x144 ≤ a ∧ a < 0x149 then .stationCount ⟨a - 0x144, by omega⟩
  else if h : 0x149 ≤ a ∧ a < 0x14D then .inflight ⟨a - 0x149, by omega⟩
  else if a = 0x14D then .lastRequest
  else if 0x14E ≤ a ∧ a < 0x153 then .stationCounter (stationCounterAt (a - 0x14E))
  else .nothing

/-- The fence and sweep windows (R182). -/
def sweepPlace (a : Nat) : Place :=
  if a = 0x160 then .select .fence
  else if 0x161 ≤ a ∧ a < 0x168 then .fence (fenceFieldAt (a - 0x161))
  else if a = 0x170 then .select .link
  else if a = 0x171 then .select .bank
  else if a = 0x172 then .select .entry
  else if a = 0x173 then .entryValue
  else if a = 0x174 then .linkControl
  else if 0x175 ≤ a ∧ a < 0x179 then .linkParameter (linkParameterAt (a - 0x175))
  else if 0x179 ≤ a ∧ a < 0x18B then .linkCounter (linkCounterAt ((a - 0x179) / 2)) ((a - 0x179) % 2 = 1)
  else .nothing

/-- The place of a word address; the slot bases are 040h, 070h, 0A0h and 0D0h (R182). -/
def placeOf (address : BitVec 9) : Place :=
  let a := address.toNat
  if a < 0x040 then portPlace a
  else if h : 0x040 ≤ a ∧ a < 0x100 then slotPlace ⟨(a - 0x040) / 0x30, by omega⟩ ((a - 0x040) % 0x30)
  else if a < 0x140 then noticePlace a
  else if a < 0x160 then stationPlace a
  else sweepPlace a

/-! ## Reads -/

/-- What the station window reads where the spec does not state it (log entry 22). -/
def openField (s : State) (address : Nat) : Word := Config.openWord address s.clock s.stationSelect

/-- What the notice window holds where the spec does not state it: it stays until the next fetch fills the window
(R120; log entry 22). -/
def openWindowField (s : State) (address : Nat) : Word := Config.openWindowWord address s.fills

/-- Two octets in one word. -/
def packed (low high : Byte) : Word := wordOf low high

/-- The result field words of a slot (R186). -/
def resultWord (i : Fin 7) (f : ResultFields) : Word :=
  match f with
  | .none => 0
  | .read revision incarnation v =>
    match i with
    | 0 => packed (classCode v.cls) (qualityCode v.quality)
    | 1 => v.generation
    | 2 => revision
    | 3 => incarnation
    | 4 => packed (ownerOctet v.owner) (flagOctet v.pinned)
    | 5 => wordOfNat v.value.length
    | 6 => 0
  | .generation g => if i = 1 then g else 0
  | .created incarnation lease => if i = 3 then incarnation else if i = 6 then lease else 0
  | .lease granted => if i = 6 then granted else 0
  | .next point cls => if i = 0 then packed (classCode cls) 0 else if i = 6 then point else 0
  | .owner st => if i = 4 then packed (stationOctet st) 0 else 0

/-- Slot state codes (R182). -/
def slotStateCode : SlotState → Byte
  | .idle => 0
  | .queued => 1
  | .running => 2
  | .done => 3

/-- A parameter or data word of a slot; the command bits read 0 (R182). -/
def slotParameter (x : Slot) (w : SlotWord) : Word :=
  match w with
  | .op => packed x.code (flagOctet x.expect ||| (if x.force then 2 else 0))
  | .point => x.point
  | .argument i => x.args[i]
  | .data i => x.data[i]

/-- A word of the snapshot, 101h + i: the fields of a STATE snapshot, or those a RETIRED one carries; the
others are free (R112, R182; log entry 22). -/
def snapshotWord (s : State) (i : Fin 8) (n : Snapshot) : Word :=
  match n.body with
  | .state v =>
    match i with
    | 0 => n.id.point
    | 1 => n.id.incarnation
    | 2 => n.id.revision
    | 3 => packed (kindCode n.body) (classCode v.cls)
    | 4 => packed (qualityCode v.quality) (flagOctet v.pinned)
    | 5 => v.generation
    | 6 => packed (ownerOctet v.owner) 0
    | 7 => wordOfNat v.value.length
  | .retired =>
    match i with
    | 0 => n.id.point
    | 1 => n.id.incarnation
    | 2 => n.id.revision
    | 3 => packed (kindCode n.body) (highByte (openWindowField s 0x104))
    | 4 => openWindowField s 0x105
    | 5 => openWindowField s 0x106
    | 6 => packed (lowByte (openWindowField s 0x107)) 0
    | 7 => openWindowField s 0x108

/-- A word of the snapshot value, 110h + i; what lies beyond the value is free (R112, R182; log entry 22). -/
def snapshotValueWord (s : State) (i : Fin 32) (n : Snapshot) : Word :=
  let free := openWindowField s (0x110 + i)
  match n.body with
  | .state v => packed (v.value.getD (2 * i) (lowByte free)) (v.value.getD (2 * i + 1) (highByte free))
  | .retired => free

/-- Station state codes (R182). -/
def stationStateCode : StationState → Byte
  | .local_ => 0
  | .offline => 1
  | .online => 2
  | .leaving => 3
  | .barred => 4

/-- The in-flight words, 149h + i; the numbers are free while no notice is in flight (R182; log entry 22). -/
def inflightWord (s : State) (i : Fin 4) : Word :=
  match (s.station s.stationSelect).inflight with
  | some id =>
    match i with
    | 0 => 1
    | 1 => id.point
    | 2 => id.incarnation
    | 3 => id.revision
  | none => if i = 0 then 0 else openField s (0x149 + i)

/-- The last request word: tag present, tag (free while absent), stored record length (R182; log entry 22). -/
def lastRequestWord (s : State) : Word :=
  match (s.station s.stationSelect).last with
  | some t => packed (1 ||| (if t.tag then 2 else 0)) (octetOf t.payload.length)
  | none => openField s 0x14D &&& 2

/-- The miss count, counts and cursor of a station (R182). -/
def stationCountWord (e : StationEntry) (i : Fin 5) : Word :=
  match i with
  | 0 => wordOfNat e.missCount
  | 1 => wordOfNat e.claims
  | 2 => wordOfNat e.subscriptions
  | 3 => wordOfNat e.pendingCount
  | 4 => e.cursor

/-- A station counter's value (R141). -/
def stationCounterValue (which : StationCounter) (e : StationEntry) : Word :=
  match which with
  | .executed => e.executed
  | .repeated => e.repeated
  | .refusals => e.refusals
  | .strayAcks => e.strayAcks
  | .timesLeft => e.timesLeft

/-- A fence field's value (R46, R182). -/
def fenceWord (f : Fence) (field : FenceField) : Word :=
  match field with
  | .enable => bitWord f.enabled
  | .low => f.low
  | .high => f.high
  | .readMaskLow => setLowWord f.readMask
  | .readMaskHigh => setHighWord f.readMask
  | .writeMaskLow => setLowWord f.writeMask
  | .writeMaskHigh => setHighWord f.writeMask

/-- A link's number in a select word (R182). -/
def linkNumber : Link → Nat
  | .a => 0
  | .b => 1

/-- Link state codes (R182). -/
def linkStateCode : LinkState → Word
  | .stopped => 0
  | .running => 1
  | .stopping => 2

/-- The link control word as read: link state, switch request, active bank (R182). -/
def linkControlWord (e : LinkEngine) : Word :=
  linkStateCode e.state ||| (bitWord e.switchRequest <<< 2) ||| (wordOfNat e.activeBank <<< 3)

/-- A link parameter as read (R171). -/
def parameterWord (e : LinkEngine) (which : LinkParameter) : Word :=
  match which with
  | .bitRate => wordOfNat e.bitRate
  | .replyTimeout => wordOfNat e.replyTimeout
  | .retryLimit => wordOfNat e.retryLimit
  | .missLimit => wordOfNat e.missLimit

/-- A select word as read (R182, R188). -/
def selectWord (s : State) (which : Select) : Word :=
  match which with
  | .station => wordOfNat s.stationSelect
  | .fence => wordOfNat s.fenceSelect
  | .link => wordOfNat (linkNumber s.linkSelect)
  | .bank => wordOfNat s.bankSelect
  | .entry => wordOfNat s.entrySelect

/-- PORT_STATUS: queue length, notice window busy, directory operation in progress (R182). -/
def portStatusWord (s : State) : Word :=
  wordOfNat s.submission.length ||| (bitWord s.window.busy <<< 4) ||| (bitWord s.running.isSome <<< 5)

/-- The word that stands at a place (R182). -/
def readPlace (s : State) (p : Place) : Word :=
  match p with
  | .portControl | .stationCommand | .nothing => 0
  | .portStatus => portStatusWord s
  | .attnCause => Machine.attnCause s
  | .attnEnable => s.enables
  | .stationChanged high => if high then setHighWord s.stationChanged else setLowWord s.stationChanged
  | .recordsInUse => wordOfNat s.index.length
  | .freeCells => wordOfNat s.freeCells
  | .poolThreshold => wordOfNat s.poolThreshold
  | .leaseMax => wordOfNat s.leaseMax
  | .clockWord high => if high then highHalf s.clockWords else lowHalf s.clockWords
  | .slotWord k w => slotParameter s.slots[k] w
  | .slotState k => packed (slotStateCode (s.slots[k]).state) (resultNumber (s.slots[k]).result)
  | .slotResult k i => resultWord i (s.slots[k]).fields
  | .noticeControl => bitWord s.window.snapshot.isSome ||| (bitWord s.window.busy <<< 1)
  | .snapshot i => ((s.window.snapshot).map (snapshotWord s i)).getD 0
  | .snapshotValue i => ((s.window.snapshot).map (snapshotValueWord s i)).getD 0
  | .select which => selectWord s which
  | .stationState =>
    let e := s.station s.stationSelect
    packed (stationStateCode e.state) (flagOctet e.barredMark ||| (if e.freshOwed then 2 else 0))
  | .assignment => match (s.station s.stationSelect).link with
    | none => 0
    | some l => wordOfNat (linkNumber l + 1)
  | .stationCount i => stationCountWord (s.station s.stationSelect) i
  | .inflight i => inflightWord s i
  | .lastRequest => lastRequestWord s
  | .stationCounter which => stationCounterValue which (s.station s.stationSelect)
  | .fence field => fenceWord s.fences[s.fenceSelect] field
  | .entryValue => wordOfNat (((s.link s.linkSelect).banks[s.bankSelect])[s.entrySelect])
  | .linkControl => linkControlWord (s.link s.linkSelect)
  | .linkParameter which => parameterWord (s.link s.linkSelect) which
  | .linkCounter which high =>
    if high then s.counterHold else lowHalf (counterValue which (s.link s.linkSelect).counters)

/-- What a bus read of a word returns; 0000h while RESET is held (R181, R193). The read of a link counter's low
word has its effect by LINK_COUNTER_LOW_READ; no other read has one. -/
def State.readWord (s : State) (address : BitVec 9) : Word :=
  if s.resetHeld then 0 else readPlace s (placeOf address)

/-! ## Writes -/

/-- A write of NOTICE_CONTROL (R187). -/
def noticeControlWrite (value : Word) (s : State) : State :=
  match value.getLsbD 0, value.getLsbD 1 with
  | true, false => takeEffect s
  | false, true => ackEffect s
  | true, true => portFault s
  | false, false => s

/-- A write of the station command: 1 BAR, 2 UNBAR, 0 no effect, any other value misuse (R188; log entry 13). -/
def stationCommandWrite (value : Word) (s : State) : State :=
  if value = 0 then s
  else if value = 1 then barEffect s
  else if value = 2 then unbarEffect s
  else portFault s

/-- A write of PORT_CONTROL (R189, R192). -/
def portControlWrite (value : Word) (s : State) : State :=
  if value.getLsbD 0 then portControlReset (value.getLsbD 1) s
  else if value.getLsbD 1 then clockLatchEffect s
  else s

/-- What a write does at a place: read-only words and places with no register ignore it, with PORT_FAULT in
the station window (R181, R182, R188). -/
def writePlace (p : Place) (value : Word) (s : State) : State :=
  match p with
  | .portControl => portControlWrite value s
  | .attnCause => causeWriteEffect value s
  | .attnEnable => enableWriteEffect value s
  | .stationChanged high => changedWriteEffect high value s
  | .poolThreshold => thresholdEffect value s
  | .leaseMax => leaseMaxEffect value s
  | .slotWord k w => slotWordWrite k w value s
  | .noticeControl => noticeControlWrite value s
  | .select which => selectEffect which value s
  | .assignment => assignmentEffect value s
  | .stationCommand => stationCommandWrite value s
  | .stationCounter which => stationCounterEffect which s
  | .fence field => fenceEffect field value s
  | .entryValue => entryEffect value s
  | .linkControl => linkControl (value.getLsbD 0) (value.getLsbD 1) s
  | .linkParameter which => parameterEffect which value s
  | .linkCounter which _ => counterWriteEffect which s
  | .stationState | .stationCount _ | .inflight _ | .lastRequest => portFault s
  | .portStatus | .recordsInUse | .freeCells | .clockWord _ | .slotState _ | .slotResult _ _ | .snapshot _
  | .snapshotValue _ | .nothing => s

/-- A bus write of one word of the window (R181). -/
def busWrite (address : BitVec 9) (value : Word) (s : State) : State := writePlace (placeOf address) value s

/-- REGISTER_WRITE: a bus write of any word (R181; log entry 11). -/
def execRegisterWrite (address : BitVec 9) (value : Word) (s : State) : Host.Outcome State Fault Refusal :=
  whileReleased (busWrite address value) s

end Sys2Proof.Machine
end

