-- ==== Sys2Proof/Machine/Dispatch.lean ====
section
/-! DEFINITION. One arm per command of the table. -/

namespace Sys2Proof.Machine

/-- The effect of a command on everything but the queue. -/
def exec (i : Instr) (s : State) : Host.Outcome State Fault Refusal :=
  match i with
  | .grant => Sys2Proof.Machine.execGrant s
  | .read => Sys2Proof.Machine.execRead s
  | .write => Sys2Proof.Machine.execWrite s
  | .create => Sys2Proof.Machine.execCreate s
  | .retire => Sys2Proof.Machine.execRetire s
  | .claim => Sys2Proof.Machine.execClaim s
  | .release => Sys2Proof.Machine.execRelease s
  | .subscribe => Sys2Proof.Machine.execSubscribe s
  | .unsubscribe => Sys2Proof.Machine.execUnsubscribe s
  | .next => Sys2Proof.Machine.execNext s
  | .pin => Sys2Proof.Machine.execPin s
  | .unpin => Sys2Proof.Machine.execUnpin s
  | .purge => Sys2Proof.Machine.execPurge s
  | .noticeFetch => Sys2Proof.Machine.execNoticeFetch s
  | .noticeAck => Sys2Proof.Machine.execNoticeAck s
  | .expire => Sys2Proof.Machine.execExpire s
  | .clearChunk => Sys2Proof.Machine.execClearChunk s
  | .deadlineDue => Sys2Proof.Machine.execDeadlineDue s
  | .walkEntry l => Sys2Proof.Machine.execWalkEntry l s
  | .sendVisit l => Sys2Proof.Machine.execSendVisit l s
  | .visitFrameSent l => Sys2Proof.Machine.execVisitFrameSent l s
  | .frameReceived l address type flags payload crcLow crcHigh => Sys2Proof.Machine.execFrameReceived l address type flags payload crcLow crcHigh s
  | .frameBroken l cause => Sys2Proof.Machine.execFrameBroken l cause s
  | .replyTimeout l => Sys2Proof.Machine.execReplyTimeout l s
  | .sendResult l => Sys2Proof.Machine.execSendResult l s
  | .resultFrameSent l => Sys2Proof.Machine.execResultFrameSent l s
  | .fullReset => Sys2Proof.Machine.execFullReset s
  | .resetRelease => Sys2Proof.Machine.execResetRelease s
  | .softReset latch => Sys2Proof.Machine.execSoftReset latch s
  | .clockLatch => Sys2Proof.Machine.execClockLatch s
  | .go k code expect force => Sys2Proof.Machine.execGo k code expect force s
  | .cancel k code expect force => Sys2Proof.Machine.execCancel k code expect force s
  | .clear k code expect force => Sys2Proof.Machine.execClear k code expect force s
  | .slotParameterWrite k w value => Sys2Proof.Machine.execSlotParameterWrite k w value s
  | .take => Sys2Proof.Machine.execTake s
  | .ack => Sys2Proof.Machine.execAck s
  | .attnCauseWrite value => Sys2Proof.Machine.execAttnCauseWrite value s
  | .attnEnableWrite value => Sys2Proof.Machine.execAttnEnableWrite value s
  | .stationChangedWrite high value => Sys2Proof.Machine.execStationChangedWrite high value s
  | .poolLowThresholdWrite value => Sys2Proof.Machine.execPoolLowThresholdWrite value s
  | .leaseMaxWrite value => Sys2Proof.Machine.execLeaseMaxWrite value s
  | .selectWrite which value => Sys2Proof.Machine.execSelectWrite which value s
  | .linkAssignmentWrite value => Sys2Proof.Machine.execLinkAssignmentWrite value s
  | .bar => Sys2Proof.Machine.execBar s
  | .unbar => Sys2Proof.Machine.execUnbar s
  | .stationCounterWrite which value => Sys2Proof.Machine.execStationCounterWrite which value s
  | .fenceWrite field value => Sys2Proof.Machine.execFenceWrite field value s
  | .entryValueWrite value => Sys2Proof.Machine.execEntryValueWrite value s
  | .run switchBit => Sys2Proof.Machine.execRun switchBit s
  | .runCleared switchBit => Sys2Proof.Machine.execRunCleared switchBit s
  | .switch runBit => Sys2Proof.Machine.execSwitch runBit s
  | .switchWithdraw runBit => Sys2Proof.Machine.execSwitchWithdraw runBit s
  | .linkParameterWrite which value => Sys2Proof.Machine.execLinkParameterWrite which value s
  | .linkCounterWrite which high value => Sys2Proof.Machine.execLinkCounterWrite which high value s
  | .linkCounterLowRead which => Sys2Proof.Machine.execLinkCounterLowRead which s
  | .registerWrite address value => Sys2Proof.Machine.execRegisterWrite address value s
  | .directoryClockTick => Sys2Proof.Machine.execDirectoryClockTick s
  | .startOctetReceived l octet stopBit => Sys2Proof.Machine.execStartOctetReceived l octet stopBit s

end Sys2Proof.Machine
end

