-- ==== Sys2Proof/WellFormed.lean ====
section
/-! DEFINITION. Which terms of `Instr` are commands of the 4210. The operand types carry every range but
three: a whole frame's payload and the length octet that breaks a frame (R149), and the command bits of an OP word
(R183). -/

namespace Sys2Proof

/-- A command of the part. A whole frame has a payload of at most 96 octets, and a length octet breaks
a frame only when it is above 96 (R147, R149). A parameter write of an OP word has none of GO, CANCEL and CLEAR
set, bits 12 to 14 (R182, R183). -/
def Instr.wellFormed : Instr → Bool
  | .frameReceived _ _ _ _ payload _ _ => payload.length ≤ Config.maxPayload
  | .frameBroken _ (.length octet) => Config.maxPayload < octet.toNat
  | .slotParameterWrite _ .op value => !(value.getLsbD 12 || value.getLsbD 13 || value.getLsbD 14)
  | .slotParameterWrite _ .point _ | .slotParameterWrite _ (.argument _) _ | .slotParameterWrite _ (.data _) _
  | .frameBroken _ .gap | .frameBroken _ .framing => true
  | .grant | .read | .write | .create | .retire | .claim | .release | .subscribe |
    .unsubscribe | .next | .pin | .unpin | .purge | .noticeFetch | .noticeAck | .expire |
    .clearChunk | .deadlineDue | .walkEntry _ | .sendVisit _ | .visitFrameSent _ |
    .replyTimeout _ | .sendResult _ | .resultFrameSent _ | .fullReset | .resetRelease |
    .softReset _ | .clockLatch | .go _ _ _ _ | .cancel _ _ _ _ | .clear _ _ _ _ |
    .take | .ack | .attnCauseWrite _ | .attnEnableWrite _ |
    .stationChangedWrite _ _ | .poolLowThresholdWrite _ | .leaseMaxWrite _ | .selectWrite _ _ |
    .linkAssignmentWrite _ | .bar | .unbar | .stationCounterWrite _ _ | .fenceWrite _ _ |
    .entryValueWrite _ | .run _ | .runCleared _ | .switch _ | .switchWithdraw _ |
    .linkParameterWrite _ _ | .linkCounterWrite _ _ _ | .linkCounterLowRead _ |
    .registerWrite _ _ | .directoryClockTick | .startOctetReceived _ _ _ => true

end Sys2Proof
end

