-- ==== Sys2Proof/Safety.lean ====
section
/-! DEFINITION. What the claims speak of: the invariants of the spec's own prose, each a decidable property of
one state, and the terms in which a completed request is described. -/

namespace Sys2Proof.Machine

/-! ## The point index (R1, R3, R19) -/

/-- The index is in ascending order of valid point numbers, so no two records share one; every record has a
slot of its own below 1024 (R1, R3, R19). -/
abbrev IndexOk (s : State) : Prop :=
  s.index.Pairwise (fun a b => a.point.toNat < b.point.toNat) ∧
  s.index.Pairwise (fun a b => a.slot ≠ b.slot) ∧
  ∀ r ∈ s.index, validPoint r.point = true ∧ r.slot < Config.recordSlots

/-! ## Records (R2, R5, R7 to R10, R14, R17, R23, R118) -/

/-- The cells R23 gives a record: those of the block size for BLOCK, those of the value's length for TEXT, none
for the others. -/
def chainCells (a : Active) : Nat :=
  match a.cls with
  | .block size => cellsFor size
  | .text => cellsFor a.length
  | .word | .long | .quad => 0

/-- The lease interval is there exactly when the owner is a remote station, and is 1 to 6000 (R14). -/
abbrev ownerOk (a : Active) : Prop :=
  (a.lease.isSome = true ↔ ∃ o, a.owner = some o ∧ o ≠ 0) ∧
  ∀ n ∈ a.lease, 1 ≤ n ∧ n ≤ Config.maxLeaseMax

/-- The fields of an ACTIVE record agree with each other (R8, R9, R10, R14, R15, R23). -/
abbrev ActiveOk (a : Active) : Prop :=
  (a.generation = 0 ↔ a.quality = .unset) ∧
  (a.value = none ↔ a.quality = .unset) ∧
  (∀ v ∈ a.value, lengthSuits a.cls v.length = true) ∧
  blockSizeOk a.cls = true ∧ a.cells = chainCells a ∧ ownerOk a ∧
  (∀ n ∈ a.refresh, 1 ≤ n ∧ n ≤ Config.maxRefresh)

/-- The fields of an ACTIVE record. -/
def Record.active? (r : Record) : Option Active :=
  match r.phase with
  | .active a => some a
  | .retiring => none

/-- Every record's pending set lies in its subscriber set; a RETIRING record has a subscriber set that is
not empty and equals its pending set (R5, R17, R108, R118). -/
abbrev RecordOk (r : Record) : Prop :=
  r.pendingSet &&& ~~~r.subscribers = 0 ∧
  (∀ a ∈ r.active?, ActiveOk a) ∧
  (r.isRetiring = true → r.subscribers ≠ 0 ∧ r.pendingSet = r.subscribers)

/-- A request of a value write carries the octets it counts: the data words of a slot, or the value of a
well-formed REPLY (R54, R151, R182). -/
abbrev RequestOk (q : Request) : Prop :=
  q.code = 2 ∨ q.code = 10 → q.arg1.toNat ≤ Config.maxValueOctets → q.arg1.toNat ≤ q.data.length

/-- The request of a visit's REPLY held. -/
def heldRequest (e : LinkEngine) : Option Request := e.visit.bind fun v => v.reply.bind fun r => r.request

/-- The request in progress. -/
def runningRequest (s : State) : Option Request :=
  s.running.bind fun g => match g.work with
    | .request _ q => some q
    | .noticeFetch _ | .noticeAck _ _ | .expire | .clearChunk _ _ => none

/-- Every record is in order, and so is all that an operation can make records from. -/
abbrev RecordsOk (s : State) : Prop :=
  (∀ r ∈ s.index, RecordOk r) ∧
  (1 ≤ s.leaseMax ∧ s.leaseMax ≤ Config.maxLeaseMax) ∧
  (∀ g ∈ s.running, 1 ≤ g.leaseMax ∧ g.leaseMax ≤ Config.maxLeaseMax) ∧
  (∀ q ∈ runningRequest s, RequestOk q) ∧
  (∀ q ∈ heldRequest s.linkA, RequestOk q) ∧ (∀ q ∈ heldRequest s.linkB, RequestOk q)

/-! ## The pool, the counts and the deadline list (R25, R95, R126) -/

/-- The free cells plus the cells held by records equal 2048 (R25). -/
abbrev PoolOk (s : State) : Prop := s.freeCells + (s.index.map Record.cells).sum = Config.poolCells

/-- Each count of a station is the number of records it counts (R126). -/
abbrev CountsOk (s : State) : Prop :=
  ∀ st : Station,
    (s.station st).claims = s.index.countP (fun r => r.owner = some st) ∧
    (s.station st).subscriptions = s.index.countP (fun r => setHas r.subscribers st) ∧
    (s.station st).pendingCount = s.index.countP (fun r => setHas r.pendingSet st)

/-- No station exceeds the limits of R126. -/
abbrev LimitsOk (s : State) : Prop :=
  ∀ st : Station, (s.station st).claims ≤ Config.claimLimit ∧
    (s.station st).subscriptions ≤ Config.subscriptionLimit

/-- A record has a LEASE entry when a remote station owns it, and a FRESHNESS entry when it is ACTIVE,
unpinned, GOOD and supervised (R95). -/
def hasDeadline (r : Record) (kind : DeadlineKind) : Bool :=
  match r.phase with
  | .retiring => false
  | .active a =>
    match kind with
    | .lease => a.owner.any fun o => o ≠ 0
    | .freshness => a.refresh.isSome ∧ a.quality = .good ∧ a.pinned = false

/-- The entries of the list that belong to a record and are of one kind. -/
def entriesOf (s : State) (r : Record) (kind : DeadlineKind) : Nat :=
  s.deadlines.countP fun d => d.belongs r && d.kind == kind

/-- The list holds exactly the entries that R95 gives, one of each: every record has those it should, and no
entry belongs to no record. -/
abbrev DeadlinesOk (s : State) : Prop :=
  (∀ r ∈ s.index, entriesOf s r .lease = (hasDeadline r .lease).toNat ∧
    entriesOf s r .freshness = (hasDeadline r .freshness).toNat) ∧
  ∀ d ∈ s.deadlines, ∃ r ∈ s.index, d.belongs r = true

/-! ## Stations and their clears (R127, R135, R136, R138, R139) -/

/-- The station may hold something in the directory: the local station, or one that is ONLINE or LEAVING (R139). -/
abbrev mayHold (s : State) (st : Station) : Prop :=
  st = 0 ∨ (s.station st).state = .online ∨ (s.station st).state = .leaving

/-- The clear of `st` has passed some slots: it is at the head of the queue with a chunk done (R136). -/
abbrev clearBegun (s : State) (st : Station) : Prop := s.clearQueue.head? = some st ∧ s.clearProgress ≠ 0

/-- The station that an operation may bring a holding, a notice or a stored result. -/
def gainingStation : Work → Option Station
  | .request st _ | .noticeFetch st | .noticeAck st _ => some st
  | .expire | .clearChunk _ _ => none

/-- The station and the number of a chunk. -/
def chunkOf : Work → Option (Station × Fin 16)
  | .clearChunk st k => some (st, k)
  | .request _ _ | .noticeFetch _ | .noticeAck _ _ | .expire => none

/-- The operation in progress acts for a station that may gain a holding; a chunk in progress is the next one
of the head station (R41, R42). -/
abbrev workOk (s : State) : Prop :=
  ∀ g ∈ s.running,
    (∀ st ∈ gainingStation g.work, mayHold s st ∧ ¬ clearBegun s st) ∧
    ∀ c ∈ chunkOf g.work, s.clearQueue.head? = some c.1 ∧ s.clearProgress = c.2

/-- Entry 0 is LOCAL and no other is; a station that is OFFLINE or BARRED has no in-flight notice, no last
request and no barred mark (R125, R131, R139). -/
abbrev entryOk (s : State) (st : Station) : Prop :=
  ((s.station st).state = .local_ ↔ st = 0) ∧
  ((s.station st).state = .offline ∨ (s.station st).state = .barred →
    (s.station st).inflight = none ∧ (s.station st).last = none ∧ (s.station st).barredMark = false)

/-- The clear queue holds every LEAVING station once and no other (R135); nothing is held by a station that is
OFFLINE or BARRED (R139); a station being cleared holds nothing in the slots its clear has passed (R138). -/
abbrev ClearOk (s : State) : Prop :=
  (∀ st : Station, entryOk s st) ∧
  s.clearQueue.Nodup ∧
  (∀ st : Station, st ∈ s.clearQueue ↔ (s.station st).state = .leaving) ∧
  (s.clearQueue = [] → s.clearProgress = 0) ∧
  (∀ r ∈ s.index, ∀ st : Station, holds r st = true → mayHold s st) ∧
  (∀ r ∈ s.index, ∀ st : Station, s.clearQueue.head? = some st →
    r.slot < Config.chunkSlots * s.clearProgress → holds r st = false) ∧
  workOk s

/-- Entry 0 stands for the local station: LOCAL, with its counts, cursor and in-flight notice, and every other field
at its full-reset value (R125). -/
abbrev LocalEntryOk (s : State) : Prop :=
  s.station 0 =
    { StationEntry.reset .local_ with
      claims := (s.station 0).claims, subscriptions := (s.station 0).subscriptions
      pendingCount := (s.station 0).pendingCount, cursor := (s.station 0).cursor, inflight := (s.station 0).inflight }

/-- No fence mask and not the station-changed set holds station 0: they are sets of stations 1 to 30 (R46, R142, R188). -/
abbrev RemoteSetsOk (s : State) : Prop :=
  (∀ i : Fin 8, setHas s.fences[i].readMask 0 = false ∧ setHas s.fences[i].writeMask 0 = false) ∧
  setHas s.stationChanged 0 = false

/-- An ONLINE station has FRESH-owed clear (R163). -/
abbrev FreshOk (s : State) : Prop :=
  ∀ st : Station, (s.station st).state = .online → (s.station st).freshOwed = false

/-! ## Slots and the notice window (R36, R37, R121, R184, R185, R187) -/

/-- The kinds of operation that each requester's block presents (R36, R37). -/
def originFits : Origin → Work → Bool
  | .link _, .request _ _ | .link _, .noticeFetch _ | .link _, .noticeAck _ _ => true
  | .slot _, .request _ _ => true
  | .window, .noticeFetch _ | .window, .noticeAck _ _ => true
  | .deadline, .expire => true
  | .clear, .clearChunk _ _ => true
  | _, _ => false

/-- The operation in progress is of a kind that its requester presents (R36, R37). -/
abbrev fitsOk (s : State) : Prop := ∀ g ∈ s.running, originFits g.origin g.work = true

/-- The submission queue holds exactly the QUEUED slots, once each; a slot is RUNNING exactly while its
operation is in progress (R184, R185). -/
abbrev SlotsOk (s : State) : Prop :=
  s.submission.Nodup ∧ fitsOk s ∧
  ∀ k : Fin 4, (k ∈ s.submission ↔ (s.slots[k]).state = .queued) ∧
    ((s.slots[k]).state = .running ↔ runningFor s (.slot k) = true)

/-- A visit acts for a remote station (R153). -/
abbrev visitRemote (e : LinkEngine) : Prop := ∀ v ∈ e.visit, v.station ≠ 0

/-- The link that an operation's outcome goes to. -/
def originLink : Origin → Option Link
  | .link l => some l
  | .slot _ | .window | .deadline | .clear => none

/-- The outcome goes to the Local Controller Port. -/
def originLocal : Origin → Bool
  | .slot _ | .window => true
  | .link _ | .deadline | .clear => false

/-- Operations of the notice window and of slots act for the local station, operations of links for remote
ones (R36). -/
abbrev originOk (s : State) : Prop :=
  ∀ g ∈ s.running, ∀ st ∈ workStation g.work,
    (originLocal g.origin = true → st = 0) ∧ ((originLink g.origin).isSome = true → st ≠ 0)

/-- The busy flag is set exactly while a notice-window operation waits or runs, never both; an ACK waits only with
NOTICE_VALID 1; a shown snapshot is the local station's in-flight notice (R121, R187). -/
abbrev WindowOk (s : State) : Prop :=
  (s.window.busy = true ↔ s.window.waiting.isSome = true ∨ runningFor s .window = true) ∧
  ¬ (s.window.waiting.isSome = true ∧ runningFor s .window = true) ∧
  (s.window.waiting = some .ack → s.window.snapshot.isSome = true) ∧
  (∀ n ∈ s.window.snapshot, (s.station 0).inflight = some n.id) ∧
  visitRemote s.linkA ∧ visitRemote s.linkB ∧ originOk s ∧ fitsOk s

/-! ## Link engines (R129, R145, R153, R156, R168, R170, R171, R176) -/

/-- The parameters lie in their ranges (R171). -/
abbrev parametersOk (e : LinkEngine) : Prop :=
  1 ≤ e.replyTimeout ∧ e.replyTimeout ≤ 255 ∧ e.retryLimit ≤ 5 ∧ 1 ≤ e.missLimit ∧ e.missLimit ≤ 15

/-- The visit holds what its phase waits on. -/
def phaseHolds (v : Visit) : Bool :=
  match v.phase with
  | .fetch | .sendVisit | .awaitReply => true
  | .ack => (v.reply.bind (·.ack)).isSome
  | .request => (v.reply.bind (·.request)).isSome
  | .sendResult => v.result.isSome

/-- The phase of a visit agrees with what it holds, and the try number is in its range (R153). -/
abbrev visitOk (e : LinkEngine) (v : Visit) : Prop :=
  1 ≤ v.tryNumber ∧ v.tryNumber ≤ e.retryLimit + 1 ∧ phaseHolds v = true

/-- A STOPPED link has no visit; a frame is sent only in the two sending phases and none is received then; a
frame of the reply window arrives only in AWAIT_REPLY and no other frame does; a switch request never waits at
a wrap point (R145, R156, R167, R176). -/
abbrev LinkOk (e : LinkEngine) : Prop :=
  parametersOk e ∧
  (∀ v ∈ e.visit, visitOk e v) ∧
  (e.state = .stopped → e.visit = none) ∧
  (e.sending.isSome = true → e.receiver = .hunting ∧ (sendingIn e .sendVisit = true ∨ sendingIn e .sendResult = true)) ∧
  (e.receiver = .inFrame true → windowOpen e = true) ∧
  (windowOpen e = true → e.receiver ≠ .inFrame false) ∧
  (e.switchRequest = true → e.atWrapPoint = false)

/-- An operation of a link in progress is the one the phase of its visit waits on (R36, R153). -/
abbrev linkWorkOk (s : State) : Prop :=
  ∀ g ∈ s.running, ∀ l ∈ originLink g.origin, ((s.link l).visit.bind visitWork) = some g.work

/-- Both engines are in order; an ONLINE station's link is not STOPPED, and its miss count is below that link's
miss limit (R129, R168, R170). -/
abbrev LinksOk (s : State) : Prop :=
  LinkOk s.linkA ∧ LinkOk s.linkB ∧ linkWorkOk s ∧
  ∀ st : Station, ∀ l ∈ (s.station st).link, (s.station st).state = .online →
    (s.link l).state ≠ .stopped ∧ (s.station st).missCount < (s.link l).missLimit

end Sys2Proof.Machine
end

