-- ==== Sys2Proof/Safety/Terms.lean ====
section
/-! DEFINITION. The terms the claims are stated in, written from the rules and apart from the meanings: the tables
of checks, where an outcome goes, and the closed forms of the steps of a link. -/

namespace Sys2Proof.Spec

open Sys2Proof.Machine

/-! ## Outcomes -/

/-- The command answers a next state, and `after` holds of it. -/
abbrev Completes (c : Instr) (s : State) (after : State → Prop) : Prop := ∃ t, exec c s = .next t ∧ after t

/-! ## Orders of checks (R51, R55) -/

/-- A row of an order of checks: the check and the refusal it gives. -/
abbrev Row := Bool × Result

/-- The refusal of the first row whose check fails; none when every check passes (R51, R55). -/
def refusedBy : List Row → Option Result
  | [] => none
  | (true, _) :: rest => refusedBy rest
  | (false, res) :: _ => some res

/-- A result code alone (R52). -/
def plain (code : ResultCode) : Result := { code, fields := .none }

/-- The ACTIVE record with a point number. -/
def activeAt (s : State) (p : Word) : Option (Record × Active) :=
  (s.findRecord p).bind fun r => r.active?.map fun a => (r, a)

/-- A check on the ACTIVE record found; where there is none an earlier row has refused. -/
def ofActive (s : State) (p : Word) (check : Record → Active → Bool) : Bool :=
  (activeAt s p).all fun x => check x.1 x.2

/-- Rows 1 and 2 of the operations on an ACTIVE point (R3, R20). -/
def activeRows (s : State) (p : Word) : List Row :=
  [(1 ≤ p.toNat ∧ p.toNat ≤ 65534, plain .badPoint),
   ((activeAt s p).isSome, plain .notFound)]

/-- The permission of R47, from the masks of the fences that cover the point. -/
def allowed (mask : Fence → StationSet) (fences : Vector Fence 8) (st : Station) (p : Word) : Bool :=
  let covers (i : Fin 8) : Bool :=
    fences[i].enabled ∧ fences[i].low.toNat ≤ p.toNat ∧ p.toNat ≤ fences[i].high.toNat
  st = 0 ∨ (∀ i : Fin 8, covers i = false) ∨ ∃ i : Fin 8, covers i = true ∧ setHas (mask fences[i]) st = true

/-- HELD with the owner of the record found (R52). -/
def heldBy (s : State) (p : Word) : Result :=
  { code := .held
    fields := match (activeAt s p).bind fun x => x.2.owner with
      | some o => .owner o
      | none => .none }

/-- CONFLICT with the generation of the record found (R52). -/
def conflictAt (s : State) (p : Word) : Result :=
  { code := .conflict
    fields := match activeAt s p with
      | some x => .generation x.2.generation
      | none => .none }

/-- The cells the record holds after a write of `n` octets (R26, R28). -/
def cellsWith (a : Active) (n : Nat) : Nat := if a.cls = .text then cellsFor n else a.cells

/-- The value lengths each class accepts (R7, R63). -/
def acceptsLength (cls : PointClass) (n : Nat) : Bool :=
  match cls with
  | .word => n = 2
  | .long => n = 4
  | .quad => n = 8
  | .block size => n = size
  | .text => n ≤ 64

/-- Rows 6 to 8 of WRITE, and rows 4 to 6 of PIN (R61, R77). -/
def valueRows (q : Request) (s : State) : List Row :=
  [(ofActive s q.point fun _ a => acceptsLength a.cls q.arg1.toNat, plain .badLength),
   (!q.expect || ofActive s q.point fun _ a => q.arg0 = a.generation, conflictAt s q.point),
   (ofActive s q.point fun _ a => cellsWith a q.arg1.toNat ≤ a.cells + s.freeCells, plain .noSpace)]

/-- The checks of READ (R59). -/
def readTable (g : Granted) (st : Station) (q : Request) (s : State) : List Row :=
  activeRows s q.point ++ [(allowed Fence.readMask g.fences st q.point, plain .denied)]

/-- The checks of RETIRE (R72), which are the first five of WRITE (R61). -/
def retireTable (g : Granted) (st : Station) (q : Request) (s : State) : List Row :=
  activeRows s q.point ++
    [(allowed Fence.writeMask g.fences st q.point, plain .denied),
     (ofActive s q.point fun _ a => a.pinned = false ∨ st = 0, plain .pinned),
     (ofActive s q.point fun _ a => a.owner = none ∨ a.owner = some st ∨ st = 0, heldBy s q.point)]

/-- The checks of WRITE (R61). -/
def writeTable (g : Granted) (st : Station) (q : Request) (s : State) : List Row :=
  retireTable g st q s ++ valueRows q s

/-- A slot holds no record. -/
def slotFree (s : State) (n : Nat) : Bool := s.index.all fun r => r.slot ≠ n

/-- The checks of CREATE (R69). -/
def createTable (g : Granted) (st : Station) (q : Request) (s : State) : List Row :=
  let isBlock : Bool := q.arg0.toNat = 4
  [(1 ≤ q.point.toNat ∧ q.point.toNat ≤ 65534, plain .badPoint),
   (allowed Fence.writeMask g.fences st q.point, plain .denied),
   ((s.findRecord q.point).all fun r => r.isRetiring, plain .exists_),
   ((s.findRecord q.point).isNone, plain .retiring),
   (1 ≤ q.arg0.toNat ∧ q.arg0.toNat ≤ 5, plain .badClass),
   (!isBlock || (1 ≤ q.arg1.toNat ∧ q.arg1.toNat ≤ 64), plain .badLength),
   (q.arg2.toNat ≤ 6000, plain .badArg),
   ((List.range 1024).any (slotFree s), plain .noRecord),
   (q.arg3 = 0 ∨ (s.station st).claims < 64, plain .limit),
   (!isBlock || cellsFor q.arg1.toNat ≤ s.freeCells, plain .noSpace)]

/-- The checks of PIN (R77). -/
def pinTable (q : Request) (s : State) : List Row :=
  activeRows s q.point ++
    [(ofActive s q.point fun _ a => a.owner = none ∨ a.owner = some 0 ∨ q.force, heldBy s q.point)] ++
    (if q.arg1 = 0xFFFF#16 then [] else valueRows q s)

/-- The checks of CLAIM (R86); the renewal of step 7 passes the limit. -/
def claimTable (g : Granted) (st : Station) (q : Request) (s : State) : List Row :=
  activeRows s q.point ++
    [(allowed Fence.writeMask g.fences st q.point, plain .denied),
     (ofActive s q.point fun _ a => a.pinned = false ∨ st = 0, plain .pinned),
     (ofActive s q.point fun _ a => a.owner = none ∨ a.owner = some st, heldBy s q.point),
     (st = 0 ∨ q.arg0 ≠ 0, plain .badArg),
     (ofActive s q.point fun _ a => a.owner = some st ∨ (s.station st).claims < 64, plain .limit)]

/-- The checks of RELEASE (R90). -/
def releaseTable (st : Station) (q : Request) (s : State) : List Row :=
  activeRows s q.point ++
    [(ofActive s q.point fun _ a => a.owner = none ∨ a.owner = some st ∨ (st = 0 ∧ q.force), plain .notOwner)]

/-- The checks of SUBSCRIBE (R105); a station in the set already passes the limit. -/
def subscribeTable (g : Granted) (st : Station) (q : Request) (s : State) : List Row :=
  readTable g st q s ++
    [(ofActive s q.point fun r _ => setHas r.subscribers st ∨ (s.station st).subscriptions < 256, plain .limit)]

/-- The checks of UNSUBSCRIBE and PURGE (R81, R107). -/
def anyPhaseTable (q : Request) (s : State) : List Row :=
  [(1 ≤ q.point.toNat ∧ q.point.toNat ≤ 65534, plain .badPoint),
   ((s.findRecord q.point).isSome, plain .notFound)]

/-! ## Completed requests -/

/-- The operation code whose completion a command is (R54, R85, R90, R105, R107). -/
def codeOf : Instr → Option Byte
  | .read => some 1
  | .write => some 2
  | .create => some 3
  | .retire => some 4
  | .claim => some 5
  | .release => some 6
  | .subscribe => some 7
  | .unsubscribe => some 8
  | .next => some 9
  | .pin => some 10
  | .unpin => some 11
  | .purge => some 12
  | _ => none

/-- The request `q` of station `st`, with operation code `code`, is in progress as `g`, RESET released. -/
abbrev InProgress (code : Byte) (s : State) (g : Granted) (st : Station) (q : Request) : Prop :=
  s.resetHeld = false ∧ s.running = some g ∧ g.work = .request st q ∧ q.code = code

/-- The slot at the completion of its operation (R184, R185). -/
def slotWith (x : Slot) (res : Result) : Slot :=
  { x with
    state := .done
    result := res.code
    fields := res.fields
    data := match res.fields with
      | .read _ _ v => Vector.ofFn fun i : Fin 32 => wordOf (v.value.getD (2 * i) 0) (v.value.getD (2 * i + 1) 0)
      | _ => x.data }

/-- The tag of the REPLY that a link holds. -/
def heldTag (e : LinkEngine) : Bool := ((e.visit.bind (·.reply)).map (·.tag)).getD false

/-- The RESULT payload of a request with its echo (R152, R161). -/
def answerOf (e : LinkEngine) (q : Request) (res : Result) : TaggedPayload :=
  { tag := heldTag e, payload := resultPayload q.code res }

/-- The link at the completion of its request (R161). -/
def linkWith (e : LinkEngine) (q : Request) (res : Result) : LinkEngine :=
  { e with visit := e.visit.map fun v => { v with phase := .sendResult, result := some (answerOf e q res) } }

/-- A station's tag memory and counters at the completion of its request over a link (R140, R141, R161). -/
abbrev Counted (e e' : StationEntry) (t : TaggedPayload) (code : ResultCode) : Prop :=
  e'.last = (if code = .notOnline then e.last else some t) ∧
  e'.executed = (if code = .notOnline then e.executed else e.executed + 1) ∧
  e'.refusals = (if code = .ok then e.refusals else e.refusals + 1)

/-- The outcome reaches the requester and no other: the slot with its SLOT_DONE cause, or the visit with the
station's tag memory and counters (R40, R51, R161, R184, R185). -/
abbrev Answered (s t : State) (o : Origin) (st : Station) (q : Request) (res : Result) : Prop :=
  match o with
  | .slot k =>
    t.slots = s.slots.set k (slotWith s.slots[k] res) ∧ t.linkA = s.linkA ∧ t.linkB = s.linkB ∧
    causeSet (.slotDone k) t = true ∧
    ∀ x : Station, (t.station x).last = (s.station x).last ∧
      (t.station x).executed = (s.station x).executed ∧ (t.station x).refusals = (s.station x).refusals
  | .link l =>
    t.slots = s.slots ∧ t.link l = linkWith (s.link l) q res ∧
    (l = .a → t.linkB = s.linkB) ∧ (l = .b → t.linkA = s.linkA) ∧
    Counted (s.station st) (t.station st) (answerOf (s.link l) q res) res.code ∧
    ∀ x : Station, x ≠ st → (t.station x).last = (s.station x).last ∧
      (t.station x).executed = (s.station x).executed ∧ (t.station x).refusals = (s.station x).refusals
  | .window | .deadline | .clear =>
    t.slots = s.slots ∧ t.linkA = s.linkA ∧ t.linkB = s.linkB ∧
    ∀ x : Station, (t.station x).last = (s.station x).last ∧
      (t.station x).executed = (s.station x).executed ∧ (t.station x).refusals = (s.station x).refusals

/-! ## Records and what follows them -/

/-- The records with other point numbers stay, in their order. -/
abbrev OthersKept (s t : State) (p : Word) : Prop :=
  (t.index.filter fun x => x.point ≠ p) = s.index.filter fun x => x.point ≠ p

/-- The record at a point number becomes `new`; the others stay. -/
abbrev Becomes (s t : State) (p : Word) (new : Record) : Prop := t.findRecord p = some new ∧ OthersKept s t p

/-- Each station's counts follow its memberships as one record goes from `old` to `new` (R126). -/
abbrev CountsFollow (s t : State) (old new : Option Record) : Prop :=
  ∀ x : Station,
    (t.station x).claims = (s.station x).claims + ownsCount new x - ownsCount old x ∧
    (t.station x).subscriptions = (s.station x).subscriptions + followsCount new x - followsCount old x ∧
    (t.station x).pendingCount = (s.station x).pendingCount + owedCount new x - owedCount old x

/-- Every station keeps its counts, notice cursor and in-flight notice. -/
abbrev StationsKept (s t : State) : Prop :=
  ∀ x : Station,
    (t.station x).claims = (s.station x).claims ∧
    (t.station x).subscriptions = (s.station x).subscriptions ∧
    (t.station x).pendingCount = (s.station x).pendingCount ∧
    (t.station x).cursor = (s.station x).cursor ∧
    (t.station x).inflight = (s.station x).inflight

/-- The directory as a refused operation leaves it: records, index, pool, deadline list, incarnation counter,
counts and notice state (R51). -/
abbrev DirectoryKept (s t : State) : Prop :=
  t.index = s.index ∧ t.incarnation = s.incarnation ∧ t.freeCells = s.freeCells ∧ t.deadlines = s.deadlines ∧
  StationsKept s t

/-- The entries of the other records, in list order. -/
def othersEntries (s : State) (r : Record) : List Deadline := s.deadlines.filter fun d => !d.belongs r

/-- The list without a record's entry of one kind (R58). -/
def dropped (r : Record) (kind : DeadlineKind) (l : List Deadline) : List Deadline :=
  l.filter fun d => !(d.belongs r && d.kind == kind)

/-- The entry at its place in due-time order: after every entry that is due at its due time or before (R84, R94). -/
def placed (d : Deadline) (l : List Deadline) : List Deadline :=
  let notLater (x : Deadline) : Bool := (d.due - x.due).toNat < 2 ^ 31
  l.takeWhile notLater ++ d :: l.dropWhile notLater

/-- The list with a record's entry of one kind re-armed (R58). -/
def rearmed (r : Record) (kind : DeadlineKind) (due : LongWord) (l : List Deadline) : List Deadline :=
  placed { point := r.point, incarnation := r.incarnation, kind, due } (dropped r kind l)

/-- Pending for every subscriber but `st`, beside those pending before (R57). -/
def announcedTo (r : Record) (st : Station) : StationSet := r.pendingSet ||| setDrop r.subscribers st

/-- The generation after an accepted write (R10). -/
def generationAfter (g : Word) : Word := if g.toNat = 65535 then 1 else g + 1

/-- The ACTIVE fields after the value write of R65. -/
def written (q : Request) (a : Active) : Active :=
  { a with
    value := some (q.data.take q.arg1.toNat)
    quality := .good
    generation := generationAfter a.generation
    cells := cellsWith a q.arg1.toNat }

/-- The head of the deadline list is due at the clock (R84, R96). -/
def headIsDue (s : State) : Bool :=
  match s.deadlines.head? with
  | none => false
  | some d => (s.clock - d.due).toNat < 2 ^ 31

/-- The monitor's look at the head at the end of a completion: no EXPIRE is in progress then (R96). -/
def looked (s : State) : State := { s with expirePresented := s.expirePresented || headIsDue s }

/-! ## Departures, bank switches and stops -/

/-- Stations enter LEAVING in one step (R130, R142). -/
def departing (s : State) (sts : List Station) : State :=
  { s with
    stations := Vector.ofFn fun x : Station =>
      if x ∈ sts then { s.stations[x] with state := .leaving, timesLeft := s.stations[x].timesLeft + 1 }
      else s.stations[x]
    clearQueue := s.clearQueue ++ sts
    stationChanged := sts.foldl setAdd s.stationChanged
    causes := if sts = [] then s.causes else s.causes ||| BitVec.twoPow 16 5 }

/-- The station stands in the sweep of a bank: at an entry that no END comes before (R172). -/
def standsIn (bank : Vector (Fin 32) 32) (st : Station) : Bool :=
  decide (∃ i : Fin 32, bank[i].val = st.val ∧ ∀ j : Fin 32, j ≤ i → bank[j].val ≠ 0)

/-- The ONLINE stations of a link that satisfy `p`, in ascending order. -/
def onlineOf (s : State) (l : Link) (p : Station → Bool) : List Station :=
  (List.finRange 31).filter fun x => (s.station x).state = .online ∧ (s.station x).link = some l ∧ p x = true

/-- The attention bits of a link: BANK and LINK_STOPPED (R190). -/
def bankBit : Link → Word
  | .a => 0x0040
  | .b => 0x0080
def stoppedBit : Link → Word
  | .a => 0x0200
  | .b => 0x0400

/-- The taking of a switch request with its dismissals (R176, R177). -/
def switchTaken (s : State) (l : Link) : State :=
  let e := s.link l
  let s1 := s.modLink l fun e => { e with activeBank := e.activeBank + 1, switchRequest := false, walk := 0 }
  departing { s1 with causes := s1.causes ||| bankBit l }
    (onlineOf s l fun x => !standsIn e.banks[e.activeBank + 1] x)

/-- A RUNNING walk comes to the wrap point (R173, R176). -/
def wrapped (s : State) (l : Link) : State :=
  if (s.link l).switchRequest then switchTaken s l else s.modLink l fun e => { e with walk := 0 }

/-- The walk goes on from its entry; after entry 31 comes the wrap point (R173). -/
def passed (s : State) (l : Link) : State :=
  if (s.link l).walk.val = 31 then wrapped s l
  else s.modLink l fun e => { e with walk := e.walk + 1 }

/-- The completion of a stop (R170): its ONLINE stations leave, LINK_STOPPED is set, and a switch request
still set is taken and dismisses none. -/
def stopDone (s : State) (l : Link) : State :=
  let s1 := departing s (onlineOf s l fun _ => true)
  let s2 := s1.modLink l fun e =>
    { e with
      state := .stopped
      visit := none
      walk := 0
      activeBank := if e.switchRequest then e.activeBank + 1 else e.activeBank
      switchRequest := false }
  { s2 with
    causes := s2.causes ||| stoppedBit l ||| (if (s.link l).switchRequest then bankBit l else 0) }

/-! ## Visits -/

/-- The end of a visit (R153, R169, R170, R173). -/
def visitEnded (s : State) (l : Link) : State :=
  if (s.link l).state = .stopping then stopDone s l
  else passed (s.modLink l fun e => { e with visit := none }) l

/-- A miss (R129, R157). -/
def missed (s : State) (l : Link) (v : Visit) : State :=
  let s1 := s.modCounters l fun c => { c with misses := c.misses + 1 }
  let e := s.station v.station
  let s2 :=
    if e.state = .online ∧ e.link = some l then
      let s3 := s1.modStation v.station fun e => { e with missCount := e.missCount + 1 }
      if e.missCount + 1 = (s.link l).missLimit then departing s3 [v.station] else s3
    else s1
  visitEnded s2 l

/-- A failed try: the next try, or the miss (R157). -/
def tryFailed (s : State) (l : Link) (v : Visit) : State :=
  if v.tryNumber ≤ (s.link l).retryLimit ∧ (s.link l).state ≠ .stopping then
    s.modLink l fun e =>
      { e with
        visit := some { v with tryNumber := v.tryNumber + 1, phase := .sendVisit }
        counters := { e.counters with retries := e.counters.retries + 1 } }
  else missed s l v

/-- A valid REPLY meets the station entry (R128). -/
def contacted (s : State) (l : Link) (st : Station) : State :=
  let e := s.station st
  if e.link = some l ∧ e.state = .offline then
    { s.modStation st fun e => { e with state := .online, missCount := 0, freshOwed := false } with
      stationChanged := setAdd s.stationChanged st
      causes := s.causes ||| BitVec.twoPow 16 5 }
  else if e.link = some l ∧ e.state = .online then
    s.modStation st fun e => { e with missCount := 0 }
  else s

/-- The REQUEST phase of a visit that holds a reply: it ends without REQ; a repeat is answered from the
last-result record; any other request waits for the arbiter (R159, R160). -/
def requestPhase (s : State) (l : Link) (v : Visit) (reply : Reply) : State :=
  let e := s.station v.station
  let answer : Option TaggedPayload :=
    if e.state = .online ∧ e.link = some l then e.last.filter fun t => t.tag = reply.tag else none
  if reply.request = none then visitEnded s l
  else
    match answer with
    | some t =>
      (s.modLink l fun x =>
        { x with
          visit := some { v with phase := .sendResult, result := some t }
          counters := { x.counters with repeats := x.counters.repeats + 1 } }).modStation v.station
            fun e => { e with repeated := e.repeated + 1 }
    | none => s.modLink l fun x => { x with visit := some { v with phase := .request } }

/-- A valid REPLY: good replies, the station entry, and the ACK phase, which passes at once without ACK
(R128, R156, R158, R159). -/
def replied (s : State) (l : Link) (v : Visit) (reply : Reply) : State :=
  let s1 := contacted s l v.station
  let v1 : Visit := { v with phase := .ack, reply := some reply }
  let s2 := s1.modLink l fun e =>
    { e with
      receiver := .hunting
      visit := some v1
      counters := { e.counters with goodReplies := e.counters.goodReplies + 1 } }
  if reply.ack.isSome then s2 else requestPhase s2 l v1 reply

/-! ## Controls of a link (R167, R175, R176) -/

/-- SWITCH written: 0 withdraws the request; 1 sets it, and it is taken at once at a wrap point (R175, R176). -/
def switchWritten (s : State) (l : Link) (bit : Bool) : State :=
  let e := s.link l
  let waits := s.modLink l fun e => { e with switchRequest := bit }
  if bit ∧ (e.state = .stopped ∨ (e.state = .running ∧ (e.banks[e.activeBank])[0] = 0)) then switchTaken waits l
  else waits

/-- RUN written, by the link state (R167 to R170). -/
def runWritten (s : State) (l : Link) (bit : Bool) : State :=
  match (s.link l).state, bit with
  | .stopped, true => s.modLink l fun e => { e with state := .running, walk := 0 }
  | .running, false =>
    if (s.link l).visit = none then stopDone s l else s.modLink l fun e => { e with state := .stopping }
  | .stopping, true => { s with causes := s.causes ||| BitVec.twoPow 16 11 }
  | .stopped, false | .running, true | .stopping, false => s

/-! ## Notices -/

/-- How far a record lies in the search of a fetch: ascending from just after the cursor, round the wrap (R111). -/
def searchRank (cursor p : Word) : Nat := (p - cursor - 1).toNat

/-- The record that a fetch for `st` finds (R111). -/
abbrev FetchFinds (s : State) (st : Station) (r : Record) : Prop :=
  r ∈ s.index ∧ setHas r.pendingSet st = true ∧
  ∀ x ∈ s.index, setHas x.pendingSet st = true →
    searchRank (s.station st).cursor r.point ≤ searchRank (s.station st).cursor x.point

/-- The outcome of a fetch handed to its requester (R53, R120, R154, R155). -/
def fetchHanded (s : State) (o : Origin) (found : Option Snapshot) : State :=
  match o with
  | .window => { s with window := { s.window with snapshot := found, busy := false }, fills := s.fills + 1 }
  | .link l => s.modLink l fun e =>
      { e with visit := e.visit.map fun v =>
          { v with phase := .sendVisit, fresh := (s.station v.station).freshOwed, notice := found } }
  | .slot _ | .deadline | .clear => s

/-- The completion of an acknowledgement handed to its requester (R121, R159). -/
def ackHanded (s : State) (o : Origin) : State :=
  match o with
  | .window => { s with window := { s.window with snapshot := none, busy := false } }
  | .link l =>
    match (s.link l).visit with
    | none => s
    | some v => (v.reply.map fun reply => requestPhase s l v reply).getD s
  | .slot _ | .deadline | .clear => s

/-! ## Clears -/

/-- The record lies in the slots of chunk `k` (R136). -/
def inChunk (k : Fin 16) (r : Record) : Bool := 64 * k.val ≤ r.slot ∧ r.slot < 64 * k.val + 64

/-- Step 1 of a chunk: the departing owner goes (R137). -/
def ownerStripped (st : Station) (r : Record) : Record :=
  match r.phase with
  | .active a =>
    if a.owner = some st then
      { r with
        phase := .active { a with owner := none, lease := none }
        revision := r.revision + 1
        pendingSet := announcedTo r st }
    else r
  | .retiring => r

/-- Both steps of a chunk on a record: none when the record is freed (R137). -/
def stripped (st : Station) (k : Fin 16) (r : Record) : Option Record :=
  if inChunk k r then
    let r1 := ownerStripped st r
    let r2 := { r1 with subscribers := setDrop r1.subscribers st, pendingSet := setDrop r1.pendingSet st }
    if (setHas r.subscribers st ∨ setHas r.pendingSet st) ∧ r2.isRetiring ∧ r2.subscribers = 0 then none else some r2
  else some r

/-- A chunk takes the entry off the deadline list: the LEASE entry of a departing owner's record, or an entry
of a record it frees (R6, R137). -/
def chunkDrops (s : State) (st : Station) (k : Fin 16) (d : Deadline) : Bool :=
  s.index.any fun r => inChunk k r && d.belongs r &&
    ((d.kind == .lease && r.owner == some st) || (stripped st k r).isNone)

/-- How many records of a chunk satisfy `p`. -/
def countIn (s : State) (k : Fin 16) (p : Record → Bool) : Nat := s.index.countP fun r => inChunk k r && p r

/-! ## Frames received (R148, R151) -/

/-- The CRC octets are those of the frame's contents (R148). -/
def crcMatches (address type flags : Byte) (payload : List Byte) (crcLow crcHigh : Byte) : Bool :=
  crcOf (address :: type :: flags :: BitVec.ofNat 8 payload.length :: payload) = (crcHigh ++ crcLow : BitVec 16)

/-- Two octets of a number, low first (R147). -/
def pair (w : Word) : List Byte := [w.setWidth 8, (w >>> 8).setWidth 8]

/-- The request part of a REPLY (R151). -/
def requestPart (q : Request) : List Byte :=
  q.code :: (pair q.point ++
    match q.code.toNat with
    | 2 => (if q.expect then pair q.arg0 else []) ++ q.arg1.setWidth 8 :: q.data
    | 3 => [q.arg0.setWidth 8, q.arg1.setWidth 8] ++ pair q.arg2 ++ pair q.arg3
    | 5 | 9 => pair q.arg0
    | _ => [])

/-- A request holds what the table of R151 carries for its code and nothing else (R54). -/
def carried (q : Request) : Bool :=
  !q.force &&
  match q.code.toNat with
  | 2 => q.data.length = q.arg1.toNat ∧ q.arg1.toNat < 256 ∧ (q.expect ∨ q.arg0 = 0) ∧ q.arg2 = 0 ∧ q.arg3 = 0
  | 3 => !q.expect ∧ q.arg0.toNat < 256 ∧ q.arg1.toNat < 256 ∧ q.data = []
  | 5 | 9 => !q.expect ∧ q.arg1 = 0 ∧ q.arg2 = 0 ∧ q.arg3 = 0 ∧ q.data = []
  | _ => !q.expect ∧ q.arg0 = 0 ∧ q.arg1 = 0 ∧ q.arg2 = 0 ∧ q.arg3 = 0 ∧ q.data = []

/-- The payload of a REPLY (R151). -/
def replyPart (r : Reply) : List Byte :=
  (match r.ack with
   | some id => pair id.point ++ pair id.incarnation ++ pair id.revision
   | none => []) ++
  (match r.request with
   | some q => requestPart q
   | none => [])

/-- The flags of a REPLY: ACK, REQ and TAG, and EXPECT for a WRITE (R147, R151). -/
def flagsOf (r : Reply) (flags : Byte) : Bool :=
  flags.getLsbD 0 = r.ack.isSome ∧ flags.getLsbD 1 = r.request.isSome ∧ flags.getLsbD 2 = r.tag ∧
  (r.request.all fun q => q.code ≠ 2 ∨ flags.getLsbD 3 = q.expect)

/-! ## Grants, visits, slots and misuse -/

/-- Requester number `n` from the pointer in the cyclic order of R39. -/
def nthFrom (p : Requester) (n : Nat) : Requester := Nat.iterate nextRequester n p

/-- `r` is the first requester from the pointer on with an operation waiting, and presents `w` for `o` (R39). -/
abbrev FirstWaiting (s : State) (r : Requester) (o : Origin) (w : Work) : Prop :=
  presented s r = some (o, w) ∧
  ∃ n : Fin 5, nthFrom s.pointer n = r ∧ ∀ m : Fin 5, m < n → presented s (nthFrom s.pointer m) = none

/-- The arbiter is free, RESET released, and `r` is the first waiting with `w` for `o`. -/
abbrev GrantTo (s : State) (r : Requester) (o : Origin) (w : Work) : Prop :=
  s.resetHeld = false ∧ s.running = none ∧ FirstWaiting s r o w

/-- The station an operation of a link acts for is ONLINE and assigned to that link; the others are not checked (R42). -/
def standingGood (s : State) (o : Origin) (w : Work) : Bool :=
  match o with
  | .link l => (workStation w).all fun st => (s.station st).state = .online ∧ (s.station st).link = some l
  | .slot _ | .window | .deadline | .clear => true

/-- The operation code is open to the requester (R43). -/
def codeGood (o : Origin) (w : Work) : Bool :=
  match w with
  | .request _ q => 1 ≤ q.code.toNat ∧ q.code.toNat ≤ (match o with | .slot _ => 12 | _ => 9)
  | .noticeFetch _ | .noticeAck _ _ | .expire | .clearChunk _ _ => true

/-- The request of a slot, field by field: code, flags, point and arguments from its parameter words, and 64 octets
from its data words, octet 2k in bits 0 to 7 and octet 2k + 1 in bits 8 to 15 of word k (R41, R54, R182). -/
abbrev SlotAsks (x : Slot) (q : Request) : Prop :=
  q.code = x.code ∧ q.expect = x.expect ∧ q.force = x.force ∧ q.point = x.point ∧
  q.arg0 = x.args[0] ∧ q.arg1 = x.args[1] ∧ q.arg2 = x.args[2] ∧ q.arg3 = x.args[3] ∧
  q.data.length = 64 ∧
  ∀ k : Fin 32, q.data[2 * k.val]? = some (x.data[k].setWidth 8) ∧
    q.data[2 * k.val + 1]? = some ((x.data[k] >>> 8).setWidth 8)

/-- A granted operation leaves its requester: a slot becomes RUNNING and leaves the queue (R37, R184). -/
def left (s : State) (o : Origin) : State :=
  match o with
  | .slot k =>
    { s with
      slots := s.slots.set k { s.slots[k] with state := .running }
      submission := s.submission.filter fun j => j ≠ k }
  | .window => { s with window := { s.window with waiting := none } }
  | .deadline => { s with expirePresented := false }
  | .link _ | .clear => s

/-- A request with this code is refused by the first failing row of its table, with no change of the directory. -/
abbrev RefusesBy (c : Instr) (code : Byte)
    (table : Granted → Station → Request → State → List Row) : Prop :=
  ∀ s g st q res, InProgress code s g st q → refusedBy (table g st q s) = some res →
    Completes c s fun t => DirectoryKept s t ∧ Answered s t g.origin st q res

/-- The code of the entry that a link's walk stands at. -/
def walkCode (e : LinkEngine) : Nat := ((e.banks[e.activeBank])[e.walk]).val

/-- The visit that begins at an entry (R153, R155, R163). -/
def begun (s : State) (l : Link) (x : Station) : State :=
  let e := s.station x
  let v : Visit :=
    { station := x, entry := (s.link l).walk, tryNumber := 1, fresh := e.freshOwed, notice := none, reply := none
      result := none, phase := if e.state = .online ∧ 0 < e.pendingCount then .fetch else .sendVisit }
  s.modLink l fun y => { y with visit := some v }

/-- The frame is a valid REPLY to the visit, with the parts `reply` (R156). -/
abbrev ValidReply (v : Visit) (address type flags : Byte) (payload : List Byte) (lo hi : Byte)
    (reply : Reply) : Prop :=
  payload.length ≤ 96 ∧ crcMatches address type flags payload lo hi = true ∧ type = 2 ∧ address.toNat = v.station.val ∧
  parseReply flags payload = some reply

/-- A link after a frame: its receiver hunts again, and its counters are changed. -/
def frameEnded (s : State) (l : Link) (f : LinkCounters → LinkCounters) : State :=
  s.modLink l fun e => { e with receiver := .hunting, counters := f e.counters }

/-- A write ignored as misuse sets PORT_FAULT and changes nothing else (R191). -/
def faulted (s : State) : State := { s with causes := s.causes ||| 0x0800 }

/-- A parameter or data word of a slot holds the value written (R182, R183). -/
def wordStored (x : Slot) (w : SlotWord) (v : Word) : Slot :=
  match w with
  | .op => { x with code := v.setWidth 8, expect := v.getLsbD 8, force := v.getLsbD 9 }
  | .point => { x with point := v }
  | .argument i => { x with args := x.args.set i v }
  | .data i => { x with data := x.data.set i v }

/-- A write of this word of a slot is a parameter or data write: an OP word has none of GO, CANCEL and CLEAR set,
bits 12 to 14 (R182, R183). -/
def parameterOnly (w : SlotWord) (v : Word) : Bool :=
  match w with
  | .op => !v.getLsbD 12 && !v.getLsbD 13 && !v.getLsbD 14
  | .point | .argument _ | .data _ => true

/-- A change of a remote station's state is told: the station-changed set and STATION (R142). -/
def told (s : State) (x : Station) : State :=
  { s with stationChanged := setAdd s.stationChanged x, causes := s.causes ||| 0x0020 }

/-! ## The register window -/

/-- Whether a write to a word that is not a command's is misuse: the read-only words of the station window, a
second command bit in an OP word, TAKE with ACK, and an unknown station command (R183, R187, R188). -/
def misuse (a : Nat) (v : Word) : Bool :=
  a = 0x141 ∨ (0x144 ≤ a ∧ a ≤ 0x14D) ∨ (a = 0x100 ∧ v.getLsbD 0 ∧ v.getLsbD 1) ∨ (a = 0x143 ∧ 2 < v.toNat) ∨
  ((a = 0x040 ∨ a = 0x070 ∨ a = 0x0A0 ∨ a = 0x0D0) ∧
    2 ≤ (v.getLsbD 12).toNat + (v.getLsbD 13).toNat + (v.getLsbD 14).toNat)

/-- The command that a write of an OP word is, with one of GO, CANCEL and CLEAR or with none (R183). -/
def opCommand (k : Fin 4) (v : Word) : Option Instr :=
  let code := v.setWidth 8
  let expect := v.getLsbD 8
  let force := v.getLsbD 9
  match v.getLsbD 12, v.getLsbD 13, v.getLsbD 14 with
  | true, false, false => some (.go k code expect force)
  | false, true, false => some (.cancel k code expect force)
  | false, false, true => some (.clear k code expect force)
  | false, false, false => some (.slotParameterWrite k .op v)
  | _, _, _ => none

/-- The command that a write of a word of a slot block is, by its offset (R182). -/
def slotCommand (k : Fin 4) (offset : Nat) (v : Word) : Option Instr :=
  if offset = 0 then opCommand k v
  else if offset = 1 then some (.slotParameterWrite k .point v)
  else if h : 2 ≤ offset ∧ offset ≤ 5 then some (.slotParameterWrite k (.argument ⟨offset - 2, by omega⟩) v)
  else if h : 0x10 ≤ offset ∧ offset ≤ 0x2F then some (.slotParameterWrite k (.data ⟨offset - 0x10, by omega⟩) v)
  else none

/-- The row of the table that a bus write is, by the map of R182; none where no register takes it. -/
def portCommand (a : Nat) (v : Word) : Option Instr :=
  match a with
  | 0x000 => if v.getLsbD 0 then some (.softReset (v.getLsbD 1)) else if v.getLsbD 1 then some .clockLatch else none
  | 0x002 => some (.attnCauseWrite v)
  | 0x003 => some (.attnEnableWrite v)
  | 0x004 => some (.stationChangedWrite false v)
  | 0x005 => some (.stationChangedWrite true v)
  | 0x012 => some (.poolLowThresholdWrite v)
  | 0x013 => some (.leaseMaxWrite v)
  | 0x100 => match v.getLsbD 0, v.getLsbD 1 with
    | true, false => some .take
    | false, true => some .ack
    | _, _ => none
  | 0x140 => some (.selectWrite .station v)
  | 0x142 => some (.linkAssignmentWrite v)
  | 0x143 => if v.toNat = 1 then some .bar else if v.toNat = 2 then some .unbar else none
  | 0x14E => some (.stationCounterWrite .executed v)
  | 0x14F => some (.stationCounterWrite .repeated v)
  | 0x150 => some (.stationCounterWrite .refusals v)
  | 0x151 => some (.stationCounterWrite .strayAcks v)
  | 0x152 => some (.stationCounterWrite .timesLeft v)
  | 0x160 => some (.selectWrite .fence v)
  | 0x161 => some (.fenceWrite .enable v)
  | 0x162 => some (.fenceWrite .low v)
  | 0x163 => some (.fenceWrite .high v)
  | 0x164 => some (.fenceWrite .readMaskLow v)
  | 0x165 => some (.fenceWrite .readMaskHigh v)
  | 0x166 => some (.fenceWrite .writeMaskLow v)
  | 0x167 => some (.fenceWrite .writeMaskHigh v)
  | 0x170 => some (.selectWrite .link v)
  | 0x171 => some (.selectWrite .bank v)
  | 0x172 => some (.selectWrite .entry v)
  | 0x173 => some (.entryValueWrite v)
  | 0x174 => some (if v.getLsbD 0 then .run (v.getLsbD 1) else .runCleared (v.getLsbD 1))
  | 0x175 => some (.linkParameterWrite .bitRate v)
  | 0x176 => some (.linkParameterWrite .replyTimeout v)
  | 0x177 => some (.linkParameterWrite .retryLimit v)
  | 0x178 => some (.linkParameterWrite .missLimit v)
  | a =>
    if 0x179 ≤ a ∧ a ≤ 0x18A then
      some (.linkCounterWrite
        (match (a - 0x179) / 2 with
         | 0 => .visitsSent
         | 1 => .goodReplies
         | 2 => .retries
         | 3 => .crcFailures
         | 4 => .timeouts
         | 5 => .misses
         | 6 => .repeats
         | 7 => .strayFrames
         | _ => .mismatchedSlots) ((a - 0x179) % 2 = 1) v)
    else if 0x040 ≤ a ∧ a ≤ 0x06F then slotCommand 0 (a - 0x040) v
    else if 0x070 ≤ a ∧ a ≤ 0x09F then slotCommand 1 (a - 0x070) v
    else if 0x0A0 ≤ a ∧ a ≤ 0x0CF then slotCommand 2 (a - 0x0A0) v
    else if 0x0D0 ≤ a ∧ a ≤ 0x0FF then slotCommand 3 (a - 0x0D0) v
    else none

end Sys2Proof.Spec
end

