-- ==== Sys2Proof/Safety/Window.lean ====
section
/-! DEFINITION. What reads of the register window show, written from the map of R182 and apart from the model's own
reads: one word for every address whose contents the manual states whole. -/

namespace Sys2Proof.Spec

open Sys2Proof.Machine

/-- A number as a word. -/
def word (n : Nat) : Word := BitVec.ofNat 16 n

/-- Two numbers in bits 0 to 7 and from bit 8 on. -/
def octets (low high : Nat) : Word := word (low + 256 * high)

/-- An owner as a number: the station, or 255 for none (R182, R186). -/
def ownerNumber (o : Option Station) : Nat := (o.map fun st => st.val).getD 255

/-- Word `o` of the result fields, 09h to 0Fh from a slot's base; a field not returned reads 0 (R186). -/
def resultShown (o : Nat) (f : ResultFields) : Word :=
  match o, f with
  | 0x9, .read _ _ v => octets (classCode v.cls).toNat (qualityCode v.quality).toNat
  | 0x9, .next _ cls => octets (classCode cls).toNat 0
  | 0xA, .read _ _ v => v.generation
  | 0xA, .generation g => g
  | 0xB, .read revision _ _ => revision
  | 0xC, .read _ incarnation _ => incarnation
  | 0xC, .created incarnation _ => incarnation
  | 0xD, .read _ _ v => octets (ownerNumber v.owner) v.pinned.toNat
  | 0xD, .owner st => octets st.val 0
  | 0xE, .read _ _ v => word v.value.length
  | 0xF, .created _ lease => lease
  | 0xF, .lease granted => granted
  | 0xF, .next point _ => point
  | _, _ => 0

/-- Word `o` of a slot's block; 06h and 07h are no register (R182). -/
def slotShown (x : Slot) (o : Nat) : Word :=
  if o = 0 then word (x.code.toNat + 256 * x.expect.toNat + 512 * x.force.toNat)
  else if o = 1 then x.point
  else if h : 2 ≤ o ∧ o ≤ 5 then x.args[o - 2]
  else if o = 8 then
    octets (match x.state with | .idle => 0 | .queued => 1 | .running => 2 | .done => 3) (resultNumber x.result).toNat
  else if h : 0x10 ≤ o ∧ o ≤ 0x2F then x.data[o - 0x10]
  else resultShown o x.fields

/-- A word of the notice window's snapshot that the manual states: all of a STATE snapshot up to its value's last
whole word, the numbers of a RETIRED one (R112, R120, R182). -/
def noticeShown (n : Snapshot) (a : Nat) : Option Word :=
  match a, n.body with
  | 0x101, _ => some n.id.point
  | 0x102, _ => some n.id.incarnation
  | 0x103, _ => some n.id.revision
  | 0x104, .state v => some (octets 1 (classCode v.cls).toNat)
  | 0x105, .state v => some (octets (qualityCode v.quality).toNat v.pinned.toNat)
  | 0x106, .state v => some v.generation
  | 0x107, .state v => some (octets (ownerNumber v.owner) 0)
  | 0x108, .state v => some (word v.value.length)
  | _, .retired => none
  | a, .state v =>
    match v.value[2 * (a - 0x110)]?, v.value[2 * (a - 0x110) + 1]? with
    | some low, some high => some (octets low.toNat high.toNat)
    | _, _ => none

/-- A word of the station window for the selected station, 141h to 152h, that the manual states (R124, R141, R182). -/
def stationShown (e : StationEntry) (a : Nat) : Option Word :=
  match a with
  | 0x141 => some (octets
      (match e.state with | .local_ => 0 | .offline => 1 | .online => 2 | .leaving => 3 | .barred => 4)
      (e.barredMark.toNat + 2 * e.freshOwed.toNat))
  | 0x142 => some (match e.link with | none => 0 | some .a => 1 | some .b => 2)
  | 0x144 => some (word e.missCount)
  | 0x145 => some (word e.claims)
  | 0x146 => some (word e.subscriptions)
  | 0x147 => some (word e.pendingCount)
  | 0x148 => some e.cursor
  | 0x149 => some (if e.inflight.isSome then 1 else 0)
  | 0x14A => e.inflight.map fun id => id.point
  | 0x14B => e.inflight.map fun id => id.incarnation
  | 0x14C => e.inflight.map fun id => id.revision
  | 0x14D => e.last.map fun t => octets (1 + 2 * t.tag.toNat) t.payload.length
  | 0x14E => some e.executed
  | 0x14F => some e.repeated
  | 0x150 => some e.refusals
  | 0x151 => some e.strayAcks
  | 0x152 => some e.timesLeft
  | _ => some 0

/-- A set of stations in its two words: 1 to 15 at bits 1 to 15, 16 to 30 at bits 0 to 14 (R182). -/
def lowStations (set : StationSet) : Word := set.setWidth 16
def highStations (set : StationSet) : Word := (set >>> 16).setWidth 16

/-- A word of the fence window for the selected fence, 161h to 167h (R182). -/
def fenceShown (f : Fence) (a : Nat) : Word :=
  match a with
  | 0x161 => word f.enabled.toNat
  | 0x162 => f.low
  | 0x163 => f.high
  | 0x164 => lowStations f.readMask
  | 0x165 => highStations f.readMask
  | 0x166 => lowStations f.writeMask
  | 0x167 => highStations f.writeMask
  | _ => 0

/-- The low word of the counter that stands at an even place of 179h to 18Ah (R178, R182). -/
def counterShown (c : LinkCounters) (a : Nat) : Word :=
  match a with
  | 0x179 => c.visitsSent.setWidth 16
  | 0x17B => c.goodReplies.setWidth 16
  | 0x17D => c.retries.setWidth 16
  | 0x17F => c.crcFailures.setWidth 16
  | 0x181 => c.timeouts.setWidth 16
  | 0x183 => c.misses.setWidth 16
  | 0x185 => c.repeats.setWidth 16
  | 0x187 => c.strayFrames.setWidth 16
  | 0x189 => c.mismatchedSlots.setWidth 16
  | _ => 0

/-- A word of the sweep window for the selected link, 173h to 18Ah; the high word of each counter is the hold word
(R182, R189). -/
def sweepShown (s : State) (a : Nat) : Word :=
  let e := s.link s.linkSelect
  match a with
  | 0x173 => word ((e.banks[s.bankSelect])[s.entrySelect]).val
  | 0x174 => word ((match e.state with | .stopped => 0 | .running => 1 | .stopping => 2) +
      4 * e.switchRequest.toNat + 8 * e.activeBank.val)
  | 0x175 => word e.bitRate.val
  | 0x176 => word e.replyTimeout
  | 0x177 => word e.retryLimit
  | 0x178 => word e.missLimit
  | 0x17A | 0x17C | 0x17E | 0x180 | 0x182 | 0x184 | 0x186 | 0x188 | 0x18A => s.counterHold
  | a => counterShown e.counters a

/-- A word of the port below the slots but for PORT_STATUS and ATTN_CAUSE: a command word and a word with no register
read 0000h (R181, R182). -/
def portShown (s : State) (a : Nat) : Word :=
  match a with
  | 0x003 => s.enables
  | 0x004 => lowStations s.stationChanged
  | 0x005 => highStations s.stationChanged
  | 0x010 => word s.index.length
  | 0x011 => word s.freeCells
  | 0x012 => word s.poolThreshold
  | 0x013 => word s.leaseMax
  | 0x014 => s.clockWords.setWidth 16
  | 0x015 => (s.clockWords >>> 16).setWidth 16
  | _ => 0

/-- What a read of a word shows: none for PORT_STATUS and ATTN_CAUSE, whose bits are said apart, and for the words
whose contents the manual leaves open (log entry 22). Every address with no register shows 0000h (R181, R182). -/
def shown (s : State) (a : Nat) : Option Word :=
  if a = 0x001 ∨ a = 0x002 then none
  else if a < 0x040 then some (portShown s a)
  else if a < 0x070 then some (slotShown s.slots[0] (a - 0x040))
  else if a < 0x0A0 then some (slotShown s.slots[1] (a - 0x070))
  else if a < 0x0D0 then some (slotShown s.slots[2] (a - 0x0A0))
  else if a < 0x100 then some (slotShown s.slots[3] (a - 0x0D0))
  else if a = 0x100 then some (word (s.window.snapshot.isSome.toNat + 2 * s.window.busy.toNat))
  else if (0x101 ≤ a ∧ a ≤ 0x108) ∨ (0x110 ≤ a ∧ a ≤ 0x12F) then
    match s.window.snapshot with
    | none => some 0
    | some n => noticeShown n a
  else if a = 0x140 then some (word s.stationSelect.val)
  else if 0x141 ≤ a ∧ a ≤ 0x152 then stationShown (s.station s.stationSelect) a
  else if a = 0x160 then some (word s.fenceSelect.val)
  else if 0x161 ≤ a ∧ a ≤ 0x167 then some (fenceShown s.fences[s.fenceSelect] a)
  else if a = 0x170 then some (match s.linkSelect with | .a => 0 | .b => 1)
  else if a = 0x171 then some (word s.bankSelect.val)
  else if a = 0x172 then some (word s.entrySelect.val)
  else if 0x173 ≤ a ∧ a ≤ 0x18A then some (sweepShown s a)
  else some 0

end Sys2Proof.Spec
end

