-- ==== Sys2Proof/Certificates/Slice0/Obligations.lean ====
section
/-! DEFINITION. The statements. The terms they are stated in stand in Sys2Proof/Safety.lean and
Sys2Proof/Safety/Terms.lean and Window.lean. -/

section

open Sys2Proof Sys2Proof.Machine Sys2Proof.Spec

/-! ## Steps, the queue and resets -/

/-- A step runs the command at the front of the queue on the state with the queue's rest. -/
def Obligations.StepRunsTheFrontCommand : Prop :=
  ∀ (c : Instr) (rest : List Instr) (s : State),
    s.pending = c :: rest → step s = exec c { s with pending := rest }

/-- With no command waiting the block idles (the model's choice, log entry 2). -/
def Obligations.StepIdlesOnAnEmptyQueue : Prop :=
  ∀ s : State, s.pending = [] → step s = .next s

/-- Every command answers a next state in every state, leaves the queue alone, and does not look at it. That a command
whose event cannot occur in a state completes too, with no effect, is the model's choice (log entry 1), and so is the
queue, which every command keeps, FULL_RESET among them (log entries 9 and 14). -/
def Obligations.EveryCommandKeepsTheQueue : Prop :=
  ∀ (c : Instr) (s : State), Completes c s fun t =>
    t.pending = s.pending ∧ ∀ q, exec c { s with pending := q } = .next { t with pending := q }

/-- State.reset holds the values the rules give after a full reset (R22, R35, R45, R50, R104, R123, R143, R179, R193). -/
def Obligations.ResetHoldsTheStatedValues : Prop :=
  let s := State.reset
  s.index = [] ∧ s.incarnation = 0 ∧ s.freeCells = 2048 ∧ s.poolThreshold = 0 ∧
  s.pointer = .linkA ∧ s.running = none ∧ (∀ r : Requester, presented s r = none) ∧
  (∀ i : Fin 8, s.fences[i] = { enabled := false, low := 0, high := 0, readMask := 0, writeMask := 0 }) ∧
  s.clock = 0 ∧ s.deadlines = [] ∧ s.expirePresented = false ∧ s.leaseMax = 600 ∧
  (∀ x : Station, (s.station x).state = (if x = 0 then .local_ else .offline) ∧
    s.station x = { (s.station x) with
      link := none, barredMark := false, missCount := 0, claims := 0, subscriptions := 0, pendingCount := 0,
      cursor := 0, inflight := none, freshOwed := false, last := none, executed := 0, repeated := 0,
      refusals := 0, strayAcks := 0, timesLeft := 0 }) ∧
  s.clearQueue = [] ∧ s.clearProgress = 0 ∧ s.stationChanged = 0 ∧
  (∀ e ∈ [s.linkA, s.linkB],
    e.state = .stopped ∧ e.visit = none ∧ e.sending = none ∧ e.bitRate.val = 2 ∧ e.replyTimeout = 20 ∧
    e.retryLimit = 2 ∧ e.missLimit = 3 ∧ (∀ b : Fin 2, ∀ i : Fin 32, (e.banks[b])[i].val = 0) ∧
    e.activeBank = 0 ∧ e.switchRequest = false ∧
    e.counters = { visitsSent := 0, goodReplies := 0, retries := 0, crcFailures := 0, timeouts := 0, misses := 0,
                   repeats := 0, strayFrames := 0, mismatchedSlots := 0 }) ∧
  (∀ k : Fin 4, (s.slots[k]).state = .idle ∧ (s.slots[k]).code = 0 ∧ (s.slots[k]).expect = false ∧
    (s.slots[k]).force = false ∧ (s.slots[k]).point = 0 ∧ (∀ i : Fin 4, (s.slots[k]).args[i] = 0) ∧
    (∀ i : Fin 32, (s.slots[k]).data[i] = 0) ∧ resultNumber (s.slots[k]).result = 0 ∧
    ∀ i : Fin 7, resultWord i (s.slots[k]).fields = 0) ∧
  s.submission = [] ∧ s.window = { snapshot := none, busy := false, waiting := none } ∧
  s.causes = 0 ∧ s.enables = 0 ∧ s.stationSelect = 0 ∧ s.fenceSelect = 0 ∧ s.linkSelect = .a ∧
  s.bankSelect = 0 ∧ s.entrySelect = 0 ∧ s.clockWords = 0 ∧ s.counterHold = 0 ∧ s.pending = []

/-- While RESET is held no command but its release and a new reset acts, every read returns 0000h, ATTN is released and
both line drivers are disabled (R193). The data lines are the model's own field (log entry 10), and that a command taken
from the queue meanwhile is spent without effect is log entry 9. -/
def Obligations.HeldResetActsOnNothing : Prop :=
  ∀ s : State, s.resetHeld = true →
    (∀ c : Instr, c ≠ .fullReset → c ≠ .resetRelease → (∀ w, c ≠ .linkCounterLowRead w) → exec c s = .next s) ∧
    (∀ w, exec (.linkCounterLowRead w) s = .next { s with dataLines := 0 }) ∧
    (∀ a, s.readWord a = 0) ∧ attnAsserted s = false ∧ ∀ l, driverEnable s l = false

/-- FULL_RESET puts every block at its full-reset state with RESET held; RESET_RELEASE lets the part go on from
the state it holds (R193). That the queue stays is the model's choice (log entry 9); so is what FULL_RESET does to the
model's own fields: the data lines show 0 (log entry 10), the count of fills stays (log entry 22). -/
def Obligations.FullResetThenRelease : Prop :=
  ∀ s : State,
    exec .fullReset s = .next { State.reset with resetHeld := true, fills := s.fills, pending := s.pending } ∧
    exec .resetRelease s = .next { s with resetHeld := false } ∧
    (∀ t, exec .fullReset s = .next t → exec .resetRelease t = .next
      { State.reset with fills := s.fills, pending := s.pending })

/-- SOFT_RESET empties the directory, the arbiter, the lists, the slots, the window and the causes, stops the links
at once, and keeps what R192 names; with CLOCK_LATCH the clock words take the clock (R22, R144, R166, R180, R192). That
it keeps the data lines, the count of fills and the queue, which are the model's own, is the model's choice (log
entries 10, 22 and 14). -/
def Obligations.SoftResetEmptiesAndKeeps : Prop :=
  ∀ (s : State) (latch : Bool), s.resetHeld = false → Completes (.softReset latch) s fun t =>
    t = { State.reset with
      poolThreshold := s.poolThreshold, fences := s.fences, clock := s.clock, leaseMax := s.leaseMax
      stations := t.stations, linkA := t.linkA, linkB := t.linkB
      enables := s.enables, stationSelect := s.stationSelect, fenceSelect := s.fenceSelect
      linkSelect := s.linkSelect, bankSelect := s.bankSelect, entrySelect := s.entrySelect
      clockWords := if latch then s.clock else s.clockWords
      dataLines := s.dataLines, fills := s.fills, pending := s.pending } ∧
    (∀ x : Station, t.station x =
      { state := match (s.station x).state with
          | .local_ => .local_
          | .barred => .barred
          | .offline | .online | .leaving => .offline
        link := (s.station x).link
        freshOwed := !((s.station x).state == .local_)
        barredMark := false, missCount := 0, claims := 0, subscriptions := 0, pendingCount := 0, cursor := 0
        inflight := none, last := none, executed := 0, repeated := 0, refusals := 0, strayAcks := 0, timesLeft := 0 }) ∧
    ∀ l : Link, t.link l =
      { LinkEngine.reset with
        bitRate := (s.link l).bitRate, replyTimeout := (s.link l).replyTimeout
        retryLimit := (s.link l).retryLimit, missLimit := (s.link l).missLimit
        banks := (s.link l).banks, activeBank := (s.link l).activeBank }

/-! ## The arbiter and the fences -/

/-- What each requester presents: a link the operation its visit's phase waits on, the local requester the
notice-window operation before the head slot, the monitor its EXPIRE, the Clear Engine the next chunk of the head
station; links and the Clear Engine present nothing while their own operation is in progress. The request of a slot is
what its parameter and data words hold (R36, R37, R41, R54, R136, R182). -/
def Obligations.RequestersPresentTheirOperations : Prop :=
  ∀ s : State,
    (∀ l v, (s.link l).visit = some v → runningFor s (.link l) = false →
      presented s (match l with | .a => .linkA | .b => .linkB) =
        match v.phase with
        | .fetch => some (.link l, .noticeFetch v.station)
        | .ack => (v.reply.bind (·.ack)).map fun id => (.link l, .noticeAck v.station id)
        | .request => (v.reply.bind (·.request)).map fun q => (.link l, .request v.station q)
        | .sendVisit | .awaitReply | .sendResult => none) ∧
    (∀ l, (s.link l).visit = none ∨ runningFor s (.link l) = true →
      presented s (match l with | .a => .linkA | .b => .linkB) = none) ∧
    (s.window.waiting = some .fetch → presented s .local_ = some (.window, .noticeFetch 0)) ∧
    (∀ n, s.window.waiting = some .ack → s.window.snapshot = some n →
      presented s .local_ = some (.window, .noticeAck 0 n.id)) ∧
    (∀ k rest, s.window.waiting = none → s.submission = k :: rest →
      presented s .local_ = some (.slot k, .request 0 (slotRequest s.slots[k]))) ∧
    (∀ x : Slot, SlotAsks x (slotRequest x)) ∧
    (s.window.waiting = none → s.submission = [] → presented s .local_ = none) ∧
    presented s .deadline = (if s.expirePresented then some (.deadline, .expire) else none) ∧
    (∀ st rest, s.clearQueue = st :: rest → runningFor s .clear = false →
      presented s .clear = some (.clear, .clearChunk st s.clearProgress)) ∧
    (s.clearQueue = [] ∨ runningFor s .clear = true → presented s .clear = none)

/-- GRANT: the first waiting requester is granted, the pointer moves past it, and the operation goes in progress
with the clock reading, the fences and LEASE_MAX of the grant; with no requester waiting, or while an operation is in
progress, nothing happens. The cyclic order is Link A, Link B, local, Deadline Monitor, Clear Engine (R39, R40, R41, R49,
R92). -/
def Obligations.GrantStartsTheFirstWaiting : Prop :=
  (nextRequester .linkA = .linkB ∧ nextRequester .linkB = .local_ ∧ nextRequester .local_ = .deadline ∧
    nextRequester .deadline = .clear ∧ nextRequester .clear = .linkA) ∧
  (∀ s r o w, GrantTo s r o w → standingGood s o w = true → codeGood o w = true →
    exec .grant s = .next
      { left s o with
        pointer := nextRequester r
        running := some { origin := o, work := w, now := s.clock, fences := s.fences, leaseMax := s.leaseMax } }) ∧
  (∀ s : State, s.running.isSome = true ∨ (∀ r, presented s r = none) → exec .grant s = .next s)

/-- GRANT of a link operation whose station is not ONLINE on the link: a request is answered NOT_ONLINE and stores
nothing, a fetch finds nothing, an acknowledgement has no effect (R42). That it completes within the GRANT is log entry 4. -/
def Obligations.GrantRefusesStationsNotOnline : Prop :=
  ∀ s r l w, GrantTo s r (.link l) w → standingGood s (.link l) w = false →
    let s1 := { s with pointer := nextRequester r }
    exec .grant s = .next (looked (match w with
      | .request st q =>
        (s1.modLink l fun e => linkWith e q (plain .notOnline)).modStation st fun e => { e with refusals := e.refusals + 1 }
      | .noticeFetch _ => fetchHanded s1 (.link l) none
      | .noticeAck _ _ => ackHanded s1 (.link l)
      | .expire | .clearChunk _ _ => s1))

/-- GRANT of a request whose code is not open to its requester: BAD_OP, and no change of the directory (R43). That it
completes within the GRANT is log entry 4. -/
def Obligations.GrantRefusesBadCodes : Prop :=
  ∀ s r o st q, GrantTo s r o (.request st q) → standingGood s o (.request st q) = true →
    codeGood o (.request st q) = false →
    Completes .grant s fun t =>
      t = looked { s with
        pointer := nextRequester r, stations := t.stations, linkA := t.linkA, linkB := t.linkB, slots := t.slots
        submission := match o with | .slot k => s.submission.filter fun j => j ≠ k | _ => s.submission
        causes := match o with | .slot k => s.causes ||| BitVec.twoPow 16 k.val | _ => s.causes } ∧
      StationsKept s t ∧ Answered s t o st q (plain .badOp)

/-- A GRANT with a requester waiting either moves the pointer past that requester, or leaves it waiting with the same
operation and brings the pointer nearer to it; the distance is at most 4 (R39). -/
def Obligations.GrantNearsEveryWaitingRequester : Prop :=
  ∀ s r x, s.resetHeld = false → s.running = none → presented s r = some x → Completes .grant s fun t =>
    t.pointer = nextRequester r ∨
    (presented t r = some x ∧ ∃ m n : Fin 5, nthFrom t.pointer m = r ∧ nthFrom s.pointer n = r ∧ m < n)

/-- The Fence Unit's decision: a remote station may read (write) a point that no enabled fence covers, or that a
covering fence with the station in its read (write) mask covers; the local station always may (R47). -/
def Obligations.FencesDecideByUnion : Prop :=
  ∀ (g : Granted) (st : Station) (p : Word),
    let covers (i : Fin 8) : Prop :=
      g.fences[i].enabled = true ∧ g.fences[i].low.toNat ≤ p.toNat ∧ p.toNat ≤ g.fences[i].high.toNat
    (mayRead g st p = true ↔
      st = 0 ∨ (∀ i, ¬ covers i) ∨ ∃ i, covers i ∧ g.fences[i].readMask.getLsbD st.val = true) ∧
    (mayWrite g st p = true ↔
      st = 0 ∨ (∀ i, ¬ covers i) ∨ ∃ i, covers i ∧ g.fences[i].writeMask.getLsbD st.val = true)

/-! ## Requests -/

/-- READ, WRITE, CREATE, RETIRE, PIN, UNPIN and PURGE: the first failing check of the table refuses, its code reaches
the requester alone, and nothing in the directory changes (R51, R52, R55, R59, R61, R69, R72, R77, R80, R81). -/
def Obligations.PointOperationsRefuseByTheirTables : Prop :=
  RefusesBy .read 1 readTable ∧ RefusesBy .write 2 writeTable ∧ RefusesBy .create 3 createTable ∧
  RefusesBy .retire 4 retireTable ∧ RefusesBy .pin 10 (fun _ _ q s => pinTable q s) ∧
  RefusesBy .unpin 11 (fun _ _ q s => activeRows s q.point) ∧ RefusesBy .purge 12 (fun _ _ q s => anyPhaseTable q s)

/-- CLAIM, RELEASE, SUBSCRIBE and UNSUBSCRIBE refuse by their tables in the same way (R86, R90, R105, R107). -/
def Obligations.ClaimsAndSubscriptionsRefuseByTheirTables : Prop :=
  RefusesBy .claim 5 claimTable ∧ RefusesBy .release 6 (fun _ st q s => releaseTable st q s) ∧
  RefusesBy .subscribe 7 subscribeTable ∧ RefusesBy .unsubscribe 8 (fun _ _ q s => anyPhaseTable q s)

/-- What the completion of a request can change at all: the directory, the counts, the requester's slot or visit and
its station's tag memory; POOL_LOW is set exactly by a crossing, SLOT_DONE exactly for a slot, and the monitor then
looks at the head (R33, R40, R51, R96). -/
def Obligations.RequestCompletionsTouchNothingElse : Prop :=
  ∀ c code s g st q, codeOf c = some code → InProgress code s g st q → Completes c s fun t =>
    t = { s with
      index := t.index, incarnation := t.incarnation, freeCells := t.freeCells, running := none
      deadlines := t.deadlines, expirePresented := s.expirePresented || headIsDue t
      stations := t.stations, linkA := t.linkA, linkB := t.linkB, slots := t.slots
      causes := s.causes ||| (match g.origin with | .slot k => BitVec.twoPow 16 k.val | _ => 0) |||
        (if s.poolThreshold ≠ 0 ∧ s.poolThreshold ≤ s.freeCells ∧ t.freeCells < s.poolThreshold then 0x0100 else 0) } ∧
    (∀ x : Station, t.station x =
      { s.station x with
        claims := (t.station x).claims, subscriptions := (t.station x).subscriptions
        pendingCount := (t.station x).pendingCount, last := (t.station x).last
        executed := (t.station x).executed, refusals := (t.station x).refusals }) ∧
    ∃ res, Answered s t g.origin st q res

/-- READ answers the record's fields and changes nothing in the directory (R59, R60). -/
def Obligations.ReadReturnsTheRecord : Prop :=
  ∀ s g st q r a, InProgress 1 s g st q → refusedBy (readTable g st q s) = none → activeAt s q.point = some (r, a) →
    Completes .read s fun t =>
      DirectoryKept s t ∧
      Answered s t g.origin st q
        { code := .ok
          fields := .read r.revision r.incarnation
            { cls := a.cls, quality := a.quality, generation := a.generation, owner := a.owner, pinned := a.pinned
              value := a.value.getD [] } }

/-- WRITE: value, generation, quality and revision; the cells; the deadlines re-armed from the reading of the grant;
the subscribers but the writer marked; the new generation answered (R57, R58, R65, R66, R67). That FRESHNESS is re-armed
before LEASE is log entry 23. -/
def Obligations.WriteTakesEffect : Prop :=
  ∀ s g st q r a, InProgress 2 s g st q → refusedBy (writeTable g st q s) = none → activeAt s q.point = some (r, a) →
    let r' := { r with phase := .active (written q a), revision := r.revision + 1, pendingSet := announcedTo r st }
    Completes .write s fun t =>
      Becomes s t q.point r' ∧ CountsFollow s t (some r) (some r') ∧ t.incarnation = s.incarnation ∧
      t.freeCells = s.freeCells + a.cells - cellsWith a q.arg1.toNat ∧
      (let l := match a.refresh with
         | some n => if a.pinned then s.deadlines else rearmed r .freshness (g.now + BitVec.ofNat 32 (10 * n)) s.deadlines
         | none => s.deadlines
       t.deadlines = match a.lease with
         | some n => if st ≠ 0 ∧ a.owner = some st then rearmed r .lease (g.now + BitVec.ofNat 32 (100 * n)) l else l
         | none => l) ∧
      Answered s t g.origin st q { code := .ok, fields := .generation (generationAfter a.generation) }

/-- CREATE: the record of R18 in the lowest FREE slot, the incarnation step, the cells of a BLOCK, the claim with its
LEASE entry, and the answer of incarnation and granted lease (R13, R18, R71). -/
def Obligations.CreateMakesTheRecord : Prop :=
  ∀ s g st q n, InProgress 3 s g st q → refusedBy (createTable g st q s) = none →
    n < 1024 → slotFree s n = true → (∀ m, m < n → slotFree s m = false) →
    let cls : PointClass :=
      match q.arg0.toNat with
      | 1 => .word
      | 2 => .long
      | 3 => .quad
      | 4 => .block q.arg1.toNat
      | _ => .text
    let cells := if q.arg0.toNat = 4 then cellsFor q.arg1.toNat else 0
    let granted := if st = 0 ∨ q.arg3 = 0 then 0 else min q.arg3.toNat g.leaseMax
    let r : Record :=
      { point := q.point, slot := n, incarnation := s.incarnation, revision := 0, subscribers := 0, pendingSet := 0
        phase := .active
          { cls, value := none, quality := .unset, generation := 0
            owner := if q.arg3 = 0 then none else some st
            lease := if st = 0 ∨ q.arg3 = 0 then none else some granted
            refresh := if q.arg2 = 0 then none else some q.arg2.toNat
            pinned := false, cells } }
    Completes .create s fun t =>
      Becomes s t q.point r ∧ t.index.length = s.index.length + 1 ∧ CountsFollow s t none (some r) ∧
      t.incarnation = s.incarnation + 1 ∧ t.freeCells = s.freeCells - cells ∧
      t.deadlines =
        (if st = 0 ∨ q.arg3 = 0 then s.deadlines
         else rearmed r .lease (g.now + BitVec.ofNat 32 (100 * granted)) s.deadlines) ∧
      Answered s t g.origin st q { code := .ok, fields := .created s.incarnation (BitVec.ofNat 16 granted) }

/-- RETIRE: the record drains as RETIRING with every remaining subscriber pending, or is freed when none remains; its
cells and deadline entries go (R5, R6, R30, R73). -/
def Obligations.RetireDrainsOrFrees : Prop :=
  ∀ s g st q r a, InProgress 4 s g st q → refusedBy (retireTable g st q s) = none → activeAt s q.point = some (r, a) →
    let subscribers := setDrop r.subscribers st
    let r' : Record :=
      { r with
        phase := .retiring, revision := r.revision + 1, subscribers
        pendingSet := setDrop r.pendingSet st ||| subscribers }
    Completes .retire s fun t =>
      (if subscribers = 0 then
        t.index = (s.index.filter fun x => x.point ≠ q.point) ∧ CountsFollow s t (some r) none
       else Becomes s t q.point r' ∧ CountsFollow s t (some r) (some r')) ∧
      t.incarnation = s.incarnation ∧ t.freeCells = s.freeCells + a.cells ∧ t.deadlines = othersEntries s r ∧
      Answered s t g.origin st q (plain .ok)

/-- NEXT answers the lowest-numbered ACTIVE point above "after" that the station may read, NOT_FOUND when there is
none, BAD_ARG for 65535, and changes nothing in the directory (R75, R76). -/
def Obligations.NextFindsTheLowestReadable : Prop :=
  ∀ s g st q, InProgress 9 s g st q → IndexOk s →
    let stops (r : Record) : Bool :=
      !r.isRetiring && q.arg0.toNat < r.point.toNat && allowed Fence.readMask g.fences st r.point
    (q.arg0.toNat = 65535 → Completes .next s fun t => DirectoryKept s t ∧ Answered s t g.origin st q (plain .badArg)) ∧
    (q.arg0.toNat ≠ 65535 → (∀ r ∈ s.index, stops r = false) →
      Completes .next s fun t => DirectoryKept s t ∧ Answered s t g.origin st q (plain .notFound)) ∧
    (q.arg0.toNat ≠ 65535 → ∀ r ∈ s.index, ∀ a, r.phase = .active a → stops r = true →
      (∀ x ∈ s.index, stops x = true → r.point.toNat ≤ x.point.toNat) →
      Completes .next s fun t =>
        DirectoryKept s t ∧ Answered s t g.origin st q { code := .ok, fields := .next r.point a.cls })

/-- PIN: an unpinned point is pinned, with the value write when a value comes, loses its FRESHNESS entry and is
announced; a pinned point takes its value part alone; the generation is answered (R78, R79). -/
def Obligations.PinTakesEffect : Prop :=
  ∀ s g st q r a, InProgress 10 s g st q → refusedBy (pinTable q s) = none → activeAt s q.point = some (r, a) →
    let hasValue : Bool := q.arg1.toNat ≠ 65535
    let a' := { (if hasValue then written q a else a) with pinned := true }
    let r' := { r with phase := .active a', revision := r.revision + 1, pendingSet := announcedTo r st }
    Completes .pin s fun t =>
      (if a.pinned = true ∧ hasValue = false then t.index = s.index ∧ StationsKept s t
       else Becomes s t q.point r' ∧ CountsFollow s t (some r) (some r')) ∧
      t.incarnation = s.incarnation ∧ t.freeCells = s.freeCells + a.cells - a'.cells ∧
      t.deadlines = (if a.pinned then s.deadlines else dropped r .freshness s.deadlines) ∧
      Answered s t g.origin st q { code := .ok, fields := .generation a'.generation }

/-- UNPIN of a pinned point clears the mark, announces, and inserts a FRESHNESS entry for a GOOD supervised point; of
an unpinned point it changes nothing (R80). -/
def Obligations.UnpinTakesEffect : Prop :=
  ∀ s g st q r a, InProgress 11 s g st q → refusedBy (activeRows s q.point) = none →
    activeAt s q.point = some (r, a) →
    let r' :=
      { r with
        phase := .active { a with pinned := false }, revision := r.revision + 1, pendingSet := announcedTo r st }
    Completes .unpin s fun t =>
      Answered s t g.origin st q (plain .ok) ∧
      (a.pinned = false → DirectoryKept s t) ∧
      (a.pinned = true →
        Becomes s t q.point r' ∧ CountsFollow s t (some r) (some r') ∧ t.incarnation = s.incarnation ∧
        t.freeCells = s.freeCells ∧
        t.deadlines = match a.refresh with
          | some n =>
            if a.quality = .good then rearmed r .freshness (g.now + BitVec.ofNat 32 (10 * n)) s.deadlines
            else s.deadlines
          | none => s.deadlines)

/-- PURGE frees the record found, in either phase, with every effect of R6, and announces nothing (R6, R81, R82). -/
def Obligations.PurgeFreesTheRecord : Prop :=
  ∀ s g st q r, InProgress 12 s g st q → refusedBy (anyPhaseTable q s) = none → s.findRecord q.point = some r →
    Completes .purge s fun t =>
      t.index = (s.index.filter fun x => x.point ≠ q.point) ∧ CountsFollow s t (some r) none ∧
      t.incarnation = s.incarnation ∧ t.freeCells = s.freeCells + r.cells ∧ t.deadlines = othersEntries s r ∧
      Answered s t g.origin st q (plain .ok)

/-- CLAIM: an open point is taken, with the lease cut to LEASE_MAX, its LEASE entry and the announcement; the owner's
own CLAIM renews the lease and announces nothing (R85, R87, R88). -/
def Obligations.ClaimTakesOrRenews : Prop :=
  ∀ s g st q r a, InProgress 5 s g st q → refusedBy (claimTable g st q s) = none → activeAt s q.point = some (r, a) →
    let granted := if st = 0 then 0 else min q.arg0.toNat g.leaseMax
    let a' := { a with owner := some st, lease := if st = 0 then none else some granted }
    let r' : Record :=
      if a.owner = some st then { r with phase := .active a' }
      else { r with phase := .active a', revision := r.revision + 1, pendingSet := announcedTo r st }
    Completes .claim s fun t =>
      Becomes s t q.point r' ∧ CountsFollow s t (some r) (some r') ∧ t.incarnation = s.incarnation ∧
      t.freeCells = s.freeCells ∧
      t.deadlines =
        (if st = 0 then s.deadlines else rearmed r .lease (g.now + BitVec.ofNat 32 (100 * granted)) s.deadlines) ∧
      Answered s t g.origin st q { code := .ok, fields := .lease (BitVec.ofNat 16 granted) }

/-- RELEASE: an owned point loses its owner, lease interval and LEASE entry, and is announced; an open point is left
as it was (R91). -/
def Obligations.ReleaseDropsTheOwner : Prop :=
  ∀ s g st q r a, InProgress 6 s g st q → refusedBy (releaseTable st q s) = none → activeAt s q.point = some (r, a) →
    let r' :=
      { r with
        phase := .active { a with owner := none, lease := none }, revision := r.revision + 1
        pendingSet := announcedTo r st }
    Completes .release s fun t =>
      Answered s t g.origin st q (plain .ok) ∧
      (a.owner = none → DirectoryKept s t) ∧
      (a.owner ≠ none →
        Becomes s t q.point r' ∧ CountsFollow s t (some r) (some r') ∧ t.incarnation = s.incarnation ∧
        t.freeCells = s.freeCells ∧ t.deadlines = dropped r .lease s.deadlines)

/-- SUBSCRIBE: the requester joins both sets, and its counts follow; one already subscribed changes nothing (R105). -/
def Obligations.SubscribeJoinsBothSets : Prop :=
  ∀ s g st q r a, InProgress 7 s g st q → refusedBy (subscribeTable g st q s) = none →
    activeAt s q.point = some (r, a) →
    let r' := { r with subscribers := setAdd r.subscribers st, pendingSet := setAdd r.pendingSet st }
    Completes .subscribe s fun t =>
      Answered s t g.origin st q (plain .ok) ∧
      (setHas r.subscribers st = true → DirectoryKept s t) ∧
      (setHas r.subscribers st = false →
        Becomes s t q.point r' ∧ CountsFollow s t (some r) (some r') ∧ t.incarnation = s.incarnation ∧
        t.freeCells = s.freeCells ∧ t.deadlines = s.deadlines)

/-- UNSUBSCRIBE: the requester leaves both sets; a RETIRING record whose subscriber set is then empty is freed; no
in-flight notice and no revision changes (R107). -/
def Obligations.UnsubscribeLeavesBothSets : Prop :=
  ∀ s g st q r, InProgress 8 s g st q → refusedBy (anyPhaseTable q s) = none → s.findRecord q.point = some r →
    let r' := { r with subscribers := setDrop r.subscribers st, pendingSet := setDrop r.pendingSet st }
    Completes .unsubscribe s fun t =>
      Answered s t g.origin st q (plain .ok) ∧ t.incarnation = s.incarnation ∧
      (∀ x : Station, (t.station x).inflight = (s.station x).inflight) ∧
      (if r.isRetiring = true ∧ r'.subscribers = 0 then
        t.index = (s.index.filter fun x => x.point ≠ q.point) ∧ CountsFollow s t (some r) none ∧
        t.freeCells = s.freeCells ∧ t.deadlines = othersEntries s r
       else
        Becomes s t q.point r' ∧ CountsFollow s t (some r) (some r') ∧ t.freeCells = s.freeCells ∧
        t.deadlines = s.deadlines)

/-! ## Notices, expiries, clears and the clock -/

/-- NOTICE_FETCH: the first record in the search from the cursor becomes the in-flight notice and the cursor, and its
snapshot is handed over; the record, its sets and its revision stay. A fetch that finds nothing leaves cursor and
in-flight notice as they were (R53, R111, R112, R113, R120, R154). That a fetch handed to the notice window adds 1 to the
count of fills, the model's own field, is the model's choice (log entry 22). -/
def Obligations.NoticeFetchMarksTheNotice : Prop :=
  ∀ s g st, s.resetHeld = false → s.running = some g → g.work = .noticeFetch st → IndexOk s →
    (∀ r, FetchFinds s st r →
      let id : NoticeId := { point := r.point, incarnation := r.incarnation, revision := r.revision }
      let body : SnapshotBody :=
        match r.phase with
        | .active a => .state
            { cls := a.cls, quality := a.quality, generation := a.generation, owner := a.owner, pinned := a.pinned
              value := a.value.getD [] }
        | .retiring => .retired
      exec .noticeFetch s = .next (looked (fetchHanded
        { s with
          running := none
          stations := s.stations.set st { s.stations[st] with inflight := some id, cursor := r.point } }
        g.origin (some { id, body })))) ∧
    ((∀ r ∈ s.index, setHas r.pendingSet st = false) →
      exec .noticeFetch s = .next (looked (fetchHanded { s with running := none } g.origin none)))

/-- NOTICE_ACK: an acknowledgement other than the in-flight notice is stray and counted; an equal one clears the
in-flight notice and, when a record has its point number, incarnation and revision and the station pending, takes the
station out of the pending set, and out of both sets of a RETIRING record, freeing it when its set is then empty; then
the requester goes on (R114 to R117). -/
def Obligations.NoticeAckActsOnTheNotice : Prop :=
  ∀ s g st id, s.resetHeld = false → s.running = some g → g.work = .noticeAck st id → IndexOk s →
    let e := s.stations[st]
    let cleared := { s with running := none, stations := s.stations.set st { e with inflight := none } }
    let matching (r : Record) : Bool :=
      r.point = id.point ∧ r.incarnation = id.incarnation ∧ r.revision = id.revision ∧ setHas r.pendingSet st
    (e.inflight ≠ some id → exec .noticeAck s = .next (looked (ackHanded
      { s with
        running := none
        stations := if st = 0 then s.stations else s.stations.set st { e with strayAcks := e.strayAcks + 1 } }
      g.origin))) ∧
    (e.inflight = some id → (∀ r ∈ s.index, matching r = false) →
      exec .noticeAck s = .next (looked (ackHanded cleared g.origin))) ∧
    (e.inflight = some id → ∀ r ∈ s.index, matching r = true →
      ∃ u, exec .noticeAck s = .next (looked (ackHanded u g.origin)) ∧
        u = { cleared with
          index := u.index, freeCells := u.freeCells, deadlines := u.deadlines, stations := u.stations } ∧
        (∀ x : Station, u.station x =
          { cleared.station x with
            claims := (u.station x).claims, subscriptions := (u.station x).subscriptions
            pendingCount := (u.station x).pendingCount }) ∧
        if r.isRetiring = true ∧ setDrop r.subscribers st = 0 then
          u.index = (s.index.filter fun x => x.point ≠ r.point) ∧ CountsFollow s u (some r) none ∧
          u.freeCells = s.freeCells ∧ u.deadlines = othersEntries s r
        else
          let r' :=
            { r with
              subscribers := if r.isRetiring then setDrop r.subscribers st else r.subscribers
              pendingSet := setDrop r.pendingSet st }
          Becomes s u r.point r' ∧ CountsFollow s u (some r) (some r') ∧ u.freeCells = s.freeCells ∧
          u.deadlines = s.deadlines)

/-- EXPIRE: with an empty list, or a head not due at the reading of its grant, no effect but the monitor's look; a
due head leaves the list and acts on its record: FRESHNESS makes it STALE, LEASE takes its owner and lease interval,
each with one revision step and every subscriber marked (R97, R98, R99). -/
def Obligations.ExpireTakesTheHead : Prop :=
  ∀ s g, s.resetHeld = false → s.running = some g → g.work = .expire → IndexOk s →
    ((∀ d, s.deadlines.head? = some d → 2 ^ 31 ≤ (g.now - d.due).toNat) →
      exec .expire s = .next (looked { s with running := none })) ∧
    (∀ d rest r a, s.deadlines = d :: rest → (g.now - d.due).toNat < 2 ^ 31 →
      r ∈ s.index → r.point = d.point → r.incarnation = d.incarnation → r.phase = .active a →
      (d.kind = .freshness → a.quality = .good) → (d.kind = .lease → a.owner ≠ none) →
      let a' : Active :=
        match d.kind with
        | .freshness => { a with quality := .stale }
        | .lease => { a with owner := none, lease := none }
      let r' :=
        { r with
          phase := .active a', revision := r.revision + 1, pendingSet := r.pendingSet ||| r.subscribers }
      Completes .expire s fun t =>
        t = looked { s with index := t.index, stations := t.stations, deadlines := rest, running := none } ∧
        Becomes s t r.point r' ∧ CountsFollow s t (some r) (some r') ∧
        ∀ x : Station, t.station x =
          { s.station x with claims := (t.station x).claims, pendingCount := (t.station x).pendingCount })

/-- CLEAR_CHUNK: every record of the chunk is stripped of the station, as owner with the other subscribers marked and
from both sets, and freed when it is RETIRING with no subscriber left; the progress steps; chunk 15 ends the clear
(R136, R137, R139). -/
def Obligations.ClearChunkStripsTheStation : Prop :=
  ∀ s g st k, s.resetHeld = false → s.running = some g → g.work = .clearChunk st k → IndexOk s → RecordsOk s →
    let owns (r : Record) : Bool := r.owner = some st
    Completes .clearChunk s fun t =>
      t.index = s.index.filterMap (stripped st k) ∧
      t = { s with
        index := t.index, running := none, stations := t.stations, clearProgress := k + 1
        deadlines := s.deadlines.filter fun d => !chunkDrops s st k d
        expirePresented := s.expirePresented || headIsDue t
        clearQueue := if k.val = 15 then s.clearQueue.filter fun x => x ≠ st else s.clearQueue
        stationChanged := if k.val = 15 then setAdd s.stationChanged st else s.stationChanged
        causes := if k.val = 15 then s.causes ||| BitVec.twoPow 16 5 else s.causes } ∧
      (∀ x : Station, x ≠ st → t.station x =
        { s.station x with
          pendingCount := (s.station x).pendingCount +
            countIn s k fun r => owns r && setHas r.subscribers x && !setHas r.pendingSet x }) ∧
      let e := s.station st
      let e' : StationEntry :=
        { e with
          claims := e.claims - countIn s k owns
          subscriptions := e.subscriptions - countIn s k fun r => setHas r.subscribers st
          pendingCount := e.pendingCount - countIn s k fun r => setHas r.pendingSet st }
      t.station st =
        if k.val = 15 then
          { e' with
            state := if e.barredMark then .barred else .offline
            inflight := none, last := none, barredMark := false, freshOwed := true }
        else e'

/-- The clock adds 1 at a tick and wraps; DEADLINE_DUE presents an EXPIRE when the head is due, none is presented and
none is in progress; a new entry goes after every entry of the same due time (R84, R94, R96). -/
def Obligations.ClockAndDeadlineList : Prop :=
  (∀ s : State, s.resetHeld = false → exec .directoryClockTick s = .next { s with clock := s.clock + 1 }) ∧
  (∀ s : State, s.resetHeld = false →
    exec .deadlineDue s = .next
      { s with
        expirePresented := s.expirePresented || (headIsDue s && !((s.running.map fun g => g.work) == some .expire)) }) ∧
  (∀ (d : Deadline) (l : List Deadline), ∃ before after,
    l = before ++ after ∧ insertDeadline d l = before ++ d :: after ∧
    (∀ x ∈ before, (d.due - x.due).toNat < 2 ^ 31) ∧ ∀ x ∈ after.head?, 2 ^ 31 ≤ (d.due - x.due).toNat)

/-! ## The links -/

/-- WALK_ENTRY of a RUNNING link with no visit: END is the wrap point, SKIP is passed, a station of the other link is
passed and counted, one of no link, LEAVING or BARRED is passed, and an OFFLINE or ONLINE one of this link begins a
visit (R153, R173, R176). Otherwise nothing happens (log entry 1). -/
def Obligations.WalkDecidesEachEntry : Prop :=
  ∀ (s : State) (l : Link), s.resetHeld = false →
    let e := s.link l
    (e.state ≠ .running ∨ e.visit ≠ none → exec (.walkEntry l) s = .next s) ∧
    (e.state = .running → e.visit = none →
      (walkCode e = 0 → exec (.walkEntry l) s = .next (wrapped s l)) ∧
      (walkCode e = 31 → exec (.walkEntry l) s = .next (passed s l)) ∧
      ∀ x : Station, x ≠ 0 → walkCode e = x.val →
        let y := s.station x
        exec (.walkEntry l) s = .next
          (if y.link = none then passed s l
           else if y.link ≠ some l then
             passed (s.modCounters l fun c => { c with mismatchedSlots := c.mismatchedSlots + 1 }) l
           else if y.state = .offline ∨ y.state = .online then begun s l x
           else passed s l))

/-- SEND_VISIT and SEND_RESULT begin their frame when the link is neither sending nor receiving; the end of a VISIT
opens the reply window, and the end of a RESULT ends the visit. Driver enable is asserted exactly while a frame is sent
(R145, R146, R155, R156, R162). -/
def Obligations.FramesAreSentInTheirPhases : Prop :=
  ∀ (s : State) (l : Link) (v : Visit), s.resetHeld = false → (s.link l).visit = some v →
    driverEnable s l = (s.link l).sending.isSome ∧
    (v.phase = .sendVisit → (s.link l).sending = none → (s.link l).receiver = .hunting →
      exec (.sendVisit l) s = .next (s.modLink l fun e =>
        { e with
          sending := some (visitFrame v)
          counters := { e.counters with visitsSent := e.counters.visitsSent + 1 } })) ∧
    (v.phase = .sendVisit → (s.link l).sending.isSome = true →
      exec (.visitFrameSent l) s = .next (s.modLink l fun e =>
        { e with sending := none, visit := some { v with phase := .awaitReply } })) ∧
    (∀ t, v.phase = .sendResult → v.result = some t → (s.link l).sending = none → (s.link l).receiver = .hunting →
      exec (.sendResult l) s = .next (s.modLink l fun e => { e with sending := some (resultFrame v.station t) })) ∧
    (v.phase = .sendResult → (s.link l).sending.isSome = true →
      exec (.resultFrameSent l) s = .next (visitEnded (s.modLink l fun e => { e with sending := none }) l))

/-- The octets of the frames sent: C5h, address, type, flags, length, payload and CRC low octet first, the CRC of
"123456789" being 29B1h; the snapshot of a VISIT and the fields of a RESULT as their tables lay them out
(R147, R148, R150, R152), and the codes of the classes, the qualities and the results (R7, R9, R52). -/
def Obligations.FramesAreLaidOut : Prop :=
  (classCode .word = 1 ∧ classCode .long = 2 ∧ classCode .quad = 3 ∧ (∀ n, classCode (.block n) = 4) ∧
    classCode .text = 5) ∧
  (qualityCode .unset = 0 ∧ qualityCode .good = 1 ∧ qualityCode .stale = 2) ∧
  ([ResultCode.ok, .notFound, .exists_, .retiring, .badPoint, .badClass, .badLength, .badArg, .denied, .held,
    .notOwner, .pinned, .conflict, .noRecord, .noSpace, .limit, .notOnline, .badOp, .cancelled].map resultNumber =
      [0, 1, 2, 3, 4, 5, 6, 7, 8, 9, 10, 11, 12, 13, 14, 15, 16, 17, 18]) ∧
  crcOf [0x31, 0x32, 0x33, 0x34, 0x35, 0x36, 0x37, 0x38, 0x39] = 0x29B1 ∧
  (∀ v : Visit,
    let payload := (v.notice.map snapshotPayload).getD []
    let body := [BitVec.ofNat 8 v.station.val, 1, (if v.notice.isSome then 1 else 0) ||| (if v.fresh then 2 else 0),
      BitVec.ofNat 8 payload.length] ++ payload
    visitFrame v = 0xC5 :: body ++ pair (crcOf body)) ∧
  (∀ (st : Station) (t : TaggedPayload),
    let body := [BitVec.ofNat 8 st.val, 3, if t.tag then 4 else 0, BitVec.ofNat 8 t.payload.length] ++ t.payload
    resultFrame st t = 0xC5 :: body ++ pair (crcOf body)) ∧
  (∀ id : NoticeId, snapshotPayload { id, body := .retired } =
    pair id.point ++ pair id.incarnation ++ pair id.revision ++ [2]) ∧
  (∀ (id : NoticeId) (v : PointView), snapshotPayload { id, body := .state v } =
    pair id.point ++ pair id.incarnation ++ pair id.revision ++ [1, classCode v.cls, qualityCode v.quality] ++
    pair v.generation ++ [(v.owner.map fun o => BitVec.ofNat 8 o.val).getD 0xFF, if v.pinned then 1 else 0,
      BitVec.ofNat 8 v.value.length] ++ v.value) ∧
  ∀ (code : Byte) (c : ResultCode),
    resultPayload code (plain c) = [resultNumber c, code] ∧
    (∀ g, resultPayload code { code := c, fields := .generation g } = [resultNumber c, code] ++ pair g) ∧
    (∀ i n, resultPayload code { code := c, fields := .created i n } = [resultNumber c, code] ++ pair i ++ pair n) ∧
    (∀ n, resultPayload code { code := c, fields := .lease n } = [resultNumber c, code] ++ pair n) ∧
    (∀ p k, resultPayload code { code := c, fields := .next p k } = [resultNumber c, code] ++ pair p ++ [classCode k]) ∧
    (∀ o, resultPayload code { code := c, fields := .owner o } = [resultNumber c, code, BitVec.ofNat 8 o.val]) ∧
    (∀ rev inc v, resultPayload code { code := c, fields := .read rev inc v } =
      [resultNumber c, code, classCode v.cls, qualityCode v.quality] ++ pair v.generation ++ pair rev ++ pair inc ++
      [(v.owner.map fun o => BitVec.ofNat 8 o.val).getD 0xFF, if v.pinned then 1 else 0,
        BitVec.ofNat 8 v.value.length] ++ v.value)

/-- A REPLY is read back as its parts exactly when its payload is those parts laid out as the table of R151 gives for
its flags and its operation code, with no octet short or over (R147, R151). -/
def Obligations.RepliesAreReadByTheTable : Prop :=
  ∀ (flags : Byte) (payload : List Byte) (r : Reply),
    parseReply flags payload = some r ↔
      payload = replyPart r ∧ flagsOf r flags = true ∧ (r.request.all carried) = true

/-- A valid REPLY in the reply window: it brings an OFFLINE station of this link ONLINE, sets an ONLINE one's miss
count to 0, leaves any other as it was, and takes the visit to the ACK phase, or past it without ACK (R128, R156,
R158, R159, R160). -/
def Obligations.ValidReplyMeetsTheStation : Prop :=
  ∀ s l v address type flags payload lo hi reply, s.resetHeld = false →
    (s.link l).receiver = .inFrame true → (s.link l).visit = some v →
    ValidReply v address type flags payload lo hi reply →
    exec (.frameReceived l address type flags payload lo hi) s = .next (replied s l v reply)

/-- A try fails by a broken or CRC-bad frame, by a whole good frame that is no valid REPLY, or at the end of its window;
each counts once, and the next try or the miss follows (R129, R149, R156, R157). -/
def Obligations.TriesFailAndAreRetried : Prop :=
  ∀ (s : State) (l : Link) (v : Visit), s.resetHeld = false → (s.link l).visit = some v →
    let crc := frameEnded s l fun c => { c with crcFailures := c.crcFailures + 1 }
    let stray := frameEnded s l fun c => { c with strayFrames := c.strayFrames + 1 }
    ((s.link l).receiver = .inFrame true →
      (∀ cause, exec (.frameBroken l cause) s = .next (tryFailed crc l v)) ∧
      ∀ address type flags payload lo hi, payload.length ≤ 96 →
        (crcMatches address type flags payload lo hi = false →
          exec (.frameReceived l address type flags payload lo hi) s = .next (tryFailed crc l v)) ∧
        (crcMatches address type flags payload lo hi = true →
          (∀ reply, ¬ ValidReply v address type flags payload lo hi reply) →
          exec (.frameReceived l address type flags payload lo hi) s = .next (tryFailed stray l v))) ∧
    (v.phase = .awaitReply → (s.link l).receiver = .hunting →
      exec (.replyTimeout l) s =
        .next (tryFailed (s.modCounters l fun c => { c with timeouts := c.timeouts + 1 }) l v))

/-- A frame that began outside the reply window is counted and discarded, whatever it holds (R149, R164). -/
def Obligations.FramesOutsideTheWindowAreCounted : Prop :=
  ∀ (s : State) (l : Link), s.resetHeld = false → (s.link l).receiver = .inFrame false →
    (∀ cause, exec (.frameBroken l cause) s =
      .next (frameEnded s l fun c => { c with crcFailures := c.crcFailures + 1 })) ∧
    ∀ address type flags payload lo hi, payload.length ≤ 96 →
      exec (.frameReceived l address type flags payload lo hi) s =
        .next (frameEnded s l fun c =>
          if crcMatches address type flags payload lo hi then { c with strayFrames := c.strayFrames + 1 }
          else { c with crcFailures := c.crcFailures + 1 })

/-- An octet C5h with a good stop bit begins a frame when the receiver hunts and driver enable is released, in the
window exactly while the visit awaits a reply; any other octet outside a frame is discarded, and so is
every octet while driver enable is asserted (R145, R149, R156). That the octets inside a frame leave the state as it is,
a frame that breaks being FRAME_BROKEN's, is the model's choice (log entries 1 and 7). -/
def Obligations.StartOctetBeginsAFrame : Prop :=
  ∀ (s : State) (l : Link) (octet : Byte) (stop : Bool), s.resetHeld = false →
    ((s.link l).sending = none → (s.link l).receiver = .hunting → octet.toNat = 0xC5 → stop = true →
      exec (.startOctetReceived l octet stop) s = .next (s.modLink l fun e =>
        { e with receiver := .inFrame ((s.link l).visit.any fun v => v.phase = .awaitReply) })) ∧
    ((s.link l).receiver = .hunting → octet.toNat ≠ 0xC5 ∨ stop = false →
      exec (.startOctetReceived l octet stop) s = .next s) ∧
    ((s.link l).sending ≠ none → exec (.startOctetReceived l octet stop) s = .next s) ∧
    ((s.link l).receiver ≠ .hunting → exec (.startOctetReceived l octet stop) s = .next s)

/-- A write of the link control word: SWITCH acts first and is taken at once at a wrap point, then RUN starts a STOPPED
link, begins the stop of a RUNNING one, which completes at once without a visit, or is misuse on a STOPPING one
(R167 to R170, R175 to R177). -/
def Obligations.ControlWordActs : Prop :=
  ∀ (s : State) (b : Bool), s.resetHeld = false →
    let l := s.linkSelect
    exec (.run b) s = .next (runWritten (switchWritten s l b) l true) ∧
    exec (.runCleared b) s = .next (runWritten (switchWritten s l b) l false) ∧
    exec (.switch b) s = .next (runWritten (switchWritten s l true) l b) ∧
    exec (.switchWithdraw b) s = .next (runWritten (switchWritten s l false) l b)

/-! ## The port -/

/-- Parameters are written while STOPPED, within their ranges; entries of the inactive bank alone; a counter write
zeroes the counter; a read of a counter's low word copies its high half to the hold word (R171, R172, R178, R189). The
data lines are the model's own field (log entry 10). -/
def Obligations.SweepWindowActs : Prop :=
  ∀ (s : State) (v : Word), s.resetHeld = false →
    let l := s.linkSelect
    let e := s.link l
    (e.state ≠ .stopped → ∀ w, exec (.linkParameterWrite w v) s = .next (faulted s)) ∧
    (e.state = .stopped →
      (∀ c : Fin 6, v.toNat = c.val →
        exec (.linkParameterWrite .bitRate v) s = .next (s.modLink l fun e => { e with bitRate := c })) ∧
      (6 ≤ v.toNat → exec (.linkParameterWrite .bitRate v) s = .next (faulted s)) ∧
      exec (.linkParameterWrite .replyTimeout v) s = .next (s.modLink l fun e =>
        { e with replyTimeout := if v = 0 then 1 else if 255 < v.toNat then 255 else v.toNat }) ∧
      exec (.linkParameterWrite .retryLimit v) s = .next (s.modLink l fun e =>
        { e with retryLimit := if 5 < v.toNat then 5 else v.toNat }) ∧
      exec (.linkParameterWrite .missLimit v) s = .next (s.modLink l fun e =>
        { e with missLimit := if v = 0 then 1 else if 15 < v.toNat then 15 else v.toNat })) ∧
    (s.bankSelect = e.activeBank ∨ 31 < v.toNat → exec (.entryValueWrite v) s = .next (faulted s)) ∧
    (∀ c : Fin 32, s.bankSelect ≠ e.activeBank → v.toNat = c.val →
      exec (.entryValueWrite v) s = .next (s.modLink l fun e =>
        { e with banks := e.banks.set s.bankSelect ((e.banks[s.bankSelect]).set s.entrySelect c) })) ∧
    (∀ w high, Completes (.linkCounterWrite w high v) s fun t =>
      t = s.modLink l (fun e => { e with counters := (t.link l).counters }) ∧
      ∀ x, counterValue x (t.link l).counters = if x = w then 0 else counterValue x e.counters) ∧
    ∀ w, exec (.linkCounterLowRead w) s = .next
      { s with
        dataLines := (counterValue w e.counters).setWidth 16
        counterHold := ((counterValue w e.counters) >>> 16).setWidth 16 }

/-- GO, CANCEL, CLEAR and parameter writes of a slot, by its state; a write carries its code and flags into an IDLE or
DONE slot. A write of the OP word with command bits set is that command, or misuse with more than one (R183, R184,
R185); that SLOT_PARAMETER_WRITE, whose row is the write without them, acts so too is log entry 24. -/
def Obligations.SlotCommandsActByTheState : Prop :=
  ∀ (s : State) (k : Fin 4) (code : Byte) (expect force : Bool), s.resetHeld = false →
    let x := s.slots[k]
    let y := { x with code, expect, force }
    let stored (z : Slot) : State := { s with slots := s.slots.set k z }
    (x.state = .idle ∨ x.state = .done →
      exec (.go k code expect force) s = .next
        { stored { y with state := .queued, result := .ok, fields := .none } with submission := s.submission ++ [k] } ∧
      exec (.cancel k code expect force) s = .next (stored y) ∧
      exec (.clear k code expect force) s = .next
        (stored (if x.state = .done then { y with state := .idle, result := .ok, fields := .none } else y)) ∧
      ∀ w v, parameterOnly w v = true →
        exec (.slotParameterWrite k w v) s = .next (stored (wordStored x w v))) ∧
    (x.state = .queued ∨ x.state = .running →
      exec (.go k code expect force) s = .next (faulted s) ∧ exec (.clear k code expect force) s = .next (faulted s) ∧
      ∀ w v, parameterOnly w v = true → exec (.slotParameterWrite k w v) s = .next (faulted s)) ∧
    (x.state = .queued → exec (.cancel k code expect force) s = .next
      { stored { x with state := .done, result := .cancelled, fields := .none } with
        submission := s.submission.filter fun j => j ≠ k
        causes := s.causes ||| BitVec.twoPow 16 k.val }) ∧
    (x.state = .running → exec (.cancel k code expect force) s = .next s) ∧
    ∀ v, parameterOnly .op v = false →
      exec (.slotParameterWrite k .op v) s =
        match opCommand k v with
        | some c => exec c s
        | none => .next (faulted s)

/-- TAKE is taken unless the window is busy, ACK with NOTICE_VALID 1 unless busy; otherwise they are misuse. No command
but the completions of a NOTICE_FETCH and a NOTICE_ACK, the two resets and the release of RESET changes what reads of
the snapshot return, its open words among them (R120, R121, R122, R187). -/
def Obligations.NoticeWindowTakesAndAcks : Prop :=
  ∀ s : State, s.resetHeld = false →
    exec .take s = .next
      (if s.window.busy then faulted s else { s with window := { s.window with busy := true, waiting := some .fetch } }) ∧
    exec .ack s = .next
      (if s.window.busy ∨ s.window.snapshot = none then faulted s
       else { s with window := { s.window with busy := true, waiting := some .ack } }) ∧
    ∀ c t, exec c s = .next t → c ≠ .noticeFetch → c ≠ .noticeAck → c ≠ .fullReset → c ≠ .resetRelease →
      (∀ b, c ≠ .softReset b) → (∀ v, c ≠ .registerWrite 0 v) →
      ∀ a : BitVec 9, 0x101 ≤ a.toNat → a.toNat ≤ 0x12F → t.readWord a = s.readWord a

/-- Writes of ATTN_CAUSE, ATTN_ENABLE and the STATION_CHANGED words, bit by bit, and the ATTN output with the NOTICE
level (R119, R142, R190). -/
def Obligations.AttentionActsBitByBit : Prop :=
  ∀ (s : State) (v : Word), s.resetHeld = false →
    (Completes (.attnCauseWrite v) s fun t =>
      t = { s with causes := t.causes } ∧
      ∀ i : Fin 16, t.causes.getLsbD i = (s.causes.getLsbD i && !(v.getLsbD i && i.val < 12 && i.val ≠ 4))) ∧
    (Completes (.attnEnableWrite v) s fun t =>
      t = { s with enables := t.enables } ∧ ∀ i : Fin 16, t.enables.getLsbD i = (v.getLsbD i && i.val < 12)) ∧
    (∀ high, Completes (.stationChangedWrite high v) s fun t =>
      t = { s with stationChanged := t.stationChanged } ∧
      ∀ x : Station, setHas t.stationChanged x = (setHas s.stationChanged x &&
        !(if high then 16 ≤ x.val && v.getLsbD (x.val - 16) else 1 ≤ x.val && x.val ≤ 15 && v.getLsbD x.val))) ∧
    (attnAsserted s = true ↔ ∃ i : Fin 12, s.enables.getLsbD i = true ∧
      (if i.val = 4 then 0 < (s.station 0).pendingCount else s.causes.getLsbD i = true))

/-- The threshold, LEASE_MAX, the clock latch, the selects and the fence fields hold what is written, within their
ranges; a select out of range is misuse, and a mask write leaves station 0 out of the mask (R32, R46, R92, R182, R188,
R189). -/
def Obligations.PlainRegistersHoldWhatIsWritten : Prop :=
  ∀ (s : State) (v : Word), s.resetHeld = false →
    exec (.poolLowThresholdWrite v) s = .next { s with poolThreshold := if 2048 < v.toNat then 2048 else v.toNat } ∧
    exec (.leaseMaxWrite v) s = .next
      { s with leaseMax := if v = 0 then 1 else if 6000 < v.toNat then 6000 else v.toNat } ∧
    exec .clockLatch s = .next { s with clockWords := s.clock } ∧
    (∀ x : Fin 31, v.toNat = x.val → exec (.selectWrite .station v) s = .next { s with stationSelect := x }) ∧
    (∀ x : Fin 8, v.toNat = x.val → exec (.selectWrite .fence v) s = .next { s with fenceSelect := x }) ∧
    (v = 0 → exec (.selectWrite .link v) s = .next { s with linkSelect := .a }) ∧
    (v = 1 → exec (.selectWrite .link v) s = .next { s with linkSelect := .b }) ∧
    (∀ x : Fin 2, v.toNat = x.val → exec (.selectWrite .bank v) s = .next { s with bankSelect := x }) ∧
    (∀ x : Fin 32, v.toNat = x.val → exec (.selectWrite .entry v) s = .next { s with entrySelect := x }) ∧
    (∀ w, (match w with | .station => 31 | .fence => 8 | .link => 2 | .bank => 2 | .entry => 32) ≤ v.toNat →
      exec (.selectWrite w v) s = .next (faulted s)) ∧
    ∀ field, Completes (.fenceWrite field v) s fun t =>
      let f := s.fences[s.fenceSelect]
      let f' := t.fences[s.fenceSelect]
      t = { s with fences := s.fences.set s.fenceSelect f' } ∧
      (match field with
       | .enable => f' = { f with enabled := v.getLsbD 0 }
       | .low => f' = { f with low := v }
       | .high => f' = { f with high := v }
       | .readMaskLow | .readMaskHigh => f' = { f with readMask := f'.readMask }
       | .writeMaskLow | .writeMaskHigh => f' = { f with writeMask := f'.writeMask }) ∧
      (field = .readMaskLow ∨ field = .readMaskHigh → setHas f'.readMask 0 = false) ∧
      (field = .writeMaskLow ∨ field = .writeMaskHigh → setHas f'.writeMask 0 = false) ∧
      ∀ x : Station, x ≠ 0 →
        setHas f'.readMask x =
          (match field with
           | .readMaskLow => if x.val ≤ 15 then v.getLsbD x.val else setHas f.readMask x
           | .readMaskHigh => if x.val ≤ 15 then setHas f.readMask x else v.getLsbD (x.val - 16)
           | _ => setHas f.readMask x) ∧
        setHas f'.writeMask x =
          (match field with
           | .writeMaskLow => if x.val ≤ 15 then v.getLsbD x.val else setHas f.writeMask x
           | .writeMaskHigh => if x.val ≤ 15 then setHas f.writeMask x else v.getLsbD (x.val - 16)
           | _ => setHas f.writeMask x)

/-- BAR and UNBAR of the selected station by its state, the link assignment while OFFLINE or BARRED, and the counters
set to 0; with station 0 selected BAR, UNBAR and the assignment are misuse (R125, R131, R133, R141, R188). -/
def Obligations.StationWindowActs : Prop :=
  ∀ (s : State) (v : Word), s.resetHeld = false →
    let x := s.stationSelect
    let e := s.station x
    let stored (e' : StationEntry) : State := { s with stations := s.stations.set x e' }
    (x = 0 → exec .bar s = .next (faulted s) ∧ exec .unbar s = .next (faulted s) ∧
      exec (.linkAssignmentWrite v) s = .next (faulted s)) ∧
    (x ≠ 0 →
      (e.state = .online →
        exec .bar s = .next (departing (stored { e with barredMark := true }) [x]) ∧ exec .unbar s = .next s) ∧
      (e.state = .leaving →
        exec .bar s = .next (stored { e with barredMark := true }) ∧
        exec .unbar s = .next (stored { e with barredMark := false })) ∧
      (e.state = .offline →
        exec .bar s = .next (told (stored { e with state := .barred }) x) ∧ exec .unbar s = .next s) ∧
      (e.state = .barred →
        exec .bar s = .next s ∧
        exec .unbar s = .next (told (stored { e with state := .offline, freshOwed := true }) x)) ∧
      (e.state = .online ∨ e.state = .leaving ∨ 2 < v.toNat → exec (.linkAssignmentWrite v) s = .next (faulted s)) ∧
      (e.state = .offline ∨ e.state = .barred →
        (v = 0 → exec (.linkAssignmentWrite v) s = .next (stored { e with link := none })) ∧
        (v = 1 → exec (.linkAssignmentWrite v) s = .next (stored { e with link := some .a })) ∧
        (v = 2 → exec (.linkAssignmentWrite v) s = .next (stored { e with link := some .b })))) ∧
    exec (.stationCounterWrite .executed v) s = .next (stored { e with executed := 0 }) ∧
    exec (.stationCounterWrite .repeated v) s = .next (stored { e with repeated := 0 }) ∧
    exec (.stationCounterWrite .refusals v) s = .next (stored { e with refusals := 0 }) ∧
    exec (.stationCounterWrite .strayAcks v) s = .next (stored { e with strayAcks := 0 }) ∧
    exec (.stationCounterWrite .timesLeft v) s = .next (stored { e with timesLeft := 0 })

/-- A bus write of any word of the window acts as the row of the table that it is; a write that is none is ignored,
with PORT_FAULT where it is misuse (R181, R182, R183, R187, R188, R192). That REGISTER_WRITE is a write of any word is
log entry 11, and that a station command of 0 with station 0 selected is no misuse is log entry 13. -/
def Obligations.BusWritesActAsTheirRows : Prop :=
  ∀ (s : State) (a : BitVec 9) (v : Word), s.resetHeld = false →
    exec (.registerWrite a v) s =
      match portCommand a.toNat v with
      | some c => exec c s
      | none => .next (if misuse a.toNat v then faulted s else s)

/-- What a read of each word of the window returns: `shown` for every word whose contents the manual states whole, and
0000h for every address with no register; PORT_STATUS and ATTN_CAUSE bit by bit; the stated parts of a RETIRED
snapshot's kind and owner words, of the last word of an odd value, and of the last request word while no tag is present
(R21, R31, R120, R181, R182, R186, R188, R189). The rest of those words is open (log entry 22). -/
def Obligations.WindowReadsShowTheState : Prop :=
  ∀ s : State, s.resetHeld = false →
    (∀ (a : BitVec 9) (w : Word), shown s a.toNat = some w → s.readWord a = w) ∧
    (s.submission.length ≤ 4 → s.readWord 0x001 =
      word (s.submission.length + 16 * s.window.busy.toNat + 32 * s.running.isSome.toNat)) ∧
    (∀ i : Fin 16, (s.readWord 0x002).getLsbD i =
      if i.val = 4 then decide (0 < (s.station 0).pendingCount) else i.val < 12 && s.causes.getLsbD i) ∧
    (∀ id, s.window.snapshot = some { id, body := .retired } →
      (s.readWord 0x104).setWidth 8 = (2 : Byte) ∧ (s.readWord 0x107) >>> 8 = 0) ∧
    (∀ id v (k : Fin 32), s.window.snapshot = some { id, body := .state v } → v.value.length = 2 * k.val + 1 →
      (s.readWord (0x110 + BitVec.ofNat 9 k.val)).setWidth 8 = v.value.getD (2 * k.val) 0) ∧
    ((s.station s.stationSelect).last = none → s.readWord 0x14D = 0 ∨ s.readWord 0x14D = 2)

/-! ## Invariants that every step keeps -/

/-- The index stays in strictly ascending order of valid point numbers, each record in a slot of its own (R1, R3, R19). -/
def Obligations.StepsKeepTheIndexInOrder : Prop :=
  ∀ s t : State, IndexOk s → step s = .next t → IndexOk t

/-- Every record stays in order: value, length, quality, generation, cells, owner and lease agree, the pending set lies
in the subscriber set, and a RETIRING record has a subscriber set that is not empty (R5, R8, R10, R14, R17, R108, R118). -/
def Obligations.StepsKeepTheRecordsInOrder : Prop :=
  ∀ s t : State, RecordsOk s → step s = .next t → RecordsOk t

/-- The free cells and the cells held by records always add up to 2048 (R25); the cells that a value of each length
needs are those of the table (R23). -/
def Obligations.StepsConserveTheCells : Prop :=
  (∀ s t : State, IndexOk s → PoolOk s → step s = .next t → PoolOk t) ∧
  ∀ n : Nat,
    (n ≤ 8 → cellsFor n = 0) ∧ (9 ≤ n → n ≤ 16 → cellsFor n = 1) ∧ (17 ≤ n → n ≤ 32 → cellsFor n = 2) ∧
    (33 ≤ n → n ≤ 48 → cellsFor n = 3) ∧ (49 ≤ n → n ≤ 64 → cellsFor n = 4)

/-- Every station's counts stay equal to what they count, and within 64 claims and 256 subscriptions (R126). -/
def Obligations.StepsKeepTheCounts : Prop :=
  (∀ s t : State, IndexOk s → CountsOk s → step s = .next t → CountsOk t) ∧
  ∀ s t : State, LimitsOk s → step s = .next t → LimitsOk t

/-- The deadline list holds one LEASE entry for each record a remote station owns, one FRESHNESS entry for each GOOD,
unpinned, supervised record, and no other (R95). -/
def Obligations.StepsKeepTheDeadlines : Prop :=
  ∀ s t : State, IndexOk s → RecordsOk s → DeadlinesOk s → step s = .next t → DeadlinesOk t

/-- The clear queue holds the LEAVING stations once each; an OFFLINE or BARRED station holds nothing; a station being
cleared holds nothing in the slots its clear has passed (R135, R138, R139). An ONLINE station has FRESH-owed clear
(R163). -/
def Obligations.ClearsLeaveNothingBehind : Prop :=
  (∀ s t : State, IndexOk s → ClearOk s → step s = .next t → ClearOk t) ∧
  ∀ s t : State, FreshOk s → step s = .next t → FreshOk t

/-- Entry 0 of the station table stays LOCAL with no link, mark, miss count, FRESH-owed flag or tag memory and with its
counters at 0; its counts, cursor and in-flight notice alone may change (R125). No fence mask and not the
station-changed set holds station 0 (R46, R142, R188). -/
def Obligations.StepsKeepTheLocalEntry : Prop :=
  (∀ s t : State, ClearOk s → WindowOk s → LocalEntryOk s → step s = .next t → LocalEntryOk t) ∧
  ∀ s t : State, ClearOk s → WindowOk s → RemoteSetsOk s → step s = .next t → RemoteSetsOk t

/-- The submission queue holds the QUEUED slots once each, a slot is RUNNING exactly while its operation is in progress,
and the notice window is busy exactly while its operation waits or runs and shows the in-flight notice (R121, R184,
R185, R187). -/
def Obligations.StepsKeepTheSlotsAndTheWindow : Prop :=
  (∀ s t : State, SlotsOk s → step s = .next t → SlotsOk t) ∧
  ∀ s t : State, ClearOk s → WindowOk s → step s = .next t → WindowOk t

/-- A STOPPED link has no visit and no ONLINE station, an ONLINE station's miss count is below its link's limit, a frame
is sent in its phase alone and none is received then, and a switch request never waits at a wrap point (R129, R145,
R153, R170, R171, R176). A step of any command but FULL_RESET leaves the entries of the bank that was active as they
were (R172). -/
def Obligations.StepsKeepTheLinks : Prop :=
  (∀ s t : State, LinksOk s → step s = .next t → LinksOk t) ∧
  ∀ (s t : State) (l : Link), s.pending.head? ≠ some .fullReset → step s = .next t →
    (t.link l).banks[(s.link l).activeBank] = (s.link l).banks[(s.link l).activeBank]

/-- The invariants hold at State.reset. -/
def Obligations.InvariantsHoldAtReset : Prop :=
  let s := State.reset
  IndexOk s ∧ RecordsOk s ∧ PoolOk s ∧ CountsOk s ∧ LimitsOk s ∧ DeadlinesOk s ∧ ClearOk s ∧ LocalEntryOk s ∧
  RemoteSetsOk s ∧ FreshOk s ∧ SlotsOk s ∧ WindowOk s ∧ LinksOk s

end
end

