-- ==== Sys2Proof/Laws/State.lean ====
section
/-! SUPPORT. One lemma per field per named update of the state: what each update leaves alone, and what it
writes. -/

namespace Sys2Proof.Machine

/-! ## `modStation` -/

section
variable (s : State) (st : Station) (f : StationEntry → StationEntry)
@[simp] theorem modStation_index : (s.modStation st f).index = s.index := rfl
@[simp] theorem modStation_incarnation : (s.modStation st f).incarnation = s.incarnation := rfl
@[simp] theorem modStation_freeCells : (s.modStation st f).freeCells = s.freeCells := rfl
@[simp] theorem modStation_poolThreshold : (s.modStation st f).poolThreshold = s.poolThreshold := rfl
@[simp] theorem modStation_pointer : (s.modStation st f).pointer = s.pointer := rfl
@[simp] theorem modStation_running : (s.modStation st f).running = s.running := rfl
@[simp] theorem modStation_fences : (s.modStation st f).fences = s.fences := rfl
@[simp] theorem modStation_clock : (s.modStation st f).clock = s.clock := rfl
@[simp] theorem modStation_deadlines : (s.modStation st f).deadlines = s.deadlines := rfl
@[simp] theorem modStation_expirePresented : (s.modStation st f).expirePresented = s.expirePresented := rfl
@[simp] theorem modStation_leaseMax : (s.modStation st f).leaseMax = s.leaseMax := rfl
@[simp] theorem modStation_clearQueue : (s.modStation st f).clearQueue = s.clearQueue := rfl
@[simp] theorem modStation_clearProgress : (s.modStation st f).clearProgress = s.clearProgress := rfl
@[simp] theorem modStation_stationChanged : (s.modStation st f).stationChanged = s.stationChanged := rfl
@[simp] theorem modStation_linkA : (s.modStation st f).linkA = s.linkA := rfl
@[simp] theorem modStation_linkB : (s.modStation st f).linkB = s.linkB := rfl
@[simp] theorem modStation_slots : (s.modStation st f).slots = s.slots := rfl
@[simp] theorem modStation_submission : (s.modStation st f).submission = s.submission := rfl
@[simp] theorem modStation_window : (s.modStation st f).window = s.window := rfl
@[simp] theorem modStation_fills : (s.modStation st f).fills = s.fills := rfl
@[simp] theorem modStation_causes : (s.modStation st f).causes = s.causes := rfl
@[simp] theorem modStation_enables : (s.modStation st f).enables = s.enables := rfl
@[simp] theorem modStation_stationSelect : (s.modStation st f).stationSelect = s.stationSelect := rfl
@[simp] theorem modStation_fenceSelect : (s.modStation st f).fenceSelect = s.fenceSelect := rfl
@[simp] theorem modStation_linkSelect : (s.modStation st f).linkSelect = s.linkSelect := rfl
@[simp] theorem modStation_bankSelect : (s.modStation st f).bankSelect = s.bankSelect := rfl
@[simp] theorem modStation_entrySelect : (s.modStation st f).entrySelect = s.entrySelect := rfl
@[simp] theorem modStation_clockWords : (s.modStation st f).clockWords = s.clockWords := rfl
@[simp] theorem modStation_counterHold : (s.modStation st f).counterHold = s.counterHold := rfl
@[simp] theorem modStation_dataLines : (s.modStation st f).dataLines = s.dataLines := rfl
@[simp] theorem modStation_resetHeld : (s.modStation st f).resetHeld = s.resetHeld := rfl
@[simp] theorem modStation_pending : (s.modStation st f).pending = s.pending := rfl
end

/-! ## `modLink` -/

section
variable (s : State) (l : Link) (f : LinkEngine → LinkEngine)
@[simp] theorem modLink_index : (s.modLink l f).index = s.index := by cases l <;> rfl
@[simp] theorem modLink_incarnation : (s.modLink l f).incarnation = s.incarnation := by cases l <;> rfl
@[simp] theorem modLink_freeCells : (s.modLink l f).freeCells = s.freeCells := by cases l <;> rfl
@[simp] theorem modLink_poolThreshold : (s.modLink l f).poolThreshold = s.poolThreshold := by cases l <;> rfl
@[simp] theorem modLink_pointer : (s.modLink l f).pointer = s.pointer := by cases l <;> rfl
@[simp] theorem modLink_running : (s.modLink l f).running = s.running := by cases l <;> rfl
@[simp] theorem modLink_fences : (s.modLink l f).fences = s.fences := by cases l <;> rfl
@[simp] theorem modLink_clock : (s.modLink l f).clock = s.clock := by cases l <;> rfl
@[simp] theorem modLink_deadlines : (s.modLink l f).deadlines = s.deadlines := by cases l <;> rfl
@[simp] theorem modLink_expirePresented : (s.modLink l f).expirePresented = s.expirePresented := by cases l <;> rfl
@[simp] theorem modLink_leaseMax : (s.modLink l f).leaseMax = s.leaseMax := by cases l <;> rfl
@[simp] theorem modLink_stations : (s.modLink l f).stations = s.stations := by cases l <;> rfl
@[simp] theorem modLink_clearQueue : (s.modLink l f).clearQueue = s.clearQueue := by cases l <;> rfl
@[simp] theorem modLink_clearProgress : (s.modLink l f).clearProgress = s.clearProgress := by cases l <;> rfl
@[simp] theorem modLink_stationChanged : (s.modLink l f).stationChanged = s.stationChanged := by cases l <;> rfl
@[simp] theorem modLink_slots : (s.modLink l f).slots = s.slots := by cases l <;> rfl
@[simp] theorem modLink_submission : (s.modLink l f).submission = s.submission := by cases l <;> rfl
@[simp] theorem modLink_window : (s.modLink l f).window = s.window := by cases l <;> rfl
@[simp] theorem modLink_fills : (s.modLink l f).fills = s.fills := by cases l <;> rfl
@[simp] theorem modLink_causes : (s.modLink l f).causes = s.causes := by cases l <;> rfl
@[simp] theorem modLink_enables : (s.modLink l f).enables = s.enables := by cases l <;> rfl
@[simp] theorem modLink_stationSelect : (s.modLink l f).stationSelect = s.stationSelect := by cases l <;> rfl
@[simp] theorem modLink_fenceSelect : (s.modLink l f).fenceSelect = s.fenceSelect := by cases l <;> rfl
@[simp] theorem modLink_linkSelect : (s.modLink l f).linkSelect = s.linkSelect := by cases l <;> rfl
@[simp] theorem modLink_bankSelect : (s.modLink l f).bankSelect = s.bankSelect := by cases l <;> rfl
@[simp] theorem modLink_entrySelect : (s.modLink l f).entrySelect = s.entrySelect := by cases l <;> rfl
@[simp] theorem modLink_clockWords : (s.modLink l f).clockWords = s.clockWords := by cases l <;> rfl
@[simp] theorem modLink_counterHold : (s.modLink l f).counterHold = s.counterHold := by cases l <;> rfl
@[simp] theorem modLink_dataLines : (s.modLink l f).dataLines = s.dataLines := by cases l <;> rfl
@[simp] theorem modLink_resetHeld : (s.modLink l f).resetHeld = s.resetHeld := by cases l <;> rfl
@[simp] theorem modLink_pending : (s.modLink l f).pending = s.pending := by cases l <;> rfl
end

/-! ## `modSlot` -/

section
variable (s : State) (k : Fin 4) (f : Slot → Slot)
@[simp] theorem modSlot_index : (s.modSlot k f).index = s.index := rfl
@[simp] theorem modSlot_incarnation : (s.modSlot k f).incarnation = s.incarnation := rfl
@[simp] theorem modSlot_freeCells : (s.modSlot k f).freeCells = s.freeCells := rfl
@[simp] theorem modSlot_poolThreshold : (s.modSlot k f).poolThreshold = s.poolThreshold := rfl
@[simp] theorem modSlot_pointer : (s.modSlot k f).pointer = s.pointer := rfl
@[simp] theorem modSlot_running : (s.modSlot k f).running = s.running := rfl
@[simp] theorem modSlot_fences : (s.modSlot k f).fences = s.fences := rfl
@[simp] theorem modSlot_clock : (s.modSlot k f).clock = s.clock := rfl
@[simp] theorem modSlot_deadlines : (s.modSlot k f).deadlines = s.deadlines := rfl
@[simp] theorem modSlot_expirePresented : (s.modSlot k f).expirePresented = s.expirePresented := rfl
@[simp] theorem modSlot_leaseMax : (s.modSlot k f).leaseMax = s.leaseMax := rfl
@[simp] theorem modSlot_stations : (s.modSlot k f).stations = s.stations := rfl
@[simp] theorem modSlot_clearQueue : (s.modSlot k f).clearQueue = s.clearQueue := rfl
@[simp] theorem modSlot_clearProgress : (s.modSlot k f).clearProgress = s.clearProgress := rfl
@[simp] theorem modSlot_stationChanged : (s.modSlot k f).stationChanged = s.stationChanged := rfl
@[simp] theorem modSlot_linkA : (s.modSlot k f).linkA = s.linkA := rfl
@[simp] theorem modSlot_linkB : (s.modSlot k f).linkB = s.linkB := rfl
@[simp] theorem modSlot_submission : (s.modSlot k f).submission = s.submission := rfl
@[simp] theorem modSlot_window : (s.modSlot k f).window = s.window := rfl
@[simp] theorem modSlot_fills : (s.modSlot k f).fills = s.fills := rfl
@[simp] theorem modSlot_causes : (s.modSlot k f).causes = s.causes := rfl
@[simp] theorem modSlot_enables : (s.modSlot k f).enables = s.enables := rfl
@[simp] theorem modSlot_stationSelect : (s.modSlot k f).stationSelect = s.stationSelect := rfl
@[simp] theorem modSlot_fenceSelect : (s.modSlot k f).fenceSelect = s.fenceSelect := rfl
@[simp] theorem modSlot_linkSelect : (s.modSlot k f).linkSelect = s.linkSelect := rfl
@[simp] theorem modSlot_bankSelect : (s.modSlot k f).bankSelect = s.bankSelect := rfl
@[simp] theorem modSlot_entrySelect : (s.modSlot k f).entrySelect = s.entrySelect := rfl
@[simp] theorem modSlot_clockWords : (s.modSlot k f).clockWords = s.clockWords := rfl
@[simp] theorem modSlot_counterHold : (s.modSlot k f).counterHold = s.counterHold := rfl
@[simp] theorem modSlot_dataLines : (s.modSlot k f).dataLines = s.dataLines := rfl
@[simp] theorem modSlot_resetHeld : (s.modSlot k f).resetHeld = s.resetHeld := rfl
@[simp] theorem modSlot_pending : (s.modSlot k f).pending = s.pending := rfl
end

/-! ## `modFence` -/

section
variable (s : State) (k : Fin 8) (f : Fence → Fence)
@[simp] theorem modFence_index : (s.modFence k f).index = s.index := rfl
@[simp] theorem modFence_incarnation : (s.modFence k f).incarnation = s.incarnation := rfl
@[simp] theorem modFence_freeCells : (s.modFence k f).freeCells = s.freeCells := rfl
@[simp] theorem modFence_poolThreshold : (s.modFence k f).poolThreshold = s.poolThreshold := rfl
@[simp] theorem modFence_pointer : (s.modFence k f).pointer = s.pointer := rfl
@[simp] theorem modFence_running : (s.modFence k f).running = s.running := rfl
@[simp] theorem modFence_clock : (s.modFence k f).clock = s.clock := rfl
@[simp] theorem modFence_deadlines : (s.modFence k f).deadlines = s.deadlines := rfl
@[simp] theorem modFence_expirePresented : (s.modFence k f).expirePresented = s.expirePresented := rfl
@[simp] theorem modFence_leaseMax : (s.modFence k f).leaseMax = s.leaseMax := rfl
@[simp] theorem modFence_stations : (s.modFence k f).stations = s.stations := rfl
@[simp] theorem modFence_clearQueue : (s.modFence k f).clearQueue = s.clearQueue := rfl
@[simp] theorem modFence_clearProgress : (s.modFence k f).clearProgress = s.clearProgress := rfl
@[simp] theorem modFence_stationChanged : (s.modFence k f).stationChanged = s.stationChanged := rfl
@[simp] theorem modFence_linkA : (s.modFence k f).linkA = s.linkA := rfl
@[simp] theorem modFence_linkB : (s.modFence k f).linkB = s.linkB := rfl
@[simp] theorem modFence_slots : (s.modFence k f).slots = s.slots := rfl
@[simp] theorem modFence_submission : (s.modFence k f).submission = s.submission := rfl
@[simp] theorem modFence_window : (s.modFence k f).window = s.window := rfl
@[simp] theorem modFence_fills : (s.modFence k f).fills = s.fills := rfl
@[simp] theorem modFence_causes : (s.modFence k f).causes = s.causes := rfl
@[simp] theorem modFence_enables : (s.modFence k f).enables = s.enables := rfl
@[simp] theorem modFence_stationSelect : (s.modFence k f).stationSelect = s.stationSelect := rfl
@[simp] theorem modFence_fenceSelect : (s.modFence k f).fenceSelect = s.fenceSelect := rfl
@[simp] theorem modFence_linkSelect : (s.modFence k f).linkSelect = s.linkSelect := rfl
@[simp] theorem modFence_bankSelect : (s.modFence k f).bankSelect = s.bankSelect := rfl
@[simp] theorem modFence_entrySelect : (s.modFence k f).entrySelect = s.entrySelect := rfl
@[simp] theorem modFence_clockWords : (s.modFence k f).clockWords = s.clockWords := rfl
@[simp] theorem modFence_counterHold : (s.modFence k f).counterHold = s.counterHold := rfl
@[simp] theorem modFence_dataLines : (s.modFence k f).dataLines = s.dataLines := rfl
@[simp] theorem modFence_resetHeld : (s.modFence k f).resetHeld = s.resetHeld := rfl
@[simp] theorem modFence_pending : (s.modFence k f).pending = s.pending := rfl
end

/-! ## `recount` -/

section
variable (s : State) (o n : Option Record)
@[simp] theorem recount_index : (s.recount o n).index = s.index := by simp only [State.recount]
@[simp] theorem recount_incarnation : (s.recount o n).incarnation = s.incarnation := by simp only [State.recount]
@[simp] theorem recount_freeCells : (s.recount o n).freeCells = s.freeCells := by simp only [State.recount]
@[simp] theorem recount_poolThreshold : (s.recount o n).poolThreshold = s.poolThreshold := by simp only [State.recount]
@[simp] theorem recount_pointer : (s.recount o n).pointer = s.pointer := by simp only [State.recount]
@[simp] theorem recount_running : (s.recount o n).running = s.running := by simp only [State.recount]
@[simp] theorem recount_fences : (s.recount o n).fences = s.fences := by simp only [State.recount]
@[simp] theorem recount_clock : (s.recount o n).clock = s.clock := by simp only [State.recount]
@[simp] theorem recount_deadlines : (s.recount o n).deadlines = s.deadlines := by simp only [State.recount]
@[simp] theorem recount_expirePresented : (s.recount o n).expirePresented = s.expirePresented := by simp only [State.recount]
@[simp] theorem recount_leaseMax : (s.recount o n).leaseMax = s.leaseMax := by simp only [State.recount]
@[simp] theorem recount_clearQueue : (s.recount o n).clearQueue = s.clearQueue := by simp only [State.recount]
@[simp] theorem recount_clearProgress : (s.recount o n).clearProgress = s.clearProgress := by simp only [State.recount]
@[simp] theorem recount_stationChanged : (s.recount o n).stationChanged = s.stationChanged := by simp only [State.recount]
@[simp] theorem recount_linkA : (s.recount o n).linkA = s.linkA := by simp only [State.recount]
@[simp] theorem recount_linkB : (s.recount o n).linkB = s.linkB := by simp only [State.recount]
@[simp] theorem recount_slots : (s.recount o n).slots = s.slots := by simp only [State.recount]
@[simp] theorem recount_submission : (s.recount o n).submission = s.submission := by simp only [State.recount]
@[simp] theorem recount_window : (s.recount o n).window = s.window := by simp only [State.recount]
@[simp] theorem recount_fills : (s.recount o n).fills = s.fills := by simp only [State.recount]
@[simp] theorem recount_causes : (s.recount o n).causes = s.causes := by simp only [State.recount]
@[simp] theorem recount_enables : (s.recount o n).enables = s.enables := by simp only [State.recount]
@[simp] theorem recount_stationSelect : (s.recount o n).stationSelect = s.stationSelect := by simp only [State.recount]
@[simp] theorem recount_fenceSelect : (s.recount o n).fenceSelect = s.fenceSelect := by simp only [State.recount]
@[simp] theorem recount_linkSelect : (s.recount o n).linkSelect = s.linkSelect := by simp only [State.recount]
@[simp] theorem recount_bankSelect : (s.recount o n).bankSelect = s.bankSelect := by simp only [State.recount]
@[simp] theorem recount_entrySelect : (s.recount o n).entrySelect = s.entrySelect := by simp only [State.recount]
@[simp] theorem recount_clockWords : (s.recount o n).clockWords = s.clockWords := by simp only [State.recount]
@[simp] theorem recount_counterHold : (s.recount o n).counterHold = s.counterHold := by simp only [State.recount]
@[simp] theorem recount_dataLines : (s.recount o n).dataLines = s.dataLines := by simp only [State.recount]
@[simp] theorem recount_resetHeld : (s.recount o n).resetHeld = s.resetHeld := by simp only [State.recount]
@[simp] theorem recount_pending : (s.recount o n).pending = s.pending := by simp only [State.recount]
end

/-! ## `putRecord` -/

section
variable (s : State) (o n : Record)
@[simp] theorem putRecord_incarnation : (s.putRecord o n).incarnation = s.incarnation := by simp only [State.putRecord, State.recount]
@[simp] theorem putRecord_poolThreshold : (s.putRecord o n).poolThreshold = s.poolThreshold := by simp only [State.putRecord, State.recount]
@[simp] theorem putRecord_pointer : (s.putRecord o n).pointer = s.pointer := by simp only [State.putRecord, State.recount]
@[simp] theorem putRecord_running : (s.putRecord o n).running = s.running := by simp only [State.putRecord, State.recount]
@[simp] theorem putRecord_fences : (s.putRecord o n).fences = s.fences := by simp only [State.putRecord, State.recount]
@[simp] theorem putRecord_clock : (s.putRecord o n).clock = s.clock := by simp only [State.putRecord, State.recount]
@[simp] theorem putRecord_deadlines : (s.putRecord o n).deadlines = s.deadlines := by simp only [State.putRecord, State.recount]
@[simp] theorem putRecord_expirePresented : (s.putRecord o n).expirePresented = s.expirePresented := by simp only [State.putRecord, State.recount]
@[simp] theorem putRecord_leaseMax : (s.putRecord o n).leaseMax = s.leaseMax := by simp only [State.putRecord, State.recount]
@[simp] theorem putRecord_clearQueue : (s.putRecord o n).clearQueue = s.clearQueue := by simp only [State.putRecord, State.recount]
@[simp] theorem putRecord_clearProgress : (s.putRecord o n).clearProgress = s.clearProgress := by simp only [State.putRecord, State.recount]
@[simp] theorem putRecord_stationChanged : (s.putRecord o n).stationChanged = s.stationChanged := by simp only [State.putRecord, State.recount]
@[simp] theorem putRecord_linkA : (s.putRecord o n).linkA = s.linkA := by simp only [State.putRecord, State.recount]
@[simp] theorem putRecord_linkB : (s.putRecord o n).linkB = s.linkB := by simp only [State.putRecord, State.recount]
@[simp] theorem putRecord_slots : (s.putRecord o n).slots = s.slots := by simp only [State.putRecord, State.recount]
@[simp] theorem putRecord_submission : (s.putRecord o n).submission = s.submission := by simp only [State.putRecord, State.recount]
@[simp] theorem putRecord_window : (s.putRecord o n).window = s.window := by simp only [State.putRecord, State.recount]
@[simp] theorem putRecord_fills : (s.putRecord o n).fills = s.fills := by simp only [State.putRecord, State.recount]
@[simp] theorem putRecord_causes : (s.putRecord o n).causes = s.causes := by simp only [State.putRecord, State.recount]
@[simp] theorem putRecord_enables : (s.putRecord o n).enables = s.enables := by simp only [State.putRecord, State.recount]
@[simp] theorem putRecord_stationSelect : (s.putRecord o n).stationSelect = s.stationSelect := by simp only [State.putRecord, State.recount]
@[simp] theorem putRecord_fenceSelect : (s.putRecord o n).fenceSelect = s.fenceSelect := by simp only [State.putRecord, State.recount]
@[simp] theorem putRecord_linkSelect : (s.putRecord o n).linkSelect = s.linkSelect := by simp only [State.putRecord, State.recount]
@[simp] theorem putRecord_bankSelect : (s.putRecord o n).bankSelect = s.bankSelect := by simp only [State.putRecord, State.recount]
@[simp] theorem putRecord_entrySelect : (s.putRecord o n).entrySelect = s.entrySelect := by simp only [State.putRecord, State.recount]
@[simp] theorem putRecord_clockWords : (s.putRecord o n).clockWords = s.clockWords := by simp only [State.putRecord, State.recount]
@[simp] theorem putRecord_counterHold : (s.putRecord o n).counterHold = s.counterHold := by simp only [State.putRecord, State.recount]
@[simp] theorem putRecord_dataLines : (s.putRecord o n).dataLines = s.dataLines := by simp only [State.putRecord, State.recount]
@[simp] theorem putRecord_resetHeld : (s.putRecord o n).resetHeld = s.resetHeld := by simp only [State.putRecord, State.recount]
@[simp] theorem putRecord_pending : (s.putRecord o n).pending = s.pending := by simp only [State.putRecord, State.recount]
end

/-! ## `addRecord` -/

section
variable (s : State) (n : Record)
@[simp] theorem addRecord_incarnation : (s.addRecord n).incarnation = s.incarnation := by simp only [State.addRecord, State.recount]
@[simp] theorem addRecord_poolThreshold : (s.addRecord n).poolThreshold = s.poolThreshold := by simp only [State.addRecord, State.recount]
@[simp] theorem addRecord_pointer : (s.addRecord n).pointer = s.pointer := by simp only [State.addRecord, State.recount]
@[simp] theorem addRecord_running : (s.addRecord n).running = s.running := by simp only [State.addRecord, State.recount]
@[simp] theorem addRecord_fences : (s.addRecord n).fences = s.fences := by simp only [State.addRecord, State.recount]
@[simp] theorem addRecord_clock : (s.addRecord n).clock = s.clock := by simp only [State.addRecord, State.recount]
@[simp] theorem addRecord_deadlines : (s.addRecord n).deadlines = s.deadlines := by simp only [State.addRecord, State.recount]
@[simp] theorem addRecord_expirePresented : (s.addRecord n).expirePresented = s.expirePresented := by simp only [State.addRecord, State.recount]
@[simp] theorem addRecord_leaseMax : (s.addRecord n).leaseMax = s.leaseMax := by simp only [State.addRecord, State.recount]
@[simp] theorem addRecord_clearQueue : (s.addRecord n).clearQueue = s.clearQueue := by simp only [State.addRecord, State.recount]
@[simp] theorem addRecord_clearProgress : (s.addRecord n).clearProgress = s.clearProgress := by simp only [State.addRecord, State.recount]
@[simp] theorem addRecord_stationChanged : (s.addRecord n).stationChanged = s.stationChanged := by simp only [State.addRecord, State.recount]
@[simp] theorem addRecord_linkA : (s.addRecord n).linkA = s.linkA := by simp only [State.addRecord, State.recount]
@[simp] theorem addRecord_linkB : (s.addRecord n).linkB = s.linkB := by simp only [State.addRecord, State.recount]
@[simp] theorem addRecord_slots : (s.addRecord n).slots = s.slots := by simp only [State.addRecord, State.recount]
@[simp] theorem addRecord_submission : (s.addRecord n).submission = s.submission := by simp only [State.addRecord, State.recount]
@[simp] theorem addRecord_window : (s.addRecord n).window = s.window := by simp only [State.addRecord, State.recount]
@[simp] theorem addRecord_fills : (s.addRecord n).fills = s.fills := by simp only [State.addRecord, State.recount]
@[simp] theorem addRecord_causes : (s.addRecord n).causes = s.causes := by simp only [State.addRecord, State.recount]
@[simp] theorem addRecord_enables : (s.addRecord n).enables = s.enables := by simp only [State.addRecord, State.recount]
@[simp] theorem addRecord_stationSelect : (s.addRecord n).stationSelect = s.stationSelect := by simp only [State.addRecord, State.recount]
@[simp] theorem addRecord_fenceSelect : (s.addRecord n).fenceSelect = s.fenceSelect := by simp only [State.addRecord, State.recount]
@[simp] theorem addRecord_linkSelect : (s.addRecord n).linkSelect = s.linkSelect := by simp only [State.addRecord, State.recount]
@[simp] theorem addRecord_bankSelect : (s.addRecord n).bankSelect = s.bankSelect := by simp only [State.addRecord, State.recount]
@[simp] theorem addRecord_entrySelect : (s.addRecord n).entrySelect = s.entrySelect := by simp only [State.addRecord, State.recount]
@[simp] theorem addRecord_clockWords : (s.addRecord n).clockWords = s.clockWords := by simp only [State.addRecord, State.recount]
@[simp] theorem addRecord_counterHold : (s.addRecord n).counterHold = s.counterHold := by simp only [State.addRecord, State.recount]
@[simp] theorem addRecord_dataLines : (s.addRecord n).dataLines = s.dataLines := by simp only [State.addRecord, State.recount]
@[simp] theorem addRecord_resetHeld : (s.addRecord n).resetHeld = s.resetHeld := by simp only [State.addRecord, State.recount]
@[simp] theorem addRecord_pending : (s.addRecord n).pending = s.pending := by simp only [State.addRecord, State.recount]
end

/-! ## `freeRecord` -/

section
variable (s : State) (o : Record)
@[simp] theorem freeRecord_incarnation : (s.freeRecord o).incarnation = s.incarnation := by simp only [State.freeRecord, State.recount]
@[simp] theorem freeRecord_poolThreshold : (s.freeRecord o).poolThreshold = s.poolThreshold := by simp only [State.freeRecord, State.recount]
@[simp] theorem freeRecord_pointer : (s.freeRecord o).pointer = s.pointer := by simp only [State.freeRecord, State.recount]
@[simp] theorem freeRecord_running : (s.freeRecord o).running = s.running := by simp only [State.freeRecord, State.recount]
@[simp] theorem freeRecord_fences : (s.freeRecord o).fences = s.fences := by simp only [State.freeRecord, State.recount]
@[simp] theorem freeRecord_clock : (s.freeRecord o).clock = s.clock := by simp only [State.freeRecord, State.recount]
@[simp] theorem freeRecord_expirePresented : (s.freeRecord o).expirePresented = s.expirePresented := by simp only [State.freeRecord, State.recount]
@[simp] theorem freeRecord_leaseMax : (s.freeRecord o).leaseMax = s.leaseMax := by simp only [State.freeRecord, State.recount]
@[simp] theorem freeRecord_clearQueue : (s.freeRecord o).clearQueue = s.clearQueue := by simp only [State.freeRecord, State.recount]
@[simp] theorem freeRecord_clearProgress : (s.freeRecord o).clearProgress = s.clearProgress := by simp only [State.freeRecord, State.recount]
@[simp] theorem freeRecord_stationChanged : (s.freeRecord o).stationChanged = s.stationChanged := by simp only [State.freeRecord, State.recount]
@[simp] theorem freeRecord_linkA : (s.freeRecord o).linkA = s.linkA := by simp only [State.freeRecord, State.recount]
@[simp] theorem freeRecord_linkB : (s.freeRecord o).linkB = s.linkB := by simp only [State.freeRecord, State.recount]
@[simp] theorem freeRecord_slots : (s.freeRecord o).slots = s.slots := by simp only [State.freeRecord, State.recount]
@[simp] theorem freeRecord_submission : (s.freeRecord o).submission = s.submission := by simp only [State.freeRecord, State.recount]
@[simp] theorem freeRecord_window : (s.freeRecord o).window = s.window := by simp only [State.freeRecord, State.recount]
@[simp] theorem freeRecord_fills : (s.freeRecord o).fills = s.fills := by simp only [State.freeRecord, State.recount]
@[simp] theorem freeRecord_causes : (s.freeRecord o).causes = s.causes := by simp only [State.freeRecord, State.recount]
@[simp] theorem freeRecord_enables : (s.freeRecord o).enables = s.enables := by simp only [State.freeRecord, State.recount]
@[simp] theorem freeRecord_stationSelect : (s.freeRecord o).stationSelect = s.stationSelect := by simp only [State.freeRecord, State.recount]
@[simp] theorem freeRecord_fenceSelect : (s.freeRecord o).fenceSelect = s.fenceSelect := by simp only [State.freeRecord, State.recount]
@[simp] theorem freeRecord_linkSelect : (s.freeRecord o).linkSelect = s.linkSelect := by simp only [State.freeRecord, State.recount]
@[simp] theorem freeRecord_bankSelect : (s.freeRecord o).bankSelect = s.bankSelect := by simp only [State.freeRecord, State.recount]
@[simp] theorem freeRecord_entrySelect : (s.freeRecord o).entrySelect = s.entrySelect := by simp only [State.freeRecord, State.recount]
@[simp] theorem freeRecord_clockWords : (s.freeRecord o).clockWords = s.clockWords := by simp only [State.freeRecord, State.recount]
@[simp] theorem freeRecord_counterHold : (s.freeRecord o).counterHold = s.counterHold := by simp only [State.freeRecord, State.recount]
@[simp] theorem freeRecord_dataLines : (s.freeRecord o).dataLines = s.dataLines := by simp only [State.freeRecord, State.recount]
@[simp] theorem freeRecord_resetHeld : (s.freeRecord o).resetHeld = s.resetHeld := by simp only [State.freeRecord, State.recount]
@[simp] theorem freeRecord_pending : (s.freeRecord o).pending = s.pending := by simp only [State.freeRecord, State.recount]
end

/-! ## `dropDeadline` -/

section
variable (s : State) (r : Record) (k : DeadlineKind)
@[simp] theorem dropDeadline_index : (s.dropDeadline r k).index = s.index := by simp only [State.dropDeadline]
@[simp] theorem dropDeadline_incarnation : (s.dropDeadline r k).incarnation = s.incarnation := by simp only [State.dropDeadline]
@[simp] theorem dropDeadline_freeCells : (s.dropDeadline r k).freeCells = s.freeCells := by simp only [State.dropDeadline]
@[simp] theorem dropDeadline_poolThreshold : (s.dropDeadline r k).poolThreshold = s.poolThreshold := by simp only [State.dropDeadline]
@[simp] theorem dropDeadline_pointer : (s.dropDeadline r k).pointer = s.pointer := by simp only [State.dropDeadline]
@[simp] theorem dropDeadline_running : (s.dropDeadline r k).running = s.running := by simp only [State.dropDeadline]
@[simp] theorem dropDeadline_fences : (s.dropDeadline r k).fences = s.fences := by simp only [State.dropDeadline]
@[simp] theorem dropDeadline_clock : (s.dropDeadline r k).clock = s.clock := by simp only [State.dropDeadline]
@[simp] theorem dropDeadline_expirePresented : (s.dropDeadline r k).expirePresented = s.expirePresented := by simp only [State.dropDeadline]
@[simp] theorem dropDeadline_leaseMax : (s.dropDeadline r k).leaseMax = s.leaseMax := by simp only [State.dropDeadline]
@[simp] theorem dropDeadline_stations : (s.dropDeadline r k).stations = s.stations := by simp only [State.dropDeadline]
@[simp] theorem dropDeadline_clearQueue : (s.dropDeadline r k).clearQueue = s.clearQueue := by simp only [State.dropDeadline]
@[simp] theorem dropDeadline_clearProgress : (s.dropDeadline r k).clearProgress = s.clearProgress := by simp only [State.dropDeadline]
@[simp] theorem dropDeadline_stationChanged : (s.dropDeadline r k).stationChanged = s.stationChanged := by simp only [State.dropDeadline]
@[simp] theorem dropDeadline_linkA : (s.dropDeadline r k).linkA = s.linkA := by simp only [State.dropDeadline]
@[simp] theorem dropDeadline_linkB : (s.dropDeadline r k).linkB = s.linkB := by simp only [State.dropDeadline]
@[simp] theorem dropDeadline_slots : (s.dropDeadline r k).slots = s.slots := by simp only [State.dropDeadline]
@[simp] theorem dropDeadline_submission : (s.dropDeadline r k).submission = s.submission := by simp only [State.dropDeadline]
@[simp] theorem dropDeadline_window : (s.dropDeadline r k).window = s.window := by simp only [State.dropDeadline]
@[simp] theorem dropDeadline_fills : (s.dropDeadline r k).fills = s.fills := by simp only [State.dropDeadline]
@[simp] theorem dropDeadline_causes : (s.dropDeadline r k).causes = s.causes := by simp only [State.dropDeadline]
@[simp] theorem dropDeadline_enables : (s.dropDeadline r k).enables = s.enables := by simp only [State.dropDeadline]
@[simp] theorem dropDeadline_stationSelect : (s.dropDeadline r k).stationSelect = s.stationSelect := by simp only [State.dropDeadline]
@[simp] theorem dropDeadline_fenceSelect : (s.dropDeadline r k).fenceSelect = s.fenceSelect := by simp only [State.dropDeadline]
@[simp] theorem dropDeadline_linkSelect : (s.dropDeadline r k).linkSelect = s.linkSelect := by simp only [State.dropDeadline]
@[simp] theorem dropDeadline_bankSelect : (s.dropDeadline r k).bankSelect = s.bankSelect := by simp only [State.dropDeadline]
@[simp] theorem dropDeadline_entrySelect : (s.dropDeadline r k).entrySelect = s.entrySelect := by simp only [State.dropDeadline]
@[simp] theorem dropDeadline_clockWords : (s.dropDeadline r k).clockWords = s.clockWords := by simp only [State.dropDeadline]
@[simp] theorem dropDeadline_counterHold : (s.dropDeadline r k).counterHold = s.counterHold := by simp only [State.dropDeadline]
@[simp] theorem dropDeadline_dataLines : (s.dropDeadline r k).dataLines = s.dataLines := by simp only [State.dropDeadline]
@[simp] theorem dropDeadline_resetHeld : (s.dropDeadline r k).resetHeld = s.resetHeld := by simp only [State.dropDeadline]
@[simp] theorem dropDeadline_pending : (s.dropDeadline r k).pending = s.pending := by simp only [State.dropDeadline]
end

/-! ## `rearm` -/

section
variable (s : State) (r : Record) (k : DeadlineKind) (due : LongWord)
@[simp] theorem rearm_index : (s.rearm r k due).index = s.index := by simp only [State.rearm]
@[simp] theorem rearm_incarnation : (s.rearm r k due).incarnation = s.incarnation := by simp only [State.rearm]
@[simp] theorem rearm_freeCells : (s.rearm r k due).freeCells = s.freeCells := by simp only [State.rearm]
@[simp] theorem rearm_poolThreshold : (s.rearm r k due).poolThreshold = s.poolThreshold := by simp only [State.rearm]
@[simp] theorem rearm_pointer : (s.rearm r k due).pointer = s.pointer := by simp only [State.rearm]
@[simp] theorem rearm_running : (s.rearm r k due).running = s.running := by simp only [State.rearm]
@[simp] theorem rearm_fences : (s.rearm r k due).fences = s.fences := by simp only [State.rearm]
@[simp] theorem rearm_clock : (s.rearm r k due).clock = s.clock := by simp only [State.rearm]
@[simp] theorem rearm_expirePresented : (s.rearm r k due).expirePresented = s.expirePresented := by simp only [State.rearm]
@[simp] theorem rearm_leaseMax : (s.rearm r k due).leaseMax = s.leaseMax := by simp only [State.rearm]
@[simp] theorem rearm_stations : (s.rearm r k due).stations = s.stations := by simp only [State.rearm]
@[simp] theorem rearm_clearQueue : (s.rearm r k due).clearQueue = s.clearQueue := by simp only [State.rearm]
@[simp] theorem rearm_clearProgress : (s.rearm r k due).clearProgress = s.clearProgress := by simp only [State.rearm]
@[simp] theorem rearm_stationChanged : (s.rearm r k due).stationChanged = s.stationChanged := by simp only [State.rearm]
@[simp] theorem rearm_linkA : (s.rearm r k due).linkA = s.linkA := by simp only [State.rearm]
@[simp] theorem rearm_linkB : (s.rearm r k due).linkB = s.linkB := by simp only [State.rearm]
@[simp] theorem rearm_slots : (s.rearm r k due).slots = s.slots := by simp only [State.rearm]
@[simp] theorem rearm_submission : (s.rearm r k due).submission = s.submission := by simp only [State.rearm]
@[simp] theorem rearm_window : (s.rearm r k due).window = s.window := by simp only [State.rearm]
@[simp] theorem rearm_fills : (s.rearm r k due).fills = s.fills := by simp only [State.rearm]
@[simp] theorem rearm_causes : (s.rearm r k due).causes = s.causes := by simp only [State.rearm]
@[simp] theorem rearm_enables : (s.rearm r k due).enables = s.enables := by simp only [State.rearm]
@[simp] theorem rearm_stationSelect : (s.rearm r k due).stationSelect = s.stationSelect := by simp only [State.rearm]
@[simp] theorem rearm_fenceSelect : (s.rearm r k due).fenceSelect = s.fenceSelect := by simp only [State.rearm]
@[simp] theorem rearm_linkSelect : (s.rearm r k due).linkSelect = s.linkSelect := by simp only [State.rearm]
@[simp] theorem rearm_bankSelect : (s.rearm r k due).bankSelect = s.bankSelect := by simp only [State.rearm]
@[simp] theorem rearm_entrySelect : (s.rearm r k due).entrySelect = s.entrySelect := by simp only [State.rearm]
@[simp] theorem rearm_clockWords : (s.rearm r k due).clockWords = s.clockWords := by simp only [State.rearm]
@[simp] theorem rearm_counterHold : (s.rearm r k due).counterHold = s.counterHold := by simp only [State.rearm]
@[simp] theorem rearm_dataLines : (s.rearm r k due).dataLines = s.dataLines := by simp only [State.rearm]
@[simp] theorem rearm_resetHeld : (s.rearm r k due).resetHeld = s.resetHeld := by simp only [State.rearm]
@[simp] theorem rearm_pending : (s.rearm r k due).pending = s.pending := by simp only [State.rearm]
end

/-! ## `setCause` -/

section
variable (c : Cause) (s : State)
@[simp] theorem setCause_index : (setCause c s).index = s.index := rfl
@[simp] theorem setCause_incarnation : (setCause c s).incarnation = s.incarnation := rfl
@[simp] theorem setCause_freeCells : (setCause c s).freeCells = s.freeCells := rfl
@[simp] theorem setCause_poolThreshold : (setCause c s).poolThreshold = s.poolThreshold := rfl
@[simp] theorem setCause_pointer : (setCause c s).pointer = s.pointer := rfl
@[simp] theorem setCause_running : (setCause c s).running = s.running := rfl
@[simp] theorem setCause_fences : (setCause c s).fences = s.fences := rfl
@[simp] theorem setCause_clock : (setCause c s).clock = s.clock := rfl
@[simp] theorem setCause_deadlines : (setCause c s).deadlines = s.deadlines := rfl
@[simp] theorem setCause_expirePresented : (setCause c s).expirePresented = s.expirePresented := rfl
@[simp] theorem setCause_leaseMax : (setCause c s).leaseMax = s.leaseMax := rfl
@[simp] theorem setCause_stations : (setCause c s).stations = s.stations := rfl
@[simp] theorem setCause_clearQueue : (setCause c s).clearQueue = s.clearQueue := rfl
@[simp] theorem setCause_clearProgress : (setCause c s).clearProgress = s.clearProgress := rfl
@[simp] theorem setCause_stationChanged : (setCause c s).stationChanged = s.stationChanged := rfl
@[simp] theorem setCause_linkA : (setCause c s).linkA = s.linkA := rfl
@[simp] theorem setCause_linkB : (setCause c s).linkB = s.linkB := rfl
@[simp] theorem setCause_slots : (setCause c s).slots = s.slots := rfl
@[simp] theorem setCause_submission : (setCause c s).submission = s.submission := rfl
@[simp] theorem setCause_window : (setCause c s).window = s.window := rfl
@[simp] theorem setCause_fills : (setCause c s).fills = s.fills := rfl
@[simp] theorem setCause_enables : (setCause c s).enables = s.enables := rfl
@[simp] theorem setCause_stationSelect : (setCause c s).stationSelect = s.stationSelect := rfl
@[simp] theorem setCause_fenceSelect : (setCause c s).fenceSelect = s.fenceSelect := rfl
@[simp] theorem setCause_linkSelect : (setCause c s).linkSelect = s.linkSelect := rfl
@[simp] theorem setCause_bankSelect : (setCause c s).bankSelect = s.bankSelect := rfl
@[simp] theorem setCause_entrySelect : (setCause c s).entrySelect = s.entrySelect := rfl
@[simp] theorem setCause_clockWords : (setCause c s).clockWords = s.clockWords := rfl
@[simp] theorem setCause_counterHold : (setCause c s).counterHold = s.counterHold := rfl
@[simp] theorem setCause_dataLines : (setCause c s).dataLines = s.dataLines := rfl
@[simp] theorem setCause_resetHeld : (setCause c s).resetHeld = s.resetHeld := rfl
@[simp] theorem setCause_pending : (setCause c s).pending = s.pending := rfl
end

/-! ## What the updates write -/

@[simp] theorem modStation_station (s : State) (st x : Station) (f : StationEntry → StationEntry) :
    (s.modStation st f).station x = if x = st then f (s.station st) else s.station x := by
  simp only [State.modStation, State.station, Fin.getElem_fin, Vector.getElem_set]
  by_cases h : x = st
  · subst h; simp
  · simpa [h] using fun h' => absurd (Fin.ext h'.symm) h

@[simp] theorem modLink_link (s : State) (l l' : Link) (f : LinkEngine → LinkEngine) :
    (s.modLink l f).link l' = if l' = l then f (s.link l) else s.link l' := by
  cases l <;> cases l' <;> rfl

@[simp] theorem modLink_station (s : State) (l : Link) (f : LinkEngine → LinkEngine) (x : Station) :
    (s.modLink l f).station x = s.station x := by
  cases l <;> rfl

@[simp] theorem modStation_link (s : State) (st : Station) (f : StationEntry → StationEntry) (l : Link) :
    (s.modStation st f).link l = s.link l := by
  cases l <;> rfl

@[simp] theorem modSlot_slot (s : State) (k j : Fin 4) (f : Slot → Slot) :
    (s.modSlot k f).slots[j] = if j = k then f s.slots[k] else s.slots[j] := by
  simp only [State.modSlot, Fin.getElem_fin, Vector.getElem_set]
  by_cases h : j = k
  · subst h; simp
  · simpa [h] using fun h' => absurd (Fin.ext h'.symm) h

@[simp] theorem modFence_fence (s : State) (k j : Fin 8) (f : Fence → Fence) :
    (s.modFence k f).fences[j] = if j = k then f s.fences[k] else s.fences[j] := by
  simp only [State.modFence, Fin.getElem_fin, Vector.getElem_set]
  by_cases h : j = k
  · subst h; simp
  · simpa [h] using fun h' => absurd (Fin.ext h'.symm) h

@[simp] theorem recount_station (s : State) (o n : Option Record) (x : Station) :
    (s.recount o n).station x = (s.station x).recount o n x := by
  simp [State.recount, State.station]

@[simp] theorem setCause_causes (c : Cause) (s : State) :
    (setCause c s).causes = s.causes ||| BitVec.twoPow 16 (causeBit c) := rfl

@[simp] theorem setCause_station (c : Cause) (s : State) (x : Station) : (setCause c s).station x = s.station x := rfl

@[simp] theorem setCause_link (c : Cause) (s : State) (l : Link) : (setCause c s).link l = s.link l := by
  cases l <;> rfl

@[simp] theorem putRecord_station (s : State) (o n : Record) (x : Station) :
    (s.putRecord o n).station x = (s.station x).recount (some o) (some n) x := recount_station s (some o) (some n) x

@[simp] theorem addRecord_station (s : State) (n : Record) (x : Station) :
    (s.addRecord n).station x = (s.station x).recount none (some n) x := recount_station s none (some n) x

@[simp] theorem freeRecord_station (s : State) (o : Record) (x : Station) :
    (s.freeRecord o).station x = (s.station x).recount (some o) none x := recount_station s (some o) none x

@[simp] theorem putRecord_index (s : State) (o n : Record) : (s.putRecord o n).index = indexReplace n s.index := rfl

@[simp] theorem putRecord_freeCells (s : State) (o n : Record) :
    (s.putRecord o n).freeCells = s.freeCells + o.cells - n.cells := rfl

@[simp] theorem addRecord_index (s : State) (n : Record) : (s.addRecord n).index = indexInsert n s.index := rfl

@[simp] theorem addRecord_freeCells (s : State) (n : Record) : (s.addRecord n).freeCells = s.freeCells - n.cells := rfl

@[simp] theorem freeRecord_index (s : State) (o : Record) : (s.freeRecord o).index = indexRemove o.point s.index := rfl

@[simp] theorem freeRecord_freeCells (s : State) (o : Record) : (s.freeRecord o).freeCells = s.freeCells + o.cells := rfl

@[simp] theorem freeRecord_deadlines (s : State) (o : Record) :
    (s.freeRecord o).deadlines = s.deadlines.filter fun d => !d.belongs o := rfl

@[simp] theorem dropDeadline_deadlines (s : State) (r : Record) (k : DeadlineKind) :
    (s.dropDeadline r k).deadlines = s.deadlines.filter fun d => !(d.belongs r && d.kind == k) := rfl

@[simp] theorem rearm_deadlines (s : State) (r : Record) (k : DeadlineKind) (due : LongWord) :
    (s.rearm r k due).deadlines =
      insertDeadline { point := r.point, incarnation := r.incarnation, kind := k, due := due }
        (s.deadlines.filter fun d => !(d.belongs r && d.kind == k)) := rfl

@[simp] theorem dropDeadline_station (s : State) (r : Record) (k : DeadlineKind) (x : Station) :
    (s.dropDeadline r k).station x = s.station x := rfl

@[simp] theorem rearm_station (s : State) (r : Record) (k : DeadlineKind) (due : LongWord) (x : Station) :
    (s.rearm r k due).station x = s.station x := rfl

/-! ## Counts of an entry -/

section
variable (e : StationEntry) (o n : Option Record) (st : Station)
@[simp] theorem entryRecount_state : (e.recount o n st).state = e.state := rfl
@[simp] theorem entryRecount_link : (e.recount o n st).link = e.link := rfl
@[simp] theorem entryRecount_barredMark : (e.recount o n st).barredMark = e.barredMark := rfl
@[simp] theorem entryRecount_missCount : (e.recount o n st).missCount = e.missCount := rfl
@[simp] theorem entryRecount_cursor : (e.recount o n st).cursor = e.cursor := rfl
@[simp] theorem entryRecount_inflight : (e.recount o n st).inflight = e.inflight := rfl
@[simp] theorem entryRecount_freshOwed : (e.recount o n st).freshOwed = e.freshOwed := rfl
@[simp] theorem entryRecount_last : (e.recount o n st).last = e.last := rfl
@[simp] theorem entryRecount_claims :
    (e.recount o n st).claims = e.claims + ownsCount n st - ownsCount o st := rfl
@[simp] theorem entryRecount_subscriptions :
    (e.recount o n st).subscriptions = e.subscriptions + followsCount n st - followsCount o st := rfl
@[simp] theorem entryRecount_pendingCount :
    (e.recount o n st).pendingCount = e.pendingCount + owedCount n st - owedCount o st := rfl
end

end Sys2Proof.Machine
end

