-- ==== Sys2Proof/Laws/Ops.lean ====
section
/-! SUPPORT. What each shared operation does, said once: the step and the reset guard, the causes, the index
and the deadline list, records, completions, departures and the steps of a link. -/

namespace Sys2Proof.Machine

/-! ## The step and the reset guard -/

theorem step_empty {s : State} (h : s.pending = []) : step s = .next s := by
  simp [step, h]

theorem whileReleased_released {s : State} (f : State → State) (h : s.resetHeld = false) :
    whileReleased f s = .next (f s) := by
  simp [whileReleased, h]

theorem whileReleased_held {s : State} (f : State → State) (h : s.resetHeld = true) :
    whileReleased f s = .next s := by
  simp [whileReleased, h]

theorem whileReleased_next (f : State → State) (s : State) :
    whileReleased f s = .next (if s.resetHeld then s else f s) := rfl

/-! ## Causes, the pool test and the monitor's look -/

theorem portFault_eq (s : State) : portFault s = { s with causes := s.causes ||| BitVec.twoPow 16 11 } := rfl

theorem causeSet_setCause (c : Cause) (s : State) : causeSet c (setCause c s) = true := by
  rcases c with k | _ | l | _ | l | _
  · fin_cases k <;> simp [causeSet, causeBit]
  · simp [causeSet, causeBit]
  · cases l <;> simp [causeSet, causeBit]
  · simp [causeSet, causeBit]
  · cases l <;> simp [causeSet, causeBit]
  · simp [causeSet, causeBit]

theorem poolLowTest_eq (before : Nat) (s : State) :
    poolLowTest before s =
      { s with causes :=
          if s.poolThreshold ≠ 0 ∧ s.poolThreshold ≤ before ∧ s.freeCells < s.poolThreshold
          then s.causes ||| BitVec.twoPow 16 8 else s.causes } := by
  unfold poolLowTest
  split <;> rfl

theorem monitorLook_eq (s : State) :
    monitorLook s =
      { s with expirePresented := s.expirePresented || (headDue s s.clock && !expireRunning s) } := by
  unfold monitorLook
  split
  · next h => simp [h.1, h.2.2]
  · next h =>
    have hb : (s.expirePresented || (headDue s s.clock && !expireRunning s)) = s.expirePresented := by
      cases h1 : headDue s s.clock <;> cases h2 : s.expirePresented <;> cases h3 : expireRunning s <;> simp_all
    rw [hb]

/-! ## The index -/

theorem mem_indexInsert (r x : Record) (l : List Record) : x ∈ indexInsert r l ↔ x = r ∨ x ∈ l := by
  induction l with
  | nil => simp [indexInsert]
  | cons y ys ih =>
    simp only [indexInsert]
    split
    · simp
    · simp only [List.mem_cons, ih]
      tauto

theorem length_indexInsert (r : Record) (l : List Record) : (indexInsert r l).length = l.length + 1 := by
  induction l with
  | nil => rfl
  | cons y ys ih =>
    simp only [indexInsert]
    split <;> simp [ih]

theorem filter_indexInsert (r : Record) (l : List Record) :
    (indexInsert r l).filter (fun x => x.point ≠ r.point) = l.filter fun x => x.point ≠ r.point := by
  induction l with
  | nil => simp [indexInsert]
  | cons y ys ih =>
    simp only [indexInsert]
    split
    · simp
    · simp only [List.filter_cons, ih]

theorem countP_indexInsert (p : Record → Bool) (r : Record) (l : List Record) :
    (indexInsert r l).countP p = l.countP p + if p r then 1 else 0 := by
  induction l with
  | nil => simp [indexInsert, List.countP_cons]
  | cons y ys ih =>
    simp only [indexInsert]
    split
    · simp [List.countP_cons]
    · simp only [List.countP_cons, ih]
      omega

theorem mem_indexReplace (r x : Record) (l : List Record) :
    x ∈ indexReplace r l ↔ (x = r ∧ ∃ y ∈ l, y.point = r.point) ∨ (x ∈ l ∧ x.point ≠ r.point) := by
  simp only [indexReplace, List.mem_map]
  constructor
  · rintro ⟨y, hy, rfl⟩
    by_cases h : y.point = r.point
    · exact .inl ⟨by simp [h], y, hy, h⟩
    · exact .inr ⟨by simpa [h] using hy, by simp [h]⟩
  · rintro (⟨rfl, y, hy, h⟩ | ⟨hx, h⟩)
    · exact ⟨y, hy, by simp [h]⟩
    · exact ⟨x, hx, by simp [h]⟩

theorem filter_indexReplace (r : Record) (l : List Record) :
    (indexReplace r l).filter (fun x => x.point ≠ r.point) = l.filter fun x => x.point ≠ r.point := by
  induction l with
  | nil => rfl
  | cons y ys ih =>
    simp only [indexReplace, List.map_cons] at ih ⊢
    by_cases h : y.point = r.point <;> simp [h] at ih ⊢ <;> exact ih

theorem length_indexReplace (r : Record) (l : List Record) : (indexReplace r l).length = l.length := by
  simp [indexReplace]

theorem find_indexReplace (r : Record) (l : List Record) (h : ∃ y ∈ l, y.point = r.point) :
    (indexReplace r l).find? (fun x => x.point = r.point) = some r := by
  induction l with
  | nil => simp at h
  | cons y ys ih =>
    simp only [indexReplace, List.map_cons] at ih ⊢
    by_cases hy : y.point = r.point
    · simp [hy]
    · have h' : ∃ z ∈ ys, z.point = r.point := by
        obtain ⟨z, hz, hp⟩ := h
        rcases List.mem_cons.1 hz with rfl | hz
        · exact absurd hp hy
        · exact ⟨z, hz, hp⟩
      simp only [hy, if_false]
      rw [List.find?_cons_of_neg (by simpa using hy)]
      exact ih h'

theorem find_indexInsert (r : Record) (l : List Record) (h : ∀ y ∈ l, y.point ≠ r.point) :
    (indexInsert r l).find? (fun x => x.point = r.point) = some r := by
  induction l with
  | nil => simp [indexInsert]
  | cons y ys ih =>
    simp only [indexInsert]
    split
    · simp
    · rw [List.find?_cons_of_neg (by simpa using h y (by simp))]
      exact ih fun z hz => h z (by simp [hz])

theorem mem_indexRemove (p : Word) (x : Record) (l : List Record) : x ∈ indexRemove p l ↔ x ∈ l ∧ x.point ≠ p := by
  simp [indexRemove]

theorem findRecord_some {s : State} {p : Word} {r : Record} (h : s.findRecord p = some r) :
    r ∈ s.index ∧ r.point = p :=
  ⟨List.mem_of_find?_eq_some h, by simpa using List.find?_some h⟩

theorem findRecord_none {s : State} {p : Word} : s.findRecord p = none ↔ ∀ r ∈ s.index, r.point ≠ p := by
  simp [State.findRecord]

theorem findIncarnation_some {s : State} {p inc : Word} {r : Record} (h : s.findIncarnation p inc = some r) :
    r ∈ s.index ∧ r.point = p ∧ r.incarnation = inc := by
  refine ⟨List.mem_of_find?_eq_some h, ?_⟩
  have := List.find?_some h
  simpa using this

theorem lowestFreeSlot_some {s : State} {n : Nat} (h : lowestFreeSlot s = some n) :
    n < Config.recordSlots ∧ slotUsed s.index n = false := by
  have h1 := List.mem_of_find?_eq_some h
  have h2 := List.find?_some h
  exact ⟨List.mem_range.1 h1, by simpa using h2⟩

/-- Putting a record back: the record at its number, the others in their order. -/
theorem putRecord_spec {s : State} {old new : Record} (hold : s.findRecord new.point = some old) :
    (s.putRecord old new).findRecord new.point = some new ∧
    ((s.putRecord old new).index.filter fun x => x.point ≠ new.point) =
      s.index.filter fun x => x.point ≠ new.point :=
  ⟨find_indexReplace new s.index ⟨old, findRecord_some hold⟩, filter_indexReplace new s.index⟩

/-- Adding a record: the record at its number, the others in their order, the length 1 more. -/
theorem addRecord_spec {s : State} {new : Record} (hnone : s.findRecord new.point = none) :
    (s.addRecord new).findRecord new.point = some new ∧
    ((s.addRecord new).index.filter fun x => x.point ≠ new.point) =
      (s.index.filter fun x => x.point ≠ new.point) ∧
    (s.addRecord new).index.length = s.index.length + 1 :=
  ⟨find_indexInsert new s.index (findRecord_none.1 hnone), filter_indexInsert new s.index,
    length_indexInsert new s.index⟩

/-- Leaving both sets: the record is freed exactly when it is RETIRING and its subscriber set is now empty. -/
theorem putOrFree_cases (s : State) (old new : Record) :
    (new.isRetiring = true ∧ new.subscribers = 0 ∧ s.putOrFree old new = s.freeRecord old) ∨
    (¬ (new.isRetiring = true ∧ new.subscribers = 0) ∧ s.putOrFree old new = s.putRecord old new) := by
  unfold State.putOrFree
  by_cases h : new.isRetiring = true ∧ new.subscribers = 0
  · exact .inl ⟨h.1, h.2, by simp [h]⟩
  · exact .inr ⟨h, by rw [if_neg h]⟩

/-! ## The deadline list -/

theorem mem_insertDeadline (d x : Deadline) (l : List Deadline) : x ∈ insertDeadline d l ↔ x = d ∨ x ∈ l := by
  induction l with
  | nil => simp [insertDeadline]
  | cons y ys ih =>
    simp only [insertDeadline]
    split
    · simp only [List.mem_cons, ih]
      tauto
    · simp

/-- An inserted entry stands after the entries that are due no later, before the first that is due later (R94). -/
theorem insertDeadline_eq_takeWhile (d : Deadline) (l : List Deadline) :
    insertDeadline d l =
      l.takeWhile (fun x => notAfter x.due d.due) ++ d :: l.dropWhile (fun x => notAfter x.due d.due) := by
  induction l with
  | nil => rfl
  | cons x xs ih =>
    simp only [insertDeadline, List.takeWhile_cons, List.dropWhile_cons]
    split <;> simp_all

theorem countP_insertDeadline (p : Deadline → Bool) (d : Deadline) (l : List Deadline) :
    (insertDeadline d l).countP p = l.countP p + if p d then 1 else 0 := by
  induction l with
  | nil => simp [insertDeadline, List.countP_cons]
  | cons y ys ih =>
    simp only [insertDeadline]
    split
    · simp only [List.countP_cons, ih]
      omega
    · simp [List.countP_cons]

theorem filter_insertDeadline (p : Deadline → Bool) (d : Deadline) (l : List Deadline) (h : p d = false) :
    (insertDeadline d l).filter p = l.filter p := by
  induction l with
  | nil => simp [insertDeadline, h]
  | cons y ys ih =>
    simp only [insertDeadline]
    split
    · simp only [List.filter_cons, ih]
    · simp [List.filter_cons, h]

/-! ## Checks and completions -/

theorem checked_error {α : Type} {checks : Except Result α} {res : Result} (effects : α → Result × State) (s : State)
    (h : checks = .error res) : checked checks effects s = (res, s) := by
  subst h; rfl

theorem checked_ok {α : Type} {checks : Except Result α} {x : α} (effects : α → Result × State) (s : State)
    (h : checks = .ok x) : checked checks effects s = effects x := by
  subst h; rfl

theorem lookupAny_ok {s : State} {p : Word} {r : Record} (h : lookupAny s p = .ok r) :
    validPoint p = true ∧ s.findRecord p = some r := by
  unfold lookupAny refuse at h
  split at h
  · next hv =>
    split at h
    · next r' hr => cases h; exact ⟨hv, hr⟩
    · cases h
  · cases h

theorem lookupActive_ok {s : State} {p : Word} {r : Record} {a : Active} (h : lookupActive s p = .ok (r, a)) :
    validPoint p = true ∧ s.findRecord p = some r ∧ r.phase = .active a := by
  unfold lookupActive refuse at h
  split at h
  · next hv =>
    split at h
    · next r' hr =>
      split at h
      · next a' ha => cases h; exact ⟨hv, hr, ha⟩
      · cases h
    · cases h
  · cases h

theorem finishRequest_of {s : State} {g : Granted} {st : Station} {q : Request} {code : Byte}
    (op : Granted → Station → Request → State → Result × State)
    (hr : s.running = some g) (hw : g.work = .request st q) (hc : q.code = code) :
    finishRequest code op s = completeRequest g st q op s := by
  simp [finishRequest, hr, hw, hc]

/-- A completion command finds its request in progress, or changes nothing. -/
theorem finishRequest_cases (code : Byte) (op : Granted → Station → Request → State → Result × State) (s : State) :
    finishRequest code op s = s ∨
    ∃ g st q, s.running = some g ∧ g.work = .request st q ∧ q.code = code ∧
      finishRequest code op s = completeRequest g st q op s := by
  unfold finishRequest
  split
  · exact .inl rfl
  · next g hg =>
    split
    · next st q hw =>
      by_cases hc : q.code = code
      · exact .inr ⟨g, st, q, hg, hw, hc, by simp [hc]⟩
      · exact .inl (by simp [hc])
    all_goals exact .inl rfl

theorem completeSlot_eq (k : Fin 4) (res : Result) (s : State) :
    completeSlot k res s =
      { s with
        slots := s.slots.set k
          { s.slots[k] with
            state := .done, result := res.code, fields := res.fields
            data := match res.fields with
              | .read _ _ v => wordsOfOctets v.value
              | .none | .generation _ | .created _ _ | .lease _ | .next _ _ | .owner _ => s.slots[k].data }
        causes := s.causes ||| BitVec.twoPow 16 k } := rfl

/-! ## Departures, switches and stops -/

theorem changeState_eq (s : State) (st : Station) (new : StationState) :
    s.changeState st new =
      { s with
        stations := s.stations.set st { s.stations[st] with state := new }
        stationChanged := setAdd s.stationChanged st
        causes := s.causes ||| BitVec.twoPow 16 5 } := rfl

theorem leave_eq (s : State) (st : Station) :
    s.leave st =
      { s with
        stations := s.stations.set st { s.stations[st] with state := .leaving, timesLeft := s.stations[st].timesLeft + 1 }
        stationChanged := setAdd s.stationChanged st
        causes := s.causes ||| BitVec.twoPow 16 5
        clearQueue := s.clearQueue ++ [st] } := by
  simp [State.leave, changeState_eq, State.modStation]

theorem leave_station (s : State) (st x : Station) :
    (s.leave st).station x =
      if x = st then { s.station st with state := .leaving, timesLeft := (s.station st).timesLeft + 1 }
      else s.station x := by
  have h : (s.leave st).station x = (s.modStation st fun e =>
      { e with state := .leaving, timesLeft := e.timesLeft + 1 }).station x := by
    rw [leave_eq]; rfl
  rw [h, modStation_station]

/-- What stations that leave in one step change: the table, the queue, the changed set and the causes alone. -/
theorem leaveAll_frame (sts : List Station) (s : State) :
    s.leaveAll sts =
      { s with
        stations := (s.leaveAll sts).stations
        clearQueue := s.clearQueue ++ sts
        stationChanged := sts.foldl setAdd s.stationChanged
        causes := if sts = [] then s.causes else s.causes ||| BitVec.twoPow 16 5 } := by
  induction sts generalizing s with
  | nil => simp [State.leaveAll]
  | cons st rest ih =>
    have h : s.leaveAll (st :: rest) = (s.leave st).leaveAll rest := rfl
    rw [h, ih (s.leave st)]
    have hor : ∀ x y : Word, x ||| y ||| y = x ||| y := fun x y => by rw [BitVec.or_assoc, BitVec.or_self]
    simp only [leave_eq, List.append_assoc, List.singleton_append, List.foldl_cons, reduceCtorEq, if_false]
    congr 1
    split <;> simp [hor]

theorem leaveAll_station (sts : List Station) (s : State) (h : sts.Nodup) (x : Station) :
    (s.leaveAll sts).station x =
      if x ∈ sts then { s.station x with state := .leaving, timesLeft := (s.station x).timesLeft + 1 }
      else s.station x := by
  induction sts generalizing s with
  | nil => simp [State.leaveAll]
  | cons st rest ih =>
    have hl : s.leaveAll (st :: rest) = (s.leave st).leaveAll rest := rfl
    have hn := List.nodup_cons.1 h
    rw [hl, ih (s.leave st) hn.2, leave_station]
    by_cases hx : x = st
    · subst hx
      simp [hn.1]
    · simp [hx]

theorem onlineStations_nodup (s : State) (l : Link) (p : Station → Bool) : (onlineStations s l p).Nodup :=
  (List.nodup_finRange 31).filter _

theorem mem_onlineStations (s : State) (l : Link) (p : Station → Bool) (x : Station) :
    x ∈ onlineStations s l p ↔ (s.station x).state = .online ∧ (s.station x).link = some l ∧ p x = true := by
  simp [onlineStations, onlineOn, and_assoc]

/-! ## Values, slots and fence masks -/

/-- The cells of a value of up to 64 octets: none when inline, else one for each 16 octets begun (R23). -/
theorem cellsFor_bounds (n : Nat) :
    (n ≤ 8 → cellsFor n = 0) ∧ (8 < n → 16 * cellsFor n < n + 16 ∧ n ≤ 16 * cellsFor n) := by
  refine ⟨fun h => if_pos h, fun h => ?_⟩
  have hc : cellsFor n = (n + 15) / 16 := if_neg (Nat.not_le.mpr h)
  omega

/-- The data words of a slot hold 64 octets (R182). -/
theorem dataOctets_length (data : Vector Word 32) : (dataOctets data).length = 64 := by
  simp [dataOctets, twoOctets, List.length_flatMap]

/-- A set written as two words holds no station 0 (R182, R188). -/
theorem setHas_setOfWords_zero (low high : Word) : setHas (setOfWords low high) 0 = false := by
  simp [setHas, setOfWords]

/-! ## The notice window's fill (R120) -/

/-- A fetch handed to the notice window takes the next number of fill; handed elsewhere it takes none. -/
theorem deliverFetch_fills (o : Origin) (found : Option Snapshot) (s : State) :
    (deliverFetch o found s).fills = s.fills + if o = .window then 1 else 0 := by
  cases o <;> simp [deliverFetch, State.buildVisit, State.modVisit]

/-- A word of a slot that is not OP is written as a parameter or data word (R183). -/
theorem slotWordWrite_of_ne_op {w : SlotWord} (h : w ≠ .op) (k : Fin 4) (v : Word) (s : State) :
    slotWordWrite k w v s = slotWriteEffect k w v s := by
  cases w <;> first | rfl | exact absurd rfl h

end Sys2Proof.Machine
end

