-- ==== Sys2Proof/Laws/Quiet.lean ====
section
/-! SUPPORT. Which commands leave the directory alone: index, incarnation counter, pool, deadline list and
station counts. Said once for every shared operation, then for the commands. -/

namespace Sys2Proof.Machine

/-- The directory and the counts are as they were. -/
def Quiet (s t : State) : Prop :=
  t.index = s.index ∧ t.incarnation = s.incarnation ∧ t.freeCells = s.freeCells ∧ t.deadlines = s.deadlines ∧
  ∀ x : Station, (t.station x).claims = (s.station x).claims ∧
    (t.station x).subscriptions = (s.station x).subscriptions ∧
    (t.station x).pendingCount = (s.station x).pendingCount

/-- A change of an entry that keeps its counts. -/
def CountsKept (f : StationEntry → StationEntry) : Prop :=
  ∀ e, (f e).claims = e.claims ∧ (f e).subscriptions = e.subscriptions ∧ (f e).pendingCount = e.pendingCount

namespace Quiet

theorem refl (s : State) : Quiet s s := ⟨rfl, rfl, rfl, rfl, fun _ => ⟨rfl, rfl, rfl⟩⟩

theorem trans {s t u : State} (h1 : Quiet s t) (h2 : Quiet t u) : Quiet s u := by
  obtain ⟨a1, a2, a3, a4, a5⟩ := h1
  obtain ⟨b1, b2, b3, b4, b5⟩ := h2
  refine ⟨b1.trans a1, b2.trans a2, b3.trans a3, b4.trans a4, fun x => ?_⟩
  exact ⟨(b5 x).1.trans (a5 x).1, (b5 x).2.1.trans (a5 x).2.1, (b5 x).2.2.trans (a5 x).2.2⟩

/-- A state with the same directory fields and the same table. -/
theorem of_fields {s t : State} (h1 : t.index = s.index) (h2 : t.incarnation = s.incarnation)
    (h3 : t.freeCells = s.freeCells) (h4 : t.deadlines = s.deadlines) (h5 : t.stations = s.stations) : Quiet s t := by
  refine ⟨h1, h2, h3, h4, fun x => ?_⟩
  simp [State.station, h5]

theorem modLink (s : State) (l : Link) (f : LinkEngine → LinkEngine) : Quiet s (s.modLink l f) :=
  of_fields (by simp) (by simp) (by simp) (by simp) (by simp)

theorem modStation (s : State) (st : Station) {f : StationEntry → StationEntry} (hf : CountsKept f) :
    Quiet s (s.modStation st f) := by
  refine ⟨rfl, rfl, rfl, rfl, fun x => ?_⟩
  rw [modStation_station]
  split
  · next h => subst h; exact hf _
  · exact ⟨rfl, rfl, rfl⟩

theorem setCause (c : Cause) (s : State) : Quiet s (setCause c s) := of_fields rfl rfl rfl rfl rfl

theorem modSlot (s : State) (k : Fin 4) (f : Slot → Slot) : Quiet s (s.modSlot k f) := of_fields rfl rfl rfl rfl rfl

theorem monitorLook (s : State) : Quiet s (monitorLook s) := by
  rw [monitorLook_eq]; exact of_fields rfl rfl rfl rfl rfl

theorem ite {s t u : State} {c : Prop} [Decidable c] (h1 : Quiet s t) (h2 : Quiet s u) :
    Quiet s (if c then t else u) := by
  split <;> assumption

theorem changeState (s : State) (st : Station) (new : StationState) : Quiet s (s.changeState st new) := by
  have h : Quiet s (s.modStation st fun e => { e with state := new }) := modStation s st fun _ => ⟨rfl, rfl, rfl⟩
  exact h.trans (of_fields rfl rfl rfl rfl rfl)

theorem leave (s : State) (st : Station) : Quiet s (s.leave st) := by
  have h1 := changeState s st .leaving
  have h2 := modStation (s.changeState st .leaving) st
    (f := fun e => { e with timesLeft := e.timesLeft + 1 }) fun _ => ⟨rfl, rfl, rfl⟩
  exact (h1.trans h2).trans (of_fields rfl rfl rfl rfl rfl)

theorem leaveAll (s : State) (sts : List Station) : Quiet s (s.leaveAll sts) := by
  induction sts generalizing s with
  | nil => exact refl s
  | cons st rest ih => exact (leave s st).trans (ih (s.leave st))

theorem takeSwitch (s : State) (l : Link) : Quiet s (s.takeSwitch l) :=
  ((modLink s l _).trans (setCause _ _)).trans (leaveAll _ _)

theorem wrap (s : State) (l : Link) : Quiet s (s.wrap l) :=
  ite ((modLink s l _).trans (takeSwitch _ l)) (modLink s l _)

theorem advance (s : State) (l : Link) : Quiet s (s.advance l) := ite (wrap s l) (modLink s l _)

theorem completeStop (s : State) (l : Link) : Quiet s (s.completeStop l) := by
  have h := ((modLink s l fun e => { e with state := .stopped, visit := none, walk := 0 }).trans
    (leaveAll _ (onlineStations (s.modLink l fun e => { e with state := .stopped, visit := none, walk := 0 }) l
      fun _ => true))).trans (setCause (.linkStopped l) _)
  exact ite (h.trans (takeSwitch _ l)) h

theorem endVisit (s : State) (l : Link) : Quiet s (s.endVisit l) :=
  ite ((modLink s l _).trans (completeStop _ l)) ((modLink s l _).trans (advance _ l))

theorem buildVisit (s : State) (l : Link) (n : Option Snapshot) : Quiet s (s.buildVisit l n) := modLink s l _

theorem enterRequest (s : State) (l : Link) : Quiet s (s.enterRequest l) := by
  unfold State.enterRequest
  split
  · exact refl s
  · split
    · exact refl s
    · split
      · exact endVisit s l
      · split
        · exact ((modLink s l _).trans (modLink _ l _)).trans (modStation _ _ fun _ => ⟨rfl, rfl, rfl⟩)
        · exact modLink s l _

theorem deliverAck (o : Origin) (s : State) : Quiet s (deliverAck o s) := by
  cases o <;> first | exact enterRequest s _ | exact of_fields rfl rfl rfl rfl rfl

theorem deliverFetch (o : Origin) (found : Option Snapshot) (s : State) : Quiet s (deliverFetch o found s) := by
  cases o <;> first | exact buildVisit s _ _ | exact of_fields rfl rfl rfl rfl rfl

theorem deliver (o : Origin) (st : Station) (q : Request) (res : Result) (s : State) :
    Quiet s (deliver o st q res s) := by
  cases o with
  | slot k => exact (modSlot s k _).trans (setCause _ _)
  | link l => exact (modLink s l _).trans (modStation _ _ fun _ => ⟨rfl, rfl, rfl⟩)
  | window | deadline | clear => exact refl s

theorem grant (s : State) : Quiet s (grantEffect s) := by
  unfold grantEffect
  split
  · exact refl s
  · split
    · exact refl s
    · next r o w _ =>
      have h1 : Quiet s (leaveRequester o { s with pointer := nextRequester r }) := by
        cases o <;> exact of_fields rfl rfl rfl rfl rfl
      split
      · exact h1.trans (of_fields rfl rfl rfl rfl rfl)
      · refine (h1.trans ?_).trans (monitorLook _)
        cases w with
        | request st q => exact deliver o st q _ _
        | noticeFetch st => exact deliverFetch o none _
        | noticeAck st id => exact deliverAck o _
        | expire | clearChunk => exact refl _

/-! ## Links -/

theorem walk (l : Link) (s : State) : Quiet s (walkEffect l s) := by
  refine ite ?_ (refl s)
  split
  · exact wrap s l
  · exact advance s l
  · unfold walkStation
    split
    · exact advance s l
    · refine ite ((modLink s l _).trans (advance _ l)) ?_
      split <;> first | exact advance s l | exact modLink s l _

theorem missVisit (l : Link) (st : Station) (s : State) : Quiet s (missVisit l st s) := by
  have h : ∀ u : State, Quiet u (missStation l st u) := by
    intro u
    refine ite ?_ (refl u)
    have hm := modStation u st (f := fun e => { e with missCount := e.missCount + 1 }) fun _ => ⟨rfl, rfl, rfl⟩
    exact ite (hm.trans (leave _ st)) hm
  exact ((modLink s l _).trans (h _)).trans (endVisit _ l)

theorem failTry (l : Link) (s : State) : Quiet s (failTry l s) := by
  unfold Machine.failTry
  split
  · exact refl s
  · exact ite ((modLink s l _).trans (modLink _ l _)) (missVisit l _ s)

theorem badFrame (l : Link) (w : Bool) (s : State) : Quiet s (badFrame l w s) :=
  ite ((modLink s l _).trans (failTry l _)) (modLink s l _)

theorem strayFrame (l : Link) (w : Bool) (s : State) : Quiet s (strayFrame l w s) :=
  ite ((modLink s l _).trans (failTry l _)) (modLink s l _)

theorem validReply (l : Link) (st : Station) (reply : Reply) (s : State) : Quiet s (validReply l st reply s) := by
  have h : ∀ u : State, Quiet u (replyStation l st u) := by
    intro u
    refine ite ((changeState u st .online).trans (modStation _ st fun _ => ⟨rfl, rfl, rfl⟩)) ?_
    exact ite (modStation u st fun _ => ⟨rfl, rfl, rfl⟩) (refl u)
  have h2 := ((modLink s l fun e => { e with counters := { e.counters with goodReplies := e.counters.goodReplies + 1 } }).trans
    (h _)).trans (modLink _ l fun e => { e with visit := e.visit.map fun v => { v with phase := .ack, reply := some reply } })
  unfold Machine.validReply
  split
  · exact h2
  · exact h2.trans (enterRequest _ l)

theorem frameReceived (l : Link) (a t f : Byte) (p : List Byte) (lo hi : Byte) (s : State) :
    Quiet s (frameReceivedEffect l a t f p lo hi s) := by
  unfold frameReceivedEffect wholeFrame
  split
  · exact refl s
  · refine (modLink s l _).trans (ite (badFrame l _ _) (ite ?_ (strayFrame l _ _)))
    split
    · exact validReply l _ _ _
    · exact strayFrame l _ _

theorem frameBroken (l : Link) (s : State) : Quiet s (frameBrokenEffect l s) := by
  unfold frameBrokenEffect
  split
  · exact refl s
  · exact (modLink s l _).trans (badFrame l _ _)

theorem replyTimeout (l : Link) (s : State) : Quiet s (replyTimeoutEffect l s) :=
  ite ((modLink s l _).trans (failTry l _)) (refl s)

/-! ## The port -/

theorem switchControl (l : Link) (b : Bool) (s : State) : Quiet s (switchControl l b s) :=
  ite (ite ((modLink s l _).trans (takeSwitch _ l)) (modLink s l _)) (modLink s l _)

theorem runControl (l : Link) (b : Bool) (s : State) : Quiet s (runControl l b s) := by
  unfold Machine.runControl
  split
  · exact modLink s l _
  · exact ite ((modLink s l _).trans (completeStop _ l)) (modLink s l _)
  · exact setCause _ s
  all_goals exact refl s

theorem linkControl (r b : Bool) (s : State) : Quiet s (linkControl r b s) :=
  (switchControl _ b s).trans (runControl _ r _)

theorem assignment (v : Word) (s : State) : Quiet s (assignmentEffect v s) := by
  unfold assignmentEffect
  dsimp only
  split
  · exact setCause _ s
  · split
    · exact modStation s _ fun _ => ⟨rfl, rfl, rfl⟩
    · exact modStation s _ fun _ => ⟨rfl, rfl, rfl⟩
    all_goals exact setCause _ s

theorem bar (s : State) : Quiet s (barEffect s) := by
  unfold barEffect
  dsimp only
  split
  · exact setCause _ s
  · split
    · refine trans ?_ (leave _ _)
      exact modStation s _ fun _ => ⟨rfl, rfl, rfl⟩
    · exact modStation s _ fun _ => ⟨rfl, rfl, rfl⟩
    · exact changeState s _ _
    all_goals exact refl s

theorem unbar (s : State) : Quiet s (unbarEffect s) := by
  unfold unbarEffect
  dsimp only
  split
  · exact setCause _ s
  · split
    · exact modStation s _ fun _ => ⟨rfl, rfl, rfl⟩
    · refine trans ?_ (changeState _ _ _)
      exact modStation s _ fun _ => ⟨rfl, rfl, rfl⟩
    all_goals exact refl s

theorem stationCounter (which : StationCounter) (s : State) : Quiet s (stationCounterEffect which s) :=
  modStation s _ fun _ => by cases which <;> exact ⟨rfl, rfl, rfl⟩

theorem go (k : Fin 4) (code : Byte) (e f : Bool) (s : State) : Quiet s (goEffect k code e f s) :=
  ite (of_fields rfl rfl rfl rfl rfl) (setCause _ s)

theorem cancel (k : Fin 4) (code : Byte) (e f : Bool) (s : State) : Quiet s (cancelEffect k code e f s) := by
  unfold cancelEffect
  split
  · exact of_fields rfl rfl rfl rfl rfl
  · exact refl s
  all_goals exact modSlot s k _

theorem clear (k : Fin 4) (code : Byte) (e f : Bool) (s : State) : Quiet s (clearEffect k code e f s) := by
  unfold clearEffect
  split <;> first | exact modSlot s k _ | exact setCause _ s

theorem slotWrite (k : Fin 4) (w : SlotWord) (v : Word) (s : State) : Quiet s (slotWriteEffect k w v s) :=
  ite (modSlot s k _) (setCause _ s)

theorem slotWord (k : Fin 4) (w : SlotWord) (v : Word) (s : State) : Quiet s (slotWordWrite k w v s) := by
  cases w
  case op =>
    simp only [slotWordWrite, opWordWrite]
    split
    · exact slotWrite k _ v s
    · exact go k _ _ _ s
    · exact cancel k _ _ _ s
    · exact clear k _ _ _ s
    · exact setCause _ s
  all_goals exact slotWrite k _ v s

theorem take (s : State) : Quiet s (takeEffect s) := ite (setCause _ s) (of_fields rfl rfl rfl rfl rfl)

theorem ack (s : State) : Quiet s (ackEffect s) := ite (setCause _ s) (of_fields rfl rfl rfl rfl rfl)

theorem select (w : Select) (v : Word) (s : State) : Quiet s (selectEffect w v s) := by
  cases w <;> simp only [selectEffect] <;> split <;> exact of_fields rfl rfl rfl rfl rfl

theorem entry (v : Word) (s : State) : Quiet s (entryEffect v s) := by
  unfold entryEffect
  split
  · exact ite (setCause _ s) (modLink s _ _)
  · exact setCause _ s

theorem parameter (w : LinkParameter) (v : Word) (s : State) : Quiet s (parameterEffect w v s) := by
  refine ite ?_ (setCause _ s)
  split
  · exact modLink s _ _
  · exact setCause _ s

theorem counterWrite (w : LinkCounter) (s : State) : Quiet s (counterWriteEffect w s) := modLink s _ _

end Quiet

/-- The commands that can change the directory or a count: the completions of operations that have effects, and the
resets. -/
def touchesDirectory : Instr → Bool
  | .write | .create | .retire | .claim | .release | .subscribe | .unsubscribe | .pin | .unpin | .purge
  | .read | .next | .noticeFetch | .noticeAck | .expire | .clearChunk | .fullReset | .softReset _
  | .registerWrite _ _ => true
  | _ => false

/-- Every other command leaves the directory and the counts as they were. -/
theorem exec_quiet {c : Instr} (hc : touchesDirectory c = false) {s t : State} (h : exec c s = .next t) : Quiet s t := by
  have lift : ∀ f : State → State, Quiet s (f s) → whileReleased f s = .next t → Quiet s t := by
    intro f hf he
    rw [whileReleased_next] at he
    cases he
    exact Quiet.ite (Quiet.refl s) hf
  cases c <;> first | (simp [touchesDirectory] at hc; done) | skip
  case grant => exact lift _ (Quiet.grant s) h
  case deadlineDue => exact lift _ (Quiet.monitorLook s) h
  case walkEntry l => exact lift _ (Quiet.walk l s) h
  case sendVisit l => exact lift _ (Quiet.ite ((Quiet.modLink s l _).trans (Quiet.modLink _ l _)) (Quiet.refl s)) h
  case visitFrameSent l => exact lift _ (Quiet.ite ((Quiet.modLink s l _).trans (Quiet.modLink _ l _)) (Quiet.refl s)) h
  case frameReceived l a ty f p lo hi => exact lift _ (Quiet.frameReceived l a ty f p lo hi s) h
  case frameBroken l b => exact lift _ (Quiet.frameBroken l s) h
  case replyTimeout l => exact lift _ (Quiet.replyTimeout l s) h
  case sendResult l => exact lift _ (Quiet.ite (Quiet.modLink s l _) (Quiet.refl s)) h
  case resultFrameSent l => exact lift _ (Quiet.ite ((Quiet.modLink s l _).trans (Quiet.endVisit _ l)) (Quiet.refl s)) h
  case resetRelease => cases h; exact Quiet.of_fields rfl rfl rfl rfl rfl
  case clockLatch => exact lift _ (Quiet.of_fields rfl rfl rfl rfl rfl) h
  case go k code e f => exact lift _ (Quiet.go k code e f s) h
  case cancel k code e f => exact lift _ (Quiet.cancel k code e f s) h
  case clear k code e f => exact lift _ (Quiet.clear k code e f s) h
  case slotParameterWrite k w v => exact lift _ (Quiet.slotWord k w v s) h
  case take => exact lift _ (Quiet.take s) h
  case ack => exact lift _ (Quiet.ack s) h
  case attnCauseWrite v => exact lift _ (Quiet.of_fields rfl rfl rfl rfl rfl) h
  case attnEnableWrite v => exact lift _ (Quiet.of_fields rfl rfl rfl rfl rfl) h
  case stationChangedWrite b v => exact lift _ (Quiet.of_fields rfl rfl rfl rfl rfl) h
  case poolLowThresholdWrite v => exact lift _ (Quiet.of_fields rfl rfl rfl rfl rfl) h
  case leaseMaxWrite v => exact lift _ (Quiet.of_fields rfl rfl rfl rfl rfl) h
  case selectWrite w v => exact lift _ (Quiet.select w v s) h
  case linkAssignmentWrite v => exact lift _ (Quiet.assignment v s) h
  case bar => exact lift _ (Quiet.bar s) h
  case unbar => exact lift _ (Quiet.unbar s) h
  case stationCounterWrite w v => exact lift _ (Quiet.stationCounter w s) h
  case fenceWrite f v => exact lift _ (Quiet.of_fields rfl rfl rfl rfl rfl) h
  case entryValueWrite v => exact lift _ (Quiet.entry v s) h
  case run b => exact lift _ (Quiet.linkControl true b s) h
  case runCleared b => exact lift _ (Quiet.linkControl false b s) h
  case switch b => exact lift _ (Quiet.linkControl b true s) h
  case switchWithdraw b => exact lift _ (Quiet.linkControl b false s) h
  case linkParameterWrite w v => exact lift _ (Quiet.parameter w v s) h
  case linkCounterWrite w b v => exact lift _ (Quiet.counterWrite w s) h
  case linkCounterLowRead w =>
    cases h
    exact Quiet.ite (Quiet.of_fields rfl rfl rfl rfl rfl) (Quiet.of_fields rfl rfl rfl rfl rfl)
  case directoryClockTick =>
    exact lift (fun s => { s with clock := s.clock + 1 }) (Quiet.of_fields rfl rfl rfl rfl rfl) h
  case startOctetReceived l o b => exact lift _ (Quiet.ite (Quiet.modLink s l _) (Quiet.refl s)) h

end Sys2Proof.Machine
end

