-- ==== Sys2Proof/Tests/Slice0.lean ====
section
/-! SUPPORT. The smoke test of well-formedness, the spec's worked numbers, and for every statement with hypotheses
a state and operands that meet them, at the boundary values where a statement has several clauses. -/

namespace Sys2Proof.Tests

set_option Elab.async false

open Sys2Proof Sys2Proof.Machine Sys2Proof.Spec

/-! ## Well-formedness, decoding and worked numbers -/

/-- A payload of 97 octets is no whole frame (R147, R149). -/
theorem test_payload_of_97_is_refused :
    Instr.wellFormed (.frameReceived .a 1 2 0 (List.replicate 97 0) 0 0) = false := by decide +kernel

theorem test_payload_of_96_is_accepted :
    Instr.wellFormed (.frameReceived .a 1 2 0 (List.replicate 96 0) 0 0) = true := by decide +kernel

/-- A length octet of 96 does not break a frame (R149). -/
theorem test_length_octet_96_is_refused : Instr.wellFormed (.frameBroken .b (.length 96)) = false := by decide +kernel

theorem test_length_octet_97_is_accepted : Instr.wellFormed (.frameBroken .b (.length 97)) = true := by decide +kernel

/-- A parameter write of an OP word has no command bit set (R183). -/
theorem test_op_parameter_write_with_a_command_bit_is_refused :
    Instr.wellFormed (.slotParameterWrite 0 .op 0x1000) = false ∧
    Instr.wellFormed (.slotParameterWrite 0 .op 0x2000) = false ∧
    Instr.wellFormed (.slotParameterWrite 0 .op 0x4000) = false := by decide +kernel

theorem test_op_parameter_write_is_accepted :
    Instr.wellFormed (.slotParameterWrite 0 .op 0x83FF) = true ∧
    Instr.wellFormed (.slotParameterWrite 3 (.data 31) 0x7000) = true := by decide +kernel

/-- The table gives no row any bits, so no word spells a command (log entry 16). -/
theorem test_no_word_spells_a_command : decodeTableWord 16 0x0001 = none := rfl

theorem test_generation_wraps_to_1 : nextGeneration 65535 = 1 ∧ nextGeneration 0 = 1 := by decide +kernel

theorem test_cells_of_lengths :
    cellsFor 0 = 0 ∧ cellsFor 8 = 0 ∧ cellsFor 9 = 1 ∧ cellsFor 16 = 1 ∧ cellsFor 17 = 2 ∧ cellsFor 64 = 4 := by
  decide +kernel

/-- The request of a slot with four arguments and the first and last data words in use. -/
theorem test_request_of_a_slot :
    SlotAsks
      { Slot.reset with
        code := 3, expect := true, point := 9, args := #v[1, 2, 3, 4]
        data := (Slot.reset.data.set 0 0x4241).set 31 0x5A59 }
      { code := 3, expect := true, force := false, point := 9, arg0 := 1, arg1 := 2, arg2 := 3, arg3 := 4
        data := [0x41, 0x42] ++ List.replicate 60 0 ++ [0x59, 0x5A] } := by decide +kernel

/-- A due time just before the wrap is earlier than a clock just after it (R84). -/
theorem test_due_across_the_wrap : notAfter 0xFFFFFFF0 5 = true ∧ notAfter 5 0xFFFFFFF0 = false := by decide +kernel

/-- C5h on the line: a start bit, 1010 0011, a stop bit (R145). -/
theorem test_start_octet_on_the_line :
    characterBits 0xC5 = [false, true, false, true, false, false, false, true, true, true] := by decide +kernel

/-- Each whole divisor of the 16 MHz clock meets its bit rate within 0.1 % (R145). -/
theorem test_bit_rates_by_divisors : ∀ c : Fin 6,
    16000000 * 999 ≤ 1000 * bitsPerSecond c * bitPeriods c ∧
    1000 * bitsPerSecond c * bitPeriods c ≤ 16000000 * 1001 := by decide +kernel

/-- The five octets of a VISIT without a notice, before its CRC (R147, R150). -/
theorem test_visit_without_notice :
    (visitFrame { station := 7, entry := 0, phase := .sendVisit, tryNumber := 1, fresh := true, notice := none,
                  reply := none, result := none }).take 5 = [0xC5, 7, 1, 2, 0] := by decide +kernel

/-- A REPLY with ACK, REQ, TAG and EXPECT: the acknowledgement, then a WRITE of two octets (R151). -/
theorem test_reply_with_acknowledgement_and_write :
    parseReply 0x0F [0x34, 0x12, 1, 0, 2, 0, 2, 0x34, 0x12, 9, 0, 2, 0xAA, 0xBB] = some
      { ack := some { point := 0x1234, incarnation := 1, revision := 2 }
        request := some { code := 2, expect := true, force := false, point := 0x1234, arg0 := 9, arg1 := 2,
                          arg2 := 0, arg3 := 0, data := [0xAA, 0xBB] }
        tag := true } := by decide +kernel

/-- An octet over makes the REPLY no valid one (R151). -/
theorem test_reply_with_an_octet_over : parseReply 0x02 [1, 0x34, 0x12, 0] = none := by decide +kernel

/-- The map of R182: the last result word of slot 3, a hole, and the last link counter's high word. -/
theorem test_places :
    placeOf 0x0DF = .slotResult 3 6 ∧ placeOf 0x046 = .nothing ∧
    placeOf 0x18A = .linkCounter .mismatchedSlots true := by decide +kernel

/-! ## Small states -/

/-- A WORD point with the number and slot given. -/
def wordPoint : Active :=
  { cls := .word, value := some [0x34, 0x12], quality := .good, generation := 7, owner := none, lease := none
    refresh := none, pinned := false, cells := 0 }

/-- An ACTIVE record. -/
def activeRecord (p : Word) (slot : Nat) (a : Active) : Record :=
  { point := p, slot, incarnation := 3, revision := 5, subscribers := 0, pendingSet := 0, phase := .active a }

/-- A RETIRING record that station 3 still follows. -/
def retiringRecord (p : Word) (slot : Nat) : Record :=
  { point := p, slot, incarnation := 3, revision := 6, subscribers := 8, pendingSet := 8, phase := .retiring }

/-- A request on a point, with its first two arguments. -/
def asked (code : Byte) (p arg0 arg1 : Word) : Request :=
  { code, expect := false, force := false, point := p, arg0, arg1, arg2 := 0, arg3 := 0, data := [0x55, 0xAA] }

/-- The records given, with one operation in progress. -/
def doing (records : List Record) (o : Origin) (w : Work) : State :=
  { State.reset with
    index := records
    running := some { origin := o, work := w, now := 0, fences := State.reset.fences, leaseMax := 600 } }

/-- A local request in progress. -/
def localDoing (records : List Record) (q : Request) : State := doing records (.slot 2) (.request 0 q)

/-- What a request in progress took at its grant. -/
def localGrant (q : Request) : Granted :=
  { origin := .slot 2, work := .request 0 q, now := 0, fences := State.reset.fences, leaseMax := 600 }

/-- A visit of station 3 in a phase. -/
def visitIn (phase : VisitPhase) : Visit :=
  { station := 3, entry := 0, phase, tryNumber := 1, fresh := false, notice := none, reply := none, result := none }

/-- Link A RUNNING, standing in a visit, its receiver as given. -/
def visiting (v : Visit) (receiver : Receiver) : State :=
  { State.reset with linkA := { LinkEngine.reset with state := .running, visit := some v, receiver } }

/-- A station ONLINE on link A. -/
def onlineA : StationEntry := { StationEntry.reset .online with link := some .a }

/-- A bank whose first entry has a code and whose others are END. -/
def bankOf (c : Fin 32) : Vector (Fin 32) 32 := (Vector.replicate 32 0).set 0 c

/-- Link A RUNNING at the first entry of a bank. -/
def walking (c : Fin 32) : State :=
  { State.reset with
    linkA := { LinkEngine.reset with state := .running, banks := LinkEngine.reset.banks.set 0 (bankOf c) } }

/-! ## Steps, the queue and resets -/

theorem witness_StepRunsTheFrontCommand : ({ State.reset with pending := [.take] }).pending = .take :: [] := rfl

theorem witness_StepIdlesOnAnEmptyQueue : State.reset.pending = [] := rfl

theorem witness_HeldResetActsOnNothing :
    ({ State.reset with resetHeld := true }).resetHeld = true ∧ Instr.take ≠ .fullReset ∧
    Instr.take ≠ .resetRelease ∧ ∀ w, Instr.take ≠ .linkCounterLowRead w :=
  ⟨rfl, by decide, by decide, fun w => by cases w <;> decide⟩

theorem witness_FullResetThenRelease : ∃ t, exec .fullReset State.reset = .next t := ⟨_, rfl⟩

/-- The one hypothesis of SoftResetEmptiesAndKeeps, ClockAndDeadlineList, ControlWordActs, the first two clauses of
NoticeWindowTakesAndAcks, AttentionActsBitByBit and BusWritesActAsTheirRows. -/
theorem witness_released : State.reset.resetHeld = false := rfl

/-! ## The arbiter -/

theorem witness_RequestersPresent_link :
    (visiting (visitIn .fetch) .hunting).linkA.visit = some (visitIn .fetch) ∧
    runningFor (visiting (visitIn .fetch) .hunting) (.link .a) = false ∧
    State.reset.linkA.visit = none ∧ runningFor (doing [] (.link .b) (.noticeFetch 3)) (.link .b) = true := by
  decide +kernel

/-- The notice window with an operation waiting and a snapshot. -/
def windowWaiting (op : WindowOp) : State :=
  { State.reset with
    window := { snapshot := some { id := { point := 9, incarnation := 3, revision := 5 }, body := .retired }
                busy := true, waiting := some op } }

theorem witness_RequestersPresent_window :
    (windowWaiting .fetch).window.waiting = some .fetch ∧ (windowWaiting .ack).window.waiting = some .ack ∧
    (windowWaiting .ack).window.snapshot =
      some { id := { point := 9, incarnation := 3, revision := 5 }, body := .retired } := by decide +kernel

/-- Slot 2 QUEUED with an operation code. -/
def queued (code : Byte) : State :=
  { State.reset with slots := State.reset.slots.set 2 { Slot.reset with state := .queued, code }, submission := [2] }

theorem witness_RequestersPresent_slots :
    (queued 1).window.waiting = none ∧ (queued 1).submission = 2 :: [] ∧ State.reset.window.waiting = none ∧
    State.reset.submission = [] := by decide +kernel

/-- Station 3 LEAVING with its clear at hand. -/
def clearing : State :=
  { State.reset with
    clearQueue := [3], stations := State.reset.stations.set 3 { StationEntry.reset .leaving with link := some .a } }

theorem witness_RequestersPresent_clear :
    clearing.clearQueue = 3 :: [] ∧ runningFor clearing .clear = false ∧ State.reset.clearQueue = [] ∧
    runningFor (doing [] .clear (.clearChunk 3 0)) .clear = true := by decide +kernel

theorem witness_GrantStartsTheFirstWaiting :
    let w := Work.request 0 (slotRequest (queued 12).slots[2])
    GrantTo (queued 12) .local_ (.slot 2) w ∧ standingGood (queued 12) (.slot 2) w = true ∧
    codeGood (.slot 2) w = true := by decide +kernel

theorem witness_GrantStartsTheFirstWaiting_idle :
    (localDoing [] (asked 1 9 0 0)).running.isSome = true ∧ ∀ r : Requester, presented State.reset r = none :=
  ⟨rfl, fun r => by cases r <;> decide +kernel⟩

/-- A visit of station 3, which is not ONLINE, in the phases that present an operation. -/
def replyHeld : Reply :=
  { ack := some { point := 9, incarnation := 3, revision := 5 }, request := some (asked 10 9 0 0), tag := true }

theorem witness_GrantRefusesStationsNotOnline :
    let v (phase : VisitPhase) : State := visiting { visitIn phase with reply := some replyHeld } .hunting
    GrantTo (v .fetch) .linkA (.link .a) (.noticeFetch 3) ∧
    GrantTo (v .ack) .linkA (.link .a) (.noticeAck 3 { point := 9, incarnation := 3, revision := 5 }) ∧
    GrantTo (v .request) .linkA (.link .a) (.request 3 (asked 10 9 0 0)) ∧
    standingGood (v .fetch) (.link .a) (.noticeFetch 3) = false ∧
    standingGood (v .ack) (.link .a) (.noticeAck 3 { point := 9, incarnation := 3, revision := 5 }) = false ∧
    standingGood (v .request) (.link .a) (.request 3 (asked 10 9 0 0)) = false := by decide +kernel

/-- Codes 0 and 13 of a slot, and code 10 of a station that is ONLINE. -/
theorem witness_GrantRefusesBadCodes :
    let local_ (c : Byte) : Work := .request 0 (slotRequest (queued c).slots[2])
    let remote : State :=
      { visiting { visitIn .request with reply := some replyHeld } .hunting with
        stations := State.reset.stations.set 3 onlineA }
    (GrantTo (queued 0) .local_ (.slot 2) (local_ 0) ∧ codeGood (.slot 2) (local_ 0) = false) ∧
    (GrantTo (queued 13) .local_ (.slot 2) (local_ 13) ∧ codeGood (.slot 2) (local_ 13) = false) ∧
    GrantTo remote .linkA (.link .a) (.request 3 (asked 10 9 0 0)) ∧
    standingGood remote (.link .a) (.request 3 (asked 10 9 0 0)) = true ∧
    codeGood (.link .a) (.request 3 (asked 10 9 0 0)) = false := by decide +kernel

theorem witness_GrantNearsEveryWaitingRequester :
    (queued 1).resetHeld = false ∧ (queued 1).running = none ∧
    presented (queued 1) .local_ = some (.slot 2, .request 0 (slotRequest (queued 1).slots[2])) := by decide +kernel

/-- Fence 0 covers point 9 alone, and lets station 3 read and station 4 write. -/
theorem witness_FencesDecideByUnion :
    let g : Granted :=
      { localGrant (asked 1 9 0 0) with
        fences := State.reset.fences.set 0 { enabled := true, low := 9, high := 9, readMask := 8, writeMask := 16 } }
    (mayRead g 3 9, mayRead g 4 9, mayRead g 4 10, mayRead g 0 9) = (true, false, true, true) ∧
    (mayWrite g 3 9, mayWrite g 4 9, mayWrite g 3 8, mayWrite g 0 9) = (false, true, true, true) := by decide +kernel

/-! ## Requests -/

/-- Each table of the point operations refuses: point number 0 or 65535, and no ACTIVE record. -/
theorem witness_PointOperationsRefuseByTheirTables :
    let g := localGrant (asked 1 0 0 0)
    let s := localDoing [retiringRecord 9 0] (asked 1 0 0 0)
    InProgress 1 s g 0 (asked 1 0 0 0) ∧
    refusedBy (readTable g 0 (asked 1 0 0 0) s) = some (plain .badPoint) ∧
    refusedBy (writeTable g 0 (asked 2 65535 0 0) s) = some (plain .badPoint) ∧
    refusedBy (createTable g 0 (asked 3 9 1 0) s) = some (plain .retiring) ∧
    refusedBy (retireTable g 0 (asked 4 9 0 0) s) = some (plain .notFound) ∧
    refusedBy (pinTable (asked 10 65534 0 0) s) = some (plain .notFound) ∧
    refusedBy (activeRows s 9) = some (plain .notFound) ∧
    refusedBy (anyPhaseTable (asked 12 1 0 0) s) = some (plain .notFound) := by decide +kernel

theorem witness_ClaimsAndSubscriptionsRefuseByTheirTables :
    let g := localGrant (asked 5 9 0 0)
    let owned := localDoing [activeRecord 9 0 { wordPoint with owner := some 3, lease := some 10 }] (asked 5 9 0 0)
    InProgress 5 owned g 0 (asked 5 9 0 0) ∧
    refusedBy (claimTable g 0 (asked 5 9 0 0) owned) = some { code := .held, fields := .owner 3 } ∧
    refusedBy (releaseTable 0 (asked 6 9 0 0) owned) = some (plain .notOwner) ∧
    refusedBy (subscribeTable g 0 (asked 7 10 0 0) owned) = some (plain .notFound) ∧
    refusedBy (anyPhaseTable (asked 8 65535 0 0) owned) = some (plain .badPoint) := by decide +kernel

theorem witness_RequestCompletionsTouchNothingElse :
    codeOf .create = some 3 ∧
    InProgress 3 (localDoing [] (asked 3 9 1 0)) (localGrant (asked 3 9 1 0)) 0 (asked 3 9 1 0) := by decide +kernel

/-- One ACTIVE record at point 9 with a local request on it passes every check of its table. -/
theorem witness_requests_on_an_active_point :
    let r := activeRecord 9 0 wordPoint
    let s (c : Byte) := localDoing [r] (asked c 9 0 2)
    (∀ c : Byte, c ∈ [1, 2, 4, 5, 6, 7, 8, 10, 11, 12] →
      InProgress c (s c) (localGrant (asked c 9 0 2)) 0 (asked c 9 0 2) ∧ activeAt (s c) 9 = some (r, wordPoint)) ∧
    refusedBy (readTable (localGrant (asked 1 9 0 2)) 0 (asked 1 9 0 2) (s 1)) = none ∧
    refusedBy (writeTable (localGrant (asked 2 9 0 2)) 0 (asked 2 9 0 2) (s 2)) = none ∧
    refusedBy (retireTable (localGrant (asked 4 9 0 2)) 0 (asked 4 9 0 2) (s 4)) = none ∧
    refusedBy (claimTable (localGrant (asked 5 9 0 2)) 0 (asked 5 9 0 2) (s 5)) = none ∧
    refusedBy (releaseTable 0 (asked 6 9 0 2) (s 6)) = none ∧
    refusedBy (subscribeTable (localGrant (asked 7 9 0 2)) 0 (asked 7 9 0 2) (s 7)) = none ∧
    refusedBy (anyPhaseTable (asked 8 9 0 2) (s 8)) = none ∧ (s 8).findRecord 9 = some r ∧
    refusedBy (pinTable (asked 10 9 0 2) (s 10)) = none ∧
    refusedBy (activeRows (s 11) 9) = none ∧
    refusedBy (anyPhaseTable (asked 12 9 0 2) (s 12)) = none := by decide +kernel

/-- The clauses of RELEASE, SUBSCRIBE and UNPIN part on the owner, the subscriber set and the pinned mark. -/
theorem witness_requests_on_an_owned_pinned_point :
    let a := { wordPoint with owner := some 0, pinned := true, refresh := some 1 }
    let r := { activeRecord 65534 1023 a with subscribers := 1 }
    let s (c : Byte) := localDoing [r] (asked c 65534 0 0)
    activeAt (s 6) 65534 = some (r, a) ∧ a.owner ≠ none ∧ refusedBy (releaseTable 0 (asked 6 65534 0 0) (s 6)) = none ∧
    setHas r.subscribers 0 = true ∧
    refusedBy (subscribeTable (localGrant (asked 7 65534 0 0)) 0 (asked 7 65534 0 0) (s 7)) = none ∧
    a.pinned = true ∧ refusedBy (activeRows (s 11) 65534) = none := by decide +kernel

/-- A CREATE that passes its table, slot 0 in use and slot 1 the lowest FREE. -/
theorem witness_CreateMakesTheRecord :
    let s := localDoing [activeRecord 9 0 wordPoint] (asked 3 10 4 64)
    InProgress 3 s (localGrant (asked 3 10 4 64)) 0 (asked 3 10 4 64) ∧
    refusedBy (createTable (localGrant (asked 3 10 4 64)) 0 (asked 3 10 4 64) s) = none ∧
    slotFree s 1 = true ∧ ∀ m, m < 1 → slotFree s m = false :=
  ⟨by decide +kernel, by decide +kernel, by decide +kernel, fun m h => by
    obtain rfl : m = 0 := by omega
    decide +kernel⟩

/-- NEXT with "after" 65535, with 65534 above every record, and with 8 just below the record at 9. -/
theorem witness_NextFindsTheLowestReadable :
    let s := localDoing [activeRecord 9 0 wordPoint] (asked 9 0 8 0)
    let stops (after : Word) (r : Record) : Bool :=
      !r.isRetiring && after.toNat < r.point.toNat && allowed Fence.readMask State.reset.fences 0 r.point
    InProgress 9 s (localGrant (asked 9 0 8 0)) 0 (asked 9 0 8 0) ∧ IndexOk s ∧
    (asked 9 0 65535 0).arg0.toNat = 65535 ∧
    ((asked 9 0 65534 0).arg0.toNat ≠ 65535 ∧ ∀ r ∈ s.index, stops 65534 r = false) ∧
    ((asked 9 0 8 0).arg0.toNat ≠ 65535 ∧ activeRecord 9 0 wordPoint ∈ s.index ∧
      stops 8 (activeRecord 9 0 wordPoint) = true ∧
      ∀ x ∈ s.index, stops 8 x = true → (9 : Word).toNat ≤ x.point.toNat) := by decide +kernel

/-! ## Notices, expiries, clears and the clock -/

/-- Station 3 ONLINE with its notice of point 9 in flight; the record at 9 follows `r`. -/
def noticed (r : Record) (w : Work) : State :=
  { doing [r] (.link .a) w with
    stations := State.reset.stations.set 3
      { onlineA with inflight := some { point := 9, incarnation := 3, revision := 6 }, cursor := 9 } }

/-- The search comes to the record at the cursor itself last, and finds nothing on a record that owes nothing. -/
theorem witness_NoticeFetchMarksTheNotice :
    let s := noticed (retiringRecord 9 0) (.noticeFetch 3)
    let t := noticed (activeRecord 9 0 wordPoint) (.noticeFetch 3)
    (s.resetHeld = false ∧ (s.running.map fun g => g.work) = some (.noticeFetch 3) ∧ IndexOk s ∧
      FetchFinds s 3 (retiringRecord 9 0)) ∧
    IndexOk t ∧ ∀ r ∈ t.index, setHas r.pendingSet 3 = false := by decide +kernel

/-- An acknowledgement of another revision, one of a record that has moved on, and one that matches. -/
theorem witness_NoticeAckActsOnTheNotice :
    let id : NoticeId := { point := 9, incarnation := 3, revision := 6 }
    let s := noticed (retiringRecord 9 0) (.noticeAck 3 id)
    let t := noticed (activeRecord 9 0 wordPoint) (.noticeAck 3 id)
    let matching (r : Record) : Bool :=
      r.point = id.point ∧ r.incarnation = id.incarnation ∧ r.revision = id.revision ∧ setHas r.pendingSet 3
    s.resetHeld = false ∧ IndexOk s ∧ IndexOk t ∧
    (State.reset.stations[3]).inflight ≠ some id ∧
    ((t.stations[3]).inflight = some id ∧ ∀ r ∈ t.index, matching r = false) ∧
    ((s.stations[3]).inflight = some id ∧ retiringRecord 9 0 ∈ s.index ∧ matching (retiringRecord 9 0) = true) := by
  decide +kernel

/-- The list empty, a head due at 1 with the reading 0, and heads due at the reading 0 itself, of both kinds. -/
theorem witness_ExpireTakesTheHead :
    let r := activeRecord 9 0 { wordPoint with owner := some 3, lease := some 1, refresh := some 1 }
    let d (kind : DeadlineKind) (due : LongWord) : Deadline := { point := 9, incarnation := 3, kind, due }
    let s (l : List Deadline) := { doing [r] .deadline .expire with deadlines := l }
    IndexOk (s []) ∧ (s []).resetHeld = false ∧ (s []).deadlines.head? = none ∧
    ((s [d .lease 1]).deadlines.head? = some (d .lease 1) ∧ 2 ^ 31 ≤ (0 - (d .lease 1).due).toNat) ∧
    ((s [d .lease 0]).deadlines = d .lease 0 :: [] ∧ (0 - (d .lease 0).due).toNat < 2 ^ 31 ∧ r.owner ≠ none) ∧
    ((s [d .freshness 0]).deadlines = d .freshness 0 :: [] ∧ r ∈ (s []).index ∧ r.point = 9 ∧ r.incarnation = 3 ∧
      (r.active?.map fun a => a.quality) = some .good) := by decide +kernel

/-- A record owned and followed by station 3, in the slot given, as the clear of station 3 finds it. -/
def chunkState (slot : Nat) (k : Fin 16) : State :=
  { doing [{ activeRecord 9 slot { wordPoint with owner := some 3, lease := some 1 } with subscribers := 9 }] .clear
      (.clearChunk 3 k) with
    clearQueue := [3]
    clearProgress := k
    stations := (State.reset.stations.set 3
      { StationEntry.reset .leaving with claims := 1, subscriptions := 1 }).set 0
      { StationEntry.reset .local_ with subscriptions := 1 } }

/-- The first slot of chunk 0 and the last of chunk 15. -/
theorem witness_ClearChunk_index : IndexOk (chunkState 0 0) ∧ IndexOk (chunkState 1023 15) := by decide +kernel

theorem witness_ClearChunk_first : RecordsOk (chunkState 0 0) :=
  ⟨by decide +kernel, by decide +kernel, by decide +kernel, by decide +kernel, by decide +kernel, by decide +kernel⟩

theorem witness_ClearChunk_last : RecordsOk (chunkState 1023 15) :=
  ⟨by decide +kernel, by decide +kernel, by decide +kernel, by decide +kernel, by decide +kernel, by decide +kernel⟩

theorem witness_ClearChunkStripsTheStation :
    ((chunkState 1023 15).resetHeld = false ∧
      ((chunkState 1023 15).running.map fun g => g.work) = some (.clearChunk 3 15)) ∧
    ∀ r ∈ (chunkState 1023 15).index, inChunk 15 r = true := by decide +kernel

/-! ## The links -/

/-- END, SKIP and the lowest and highest station numbers at the entry; a STOPPED link, and one with a visit. -/
theorem witness_WalkDecidesEachEntry :
    ((walking 0).linkA.state = .running ∧ (walking 0).linkA.visit = none) ∧
    walkCode (walking 0).linkA = 0 ∧ walkCode (walking 31).linkA = 31 ∧
    walkCode (walking 1).linkA = (1 : Station).val ∧ walkCode (walking 30).linkA = (30 : Station).val ∧
    State.reset.linkA.state ≠ .running ∧ (visiting (visitIn .ack) .hunting).linkA.visit ≠ none := by decide +kernel

theorem witness_FramesAreSentInTheirPhases :
    let v := { visitIn .sendResult with result := some { tag := true, payload := [0, 1] } }
    let sending (s : State) : State := { s with linkA := { s.linkA with sending := some [0xC5] } }
    let s := visiting (visitIn .sendVisit) .hunting
    let t := visiting v .hunting
    (s.linkA.visit = some (visitIn .sendVisit) ∧ s.linkA.sending = none ∧ s.linkA.receiver = .hunting) ∧
    (t.linkA.visit = some v ∧ v.result = some { tag := true, payload := [0, 1] } ∧ t.linkA.sending = none ∧
      t.linkA.receiver = .hunting) ∧
    (sending s).linkA.sending.isSome = true ∧ (sending s).linkA.visit = some (visitIn .sendVisit) ∧
    (sending t).linkA.sending.isSome = true ∧ (sending t).linkA.visit = some v := by decide +kernel

/-- A REPLY of station 3 with a tag alone, whole and with a good CRC. -/
theorem witness_ValidReplyMeetsTheStation :
    let s := visiting (visitIn .awaitReply) (.inFrame true)
    let crc := crcOf [3, 2, 4, 0]
    s.resetHeld = false ∧ s.linkA.receiver = .inFrame true ∧ s.linkA.visit = some (visitIn .awaitReply) ∧
    ValidReply (visitIn .awaitReply) 3 2 4 [] (crc.extractLsb' 0 8) (crc.extractLsb' 8 8)
      { ack := none, request := none, tag := true } := by decide +kernel

/-- A frame of the window with a bad CRC, one with a good CRC of another type, and a window with no start octet. -/
theorem witness_TriesFailAndAreRetried :
    let s := visiting (visitIn .awaitReply) (.inFrame true)
    let t := visiting (visitIn .awaitReply) .hunting
    let crc := crcOf [3, 3, 0, 0]
    s.resetHeld = false ∧ s.linkA.visit = some (visitIn .awaitReply) ∧ s.linkA.receiver = .inFrame true ∧
    crcMatches 3 2 4 [] 0 0 = false ∧
    (crcMatches 3 3 0 [] (crc.extractLsb' 0 8) (crc.extractLsb' 8 8) = true ∧ (3 : Byte) ≠ 2) ∧
    t.linkA.visit = some (visitIn .awaitReply) ∧ t.linkA.receiver = .hunting := by decide +kernel

theorem witness_FramesOutsideTheWindowAreCounted :
    (visiting (visitIn .fetch) (.inFrame false)).resetHeld = false ∧
    (visiting (visitIn .fetch) (.inFrame false)).linkA.receiver = .inFrame false ∧
    (List.replicate 96 (0 : Byte)).length ≤ 96 := by decide +kernel

/-- C5h while hunting; C4h and C6h; a link that sends; and a link inside a frame. -/
theorem witness_StartOctetBeginsAFrame :
    State.reset.linkA.sending = none ∧ State.reset.linkA.receiver = .hunting ∧ (0xC5 : Byte).toNat = 0xC5 ∧
    (0xC4 : Byte).toNat ≠ 0xC5 ∧ (0xC6 : Byte).toNat ≠ 0xC5 ∧
    ({ LinkEngine.reset with sending := some [0xC5] }).sending ≠ none ∧
    (visiting (visitIn .awaitReply) (.inFrame true)).linkA.receiver ≠ .hunting := by decide +kernel

/-! ## The port -/

/-- Bit rate codes 5 and 6, entry codes 31 and 32, the two banks, and a RUNNING link. -/
theorem witness_SweepWindowActs :
    State.reset.linkA.state = .stopped ∧ (walking 1).linkA.state ≠ .stopped ∧
    (5 : Word).toNat = (5 : Fin 6).val ∧ 6 ≤ (6 : Word).toNat ∧
    (31 : Word).toNat = (31 : Fin 32).val ∧ 31 < (32 : Word).toNat ∧
    State.reset.bankSelect = State.reset.linkA.activeBank ∧
    ({ State.reset with bankSelect := 1 }).bankSelect ≠ State.reset.linkA.activeBank := by decide +kernel

/-- A slot in each of its four states. -/
theorem witness_SlotCommandsActByTheState :
    let x (st : SlotState) : State := { State.reset with slots := State.reset.slots.set 3 { Slot.reset with state := st } }
    ((x .idle).slots[3]).state = .idle ∧ ((x .done).slots[3]).state = .done ∧
    ((x .queued).slots[3]).state = .queued ∧ ((x .running).slots[3]).state = .running := by decide +kernel

/-- OP words with no command bit, with each one, and with two. -/
theorem witness_SlotCommandsActByTheState_op :
    parameterOnly .op 0x8FFF = true ∧ parameterOnly (.data 31) 0x7000 = true ∧
    ([0x1000, 0x2000, 0x4000, 0x3000, 0x7000].all fun v => !parameterOnly .op v) = true := by decide +kernel

theorem test_op_word_with_go : opCommand 0 0x1101 = some (.go 0 1 true false) ∧ opCommand 0 0x3000 = none :=
  ⟨rfl, rfl⟩

/-- A command that leaves the notice window's snapshot alone, at its first and its last word. -/
theorem witness_NoticeWindowTakesAndAcks :
    (∃ t, exec .directoryClockTick (windowWaiting .fetch) = .next t) ∧ Instr.directoryClockTick ≠ .noticeFetch ∧
    Instr.directoryClockTick ≠ .noticeAck ∧ Instr.directoryClockTick ≠ .fullReset ∧
    Instr.directoryClockTick ≠ .resetRelease ∧ (∀ b, Instr.directoryClockTick ≠ .softReset b) ∧
    (∀ v, Instr.directoryClockTick ≠ .registerWrite 0 v) ∧
    0x101 ≤ (0x101 : BitVec 9).toNat ∧ (0x12F : BitVec 9).toNat ≤ 0x12F :=
  ⟨⟨_, rfl⟩, by decide, by decide, by decide, by decide, (fun _ h => nomatch h), (fun _ h => nomatch h),
    by decide, by decide⟩

/-- Select values at and past the end of each range. -/
theorem witness_PlainRegistersHoldWhatIsWritten :
    (30 : Word).toNat = (30 : Station).val ∧ (7 : Word).toNat = (7 : Fin 8).val ∧
    (1 : Word).toNat = (1 : Fin 2).val ∧ (31 : Word).toNat = (31 : Fin 32).val ∧
    31 ≤ (31 : Word).toNat ∧ 8 ≤ (8 : Word).toNat ∧ 2 ≤ (2 : Word).toNat ∧ 32 ≤ (32 : Word).toNat := by decide +kernel

/-- Station 0, stations 1 and 30 in each remote state, and the assignment values 0 to 3. -/
theorem witness_StationWindowActs :
    let s (x : Station) (st : StationState) : State :=
      { State.reset with stationSelect := x, stations := State.reset.stations.set x (StationEntry.reset st) }
    State.reset.stationSelect = 0 ∧
    (∀ x ∈ [(1 : Station), 30], x ≠ 0 ∧ ∀ st ∈ [StationState.online, .leaving, .offline, .barred],
      ((s x st).station (s x st).stationSelect).state = st) ∧
    ¬ 2 < (2 : Word).toNat ∧ 2 < (3 : Word).toNat := by decide +kernel

/-- The notice window with a STATE snapshot whose value has the octets given. -/
def windowShowing (value : List Byte) : State :=
  { State.reset with
    window :=
      { snapshot := some
          { id := { point := 9, incarnation := 3, revision := 5 }
            body := .state
              { cls := .text, quality := .good, generation := 2, owner := none, pinned := true, value } }
        busy := false, waiting := none } }

/-- The first and the last word of the window and of each of its parts, and the holes beside them. -/
theorem witness_WindowReadsShowTheState :
    let s := windowShowing [0x41, 0x42, 0x43]
    (∀ a ∈ [0x000, 0x006, 0x00F, 0x016, 0x03F, 0x046, 0x047, 0x0FF, 0x109, 0x10F, 0x130, 0x13F, 0x143, 0x153, 0x15F,
      0x168, 0x16F, 0x18B, 0x1FF], shown s a = some 0) ∧
    shown s 0x010 = some 0 ∧ shown s 0x011 = some 2048 ∧ shown s 0x013 = some 600 ∧ shown s 0x100 = some 1 ∧
    shown s 0x101 = some 9 ∧ shown s 0x104 = some 0x0501 ∧ shown s 0x107 = some 0x00FF ∧ shown s 0x108 = some 3 ∧
    shown s 0x110 = some 0x4241 ∧ shown s 0x111 = none ∧ shown s 0x140 = some 0 ∧ shown s 0x152 = some 0 ∧
    shown s 0x167 = some 0 ∧ shown s 0x175 = some 2 ∧ shown s 0x18A = some 0 := by decide +kernel

/-- A RETIRED snapshot, a value of one octet more than a whole number of words, and no tag. -/
theorem witness_WindowReadsShowTheState_open :
    State.reset.resetHeld = false ∧ State.reset.submission.length ≤ 4 ∧
    (windowWaiting .ack).window.snapshot =
      some { id := { point := 9, incarnation := 3, revision := 5 }, body := .retired } ∧
    [(0x41 : Byte), 0x42, 0x43].length = 2 * (1 : Fin 32).val + 1 ∧
    (List.replicate 63 (0 : Byte)).length = 2 * (31 : Fin 32).val + 1 ∧
    (State.reset.station State.reset.stationSelect).last = none := by decide +kernel

/-! ## Invariants -/

/-- A state in which much is held: station 3 ONLINE on RUNNING link A and owner of the GOOD supervised point 9, which
the local station and station 3 follow; the RETIRING point 12 drains to station 3; station 4 is LEAVING; slot 2 waits;
a WRITE of slot 1 is in progress and completes next. -/
def busy : State :=
  { State.reset with
    index :=
      [{ activeRecord 9 0 { wordPoint with owner := some 3, lease := some 10, refresh := some 5 } with subscribers := 9 },
       { activeRecord 10 2 { wordPoint with cls := .text, value := some (List.replicate 20 0x41), cells := 2 } with
         pendingSet := 1, subscribers := 1 },
       retiringRecord 12 1]
    freeCells := 2046
    deadlines := [{ point := 9, incarnation := 3, kind := .freshness, due := 50 },
                  { point := 9, incarnation := 3, kind := .lease, due := 1000 }]
    running := some { localGrant (asked 2 9 0 2) with origin := .slot 1 }
    stations := ((State.reset.stations.set 3
      { onlineA with claims := 1, subscriptions := 2, pendingCount := 1, missCount := 2 }).set 4
        { StationEntry.reset .leaving with link := some .a }).set 0
          { StationEntry.reset .local_ with subscriptions := 2, pendingCount := 1 }
    clearQueue := [4]
    linkA := { LinkEngine.reset with state := .running, visit := some (visitIn .awaitReply), receiver := .inFrame true }
    slots := (State.reset.slots.set 1 { Slot.reset with state := .running, code := 2 }).set 2
      { Slot.reset with state := .queued, code := 1 }
    submission := [2]
    pending := [.write] }

theorem witness_StepsKeepTheIndexInOrder : IndexOk busy := by decide +kernel

theorem witness_StepsKeepTheRecordsInOrder : RecordsOk busy :=
  ⟨by decide +kernel, by decide +kernel, by decide +kernel, by decide +kernel, by decide +kernel, by decide +kernel⟩

theorem witness_StepsConserveTheCells : PoolOk busy := by decide +kernel

theorem witness_StepsKeepTheCounts : CountsOk busy ∧ LimitsOk busy := by decide +kernel

theorem witness_StepsKeepTheDeadlines : DeadlinesOk busy := by decide +kernel

theorem witness_ClearsLeaveNothingBehind : ClearOk busy :=
  ⟨by decide +kernel, by decide +kernel, by decide +kernel, by decide +kernel, by decide +kernel, by decide +kernel,
    by decide +kernel⟩

theorem witness_StepsKeepTheLocalEntry : LocalEntryOk busy := by decide +kernel

theorem witness_StepsKeepTheLocalEntry_sets : RemoteSetsOk busy := by decide +kernel

theorem witness_ClearsLeaveNothingBehind_fresh : FreshOk busy := by decide +kernel

theorem witness_StepsKeepTheSlotsAndTheWindow : SlotsOk busy ∧ WindowOk busy :=
  ⟨by decide +kernel, by decide +kernel⟩

theorem witness_StepsKeepTheLinks : LinksOk busy :=
  ⟨by decide +kernel, by decide +kernel, by decide +kernel, by decide +kernel⟩

theorem witness_StepsKeepTheLinks_banks : busy.pending.head? ≠ some .fullReset := by decide +kernel

/-- The step of that state answers a next state. -/
theorem witness_busy_steps : ∃ t, step busy = .next t := ⟨_, rfl⟩

end Sys2Proof.Tests
end

