-- ==== Sys2Proof/Proofs/Fences.lean ====
section
/-! The Fence Unit's decision (R47): which fences cover a point, what one mask permits, and both masks together. -/

namespace Sys2Proof.Machine

/-- A fence takes part in the decision when it is enabled and the point lies in its range, bounds included (R46). -/
theorem Fence.covers_iff (f : Fence) (p : Word) :
    f.covers p = true ↔ f.enabled = true ∧ f.low.toNat ≤ p.toNat ∧ p.toNat ≤ f.high.toNat := by
  simp [Fence.covers]

/-- The members of a vector are its places. -/
theorem mem_toList_iff_exists_fin {α : Type} {n : Nat} (v : Vector α n) (a : α) :
    a ∈ v.toList ↔ ∃ i : Fin n, v[i] = a := by
  rw [Vector.mem_toList_iff, Vector.mem_iff_getElem]
  exact ⟨fun ⟨i, hi, h⟩ => ⟨⟨i, hi⟩, h⟩, fun ⟨i, h⟩ => ⟨i, i.isLt, h⟩⟩

section
variable (fences : Vector Fence 8) (p : Word)

/-- The list of covering fences is empty just when no place holds a covering fence. -/
theorem covering_eq_nil_iff :
    fences.toList.filter (fun f => f.covers p) = [] ↔ ∀ i : Fin 8, ¬ fences[i].covers p = true := by
  simp only [List.filter_eq_nil_iff, mem_toList_iff_exists_fin, forall_exists_index, forall_apply_eq_imp_iff]

/-- Some fence of the covering list has a property just when a covering place has it. -/
theorem covering_any_iff (has : Fence → Bool) :
    (fences.toList.filter fun f => f.covers p).any has = true ↔
      ∃ i : Fin 8, fences[i].covers p = true ∧ has fences[i] = true := by
  simp only [List.any_filter, List.any_eq_true, mem_toList_iff_exists_fin, Bool.and_eq_true, exists_exists_eq_and]

/-- One mask's decision, by the places of the fences: the local station, no covering fence, or a covering fence with
the station in the mask (R47). -/
theorem permits_iff (mask : Fence → StationSet) (st : Station) :
    permits mask fences st p = true ↔
      st = 0 ∨ (∀ i : Fin 8, ¬ fences[i].covers p = true) ∨
        ∃ i : Fin 8, fences[i].covers p = true ∧ setHas (mask fences[i]) st = true := by
  rw [← covering_eq_nil_iff, ← covering_any_iff fences p fun f => setHas (mask f) st]
  simp only [permits, decide_eq_true_eq]

end

/-- Settles O13: both decisions are `permits` by their own mask, so one description of `permits` gives both. -/
theorem fencesDecideByUnion : Obligations.FencesDecideByUnion := by
  intro g st p
  simp only [← Fence.covers_iff]
  exact ⟨permits_iff g.fences p Fence.readMask st, permits_iff g.fences p Fence.writeMask st⟩

end Sys2Proof.Machine
end

