-- ==== Sys2Proof/Proofs/Completion.lean ====
section
/-! The completion of a request, said once for every operation: what passing the rows of a table means for the model's
checks, what the end of a completion leaves of the operation's effects, and that the outcome reaches its requester. -/

namespace Sys2Proof.Machine

open Sys2Proof.Spec

/-! ## Tables and checks (R51, R55) -/

/-- A table refuses nothing just when every row's check passes. -/
theorem refusedBy_eq_none_iff (rows : List Row) : refusedBy rows = none ↔ ∀ row ∈ rows, row.1 = true := by
  induction rows with
  | nil => simp [refusedBy]
  | cons row rest ih =>
    obtain ⟨check, res⟩ := row
    cases check
    · simp [refusedBy]
    · simpa [refusedBy] using ih

theorem refusedBy_append_eq_none_iff (rows rest : List Row) :
    refusedBy (rows ++ rest) = none ↔ refusedBy rows = none ∧ refusedBy rest = none := by
  simp only [refusedBy_eq_none_iff, List.forall_mem_append]

/-- The table's range of point numbers is the model's (R3). -/
theorem validPoint_iff (p : Word) : validPoint p = true ↔ 1 ≤ p.toNat ∧ p.toNat ≤ 65534 := by
  have hlt := p.isLt
  simp only [validPoint, ne_eq, BitVec.ofNat_eq_ofNat, BitVec.toNat_eq, BitVec.toNat_ofNat, decide_eq_true_eq]
  omega

theorem activeAt_eq_some_iff {s : State} {p : Word} {r : Record} {a : Active} :
    activeAt s p = some (r, a) ↔ s.findRecord p = some r ∧ r.phase = .active a := by
  have hactive : ∀ x : Record, x.active? = some a ↔ x.phase = .active a := by
    intro x
    cases hx : x.phase <;> simp [Record.active?, hx]
  simp only [activeAt, Option.bind_eq_some_iff, Option.map_eq_some_iff, Prod.mk.injEq]
  constructor
  · rintro ⟨x, hx, b, hb, rfl, rfl⟩
    exact ⟨hx, (hactive x).1 hb⟩
  · rintro ⟨hr, ha⟩
    exact ⟨r, hr, a, (hactive r).2 ha, rfl, rfl⟩

/-- The lookup of an ACTIVE record finds the record of the table's first two rows (R3, R20). -/
theorem lookupActive_of_activeRows {s : State} {p : Word} {r : Record} {a : Active}
    (hrows : refusedBy (activeRows s p) = none) (hactive : activeAt s p = some (r, a)) :
    lookupActive s p = .ok (r, a) := by
  obtain ⟨hfind, hphase⟩ := activeAt_eq_some_iff.1 hactive
  have hrange : 1 ≤ p.toNat ∧ p.toNat ≤ 65534 := by
    simpa using (refusedBy_eq_none_iff _).1 hrows _ (List.mem_cons_self ..)
  simp only [lookupActive, (validPoint_iff p).2 hrange, hfind, hphase, if_true]

theorem ofActive_eq {s : State} {p : Word} {r : Record} {a : Active} (hactive : activeAt s p = some (r, a))
    (check : Record → Active → Bool) : ofActive s p check = check r a := by
  simp [ofActive, hactive]

/-- The permission of the tables is the Fence Unit's decision (R47). -/
theorem allowed_eq_permits (mask : Fence → StationSet) (fences : Vector Fence 8) (st : Station) (p : Word) :
    allowed mask fences st p = permits mask fences st p := by
  rw [Bool.eq_iff_iff, permits_iff]
  simp only [allowed, Fence.covers_iff, decide_eq_true_eq, decide_eq_false_iff_not]

/-- The fence, pinned and held checks of WRITE and RETIRE pass just when each of the three does (R56, R62, R72). -/
theorem writerCheck_eq_ok_iff (g : Granted) (st : Station) (p : Word) (a : Active) :
    writerCheck g st p a = .ok () ↔
      mayWrite g st p = true ∧ (a.pinned = false ∨ st = 0) ∧ (a.owner = none ∨ a.owner = some st ∨ st = 0) := by
  by_cases hfence : mayWrite g st p = true
  · by_cases hpinned : a.pinned = true ∧ st ≠ 0
    · simp [writerCheck, refuse, hfence, hpinned]
    · have hpinned' : a.pinned = false ∨ st = 0 := by
        simpa only [not_and_or, Bool.not_eq_true, not_not] using hpinned
      cases howner : a.owner with
      | none => simp [writerCheck, hfence, hpinned, hpinned', howner]
      | some o => by_cases ho : o = st ∨ st = 0 <;> simp [writerCheck, refuseHeld, hfence, hpinned, hpinned', howner, ho]
  · simp [writerCheck, refuse, hfence]

/-! ## The requesters' side of a completion (R40) -/

section
variable (e : StationEntry) (old new : Option Record) (st : Station)
@[simp] theorem entryRecount_executed : (e.recount old new st).executed = e.executed := rfl
@[simp] theorem entryRecount_refusals : (e.recount old new st).refusals = e.refusals := rfl
end

/-- What a completion hands outcomes to is as it was: slots, links, and the tag memory and counters of the stations. -/
def RequestersKept (s t : State) : Prop :=
  t.slots = s.slots ∧ t.linkA = s.linkA ∧ t.linkB = s.linkB ∧
  ∀ x : Station, (t.station x).last = (s.station x).last ∧
    (t.station x).executed = (s.station x).executed ∧ (t.station x).refusals = (s.station x).refusals

namespace RequestersKept

theorem trans {s t u : State} (h1 : RequestersKept s t) (h2 : RequestersKept t u) : RequestersKept s u := by
  obtain ⟨slots1, linkA1, linkB1, stations1⟩ := h1
  obtain ⟨slots2, linkA2, linkB2, stations2⟩ := h2
  refine ⟨slots2.trans slots1, linkA2.trans linkA1, linkB2.trans linkB1, fun x => ?_⟩
  obtain ⟨last1, executed1, refusals1⟩ := stations1 x
  obtain ⟨last2, executed2, refusals2⟩ := stations2 x
  exact ⟨last2.trans last1, executed2.trans executed1, refusals2.trans refusals1⟩

theorem link_eq {s t : State} (h : RequestersKept s t) (l : Link) : t.link l = s.link l := by
  obtain ⟨-, hA, hB, -⟩ := h
  cases l
  · exact hA
  · exact hB

theorem putRecord (s : State) (old new : Record) : RequestersKept s (s.putRecord old new) :=
  ⟨putRecord_slots s old new, putRecord_linkA s old new, putRecord_linkB s old new, fun x => by simp⟩

theorem freeRecord (s : State) (old : Record) : RequestersKept s (s.freeRecord old) :=
  ⟨freeRecord_slots s old, freeRecord_linkA s old, freeRecord_linkB s old, fun x => by simp⟩

theorem dropDeadline (s : State) (r : Record) (kind : DeadlineKind) : RequestersKept s (s.dropDeadline r kind) :=
  ⟨rfl, rfl, rfl, fun _ => ⟨rfl, rfl, rfl⟩⟩

theorem poolLowTest (before : Nat) (s : State) :
    RequestersKept s (poolLowTest before { s with running := none }) := by
  rw [poolLowTest_eq]
  exact ⟨rfl, rfl, rfl, fun _ => ⟨rfl, rfl, rfl⟩⟩

end RequestersKept

section
variable {s u : State} (h : RequestersKept s u) (q : Request) (res : Result)
include h

/-- A slot gets its outcome with its SLOT_DONE cause (R184, R185). -/
theorem completeSlot_answers (k : Fin 4) (st : Station) :
    Answered s (completeSlot k res u) (.slot k) st q res := by
  obtain ⟨hslots, hA, hB, hstations⟩ := h
  refine ⟨?_, hA, hB, causeSet_setCause _ _, hstations⟩
  rw [completeSlot_eq, hslots]
  cases hfields : res.fields <;> simp [slotWith, hfields, wordsOfOctets]

/-- A link gets its outcome in its visit, and its station's tag memory and counters follow (R140, R141, R161). -/
theorem completeLinkRequest_answers (l : Link) (st : Station) :
    Answered s (completeLinkRequest l st q res u) (.link l) st q res := by
  have hlink := h.link_eq l
  obtain ⟨hslots, hA, hB, hstations⟩ := h
  obtain ⟨hlast, hexecuted, hrefusals⟩ := hstations st
  refine ⟨?_, ?_, ?_, ?_, ?_, ?_⟩
  · simp [completeLinkRequest, State.modVisit, hslots]
  · simp [completeLinkRequest, State.modVisit, linkWith, answerOf, heldTag, hlink]
  · rintro rfl
    exact hB
  · rintro rfl
    exact hA
  · simp [Counted, completeLinkRequest, countRequest, State.modVisit, answerOf, heldTag, hlink, hlast, hexecuted,
      hrefusals]
  · intro x hx
    simpa [completeLinkRequest, State.modVisit, hx] using hstations x

/-- The delivery hands the outcome to the requester and to no other. -/
theorem deliver_answers (o : Origin) (st : Station) : Answered s (deliver o st q res u) o st q res := by
  cases o with
  | slot k => exact completeSlot_answers h q res k st
  | link l => exact completeLinkRequest_answers h q res l st
  | window | deadline | clear => exact h

end

/-- The monitor's look changes nothing of an outcome handed over. -/
theorem answered_monitorLook {s t : State} {o : Origin} {st : Station} {q : Request} {res : Result}
    (h : Answered s t o st q res) : Answered s (monitorLook t) o st q res := by
  rw [monitorLook_eq]
  cases o with
  | link l => cases l <;> exact h
  | slot | window | deadline | clear => exact h

/-! ## The whole completion -/

/-- The command of a request in progress completes it, RESET released. -/
theorem whileReleased_finishRequest {code : Byte} {s : State} {g : Granted} {st : Station} {q : Request}
    (h : InProgress code s g st q) (op : Granted → Station → Request → State → Result × State) :
    whileReleased (finishRequest code op) s = .next (completeRequest g st q op s) := by
  obtain ⟨hreleased, hrunning, hwork, hcode⟩ := h
  rw [whileReleased_released _ hreleased, finishRequest_of op hrunning hwork hcode]

theorem Quiet.poolLowTest (before : Nat) (s : State) : Quiet s (poolLowTest before { s with running := none }) := by
  rw [poolLowTest_eq]
  exact of_fields rfl rfl rfl rfl rfl

section
variable (g : Granted) (st : Station) (q : Request) (op : Granted → Station → Request → State → Result × State)
  (s : State)

/-- After an operation's effects, its completion leaves the directory and the counts alone. -/
theorem completeRequest_quiet : Quiet (op g st q s).2 (completeRequest g st q op s) :=
  ((Quiet.poolLowTest _ _).trans (Quiet.deliver _ _ _ _ _)).trans (Quiet.monitorLook _)

/-- An operation that leaves the requesters alone has its result answered to its own. -/
theorem completeRequest_answers (h : RequestersKept s (op g st q s).2) :
    Answered s (completeRequest g st q op s) g.origin st q (op g st q s).1 :=
  answered_monitorLook (deliver_answers (h.trans (.poolLowTest _ _)) q _ g.origin st)

end

/-! ## The directory through a quiet change -/

theorem Quiet.becomes {s u t : State} {p : Word} {new : Record} (hu : Becomes s u p new) (h : Quiet u t) :
    Becomes s t p new := by
  obtain ⟨hindex, -, -, -, -⟩ := h
  simpa only [Becomes, OthersKept, State.findRecord, hindex] using hu

theorem Quiet.countsFollow {s u t : State} {old new : Option Record} (hu : CountsFollow s u old new) (h : Quiet u t) :
    CountsFollow s t old new := by
  obtain ⟨-, -, -, -, hcounts⟩ := h
  intro x
  obtain ⟨hclaims, hsubscriptions, hpending⟩ := hcounts x
  rw [hclaims, hsubscriptions, hpending]
  exact hu x

end Sys2Proof.Machine
end

