-- ==== Sys2Proof/Proofs/Retire.lean ====
section
/-! RETIRE (R72, R73): its checks, the record that drains or is freed, and the two deadline entries that go. -/

namespace Sys2Proof.Machine

open Sys2Proof.Spec

/-- An accepted RETIRE passes the model's checks with the record of its table (R72). -/
theorem retireChecks_of_table {g : Granted} {st : Station} {q : Request} {s : State} {r : Record} {a : Active}
    (htable : refusedBy (retireTable g st q s) = none) (hactive : activeAt s q.point = some (r, a)) :
    retireChecks g st q s = .ok (r, a) := by
  obtain ⟨hfound, hwriter⟩ := (refusedBy_append_eq_none_iff _ _).1 htable
  have hcheck : writerCheck g st q.point a = .ok () := by
    rw [writerCheck_eq_ok_iff]
    simpa [refusedBy_eq_none_iff, ofActive_eq hactive, allowed_eq_permits, mayWrite] using hwriter
  simp only [retireChecks, lookupActive_of_activeRows hfound hactive, hcheck]

section
variable (st : Station) (s : State) (r : Record)

/-- The state without the record's LEASE and FRESHNESS entries (R73, step 1). -/
def withoutDeadlines : State := (s.dropDeadline r .lease).dropDeadline r .freshness

/-- The two kinds are all there are, so no entry of the record is left. -/
theorem withoutDeadlines_deadlines : (withoutDeadlines s r).deadlines = othersEntries s r := by
  simp only [withoutDeadlines, dropDeadline_deadlines, List.filter_filter, othersEntries]
  congr 1
  funext d
  cases d.kind <;> simp

theorem withoutDeadlines_requestersKept : RequestersKept s (withoutDeadlines s r) :=
  (RequestersKept.dropDeadline s r .lease).trans (.dropDeadline _ r .freshness)

/-- The record is freed when the requester was the last subscriber, and drains otherwise (R73, step 4). -/
theorem retireEffect_eq :
    retireEffect st s r = (plain .ok,
      if setDrop r.subscribers st = 0 then (withoutDeadlines s r).freeRecord r
      else (withoutDeadlines s r).putRecord r (retiredRecord r st)) := by
  obtain ⟨-, hempty, hfree⟩ | ⟨hleft, hput⟩ := putOrFree_cases (withoutDeadlines s r) r (retiredRecord r st)
  · rw [if_pos (show setDrop r.subscribers st = 0 from hempty), ← hfree]
    rfl
  · rw [if_neg (show ¬ setDrop r.subscribers st = 0 from fun h => hleft ⟨rfl, h⟩), ← hput]
    rfl

theorem retireEffect_requestersKept : RequestersKept s (retireEffect st s r).2 := by
  rw [retireEffect_eq]
  dsimp only
  split
  · exact (withoutDeadlines_requestersKept s r).trans (.freeRecord _ r)
  · exact (withoutDeadlines_requestersKept s r).trans (.putRecord _ r _)

theorem retireEffect_incarnation : (retireEffect st s r).2.incarnation = s.incarnation := by
  rw [retireEffect_eq]
  dsimp only
  split <;> rfl

/-- A RETIRING record holds no cells, and neither does a freed one: the cells go back in both cases (R6, R30). -/
theorem retireEffect_freeCells : (retireEffect st s r).2.freeCells = s.freeCells + r.cells := by
  rw [retireEffect_eq]
  dsimp only
  split <;> rfl

theorem retireEffect_deadlines : (retireEffect st s r).2.deadlines = othersEntries s r := by
  rw [retireEffect_eq]
  dsimp only
  split
  · rw [freeRecord_deadlines, withoutDeadlines_deadlines, othersEntries, List.filter_filter]
    simp only [Bool.and_self]
  · rw [putRecord_deadlines, withoutDeadlines_deadlines]

end

section
variable {st : Station} {s : State} {r : Record}

/-- With no subscriber left the record leaves the index and every count it stood in (R6). -/
theorem retireEffect_frees (hempty : setDrop r.subscribers st = 0) :
    (retireEffect st s r).2.index = (s.index.filter fun x => x.point ≠ r.point) ∧
      CountsFollow s (retireEffect st s r).2 (some r) none := by
  rw [retireEffect_eq, if_pos hempty]
  exact ⟨rfl, fun x => by rw [freeRecord_station]; exact ⟨rfl, rfl, rfl⟩⟩

/-- With subscribers left the record stays in its place as RETIRING, and the counts follow its sets (R5). -/
theorem retireEffect_drains (hfind : s.findRecord r.point = some r) (hleft : setDrop r.subscribers st ≠ 0) :
    Becomes s (retireEffect st s r).2 r.point (retiredRecord r st) ∧
      CountsFollow s (retireEffect st s r).2 (some r) (some (retiredRecord r st)) := by
  rw [retireEffect_eq, if_neg hleft]
  refine ⟨putRecord_spec (s := withoutDeadlines s r) hfind, fun x => ?_⟩
  rw [putRecord_station]
  exact ⟨rfl, rfl, rfl⟩

end

/-- Settles O20: the checks pass, so the operation is `retireEffect`, and the rest of the completion leaves the
directory as that effect made it and answers the requester. -/
theorem retireDrainsOrFrees : Obligations.RetireDrainsOrFrees := by
  intro s g st q r a hprogress htable hactive
  obtain ⟨hfind, hphase⟩ := activeAt_eq_some_iff.1 hactive
  obtain ⟨-, hpoint⟩ := findRecord_some hfind
  have hop : opRetire g st q s = retireEffect st s r := checked_ok _ s (retireChecks_of_table htable hactive)
  have hquiet := completeRequest_quiet g st q opRetire s
  have hanswers := completeRequest_answers g st q opRetire s (by rw [hop]; exact retireEffect_requestersKept st s r)
  rw [hop] at hquiet hanswers
  have hcells : r.cells = a.cells := by simp only [Record.cells, hphase]
  have ⟨hindex, hincarnation, hfree, hdeadlines, _⟩ := hquiet
  refine ⟨_, whileReleased_finishRequest hprogress opRetire, ?_, ?_, ?_, ?_, hanswers⟩
  · rw [← hpoint] at hfind ⊢
    split
    · next hempty =>
      obtain ⟨hleaves, hcounts⟩ := retireEffect_frees (s := s) hempty
      exact ⟨hindex.trans hleaves, hquiet.countsFollow hcounts⟩
    · next hleft =>
      obtain ⟨hbecomes, hcounts⟩ := retireEffect_drains hfind hleft
      exact ⟨hquiet.becomes hbecomes, hquiet.countsFollow hcounts⟩
  · rw [hincarnation, retireEffect_incarnation]
  · rw [hfree, retireEffect_freeCells, hcells]
  · rw [hdeadlines, retireEffect_deadlines]

end Sys2Proof.Machine
end

