-- ==== Sys2Proof/Proofs/Release.lean ====
section
/-! RELEASE (R90, R91): its checks, the owned point that loses its owner, and the open point that is left as it was. -/

namespace Sys2Proof.Machine

open Sys2Proof.Spec

/-! ## A completion whose operation changes nothing -/

/-- The delivery of an outcome leaves every station's cursor and in-flight notice alone (R40, R110). -/
theorem deliver_notices (o : Origin) (st : Station) (q : Request) (res : Result) (s : State) (x : Station) :
    ((deliver o st q res s).station x).cursor = (s.station x).cursor ∧
      ((deliver o st q res s).station x).inflight = (s.station x).inflight := by
  cases o with
  | slot k => exact ⟨rfl, rfl⟩
  | link l =>
    by_cases hx : x = st
    · subst hx
      simp [deliver, completeLinkRequest, countRequest, State.modVisit]
    · simp [deliver, completeLinkRequest, State.modVisit, hx]
  | window | deadline | clear => exact ⟨rfl, rfl⟩

theorem completeRequest_notices (g : Granted) (st : Station) (q : Request)
    (op : Granted → Station → Request → State → Result × State) (s : State) (x : Station) :
    ((completeRequest g st q op s).station x).cursor = ((op g st q s).2.station x).cursor ∧
      ((completeRequest g st q op s).station x).inflight = ((op g st q s).2.station x).inflight := by
  simp only [completeRequest, monitorLook_eq, poolLowTest_eq]
  exact deliver_notices g.origin st q _ _ x

/-- An operation that leaves the state alone completes with the directory as it was. -/
theorem completeRequest_directoryKept {g : Granted} {st : Station} {q : Request}
    {op : Granted → Station → Request → State → Result × State} {s : State} (h : (op g st q s).2 = s) :
    DirectoryKept s (completeRequest g st q op s) := by
  have hquiet := completeRequest_quiet g st q op s
  have hnotices := completeRequest_notices g st q op s
  rw [h] at hquiet hnotices
  obtain ⟨hindex, hincarnation, hfree, hdeadlines, hcounts⟩ := hquiet
  refine ⟨hindex, hincarnation, hfree, hdeadlines, fun x => ?_⟩
  obtain ⟨hclaims, hsubscriptions, hpending⟩ := hcounts x
  exact ⟨hclaims, hsubscriptions, hpending, hnotices x⟩

/-! ## A record that keeps its cells -/

/-- A record put back with as many cells leaves the free-cell count: index and counts alone follow (R25). -/
theorem putRecord_eq_of_cells {old new : Record} (h : new.cells = old.cells) (s : State) :
    s.putRecord old new =
      { s with index := indexReplace new s.index, stations := (s.putRecord old new).stations } := by
  have hfree : s.freeCells + old.cells - new.cells = s.freeCells := by omega
  simp only [State.putRecord, State.recount, hfree]

/-- Every station's counts follow the sets and the owner of a record put back (R126). -/
theorem putRecord_countsFollow (s : State) (old new : Record) :
    CountsFollow s (s.putRecord old new) (some old) (some new) := by
  intro x
  rw [putRecord_station]
  exact ⟨rfl, rfl, rfl⟩

theorem disowned_cells {r : Record} {a : Active} (h : r.phase = .active a) (except : Option Station) :
    (disowned r a except).cells = r.cells := by
  simp [Record.cells, disowned, Record.withActive, Record.revised, Record.announce, h]

/-! ## The operation -/

/-- An accepted RELEASE passes the model's checks with the record of its table (R90). -/
theorem releaseChecks_of_table {st : Station} {q : Request} {s : State} {r : Record} {a : Active}
    (htable : refusedBy (releaseTable st q s) = none) (hactive : activeAt s q.point = some (r, a)) :
    releaseChecks st q s = .ok (r, a) := by
  obtain ⟨hfound, howns⟩ := (refusedBy_append_eq_none_iff _ _).1 htable
  have hallowed : a.owner = none ∨ a.owner = some st ∨ (st = 0 ∧ q.force) := by
    simpa [refusedBy_eq_none_iff, ofActive_eq hactive] using howns
  simp only [releaseChecks, lookupActive_of_activeRows hfound hactive]
  cases howner : a.owner with
  | none => rfl
  | some o =>
    have ho : o = st ∨ (st = 0 ∧ q.force) := by simpa [howner] using hallowed
    simp only [if_pos ho]

section
variable (st : Station) (s : State) (r : Record) {a : Active}

theorem releaseEffect_of_open (h : a.owner = none) : releaseEffect st s r a = (plain .ok, s) := by
  simp only [releaseEffect, h, okWith, plain]

theorem releaseEffect_of_owned (h : a.owner ≠ none) :
    releaseEffect st s r a = (plain .ok, (s.putRecord r (disowned r a (some st))).dropDeadline r .lease) := by
  obtain ⟨o, ho⟩ := Option.ne_none_iff_exists'.1 h
  simp only [releaseEffect, ho, okWith, plain]

theorem releaseEffect_result : (releaseEffect st s r a).1 = plain .ok := rfl

theorem releaseEffect_requestersKept : RequestersKept s (releaseEffect st s r a).2 := by
  by_cases h : a.owner = none
  · rw [releaseEffect_of_open st s r h]
    exact ⟨rfl, rfl, rfl, fun _ => ⟨rfl, rfl, rfl⟩⟩
  · rw [releaseEffect_of_owned st s r h]
    exact (RequestersKept.putRecord s r _).trans (.dropDeadline _ r .lease)

end

/-- The record of an owned point is put back disowned, with the counts after it, and only its LEASE entry leaves the
list (R91). -/
theorem releaseEffect_drops {st : Station} {s : State} {r : Record} {a : Active}
    (hfind : s.findRecord r.point = some r) (hphase : r.phase = .active a) (howned : a.owner ≠ none) :
    let u := (releaseEffect st s r a).2
    Becomes s u r.point (disowned r a (some st)) ∧ CountsFollow s u (some r) (some (disowned r a (some st))) ∧
      u.incarnation = s.incarnation ∧ u.freeCells = s.freeCells ∧ u.deadlines = dropped r .lease s.deadlines := by
  rw [releaseEffect_of_owned st s r howned]
  refine ⟨?_, fun x => ?_, ?_, ?_, ?_⟩
  · have hput : Becomes s (s.putRecord r (disowned r a (some st))) r.point (disowned r a (some st)) :=
      putRecord_spec hfind
    simpa only [Becomes, OthersKept, State.findRecord, dropDeadline_index] using hput
  · rw [dropDeadline_station]
    exact putRecord_countsFollow s r (disowned r a (some st)) x
  · rw [dropDeadline_incarnation, putRecord_incarnation]
  · rw [dropDeadline_freeCells, putRecord_eq_of_cells (disowned_cells hphase _)]
  · rw [dropDeadline_deadlines, putRecord_deadlines, dropped]

/-- Settles O26: the checks pass, so the operation is `releaseEffect`, which leaves an open point's state alone and
puts an owned point's record back without its owner and its LEASE entry. -/
theorem releaseDropsTheOwner : Obligations.ReleaseDropsTheOwner := by
  intro s g st q r a hprogress htable hactive
  obtain ⟨hfind, hphase⟩ := activeAt_eq_some_iff.1 hactive
  obtain ⟨-, hpoint⟩ := findRecord_some hfind
  have hop : opRelease g st q s = releaseEffect st s r a := checked_ok _ s (releaseChecks_of_table htable hactive)
  have hanswers := completeRequest_answers g st q opRelease s
    (by rw [hop]; exact releaseEffect_requestersKept st s r)
  rw [hop, releaseEffect_result] at hanswers
  refine ⟨_, whileReleased_finishRequest hprogress opRelease, hanswers, fun hopen => ?_, fun howned => ?_⟩
  · exact completeRequest_directoryKept (by rw [hop, releaseEffect_of_open st s r hopen])
  · have hquiet := completeRequest_quiet g st q opRelease s
    rw [hop] at hquiet
    have ⟨_, hincarnation, hfree, hdeadlines, _⟩ := hquiet
    rw [← hpoint] at hfind ⊢
    obtain ⟨hbecomes, hcounts, hincarnation', hfree', hdeadlines'⟩ :=
      releaseEffect_drops (st := st) hfind hphase howned
    exact ⟨hquiet.becomes hbecomes, hquiet.countsFollow hcounts, hincarnation.trans hincarnation', hfree.trans hfree',
      hdeadlines.trans hdeadlines'⟩

end Sys2Proof.Machine
end

