-- ==== Sys2Proof/Proofs/Expire.lean ====
section
/-! EXPIRE (R97, R98, R99): the head that is not due, and the due head with the record that its entry names. -/

namespace Sys2Proof.Machine

open Sys2Proof.Spec

/-! ## The record that an entry names -/

/-- The index holds one record of each point number (R19). -/
theorem eq_of_mem_index {s : State} (h : IndexOk s) {r x : Record} (hr : r ∈ s.index) (hx : x ∈ s.index)
    (hpoint : x.point = r.point) : x = r := by
  obtain ⟨hascending, -, -⟩ := h
  have hdistinct : (s.index.map fun y => y.point.toNat).Nodup :=
    List.pairwise_map.2 (hascending.imp fun hlt => Nat.ne_of_lt hlt)
  exact List.inj_on_of_nodup_map hdistinct hx hr (congrArg BitVec.toNat hpoint)

theorem findRecord_of_mem {s : State} (h : IndexOk s) {r : Record} (hr : r ∈ s.index) :
    s.findRecord r.point = some r := by
  cases hfind : s.findRecord r.point with
  | none => exact absurd rfl (findRecord_none.1 hfind r hr)
  | some x =>
    obtain ⟨hx, hpoint⟩ := findRecord_some hfind
    rw [eq_of_mem_index h hr hx hpoint]

theorem findIncarnation_of_mem {s : State} (h : IndexOk s) {r : Record} (hr : r ∈ s.index) :
    s.findIncarnation r.point r.incarnation = some r := by
  cases hfind : s.findIncarnation r.point r.incarnation with
  | none => simpa using List.find?_eq_none.1 hfind r hr
  | some x =>
    obtain ⟨hx, hpoint, -⟩ := findIncarnation_some hfind
    rw [eq_of_mem_index h hr hx hpoint]

/-! ## What an expiry does to its record -/

/-- The ACTIVE fields after an expiry: a STALE value, or no owner and no lease interval (R98, R99). -/
def expiredFields (a : Active) : DeadlineKind → Active
  | .freshness => { a with quality := .stale }
  | .lease => { a with owner := none, lease := none }

/-- The record after an expiry: one revision step, and every subscriber pending (R98, R99). -/
def expiredRecord (r : Record) (a : Active) (kind : DeadlineKind) : Record :=
  { r with
    phase := .active (expiredFields a kind), revision := r.revision + 1, pendingSet := r.pendingSet ||| r.subscribers }

section
variable {r : Record} {a : Active} {kind : DeadlineKind}

/-- On a record that R95 gives the entry, the model's expiry puts back the record expired. -/
theorem expireRecord_eq (hphase : r.phase = .active a) (hfresh : kind = .freshness → a.quality = .good)
    (howned : kind = .lease → a.owner ≠ none) (s : State) :
    expireRecord kind r s = s.putRecord r (expiredRecord r a kind) := by
  cases kind with
  | freshness =>
    simp only [expireRecord, hphase, if_pos (hfresh rfl)]
    rfl
  | lease =>
    obtain ⟨o, ho⟩ := Option.ne_none_iff_exists'.1 (howned rfl)
    simp only [expireRecord, hphase, ho]
    rfl

theorem expiredRecord_cells (hphase : r.phase = .active a) : (expiredRecord r a kind).cells = r.cells := by
  simp only [Record.cells, hphase]
  cases kind <;> rfl

/-- An expiry keeps the subscribers, so of a station's entry only the claims and the pending count follow. -/
theorem putRecord_expired_station (s : State) (x : Station) :
    (s.putRecord r (expiredRecord r a kind)).station x =
      { s.station x with
        claims := ((s.putRecord r (expiredRecord r a kind)).station x).claims
        pendingCount := ((s.putRecord r (expiredRecord r a kind)).station x).pendingCount } := by
  have hsubscribers : followsCount (some (expiredRecord r a kind)) x = followsCount (some r) x := rfl
  simp only [putRecord_station, StationEntry.recount, hsubscribers, Nat.add_sub_cancel]

end

/-! ## The head of the list -/

/-- The order of due times of the terms is the model's (R84). -/
theorem notAfter_iff (x y : LongWord) : notAfter x y = true ↔ (y - x).toNat < 2 ^ 31 := by
  simp [notAfter]

/-- With no operation in progress the model's look at the head is that of the terms (R96). -/
theorem monitorLook_eq_looked {s : State} (h : s.running = none) : monitorLook s = looked s := by
  have hhead : headDue s s.clock = headIsDue s := by
    cases hlist : s.deadlines <;> simp [headDue, headIsDue, hlist, notAfter]
  have hnone : expireRunning s = false := by simp [expireRunning, h]
  rw [monitorLook_eq, hhead, hnone, Bool.not_false, Bool.and_true, looked]

/-- EXPIRE completes with what it does at the head, and the look at the head that is then there (R96, R97). -/
theorem exec_expire_eq {s : State} {g : Granted} (hreleased : s.resetHeld = false) (hrunning : s.running = some g)
    (hwork : g.work = .expire) :
    exec .expire s = .next (monitorLook (expireHead g.now { s with running := none })) := by
  have heffect : expireEffect s = monitorLook (expireHead g.now { s with running := none }) := by
    simp only [expireEffect, hrunning, hwork]
  rw [← heffect]
  exact whileReleased_released expireEffect hreleased

/-- An empty list, or a head that is not due at the reading: EXPIRE finds nothing to take (R97). -/
theorem expireHead_of_not_due {s : State} {now : LongWord}
    (h : ∀ d, s.deadlines.head? = some d → 2 ^ 31 ≤ (now - d.due).toNat) : expireHead now s = s := by
  cases hlist : s.deadlines with
  | nil => simp only [expireHead, hlist]
  | cons d rest =>
    have hlate : ¬ notAfter d.due now = true := by
      rw [notAfter_iff, not_lt]
      exact h d (by rw [hlist]; rfl)
    simp only [expireHead, hlist, if_neg hlate]

/-- A due head leaves the list and acts on the record it names (R97). -/
theorem expireHead_of_due {s : State} {now : LongWord} {d : Deadline} {rest : List Deadline} {r : Record}
    (hlist : s.deadlines = d :: rest) (hdue : (now - d.due).toNat < 2 ^ 31)
    (hfind : s.findIncarnation d.point d.incarnation = some r) :
    expireHead now s = expireRecord d.kind r { s with deadlines := rest } := by
  simp only [expireHead, hlist, if_pos ((notAfter_iff _ _).2 hdue), hfind]

/-- The state from which a due EXPIRE goes on to its record: the directory free, the head out of the list (R97). -/
def headTaken (s : State) (rest : List Deadline) : State := { s with running := none, deadlines := rest }

/-- Settles O31: a head not due leaves `expireHead` nothing to do; a due one puts back its record expired, which changes
the index and the station counts alone beside the list. -/
theorem expireTakesTheHead : Obligations.ExpireTakesTheHead := by
  intro s g hreleased hrunning hwork hindex
  refine ⟨fun hnotDue => ?_, ?_⟩
  · rw [exec_expire_eq hreleased hrunning hwork, expireHead_of_not_due (s := { s with running := none }) hnotDue,
      monitorLook_eq_looked rfl]
  · intro d rest r a hlist hdue hr hpoint hincarnation hphase hfresh howned
    have hfind : s.findIncarnation d.point d.incarnation = some r := by
      rw [← hpoint, ← hincarnation]
      exact findIncarnation_of_mem hindex hr
    have hhead : expireHead g.now { s with running := none } =
        (headTaken s rest).putRecord r (expiredRecord r a d.kind) := by
      rw [expireHead_of_due (s := { s with running := none }) hlist hdue hfind, expireRecord_eq hphase hfresh howned,
        headTaken]
    refine ⟨_, exec_expire_eq hreleased hrunning hwork, ?_⟩
    rw [hhead, monitorLook_eq_looked (putRecord_running (headTaken s rest) r _)]
    refine ⟨?_, ?_, ?_, ?_⟩
    · exact congrArg looked (putRecord_eq_of_cells (expiredRecord_cells hphase) (headTaken s rest))
    · exact putRecord_spec (s := headTaken s rest) (new := expiredRecord r a d.kind)
        (findRecord_of_mem (r := r) hindex hr)
    · exact putRecord_countsFollow (headTaken s rest) r (expiredRecord r a d.kind)
    · exact putRecord_expired_station (s := headTaken s rest)

end Sys2Proof.Machine
end

