-- ==== Sys2Proof/Proofs/VisitEnd.lean ====
section
/-! The ACK phase of a visit and what follows it (R159, R160): the model's departures, bank switches, stops, ends of a
visit and REQUEST phases are those that the terms write out. -/

namespace Sys2Proof.Machine

open Sys2Proof.Spec

/-! ## Two changes of one link -/

theorem modLink_modLink (s : State) (l : Link) (f f' : LinkEngine → LinkEngine) :
    (s.modLink l f).modLink l f' = s.modLink l fun e => f' (f e) := by
  cases l <;> rfl

/-- A change of a link is fixed by what it makes of that link. -/
theorem modLink_congr {s : State} {l : Link} {f f' : LinkEngine → LinkEngine} (h : f (s.link l) = f' (s.link l)) :
    s.modLink l f = s.modLink l f' := by
  cases l
  · exact congrArg (fun e => { s with linkA := e }) h
  · exact congrArg (fun e => { s with linkB := e }) h

/-! ## Departures (R130, R170, R177) -/

/-- Stations that leave one after the other leave as in one step. -/
theorem leaveAll_eq_departing {sts : List Station} (h : sts.Nodup) (s : State) : s.leaveAll sts = departing s sts := by
  have hstations : (s.leaveAll sts).stations = (departing s sts).stations := by
    ext i hi : 1
    simpa [departing, State.station] using leaveAll_station sts s h ⟨i, hi⟩
  rw [leaveAll_frame, hstations]
  rfl

theorem onlineStations_eq_onlineOf (s : State) (l : Link) (p : Station → Bool) :
    onlineStations s l p = onlineOf s l p := by
  simp only [onlineStations, onlineOf, onlineOn, Bool.decide_and, Bool.decide_eq_true, Bool.and_assoc]

theorem leaveAll_onlineStations (s u : State) (l : Link) (p : Station → Bool) :
    u.leaveAll (onlineStations s l p) = departing u (onlineOf s l p) := by
  rw [leaveAll_eq_departing (onlineStations_nodup s l p), onlineStations_eq_onlineOf]

/-- Which stations are ONLINE on a link is read in the station table alone. -/
theorem onlineOf_of_stations {s u : State} (h : u.stations = s.stations) (l : Link) (p : Station → Bool) :
    onlineOf u l p = onlineOf s l p := by
  unfold onlineOf State.station
  rw [h]

theorem mem_onlineOf (s : State) (l : Link) (p : Station → Bool) (x : Station) :
    x ∈ onlineOf s l p ↔ (s.station x).state = .online ∧ (s.station x).link = some l ∧ p x = true := by
  rw [← onlineStations_eq_onlineOf, mem_onlineStations]

@[simp] theorem departing_station (s : State) (sts : List Station) (x : Station) :
    (departing s sts).station x =
      if x ∈ sts then { s.station x with state := .leaving, timesLeft := (s.station x).timesLeft + 1 }
      else s.station x := by
  simp [departing, State.station]

theorem departing_nil (s : State) : departing s [] = s := (leaveAll_eq_departing List.nodup_nil s).symm

theorem departing_modLink (s : State) (l : Link) (f : LinkEngine → LinkEngine) (sts : List Station) :
    departing (s.modLink l f) sts = (departing s sts).modLink l f := by
  unfold departing State.modLink
  cases l <;> rfl

theorem departing_link (s : State) (sts : List Station) (l : Link) : (departing s sts).link l = s.link l := by
  unfold departing State.link
  cases l <;> rfl

/-- No station is ONLINE on a link right after all of it have left. -/
theorem onlineOf_departing (s : State) (l : Link) (p : Station → Bool) :
    onlineOf (departing s (onlineOf s l fun _ => true)) l p = [] := by
  rw [List.eq_nil_iff_forall_not_mem]
  intro x
  rw [mem_onlineOf, departing_station]
  split
  · simp
  · next hstays =>
    rintro ⟨hstate, hlink, -⟩
    exact hstays ((mem_onlineOf s l _ x).2 ⟨hstate, hlink, rfl⟩)

/-! ## The sweep of a bank (R172) -/

/-- What `takeWhile` keeps stands at places that no failing element comes before. -/
theorem mem_takeWhile_iff_getElem {α : Type} (p : α → Bool) (a : α) (l : List α) :
    a ∈ l.takeWhile p ↔ ∃ i, ∃ h : i < l.length, l[i] = a ∧ ∀ j, ∀ hj : j ≤ i, p l[j] = true := by
  induction l with
  | nil => simp
  | cons x xs ih =>
    cases hx : p x with
    | false =>
      simp only [List.takeWhile_cons, hx, Bool.false_eq_true, if_false, List.not_mem_nil, false_iff]
      rintro ⟨i, hi, -, hall⟩
      exact absurd (hall 0 (Nat.zero_le i)) (by simp [hx])
    | true =>
      simp only [List.takeWhile_cons, hx, if_true, List.mem_cons, ih]
      constructor
      · rintro (rfl | ⟨i, hi, hget, hall⟩)
        · exact ⟨0, by simp, rfl, fun j hj => by simpa [Nat.le_zero.1 hj] using hx⟩
        · refine ⟨i + 1, by simpa using hi, by simpa using hget, fun j hj => ?_⟩
          cases j with
          | zero => simpa using hx
          | succ j => simpa using hall j (Nat.le_of_succ_le_succ hj)
      · rintro ⟨i, hi, hget, hall⟩
        cases i with
        | zero => exact .inl (by simpa using hget.symm)
        | succ i =>
          exact .inr ⟨i, by simpa using hi, by simpa using hget, fun j hj => by
            simpa using hall (j + 1) (Nat.succ_le_succ hj)⟩

theorem entryMeaning_eq_station_iff (code : Fin 32) (st : Station) :
    entryMeaning code = .station st ↔ code ≠ 0 ∧ code.val = st.val := by
  have hst := st.isLt
  unfold entryMeaning
  split
  · next h => simp [h]
  · next h =>
    split
    · simp [h, Fin.ext_iff]
    · simp only [reduceCtorEq, false_iff]
      omega

/-- A station stands in the sweep at an entry with its code that no END comes before. -/
theorem inSweep_eq_standsIn (bank : Vector (Fin 32) 32) (st : Station) : inSweep bank st = standsIn bank st := by
  rw [Bool.eq_iff_iff]
  simp only [inSweep, sweepOf, standsIn, List.any_eq_true, mem_takeWhile_iff_getElem, decide_eq_true_eq,
    entryMeaning_eq_station_iff, ne_eq, Fin.ext_iff]
  constructor
  · rintro ⟨_, ⟨i, hi, hget, hall⟩, -, hcode⟩
    exact ⟨⟨i, by simpa using hi⟩, by simpa using hget.trans hcode, fun j hj => by simpa using hall j hj⟩
  · rintro ⟨i, hcode, hall⟩
    refine ⟨bank[i], ⟨i, by simp, by simp, fun j hj => ?_⟩, ?_, hcode⟩
    · simpa using hall ⟨j, by omega⟩ hj
    · simpa using hall i (le_refl i)

/-! ## Bank switches and the walk (R173, R176) -/

/-- A link right after the taking of a switch request (R176). -/
def switchedLink (e : LinkEngine) : LinkEngine :=
  { e with activeBank := e.activeBank + 1, switchRequest := false, walk := 0 }

/-- The switch of the terms, with its cause set as the model sets it (R176, R190). -/
theorem switchTaken_eq (s : State) (l : Link) :
    switchTaken s l = departing (setCause (.bank l) (s.modLink l switchedLink))
      (onlineOf s l fun x => !standsIn (switchedLink (s.link l)).bank x) := by
  cases l <;> rfl

theorem takeSwitch_eq_switchTaken (s : State) (l : Link) : s.takeSwitch l = switchTaken s l := by
  have hlink : (setCause (.bank l) (s.modLink l switchedLink)).link l = switchedLink (s.link l) := by simp
  rw [switchTaken_eq, ← hlink, ← onlineOf_of_stations (modLink_stations s l switchedLink)]
  simp only [← inSweep_eq_standsIn]
  exact leaveAll_onlineStations _ _ l _

/-- A switch takes the walk to entry 0, wherever it stood. -/
theorem switchTaken_of_walk (s : State) (l : Link) :
    switchTaken (s.modLink l fun e => { e with walk := 0 }) l = switchTaken s l := by
  cases l <;> rfl

theorem wrap_eq_wrapped (s : State) (l : Link) : s.wrap l = wrapped s l := by
  simp only [State.wrap, wrapped, takeSwitch_eq_switchTaken, switchTaken_of_walk]

theorem advance_eq_passed (s : State) (l : Link) : s.advance l = passed s l := by
  simp only [State.advance, passed, wrap_eq_wrapped, Fin.ext_iff]
  rfl

/-! ## Stops and the end of a visit (R153, R170) -/

/-- A link right after its stop (R170). -/
def stoppedLink (e : LinkEngine) : LinkEngine := { e with state := .stopped, visit := none, walk := 0 }

/-- A switch on a link that no station is ONLINE on dismisses none (R170, R177). -/
theorem switchTaken_of_none {s : State} {l : Link} (h : ∀ p, onlineOf s l p = []) :
    switchTaken s l = setCause (.bank l) (s.modLink l switchedLink) := by
  rw [switchTaken_eq, h, departing_nil]

/-- The part of a stop before a waiting switch (R170). -/
def stoppedAll (s : State) (l : Link) : State :=
  setCause (.linkStopped l) ((departing s (onlineOf s l fun _ => true)).modLink l stoppedLink)

theorem completeStop_eq (s : State) (l : Link) :
    s.completeStop l = if (s.link l).switchRequest then switchTaken (stoppedAll s l) l else stoppedAll s l := by
  have hstopped : setCause (.linkStopped l) ((s.modLink l stoppedLink).leaveAll
      (onlineStations (s.modLink l stoppedLink) l fun _ => true)) = stoppedAll s l := by
    rw [leaveAll_onlineStations, onlineOf_of_stations (modLink_stations s l stoppedLink), departing_modLink, stoppedAll]
  rw [← takeSwitch_eq_switchTaken, ← hstopped]
  rfl

/-- What a stop of the terms makes of its link is the stop, and then the switch where one waits (R170, R176). -/
theorem stopDone_link (e : LinkEngine) :
    { e with
      state := .stopped, visit := none, walk := 0
      activeBank := if e.switchRequest then e.activeBank + 1 else e.activeBank, switchRequest := false } =
      if e.switchRequest then switchedLink (stoppedLink e) else stoppedLink e := by
  cases h : e.switchRequest <;> simp [switchedLink, stoppedLink, h]

section
variable {s : State} {l : Link}

theorem stopDone_of_switch (h : (s.link l).switchRequest = true) :
    stopDone s l = setCause (.bank l) ((stoppedAll s l).modLink l switchedLink) := by
  have hwaits := h
  rw [← departing_link s (onlineOf s l fun _ => true)] at hwaits
  simp only [stopDone, stopDone_link, stoppedAll, h, if_true]
  generalize departing s (onlineOf s l fun _ => true) = u at hwaits ⊢
  rw [modLink_congr (f' := fun e => switchedLink (stoppedLink e)) (by rw [if_pos hwaits]), ← modLink_modLink]
  cases l <;> rfl

theorem stopDone_of_no_switch (h : ¬ (s.link l).switchRequest = true) : stopDone s l = stoppedAll s l := by
  have hnone := h
  rw [← departing_link s (onlineOf s l fun _ => true)] at hnone
  simp only [stopDone, stopDone_link, stoppedAll, h, Bool.false_eq_true, if_false, BitVec.ofNat_eq_ofNat,
    BitVec.or_zero]
  generalize departing s (onlineOf s l fun _ => true) = u at hnone ⊢
  rw [modLink_congr (f' := stoppedLink) (by rw [if_neg hnone])]
  cases l <;> rfl

end

theorem completeStop_eq_stopDone (s : State) (l : Link) : s.completeStop l = stopDone s l := by
  rw [completeStop_eq]
  split
  · next hswitch =>
    have hnone (p : Station → Bool) : onlineOf (stoppedAll s l) l p = [] := by
      rw [← onlineOf_departing s l p]
      exact onlineOf_of_stations (modLink_stations _ l stoppedLink) l p
    rw [switchTaken_of_none hnone, stopDone_of_switch hswitch]
  · next hnoSwitch => rw [stopDone_of_no_switch hnoSwitch]

/-- A stop discards the visit, so whether it was discarded before makes no difference (R153, R170). -/
theorem completeStop_of_visit (s : State) (l : Link) :
    (s.modLink l fun e => { e with visit := none }).completeStop l = s.completeStop l := by
  unfold State.completeStop
  cases l <;> rfl

theorem endVisit_eq_visitEnded (s : State) (l : Link) : s.endVisit l = visitEnded s l := by
  simp only [State.endVisit, visitEnded, completeStop_of_visit, ← completeStop_eq_stopDone, advance_eq_passed]

/-! ## The ACK phase (R159, R160) -/

/-- The answer to a repeat: a station ONLINE on the link whose last request had the tag (R160). -/
theorem repeatOf_eq (e : StationEntry) (l : Link) (tag : Bool) :
    repeatOf e l tag =
      if e.state = .online ∧ e.link = some l then e.last.filter fun t => t.tag = tag else none := by
  cases hlast : e.last with
  | none => simp [repeatOf, hlast]
  | some t =>
    by_cases honline : e.state = .online ∧ e.link = some l <;>
      simp [repeatOf, hlast, onlineOn, honline, Option.filter]

theorem modVisit_eq {s : State} {l : Link} {v : Visit} (h : (s.link l).visit = some v) (f : Visit → Visit) :
    s.modVisit l f = s.modLink l fun e => { e with visit := some (f v) } :=
  modLink_congr (by simp only [h, Option.map_some])

/-- Past its ACK phase a visit that holds a reply goes on as the terms say (R159). -/
theorem enterRequest_eq_requestPhase {s : State} {l : Link} {v : Visit} {reply : Reply}
    (hvisit : (s.link l).visit = some v) (hreply : v.reply = some reply) :
    s.enterRequest l = requestPhase s l v reply := by
  cases hrequest : reply.request with
  | none => simp only [State.enterRequest, requestPhase, hvisit, hreply, hrequest, endVisit_eq_visitEnded, if_true]
  | some q =>
    cases hrepeat : repeatOf (s.station v.station) l reply.tag with
    | none =>
      simp only [State.enterRequest, requestPhase, hvisit, hreply, hrequest, ← repeatOf_eq, hrepeat, reduceCtorEq,
        if_false, modVisit_eq hvisit]
    | some t =>
      simp only [State.enterRequest, requestPhase, hvisit, hreply, hrequest, ← repeatOf_eq, hrepeat, reduceCtorEq,
        if_false, modVisit_eq hvisit, State.modCounters, modLink_modLink]

theorem deliverAck_eq_ackHanded (o : Origin) (s : State) : deliverAck o s = ackHanded s o := by
  cases o with
  | link l =>
    cases hvisit : (s.link l).visit with
    | none => simp only [deliverAck, ackHanded, State.enterRequest, hvisit]
    | some v =>
      cases hreply : v.reply with
      | none => simp only [deliverAck, ackHanded, State.enterRequest, hvisit, hreply, Option.map_none, Option.getD_none]
      | some reply =>
        simp only [deliverAck, ackHanded, hvisit, hreply, Option.map_some, Option.getD_some,
          enterRequest_eq_requestPhase hvisit hreply]
  | window | slot k | deadline | clear => rfl

/-! ## The operation in progress is no matter of the links (R40) -/

theorem departing_running (s : State) (sts : List Station) : (departing s sts).running = s.running := by
  unfold departing
  rfl

theorem switchTaken_running (s : State) (l : Link) : (switchTaken s l).running = s.running := by
  rw [switchTaken_eq, departing_running, setCause_running, modLink_running]

theorem stopDone_running (s : State) (l : Link) : (stopDone s l).running = s.running := by
  simp only [stopDone, modLink_running, departing_running]

theorem passed_running (s : State) (l : Link) : (passed s l).running = s.running := by
  unfold passed wrapped
  split_ifs
  · exact switchTaken_running s l
  · exact modLink_running s l _
  · exact modLink_running s l _

theorem visitEnded_running (s : State) (l : Link) : (visitEnded s l).running = s.running := by
  unfold visitEnded
  split
  · exact stopDone_running s l
  · rw [passed_running, modLink_running]

theorem requestPhase_running (s : State) (l : Link) (v : Visit) (reply : Reply) :
    (requestPhase s l v reply).running = s.running := by
  unfold requestPhase
  dsimp only
  split
  · exact visitEnded_running s l
  · split
    · rw [modStation_running, modLink_running]
    · rw [modLink_running]

theorem ackHanded_running (s : State) (o : Origin) : (ackHanded s o).running = s.running := by
  cases o with
  | link l =>
    simp only [ackHanded]
    cases (s.link l).visit with
    | none => rfl
    | some v =>
      cases hreply : v.reply with
      | none => simp [hreply]
      | some reply => simpa [hreply] using requestPhase_running s l v reply
  | window | slot k | deadline | clear => rfl

end Sys2Proof.Machine
end

