-- ==== Sys2Proof/Proofs/NoticeAck.lean ====
section
/-! NOTICE_ACK (R114 to R117): the stray acknowledgement, the one that finds no record to act on, and the one that takes
its station out of a record's sets. -/

namespace Sys2Proof.Machine

open Sys2Proof.Spec

/-- NOTICE_ACK completes with the comparison, the requester going on, and the look at the head (R96, R114, R121,
R159). -/
theorem exec_noticeAck_eq {s : State} {g : Granted} {st : Station} {id : NoticeId} (hreleased : s.resetHeld = false)
    (hrunning : s.running = some g) (hwork : g.work = .noticeAck st id)
    (hfree : (ackNotice st id { s with running := none }).running = none) :
    exec .noticeAck s = .next (looked (ackHanded (ackNotice st id { s with running := none }) g.origin)) := by
  have heffect : noticeAckEffect s =
      looked (ackHanded (ackNotice st id { s with running := none }) g.origin) := by
    simp only [noticeAckEffect, hrunning, hwork, deliverAck_eq_ackHanded]
    exact monitorLook_eq_looked ((ackHanded_running _ _).trans hfree)
  rw [← heffect]
  exact whileReleased_released noticeAckEffect hreleased

/-! ## The comparison with the in-flight notice (R114) -/

/-- The acknowledgement is of this revision of the record, and the station is pending in it (R115, R116). -/
def ackMatches (st : Station) (id : NoticeId) (r : Record) : Bool :=
  r.point = id.point ∧ r.incarnation = id.incarnation ∧ r.revision = id.revision ∧ setHas r.pendingSet st

/-- The state in which an acknowledgement equal to the in-flight notice meets its record: the directory free and the
notice cleared (R114). -/
def ackTaken (st : Station) (s : State) : State :=
  ({ s with running := none } : State).modStation st fun e => { e with inflight := none }

section
variable {st : Station} {id : NoticeId} {s : State}

/-- A stray acknowledgement counts for a remote station, and for the local one not (R114, R125). -/
theorem ackNotice_of_stray (h : (s.station st).inflight ≠ some id) :
    ackNotice st id { s with running := none } = { s with
      running := none
      stations := if st = 0 then s.stations
        else s.stations.set st { s.stations[st] with strayAcks := s.stations[st].strayAcks + 1 } } := by
  have hcount : ackNotice st id { s with running := none } = countStray st { s with running := none } := if_neg h
  rw [hcount, countStray]
  split <;> rfl

theorem ackNotice_of_inflight (h : (s.station st).inflight = some id) :
    ackNotice st id { s with running := none } = ackRecord st id (ackTaken st s) := if_pos h

end

/-! ## The record acknowledged (R115 to R117) -/

theorem ackRecord_of_none {st : Station} {id : NoticeId} {s : State}
    (h : ∀ r ∈ s.index, ackMatches st id r = false) : ackRecord st id s = s := by
  unfold ackRecord
  split
  · rfl
  · next r hfind =>
    obtain ⟨hr, hpoint, hincarnation⟩ := findIncarnation_some hfind
    refine if_neg fun ⟨hrevision, hpending⟩ => ?_
    simpa [ackMatches, hpoint, hincarnation, hrevision, hpending] using h r hr

theorem ackRecord_of_matches {st : Station} {id : NoticeId} {s : State} {r : Record} (hindex : IndexOk s)
    (hr : r ∈ s.index) (h : ackMatches st id r = true) : ackRecord st id s = s.putOrFree r (ackedRecord r st) := by
  obtain ⟨hpoint, hincarnation, hrevision, hpending⟩ := of_decide_eq_true h
  have hfind : s.findIncarnation id.point id.incarnation = some r := by
    rw [← hpoint, ← hincarnation]
    exact findIncarnation_of_mem hindex hr
  simp only [ackRecord, hfind]
  exact if_pos ⟨hrevision, hpending⟩

/-- Out of the pending set, and of the subscriber set too when the record drains (R115, R116). -/
theorem ackedRecord_eq (r : Record) (st : Station) :
    ackedRecord r st = { r with
      subscribers := if r.isRetiring then setDrop r.subscribers st else r.subscribers
      pendingSet := setDrop r.pendingSet st } := by
  unfold ackedRecord Record.without
  split <;> rfl

section
variable (r : Record) (st : Station)

theorem ackedRecord_phase : (ackedRecord r st).phase = r.phase := by
  rw [ackedRecord_eq]

theorem ackedRecord_point : (ackedRecord r st).point = r.point := by
  rw [ackedRecord_eq]

theorem ackedRecord_cells : (ackedRecord r st).cells = r.cells := by
  unfold Record.cells
  rw [ackedRecord_phase]

/-- The record is freed when it is RETIRING and its last subscriber acknowledges, and is put back otherwise (R116). -/
theorem putOrFree_acked (s : State) :
    s.putOrFree r (ackedRecord r st) =
      if r.isRetiring = true ∧ setDrop r.subscribers st = 0 then s.freeRecord r
      else s.putRecord r (ackedRecord r st) := by
  have hphase : (ackedRecord r st).isRetiring = r.isRetiring := by
    unfold Record.isRetiring
    rw [ackedRecord_phase]
  have hdrained : ((ackedRecord r st).isRetiring = true ∧ (ackedRecord r st).subscribers = 0) ↔
      (r.isRetiring = true ∧ setDrop r.subscribers st = 0) := by
    rw [hphase]
    refine and_congr_right fun hretiring => ?_
    rw [ackedRecord_eq, if_pos hretiring]
  simp only [State.putOrFree, hdrained]

end

theorem cells_of_isRetiring {r : Record} (h : r.isRetiring = true) : r.cells = 0 := by
  cases hphase : r.phase <;> simp [Record.isRetiring, Record.cells, hphase] at h ⊢

/-- A record that leaves the directory or is put back with its cells changes the index, the cells, the list and the
counts alone (R6, R126). -/
theorem putOrFree_frame (s : State) (old new : Record) :
    s.putOrFree old new = { s with
      index := (s.putOrFree old new).index, freeCells := (s.putOrFree old new).freeCells
      deadlines := (s.putOrFree old new).deadlines, stations := (s.putOrFree old new).stations } := by
  unfold State.putOrFree
  split
  · unfold State.freeRecord State.recount
    rfl
  · unfold State.putRecord State.recount
    rfl

/-- Of a station's entry the three counts alone follow (R126). -/
theorem putOrFree_station (s : State) (old new : Record) (x : Station) :
    (s.putOrFree old new).station x =
      { s.station x with
        claims := ((s.putOrFree old new).station x).claims
        subscriptions := ((s.putOrFree old new).station x).subscriptions
        pendingCount := ((s.putOrFree old new).station x).pendingCount } := by
  unfold State.putOrFree
  split
  · rw [freeRecord_station]
    rfl
  · rw [putRecord_station]
    rfl

/-- Clearing an in-flight notice leaves every count alone, so counts that follow a change after it follow it from the
state before (R126). -/
theorem countsFollow_of_ackTaken {st : Station} {s u : State} {old new : Option Record}
    (h : CountsFollow (ackTaken st s) u old new) : CountsFollow s u old new := by
  intro x
  have hx : (ackTaken st s).station x = { s.station x with inflight := ((ackTaken st s).station x).inflight } := by
    rw [ackTaken, modStation_station]
    split
    · next h => subst h; rfl
    · rfl
  have hfollow := h x
  rw [hx] at hfollow
  exact hfollow

section
variable {st : Station} {s : State} {r : Record}

/-- The last subscriber of a RETIRING record acknowledges: the record leaves the directory, and no cells come back
(R6, R116). -/
theorem ackTaken_freeRecord (hretiring : r.isRetiring = true) :
    let u := (ackTaken st s).freeRecord r
    u.index = (s.index.filter fun x => x.point ≠ r.point) ∧ CountsFollow s u (some r) none ∧
      u.freeCells = s.freeCells ∧ u.deadlines = othersEntries s r := by
  refine ⟨rfl, countsFollow_of_ackTaken (st := st) fun x => ?_, ?_, rfl⟩
  · rw [freeRecord_station]
    exact ⟨rfl, rfl, rfl⟩
  · rw [freeRecord_freeCells, cells_of_isRetiring hretiring, Nat.add_zero]
    rfl

/-- Any other record acknowledged stays in its place, with the counts after its sets (R115, R116). -/
theorem ackTaken_putRecord (hindex : IndexOk s) (hr : r ∈ s.index) :
    let u := (ackTaken st s).putRecord r (ackedRecord r st)
    Becomes s u r.point (ackedRecord r st) ∧ CountsFollow s u (some r) (some (ackedRecord r st)) ∧
      u.freeCells = s.freeCells ∧ u.deadlines = s.deadlines := by
  refine ⟨?_, countsFollow_of_ackTaken (putRecord_countsFollow _ _ _), ?_, putRecord_deadlines _ _ _⟩
  · rw [← ackedRecord_point r st]
    refine putRecord_spec (s := ackTaken st s) (old := r) ?_
    rw [ackedRecord_point]
    exact findRecord_of_mem (s := s) hindex hr
  · rw [putRecord_eq_of_cells (ackedRecord_cells r st)]
    rfl

end

/-- Settles O30: the comparison leaves a stray count, the notice cleared alone, or the record acknowledged put back or
freed; in each case the requester goes on from there and the monitor looks at the head. -/
theorem noticeAckActsOnTheNotice : Obligations.NoticeAckActsOnTheNotice := by
  intro s g st id hreleased hrunning hwork hindex
  have hexec {u : State} (hack : ackNotice st id { s with running := none } = u) (hfree : u.running = none) :
      exec .noticeAck s = .next (looked (ackHanded u g.origin)) := by
    subst hack
    exact exec_noticeAck_eq hreleased hrunning hwork hfree
  refine ⟨fun hstray => ?_, fun hinflight hnone => ?_, fun hinflight r hr hmatches => ?_⟩
  · exact hexec (ackNotice_of_stray hstray) rfl
  · exact hexec ((ackNotice_of_inflight hinflight).trans (ackRecord_of_none (s := ackTaken st s) hnone)) rfl
  · have hack : ackNotice st id { s with running := none } = (ackTaken st s).putOrFree r (ackedRecord r st) :=
      (ackNotice_of_inflight hinflight).trans (ackRecord_of_matches (s := ackTaken st s) hindex hr hmatches)
    refine ⟨_, hexec hack ?_, putOrFree_frame (ackTaken st s) r _, putOrFree_station (ackTaken st s) r _, ?_⟩
    · rw [putOrFree_frame]
      rfl
    · rw [putOrFree_acked]
      split
      · next hdrained => exact ackTaken_freeRecord hdrained.1
      · rw [← ackedRecord_eq]
        exact ackTaken_putRecord hindex hr

end Sys2Proof.Machine
end

