-- ==== Sys2Proof/Proofs/ClearRecord.lean ====
section
/-! What a CLEAR_CHUNK does to one record (R137): the two steps, and the counts of every station after them. -/

namespace Sys2Proof.Machine

open Sys2Proof.Spec

/-! ## A station out of a set (R17) -/

@[simp] theorem setHas_setDrop (set : StationSet) (st x : Station) :
    setHas (setDrop set st) x = (setHas set x && !decide (x = st)) := by
  by_cases h : x = st
  · subst h
    simp [setHas, setDrop]
  · have hval : ¬ x.val = st.val := Fin.val_ne_of_ne h
    simp [setHas, setDrop, h, hval]

theorem setHas_zero (st : Station) : setHas 0 st = false := by
  simp [setHas]

theorem setHas_or (set set' : StationSet) (st : Station) :
    setHas (set ||| set') st = (setHas set st || setHas set' st) := by
  simp [setHas]

theorem setDrop_of_not_has {set : StationSet} {st : Station} (h : setHas set st = false) : setDrop set st = set := by
  refine BitVec.eq_of_getLsbD_eq fun i hi => ?_
  change setHas (setDrop set st) ⟨i, hi⟩ = setHas set ⟨i, hi⟩
  by_cases hst : (⟨i, hi⟩ : Station) = st
  · simp [hst, h]
  · simp [hst]

/-! ## The two steps on a record -/

/-- The record after both steps of a chunk, as the model computes it. -/
def departed (st : Station) (r : Record) : Record := (clearOwner st r).without st

/-- The chunk frees the record: it holds the station in a set, is RETIRING, and has no other subscriber (R6, R137). -/
def freedBy (st : Station) (r : Record) : Bool :=
  (setHas r.subscribers st ∨ setHas r.pendingSet st) ∧ r.isRetiring ∧ setDrop r.subscribers st = 0

/-- What both steps leave of a record: none when it is freed. -/
def remnant (st : Station) (r : Record) : Option Record := if freedBy st r then none else some (departed st r)

/-- The entry leaves the list when the chunk acts on the record (R6, R137). -/
def dropsFor (st : Station) (r : Record) (d : Deadline) : Bool :=
  d.belongs r && ((d.kind == .lease && r.owner == some st) || (remnant st r).isNone)

section
variable (st : Station) (r : Record)

/-- Step 1 takes an owner off an ACTIVE record, and changes no record that the station does not own. -/
theorem clearOwner_cases :
    (∃ a, r.phase = .active a ∧ r.owner = some st ∧ clearOwner st r = disowned r a (some st)) ∨
      (r.owner ≠ some st ∧ clearOwner st r = r) := by
  cases hphase : r.phase with
  | retiring => exact .inr ⟨by simp [Record.owner, hphase], by simp [clearOwner, hphase]⟩
  | active a =>
    by_cases howns : a.owner = some st
    · exact .inl ⟨a, rfl, by simp [Record.owner, hphase, howns], by simp [clearOwner, hphase, howns]⟩
    · exact .inr ⟨by simp [Record.owner, hphase, howns], by simp [clearOwner, hphase, howns]⟩

/-- The model's step 1 is that of the terms. -/
theorem ownerStripped_eq_clearOwner : ownerStripped st r = clearOwner st r := by
  cases hphase : r.phase with
  | retiring => simp only [ownerStripped, clearOwner, hphase]
  | active a =>
    simp only [ownerStripped, clearOwner, hphase]
    rfl

@[simp] theorem departed_point : (departed st r).point = r.point := by
  obtain ⟨a, -, -, h⟩ | ⟨-, h⟩ := clearOwner_cases st r <;> rw [departed, h] <;> rfl

@[simp] theorem departed_slot : (departed st r).slot = r.slot := by
  obtain ⟨a, -, -, h⟩ | ⟨-, h⟩ := clearOwner_cases st r <;> rw [departed, h] <;> rfl

@[simp] theorem departed_subscribers : (departed st r).subscribers = setDrop r.subscribers st := by
  obtain ⟨a, -, -, h⟩ | ⟨-, h⟩ := clearOwner_cases st r <;> rw [departed, h] <;> rfl

@[simp] theorem departed_isRetiring : (departed st r).isRetiring = r.isRetiring := by
  obtain ⟨a, hphase, -, h⟩ | ⟨-, h⟩ := clearOwner_cases st r <;> rw [departed, h]
  · simp only [Record.isRetiring, hphase]
    rfl
  · rfl

@[simp] theorem departed_cells : (departed st r).cells = r.cells := by
  obtain ⟨a, hphase, -, h⟩ | ⟨-, h⟩ := clearOwner_cases st r <;> rw [departed, h]
  · exact disowned_cells hphase (some st)
  · rfl

@[simp] theorem departed_owner : (departed st r).owner = if r.owner = some st then none else r.owner := by
  obtain ⟨a, -, howns, h⟩ | ⟨howns, h⟩ := clearOwner_cases st r <;> rw [departed, h]
  · rw [if_pos howns]
    rfl
  · rw [if_neg howns]
    rfl

/-- Step 1 makes the other subscribers of an owned record pending, and step 2 takes the station out (R137). -/
theorem departed_pendingSet :
    (departed st r).pendingSet = setDrop (if r.owner = some st then announcedTo r st else r.pendingSet) st := by
  obtain ⟨a, -, howns, h⟩ | ⟨howns, h⟩ := clearOwner_cases st r <;> rw [departed, h]
  · rw [if_pos howns]
    rfl
  · rw [if_neg howns]
    rfl

/-- Both steps of the terms leave what the model's leave. -/
theorem stripped_eq_remnant (k : Fin 16) :
    stripped st k r = if inChunk k r = true then remnant st r else some r := by
  have hsteps : stripped st k r = if inChunk k r = true then
      if (setHas r.subscribers st ∨ setHas r.pendingSet st) ∧
        (departed st r).isRetiring ∧ (departed st r).subscribers = 0
      then none else some (departed st r) else some r := by
    unfold stripped
    rw [ownerStripped_eq_clearOwner]
    rfl
  rw [hsteps, departed_isRetiring, departed_subscribers]
  simp only [remnant, freedBy, decide_eq_true_eq]

end

section
variable {st : Station} {r : Record}

theorem owner_of_isRetiring (h : r.isRetiring = true) : r.owner = none := by
  cases hphase : r.phase <;> simp [Record.isRetiring, Record.owner, hphase] at h ⊢

/-- On a record that holds the station, the model frees just the record that the terms free: a RETIRING one has no
owner, so it holds the station in a set (R5, R137). -/
theorem freedBy_iff_of_holds (h : holds r st = true) :
    freedBy st r = true ↔ (departed st r).isRetiring = true ∧ (departed st r).subscribers = 0 := by
  rw [departed_isRetiring, departed_subscribers]
  simp only [freedBy, holds, decide_eq_true_eq] at h ⊢
  refine ⟨fun hfreed => hfreed.2, fun hdrained => ⟨?_, hdrained⟩⟩
  simpa [owner_of_isRetiring hdrained.1] using h

/-- A record that the station neither owns nor follows is left as it was (R137). -/
theorem remnant_of_not_holds (h : holds r st = false) : remnant st r = some r := by
  simp only [holds, decide_eq_false_iff_not, not_or, Bool.not_eq_true] at h
  obtain ⟨howner, hsubscribers, hpending⟩ := h
  have hfreed : freedBy st r = false := by simp [freedBy, hsubscribers, hpending]
  have hdeparted : departed st r = r := by
    obtain ⟨a, -, howns, -⟩ | ⟨-, hclear⟩ := clearOwner_cases st r
    · exact absurd howns howner
    · rw [departed, hclear, Record.without, setDrop_of_not_has hsubscribers, setDrop_of_not_has hpending]
  simp [remnant, hfreed, hdeparted]

theorem dropsFor_of_not_holds (h : holds r st = false) (d : Deadline) : dropsFor st r d = false := by
  have howner : r.owner ≠ some st := by
    simp only [holds, decide_eq_false_iff_not, not_or] at h
    exact h.1
  simp [dropsFor, remnant_of_not_holds h, howner]

theorem remnant_eq_some {x : Record} (h : remnant st r = some x) : x = departed st r := by
  unfold remnant at h
  split at h
  · cases h
  · exact (Option.some.inj h).symm

/-! ## The counts after a record's change (R126) -/

/-- The subscribers that step 1 adds to the pending set (R137). -/
def becomesPending (st : Station) (r : Record) (x : Station) : Bool :=
  r.owner = some st && setHas r.subscribers x && !setHas r.pendingSet x

/-- A RETIRING record's pending set is its subscriber set (R118). -/
def DrainsPending (r : Record) : Prop := r.isRetiring = true → r.pendingSet = r.subscribers

/-- A freed record is owned by no station, and is followed and owed by none but the departing one. -/
theorem freedBy_holds_no_other (hfreed : freedBy st r = true) (hdrains : DrainsPending r) :
    r.owner = none ∧ ∀ x, x ≠ st → setHas r.subscribers x = false ∧ setHas r.pendingSet x = false := by
  simp only [freedBy, decide_eq_true_eq] at hfreed
  obtain ⟨-, hretiring, hempty⟩ := hfreed
  refine ⟨owner_of_isRetiring hretiring, fun x hx => ?_⟩
  have hnone : setHas r.subscribers x = false := by
    have hleft : setHas (setDrop r.subscribers st) x = false := by rw [hempty, setHas_zero]
    simpa [hx] using hleft
  exact ⟨hnone, by rw [hdrains hretiring, hnone]⟩

/-- The departing station loses what it held of the record, in each of its three counts (R137). -/
theorem recount_remnant_self (e : StationEntry) :
    e.recount (some r) (remnant st r) st =
      { e with
        claims := e.claims - (decide (r.owner = some st)).toNat
        subscriptions := e.subscriptions - (setHas r.subscribers st).toNat
        pendingCount := e.pendingCount - (setHas r.pendingSet st).toNat } := by
  have howns : ownsCount (remnant st r) st = 0 := by
    unfold remnant
    split <;> simp [ownsCount]
  have hfollows : followsCount (remnant st r) st = 0 := by
    unfold remnant
    split <;> simp [followsCount]
  have howed : owedCount (remnant st r) st = 0 := by
    unfold remnant
    split <;> simp [owedCount, departed_pendingSet]
  simp only [StationEntry.recount, howns, hfollows, howed, Nat.add_zero]
  simp [ownsCount, followsCount, owedCount, Bool.toNat, Bool.cond_eq_ite]

/-- Another station keeps what it held of the record, and becomes pending when step 1 marks it (R137). -/
theorem recount_remnant_other (hdrains : DrainsPending r) {x : Station} (hx : x ≠ st) (e : StationEntry) :
    e.recount (some r) (remnant st r) x =
      { e with pendingCount := e.pendingCount + (becomesPending st r x).toNat } := by
  cases hfreed : freedBy st r with
  | true =>
    obtain ⟨howner, hothers⟩ := freedBy_holds_no_other hfreed hdrains
    obtain ⟨hfollows, howed⟩ := hothers x hx
    simp [StationEntry.recount, remnant, hfreed, ownsCount, followsCount, owedCount, becomesPending, howner, hfollows,
      howed]
  | false =>
    have howns : ownsCount (some (departed st r)) x = ownsCount (some r) x := by
      by_cases howner : r.owner = some st <;> simp [ownsCount, howner, Ne.symm hx]
    have hfollows : followsCount (some (departed st r)) x = followsCount (some r) x := by simp [followsCount, hx]
    have howed : owedCount (some (departed st r)) x = owedCount (some r) x + (becomesPending st r x).toNat := by
      by_cases howner : r.owner = some st
      · cases hpending : setHas r.pendingSet x <;> cases hsubscribed : setHas r.subscribers x <;>
          simp [owedCount, becomesPending, departed_pendingSet, announcedTo, setHas_or, howner, hx, hpending,
            hsubscribed]
      · simp [owedCount, becomesPending, departed_pendingSet, howner, hx]
    have hsum : e.pendingCount + owedCount (some (departed st r)) x - owedCount (some r) x =
        e.pendingCount + (becomesPending st r x).toNat := by omega
    simp only [remnant, hfreed, Bool.false_eq_true, if_false, StationEntry.recount, howns, hfollows, hsum,
      Nat.add_sub_cancel]

end

end Sys2Proof.Machine
end

