-- ==== Sys2Proof/Proofs/ClearChunk.lean ====
section
/-! CLEAR_CHUNK over the slots of its range (R136 to R139): one slot, several slots one after the other as at once, and
the end of the clear. -/

namespace Sys2Proof.Machine

open Sys2Proof.Spec

/-! ## The records of some slots, cleared at once -/

/-- What a clear of the given slots leaves of a record. -/
def remnantAt (st : Station) (slots : List Nat) (r : Record) : Option Record :=
  if r.slot ∈ slots then remnant st r else some r

/-- How many records in the given slots satisfy `p`. -/
def countAt (slots : List Nat) (p : Record → Bool) (l : List Record) : Nat :=
  l.countP fun r => decide (r.slot ∈ slots) && p r

/-- An entry of the deadline list goes with a record in the given slots. -/
def dropsAt (st : Station) (slots : List Nat) (l : List Record) (d : Deadline) : Bool :=
  l.any fun r => decide (r.slot ∈ slots) && dropsFor st r d

/-- The entry of station `x` after a clear of `st` in the given slots of the index `l`. -/
def clearedEntry (st : Station) (slots : List Nat) (l : List Record) (x : Station) (e : StationEntry) : StationEntry :=
  if x = st then
    { e with
      claims := e.claims - countAt slots (fun r => r.owner = some st) l
      subscriptions := e.subscriptions - countAt slots (fun r => setHas r.subscribers st) l
      pendingCount := e.pendingCount - countAt slots (fun r => setHas r.pendingSet st) l }
  else { e with pendingCount := e.pendingCount + countAt slots (fun r => becomesPending st r x) l }

/-- The state after a clear of `st` in the given slots, all together (R21, R137). -/
def cleared (st : Station) (slots : List Nat) (s : State) : State :=
  { s with
    index := s.index.filterMap (remnantAt st slots)
    deadlines := s.deadlines.filter fun d => !dropsAt st slots s.index d
    stations := Vector.ofFn fun x : Fin 31 => clearedEntry st slots s.index x s.stations[x] }

@[simp] theorem cleared_station (st : Station) (slots : List Nat) (s : State) (x : Station) :
    (cleared st slots s).station x = clearedEntry st slots s.index x (s.station x) := by
  simp [cleared, State.station]

/-- The station table is fixed by its entries. -/
theorem stations_ext {s t : State} (h : ∀ x : Station, s.station x = t.station x) : s.stations = t.stations := by
  ext i hi : 1
  exact h ⟨i, hi⟩

section
variable {st : Station} {slots : List Nat}

theorem remnantAt_some {r x : Record} (h : remnantAt st slots r = some x) : x = r ∨ x = departed st r := by
  unfold remnantAt at h
  split at h
  · exact .inr (remnant_eq_some h)
  · exact .inl (Option.some.inj h).symm

theorem remnantAt_point {r x : Record} (h : remnantAt st slots r = some x) : x.point = r.point := by
  obtain rfl | rfl := remnantAt_some h
  · rfl
  · exact departed_point st r

theorem remnantAt_slot {r x : Record} (h : remnantAt st slots r = some x) : x.slot = r.slot := by
  obtain rfl | rfl := remnantAt_some h
  · rfl
  · exact departed_slot st r

/-- A clear keeps the order of the index and the slots of its records (R1, R19). -/
theorem indexOk_cleared {s : State} (h : IndexOk s) : IndexOk (cleared st slots s) := by
  obtain ⟨hascending, hslots, hbounds⟩ := h
  refine ⟨hascending.filterMap _ fun a b hlt x hx y hy => ?_, hslots.filterMap _ fun a b hne x hx y hy => ?_,
    fun x hx => ?_⟩
  · rw [remnantAt_point hx, remnantAt_point hy]
    exact hlt
  · rw [remnantAt_slot hx, remnantAt_slot hy]
    exact hne
  · obtain ⟨r, hr, hsome⟩ := List.mem_filterMap.1 hx
    rw [remnantAt_point hsome, remnantAt_slot hsome]
    exact hbounds r hr

theorem drainsPending_departed {r : Record} (h : DrainsPending r) : DrainsPending (departed st r) := by
  intro hretiring
  rw [departed_isRetiring] at hretiring
  rw [departed_pendingSet, departed_subscribers, owner_of_isRetiring hretiring, h hretiring]
  rfl

theorem drainsPending_cleared {s : State} (h : ∀ r ∈ s.index, DrainsPending r) :
    ∀ r ∈ (cleared st slots s).index, DrainsPending r := by
  intro x hx
  obtain ⟨r, hr, hsome⟩ := List.mem_filterMap.1 hx
  obtain rfl | rfl := remnantAt_some hsome
  · exact h _ hr
  · exact drainsPending_departed (h r hr)

end

/-! ## Slots that hold nothing of the station -/

/-- With no record in the slots that the station owns or follows, a clear changes nothing (R137). -/
theorem cleared_of_not_holds {st : Station} {slots : List Nat} {s : State}
    (h : ∀ r ∈ s.index, r.slot ∈ slots → holds r st = false) : cleared st slots s = s := by
  have hindex : s.index.filterMap (remnantAt st slots) = s.index := by
    refine (List.filterMap_congr fun r hr => ?_).trans List.filterMap_some
    unfold remnantAt
    split
    · next hslot => exact remnant_of_not_holds (h r hr hslot)
    · rfl
  have hdrops : ∀ d, dropsAt st slots s.index d = false := by
    intro d
    simp only [dropsAt, List.any_eq_false, Bool.and_eq_true, decide_eq_true_eq, not_and, Bool.not_eq_true]
    exact fun r hr hslot => dropsFor_of_not_holds (h r hr hslot) d
  have hcount : ∀ p : Record → Bool, (∀ r, holds r st = false → p r = false) → countAt slots p s.index = 0 := by
    intro p hp
    simp only [countAt, List.countP_eq_zero, Bool.and_eq_true, decide_eq_true_eq, not_and, Bool.not_eq_true]
    exact fun r hr hslot => hp r (h r hr hslot)
  have hstations : (cleared st slots s).stations = s.stations := by
    refine stations_ext fun x => ?_
    rw [cleared_station, clearedEntry]
    split
    · rw [hcount _ (by simp +contextual [holds]), hcount _ (by simp +contextual [holds]),
        hcount _ (by simp +contextual [holds])]
      rfl
    · rw [hcount _ (by simp +contextual [holds, becomesPending])]
      rfl
  have hdeadlines : (s.deadlines.filter fun d => !dropsAt st slots s.index d) = s.deadlines := by
    simp [hdrops]
  have hframe : cleared st slots s = { s with
      index := s.index.filterMap (remnantAt st slots)
      deadlines := s.deadlines.filter fun d => !dropsAt st slots s.index d
      stations := (cleared st slots s).stations } := rfl
  rw [hframe, hindex, hdeadlines, hstations]

/-! ## The one record of a slot -/

section
variable {s : State} {r : Record} (hindex : IndexOk s) (hr : r ∈ s.index)
include hindex hr

/-- No two records share a slot (R1). -/
theorem eq_of_mem_slot {x : Record} (hx : x ∈ s.index) (hslot : x.slot = r.slot) : x = r := by
  obtain ⟨-, hdistinct, -⟩ := hindex
  exact List.inj_on_of_nodup_map (List.pairwise_map.2 hdistinct) hx hr hslot

/-- The slot of a record holds one record that satisfies `p` when this one does, and none otherwise. -/
theorem countAt_singleton (p : Record → Bool) : countAt [r.slot] p s.index = (p r).toNat := by
  have hmem : ∀ x ∈ s.index, (decide (x.slot ∈ [r.slot]) && p x) = true ↔ (x == r && p r) = true := by
    intro x hx
    simp only [List.mem_singleton, Bool.and_eq_true, decide_eq_true_eq, beq_iff_eq]
    constructor
    · rintro ⟨hslot, hp⟩
      obtain rfl := eq_of_mem_slot hindex hr hx hslot
      exact ⟨rfl, hp⟩
    · rintro ⟨rfl, hp⟩
      exact ⟨rfl, hp⟩
  rw [countAt, List.countP_congr hmem]
  cases p r with
  | false => simp
  | true =>
    obtain ⟨-, hdistinct, -⟩ := hindex
    have hnodup : s.index.Nodup := hdistinct.imp fun hne heq => hne (congrArg Record.slot heq)
    simpa [List.count] using List.count_eq_one_of_mem hnodup hr

theorem dropsAt_singleton (st : Station) (d : Deadline) : dropsAt st [r.slot] s.index d = dropsFor st r d := by
  rw [Bool.eq_iff_iff]
  simp only [dropsAt, List.any_eq_true, List.mem_singleton, Bool.and_eq_true, decide_eq_true_eq]
  constructor
  · rintro ⟨x, hx, hslot, hdrops⟩
    rwa [← eq_of_mem_slot hindex hr hx hslot]
  · exact fun hdrops => ⟨r, hr, rfl, hdrops⟩

/-- Point number and slot name the same record of the index (R1, R19). -/
theorem slot_eq_iff_point_eq {x : Record} (hx : x ∈ s.index) : x.slot = r.slot ↔ x.point = r.point :=
  ⟨fun h => congrArg Record.point (eq_of_mem_slot hindex hr hx h),
    fun h => congrArg Record.slot (eq_of_mem_index hindex hr hx h)⟩

theorem filterMap_remnantAt_of_freed {st : Station} (hfreed : freedBy st r = true) :
    s.index.filterMap (remnantAt st [r.slot]) = indexRemove r.point s.index := by
  rw [indexRemove, ← List.filterMap_eq_filter]
  refine List.filterMap_congr fun x hx => ?_
  by_cases hpoint : x.point = r.point
  · obtain rfl := eq_of_mem_index hindex hr hx hpoint
    simp [remnantAt, remnant, hfreed, Option.guard]
  · have hslot : x.slot ≠ r.slot := mt (slot_eq_iff_point_eq hindex hr hx).1 hpoint
    simp [remnantAt, hslot, hpoint, Option.guard]

theorem filterMap_remnantAt_of_kept {st : Station} (hkept : freedBy st r = false) :
    s.index.filterMap (remnantAt st [r.slot]) = indexReplace (departed st r) s.index := by
  rw [indexReplace, ← List.filterMap_eq_map]
  refine List.filterMap_congr fun x hx => ?_
  rw [departed_point]
  by_cases hpoint : x.point = r.point
  · obtain rfl := eq_of_mem_index hindex hr hx hpoint
    simp [remnantAt, remnant, hkept]
  · have hslot : x.slot ≠ r.slot := mt (slot_eq_iff_point_eq hindex hr hx).1 hpoint
    simp [remnantAt, hslot, hpoint]

end

/-! ## One slot -/

/-- The state after step 1 as far as the list goes: the LEASE entry of an owned record is gone (R137). -/
def leaseDropped (st : Station) (r : Record) (s : State) : State :=
  if r.owner = some st then s.dropDeadline r .lease else s

theorem leaseDropped_eq (st : Station) (r : Record) (s : State) :
    leaseDropped st r s = { s with
      deadlines := s.deadlines.filter fun d => !(d.belongs r && (d.kind == .lease && r.owner == some st)) } := by
  unfold leaseDropped
  split
  · next howner =>
    simp only [howner, BEq.rfl, Bool.and_true]
    rfl
  · next howner =>
    have hother : (r.owner == some st) = false := beq_false_of_ne howner
    simp [hother]

section
variable {st : Station} {s : State} {r : Record}

/-- Both steps on a record that holds the station: freed or put back, with the list as step 1 left it (R137). -/
theorem clearRecord_eq (hholds : holds r st = true) :
    clearRecord st r s = if freedBy st r = true then (leaseDropped st r s).freeRecord r
      else (leaseDropped st r s).putRecord r (departed st r) := by
  simp only [freedBy_iff_of_holds hholds]
  rfl

/-- A record cleared leaves the index, the list and the counts alone to follow: a freed record holds no cells, and one
put back keeps its own (R23, R25). -/
theorem clearRecord_frame (hholds : holds r st = true) :
    clearRecord st r s = { s with
      index := (clearRecord st r s).index, deadlines := (clearRecord st r s).deadlines
      stations := (clearRecord st r s).stations } := by
  rw [clearRecord_eq hholds, leaseDropped_eq]
  split
  · next hfreed =>
    have hcells : r.cells = 0 := by
      simp only [freedBy, decide_eq_true_eq] at hfreed
      obtain ⟨-, hretiring, -⟩ := hfreed
      exact cells_of_isRetiring hretiring
    simp only [State.freeRecord, State.recount, hcells, Nat.add_zero]
  · rw [putRecord_eq_of_cells (departed_cells st r)]

theorem clearRecord_station (hholds : holds r st = true) (x : Station) :
    (clearRecord st r s).station x = (s.station x).recount (some r) (remnant st r) x := by
  have hleased : (leaseDropped st r s).station x = s.station x := by
    rw [leaseDropped_eq]
    rfl
  rw [clearRecord_eq hholds, remnant]
  split
  · rw [freeRecord_station, hleased]
  · rw [putRecord_station, hleased]

theorem clearRecord_deadlines (hholds : holds r st = true) :
    (clearRecord st r s).deadlines = s.deadlines.filter fun d => !dropsFor st r d := by
  rw [clearRecord_eq hholds, leaseDropped_eq]
  unfold dropsFor remnant
  split
  · rw [freeRecord_deadlines, List.filter_filter]
    refine List.filter_congr fun d _ => ?_
    cases d.belongs r <;> simp
  · rw [putRecord_deadlines]
    simp

theorem clearRecord_index (hindex : IndexOk s) (hr : r ∈ s.index) (hholds : holds r st = true) :
    (clearRecord st r s).index = s.index.filterMap (remnantAt st [r.slot]) := by
  rw [clearRecord_eq hholds, leaseDropped_eq]
  split
  · next hfreed => exact (filterMap_remnantAt_of_freed hindex hr hfreed).symm
  · next hkept => exact (filterMap_remnantAt_of_kept hindex hr (Bool.eq_false_iff.2 hkept)).symm

theorem clearRecord_eq_cleared (hindex : IndexOk s) (hr : r ∈ s.index) (hdrains : DrainsPending r)
    (hholds : holds r st = true) : clearRecord st r s = cleared st [r.slot] s := by
  have hstations : (clearRecord st r s).stations = (cleared st [r.slot] s).stations := by
    refine stations_ext fun x => ?_
    rw [clearRecord_station hholds, cleared_station, clearedEntry]
    simp only [countAt_singleton hindex hr]
    split
    · next hx => rw [hx, recount_remnant_self]
    · next hx => rw [recount_remnant_other hdrains hx]
  have hdeadlines : (clearRecord st r s).deadlines = (cleared st [r.slot] s).deadlines := by
    rw [clearRecord_deadlines hholds]
    simp only [cleared, dropsAt_singleton hindex hr]
  rw [clearRecord_frame hholds, clearRecord_index hindex hr hholds, hdeadlines, hstations]
  rfl

end

/-- A slot of a chunk: FREE, holding nothing of the station, or cleared by both steps (R137). -/
theorem clearSlot_eq_cleared {st : Station} {s : State} (hindex : IndexOk s)
    (hdrains : ∀ r ∈ s.index, DrainsPending r) (slot : Nat) : clearSlot st s slot = cleared st [slot] s := by
  unfold clearSlot
  split
  · next hfree =>
    refine (cleared_of_not_holds fun r hr hslot => ?_).symm
    have hne := List.find?_eq_none.1 hfree r hr
    simp only [List.mem_singleton] at hslot
    exact absurd (decide_eq_true hslot) hne
  · next r hfind =>
    have hr : r ∈ s.index := List.mem_of_find?_eq_some hfind
    obtain rfl : r.slot = slot := by simpa using List.find?_some hfind
    split
    · next hholds => exact clearRecord_eq_cleared hindex hr (hdrains r hr) hholds
    · next hnot =>
      refine (cleared_of_not_holds fun x hx hslot => ?_).symm
      rw [eq_of_mem_slot hindex hr hx (List.mem_singleton.1 hslot)]
      exact Bool.eq_false_iff.2 hnot

/-! ## Slots one after the other -/

theorem dropsAt_append (st : Station) (before after : List Nat) (l : List Record) (d : Deadline) :
    dropsAt st (before ++ after) l d = (dropsAt st before l d || dropsAt st after l d) := by
  rw [Bool.eq_iff_iff]
  simp only [dropsAt, List.any_eq_true, List.mem_append, Bool.and_eq_true, Bool.or_eq_true, decide_eq_true_eq,
    or_and_right, and_or_left, exists_or]

section
variable {st : Station} {before after : List Nat} (hdisjoint : before.Disjoint after)
include hdisjoint

/-- A record of the later slots is met as it was before the earlier ones were cleared. -/
theorem remnantAt_later (p : Record → Bool) (r : Record) :
    ((remnantAt st before r).any fun x => decide (x.slot ∈ after) && p x) = (decide (r.slot ∈ after) && p r) := by
  by_cases hbefore : r.slot ∈ before
  · have hafter : r.slot ∉ after := hdisjoint hbefore
    cases hleft : remnantAt st before r with
    | none => simp [hafter]
    | some x => simp [remnantAt_slot hleft, hafter]
  · simp [remnantAt, hbefore]

theorem countAt_later (p : Record → Bool) (l : List Record) :
    countAt after p (l.filterMap (remnantAt st before)) = countAt after p l := by
  rw [countAt, List.countP_filterMap]
  refine List.countP_congr fun r _ => ?_
  rw [← remnantAt_later hdisjoint p r]
  cases remnantAt st before r <;> rfl

theorem countAt_append (p : Record → Bool) (l : List Record) :
    countAt (before ++ after) p l = countAt before p l + countAt after p l := by
  induction l with
  | nil => rfl
  | cons r rest ih =>
    simp only [countAt, List.countP_cons, List.mem_append, Bool.decide_or] at ih ⊢
    by_cases hbefore : r.slot ∈ before
    · have hafter : r.slot ∉ after := hdisjoint hbefore
      simp [hbefore, hafter, ih]
      omega
    · simp [hbefore, ih]
      omega

theorem dropsAt_later (l : List Record) (d : Deadline) :
    dropsAt st after (l.filterMap (remnantAt st before)) d = dropsAt st after l d := by
  rw [dropsAt, List.any_filterMap]
  refine congrArg (List.any l) (funext fun r => ?_)
  rw [← remnantAt_later hdisjoint (fun x => dropsFor st x d) r]
  cases remnantAt st before r <;> rfl

theorem remnantAt_append (r : Record) :
    (remnantAt st before r).bind (remnantAt st after) = remnantAt st (before ++ after) r := by
  by_cases hbefore : r.slot ∈ before
  · have hafter : r.slot ∉ after := hdisjoint hbefore
    cases hleft : remnantAt st before r with
    | none => simpa [remnantAt, hbefore] using hleft.symm
    | some x =>
      have hlater : remnantAt st after x = some x := by rw [remnantAt, remnantAt_slot hleft, if_neg hafter]
      rw [Option.bind_some, hlater, ← hleft]
      simp [remnantAt, hbefore]
  · simp [remnantAt, hbefore]

theorem clearedEntry_append (l : List Record) (x : Station) (e : StationEntry) :
    clearedEntry st after (l.filterMap (remnantAt st before)) x (clearedEntry st before l x e) =
      clearedEntry st (before ++ after) l x e := by
  simp only [clearedEntry, countAt_later hdisjoint, countAt_append hdisjoint]
  split <;> simp only [Nat.sub_sub, Nat.add_assoc]

/-- Slots cleared after others are cleared as at once with them. -/
theorem cleared_cleared (s : State) : cleared st after (cleared st before s) = cleared st (before ++ after) s := by
  have hstations : (cleared st after (cleared st before s)).stations = (cleared st (before ++ after) s).stations := by
    refine stations_ext fun x => ?_
    rw [cleared_station, cleared_station, cleared_station]
    exact clearedEntry_append hdisjoint s.index x (s.station x)
  have hindex : (cleared st after (cleared st before s)).index = (cleared st (before ++ after) s).index := by
    simp only [cleared, List.filterMap_filterMap, remnantAt_append hdisjoint]
  have hdeadlines : (cleared st after (cleared st before s)).deadlines = (cleared st (before ++ after) s).deadlines := by
    simp only [cleared, List.filter_filter, dropsAt_later hdisjoint]
    refine List.filter_congr fun d _ => ?_
    rw [dropsAt_append, Bool.not_or]
    exact Bool.and_comm _ _
  have hframe : cleared st after (cleared st before s) = { s with
      index := (cleared st after (cleared st before s)).index
      deadlines := (cleared st after (cleared st before s)).deadlines
      stations := (cleared st after (cleared st before s)).stations } := rfl
  rw [hframe, hindex, hdeadlines, hstations]
  rfl

end

/-- The slots of a list, each once, are cleared one after the other as at once. -/
theorem foldl_clearSlot_eq_cleared {st : Station} {slots : List Nat} (hnodup : slots.Nodup) {s : State}
    (hindex : IndexOk s) (hdrains : ∀ r ∈ s.index, DrainsPending r) :
    slots.foldl (clearSlot st) s = cleared st slots s := by
  induction slots generalizing s with
  | nil => exact (cleared_of_not_holds fun r _ hslot => absurd hslot List.not_mem_nil).symm
  | cons slot rest ih =>
    obtain ⟨hfresh, hrest⟩ := List.nodup_cons.1 hnodup
    rw [List.foldl_cons, clearSlot_eq_cleared hindex hdrains slot,
      ih hrest (indexOk_cleared hindex) (drainsPending_cleared hdrains),
      cleared_cleared (List.disjoint_singleton.2 hfresh |>.symm)]
    rfl

/-! ## The slots of a chunk (R136) -/

theorem chunkRange_nodup (k : Fin 16) : (chunkRange k).Nodup :=
  List.nodup_range.map fun a b h => by omega

theorem mem_chunkRange (k : Fin 16) (r : Record) : decide (r.slot ∈ chunkRange k) = inChunk k r := by
  simp only [chunkRange, List.mem_map, List.mem_range, inChunk, Config.chunkSlots, decide_eq_decide]
  constructor
  · rintro ⟨i, hi, hslot⟩
    omega
  · rintro ⟨hlow, hhigh⟩
    exact ⟨r.slot - 64 * k.val, by omega, by omega⟩

theorem remnantAt_chunkRange (st : Station) (k : Fin 16) : remnantAt st (chunkRange k) = stripped st k := by
  funext r
  rw [stripped_eq_remnant, ← mem_chunkRange]
  simp only [remnantAt, decide_eq_true_eq]

theorem countAt_chunkRange (k : Fin 16) (p : Record → Bool) (s : State) :
    countAt (chunkRange k) p s.index = countIn s k p := by
  simp only [countAt, countIn, mem_chunkRange]

theorem dropsAt_chunkRange (st : Station) (k : Fin 16) (s : State) (d : Deadline) :
    dropsAt st (chunkRange k) s.index d = chunkDrops s st k d := by
  unfold dropsAt chunkDrops
  refine congrArg (List.any s.index) (funext fun r => ?_)
  rw [mem_chunkRange, stripped_eq_remnant]
  cases inChunk k r <;> simp [dropsFor]

/-! ## The completion -/

/-- The state after a chunk's slots and the step of the progress, before the end of a clear (R136). -/
def chunkDone (st : Station) (k : Fin 16) (s : State) : State :=
  { cleared st (chunkRange k) s with clearProgress := k + 1 }

theorem clearChunkOn_eq {st : Station} {k : Fin 16} {s : State} (hindex : IndexOk s)
    (hdrains : ∀ r ∈ s.index, DrainsPending r) :
    clearChunkOn st k s = if k.val = 15 then clearEnd st (chunkDone st k s) else chunkDone st k s := by
  have hlast : k = 15 ↔ k.val = 15 := Fin.ext_iff
  simp only [clearChunkOn, foldl_clearSlot_eq_cleared (chunkRange_nodup k) hindex hdrains, hlast]
  rfl

/-- CLEAR_CHUNK completes with its chunk and the look at the head (R96, R137). -/
theorem exec_clearChunk_eq {s : State} {g : Granted} {st : Station} {k : Fin 16} (hreleased : s.resetHeld = false)
    (hrunning : s.running = some g) (hwork : g.work = .clearChunk st k)
    (hfree : (clearChunkOn st k { s with running := none }).running = none) :
    exec .clearChunk s = .next (looked (clearChunkOn st k { s with running := none })) := by
  have heffect : clearChunkEffect s = looked (clearChunkOn st k { s with running := none }) := by
    simp only [clearChunkEffect, hrunning, hwork]
    exact monitorLook_eq_looked hfree
  rw [← heffect]
  exact whileReleased_released clearChunkEffect hreleased

/-- The end of a clear changes the station's entry, the queue, the changed set and the causes (R139). -/
theorem clearEnd_eq (st : Station) (s : State) :
    clearEnd st s = { s with
      stations := (clearEnd st s).stations
      clearQueue := s.clearQueue.filter fun x => x ≠ st
      stationChanged := setAdd s.stationChanged st
      causes := s.causes ||| BitVec.twoPow 16 5 } := rfl

theorem clearEnd_station (st : Station) (s : State) (x : Station) :
    (clearEnd st s).station x =
      if x = st then
        { s.station st with
          state := if (s.station st).barredMark then .barred else .offline
          inflight := none, last := none, barredMark := false, freshOwed := true }
      else s.station x := by
  have hchanged : (clearEnd st s).station x =
      ((s.modStation st fun e =>
        { e with inflight := none, last := none, barredMark := false, freshOwed := true }).modStation st fun e =>
          { e with state := if (s.station st).barredMark then .barred else .offline }).station x := rfl
  rw [hchanged]
  simp only [modStation_station]
  split <;> simp

/-- What a chunk leaves of a station's entry, chunk 15's end of the clear left aside (R137). -/
theorem chunkDone_station (st : Station) (k : Fin 16) (s : State) (x : Station) :
    (chunkDone st k s).station x = clearedEntry st (chunkRange k) s.index x (s.station x) :=
  cleared_station st (chunkRange k) s x

theorem clearedEntry_self (st : Station) (k : Fin 16) (s : State) (e : StationEntry) :
    clearedEntry st (chunkRange k) s.index st e =
      { e with
        claims := e.claims - countIn s k fun r => r.owner = some st
        subscriptions := e.subscriptions - countIn s k fun r => setHas r.subscribers st
        pendingCount := e.pendingCount - countIn s k fun r => setHas r.pendingSet st } := by
  simp only [clearedEntry, if_true, countAt_chunkRange]

theorem clearedEntry_other {st x : Station} (hx : x ≠ st) (k : Fin 16) (s : State) (e : StationEntry) :
    clearedEntry st (chunkRange k) s.index x e =
      { e with pendingCount := e.pendingCount + countIn s k fun r => becomesPending st r x } := by
  simp only [clearedEntry, if_neg hx, countAt_chunkRange]

section
variable {st : Station} {k : Fin 16} {s : State} (hindex : IndexOk s) (hdrains : ∀ r ∈ s.index, DrainsPending r)
include hindex hdrains

/-- The parts of the state that a chunk and its end change (R136, R137, R139). -/
theorem clearChunkOn_frame :
    clearChunkOn st k s = { s with
      index := s.index.filterMap (stripped st k)
      deadlines := s.deadlines.filter fun d => !chunkDrops s st k d
      stations := (clearChunkOn st k s).stations
      clearProgress := k + 1
      clearQueue := if k.val = 15 then s.clearQueue.filter fun x => x ≠ st else s.clearQueue
      stationChanged := if k.val = 15 then setAdd s.stationChanged st else s.stationChanged
      causes := if k.val = 15 then s.causes ||| BitVec.twoPow 16 5 else s.causes } := by
  have hdone : chunkDone st k s = { s with
      index := s.index.filterMap (stripped st k)
      deadlines := s.deadlines.filter fun d => !chunkDrops s st k d
      stations := (chunkDone st k s).stations
      clearProgress := k + 1 } := by
    simp only [← remnantAt_chunkRange, ← dropsAt_chunkRange]
    rfl
  rw [clearChunkOn_eq hindex hdrains]
  split
  · rw [clearEnd_eq, hdone]
  · exact hdone

/-- Another station's pending count alone follows, by the records that step 1 makes pending for it (R137). -/
theorem clearChunkOn_station_other {x : Station} (hx : x ≠ st) :
    (clearChunkOn st k s).station x =
      { s.station x with
        pendingCount := (s.station x).pendingCount + countIn s k fun r => becomesPending st r x } := by
  rw [clearChunkOn_eq hindex hdrains, ← clearedEntry_other hx, ← chunkDone_station]
  split
  · rw [clearEnd_station, if_neg hx]
  · rfl

/-- The departing station's entry loses its counts of the chunk, and chunk 15 ends its clear (R137, R139). -/
theorem clearChunkOn_station_self :
    (clearChunkOn st k s).station st =
      if k.val = 15 then
        { clearedEntry st (chunkRange k) s.index st (s.station st) with
          state := if (s.station st).barredMark then .barred else .offline
          inflight := none, last := none, barredMark := false, freshOwed := true }
      else clearedEntry st (chunkRange k) s.index st (s.station st) := by
  have hmark : ((chunkDone st k s).station st).barredMark = (s.station st).barredMark := by
    rw [chunkDone_station, clearedEntry_self]
  rw [clearChunkOn_eq hindex hdrains, ← chunkDone_station]
  split
  · rw [clearEnd_station, if_pos rfl, hmark]
  · rfl

end

/-- R118, as the invariant of the records gives it. -/
theorem drainsPending_of_recordsOk {s : State} (h : RecordsOk s) : ∀ r ∈ s.index, DrainsPending r := by
  obtain ⟨hrecords, -⟩ := h
  intro r hr hretiring
  obtain ⟨-, -, hsets⟩ := hrecords r hr
  exact (hsets hretiring).2

/-- Settles O32: the slots of the chunk are cleared one after the other as at once, which strips every record of the
chunk; chunk 15 then ends the clear in the station's entry, the queue, the changed set and the causes. -/
theorem clearChunkStripsTheStation : Obligations.ClearChunkStripsTheStation := by
  intro s g st k hreleased hrunning hwork hindex hrecords owns
  have hdrains := drainsPending_of_recordsOk hrecords
  have hframe := clearChunkOn_frame (st := st) (k := k) (s := { s with running := none }) hindex hdrains
  refine ⟨_, exec_clearChunk_eq hreleased hrunning hwork (by rw [hframe]), ?_, ?_, fun x hx => ?_, ?_⟩
  · rw [hframe]
    rfl
  · rw [hframe]
    rfl
  · exact clearChunkOn_station_other (s := { s with running := none }) hindex hdrains hx
  · refine (clearChunkOn_station_self (s := { s with running := none }) hindex hdrains).trans ?_
    rw [clearedEntry_self]
    rfl

end Sys2Proof.Machine
end

