-- ==== Sys2Proof/Proofs/Bus.lean ====
section
/-! Bus writes (R181, R182): the command that a write of each place of the window is, and the place that stands at each
address. -/

namespace Sys2Proof.Machine

open Sys2Proof.Spec

/-- The command that a write of a place is; none where the write is ignored or misuse (R182). -/
def placeCommand (p : Place) (v : Word) : Option Instr :=
  match p with
  | .portControl =>
    if v.getLsbD 0 then some (.softReset (v.getLsbD 1)) else if v.getLsbD 1 then some .clockLatch else none
  | .attnCause => some (.attnCauseWrite v)
  | .attnEnable => some (.attnEnableWrite v)
  | .stationChanged high => some (.stationChangedWrite high v)
  | .poolThreshold => some (.poolLowThresholdWrite v)
  | .leaseMax => some (.leaseMaxWrite v)
  | .slotWord k .op => opCommand k v
  | .slotWord k .point => some (.slotParameterWrite k .point v)
  | .slotWord k (.argument i) => some (.slotParameterWrite k (.argument i) v)
  | .slotWord k (.data i) => some (.slotParameterWrite k (.data i) v)
  | .noticeControl =>
    match v.getLsbD 0, v.getLsbD 1 with
    | true, false => some .take
    | false, true => some .ack
    | _, _ => none
  | .select which => some (.selectWrite which v)
  | .assignment => some (.linkAssignmentWrite v)
  | .stationCommand => if v.toNat = 1 then some .bar else if v.toNat = 2 then some .unbar else none
  | .stationCounter which => some (.stationCounterWrite which v)
  | .fence field => some (.fenceWrite field v)
  | .entryValue => some (.entryValueWrite v)
  | .linkControl => some (if v.getLsbD 0 then .run (v.getLsbD 1) else .runCleared (v.getLsbD 1))
  | .linkParameter which => some (.linkParameterWrite which v)
  | .linkCounter which high => some (.linkCounterWrite which high v)
  | .stationState | .stationCount _ | .inflight _ | .lastRequest | .portStatus | .recordsInUse | .freeCells
  | .clockWord _ | .slotState _ | .slotResult _ _ | .snapshot _ | .snapshotValue _ | .nothing => none

/-- A write of the place is misuse (R183, R187, R188). -/
def placeMisuse (p : Place) (v : Word) : Bool :=
  match p with
  | .stationState | .stationCount _ | .inflight _ | .lastRequest => true
  | .noticeControl => v.getLsbD 0 && v.getLsbD 1
  | .stationCommand => 2 < v.toNat
  | .slotWord _ .op => 2 ≤ (v.getLsbD 12).toNat + (v.getLsbD 13).toNat + (v.getLsbD 14).toNat
  | _ => false

/-! ## What a write of a place does -/

/-- What comes of a write: its command's effect, or none, with PORT_FAULT where it is misuse (R191). -/
def writeOutcome (command : Option Instr) (misused : Bool) (s : State) : Host.Outcome State Fault Refusal :=
  match command with
  | some c => exec c s
  | none => .next (if misused then portFault s else s)

section
variable {s : State} (hs : s.resetHeld = false) (v : Word)
include hs

/-- A write of an OP word is its command, or misuse with more than one (R183). -/
theorem opWordWrite_eq_outcome (k : Fin 4) :
    .next (opWordWrite k v s) = writeOutcome (opCommand k v) (placeMisuse (.slotWord k .op) v) s := by
  cases h12 : v.getLsbD 12 <;> cases h13 : v.getLsbD 13 <;> cases h14 : v.getLsbD 14 <;>
    simp only [opWordWrite, opCommand, placeMisuse, h12, h13, h14]
  case false.false.false =>
    have hwrite : slotWordWrite k .op v s = slotWriteEffect k .op v s := by
      simp only [slotWordWrite, opWordWrite, h12, h13, h14]
    rw [← hwrite]
    exact (whileReleased_released (slotWordWrite k .op v) hs).symm
  case true.false.false => exact (whileReleased_released (goEffect k _ _ _) hs).symm
  case false.true.false => exact (whileReleased_released (cancelEffect k _ _ _) hs).symm
  case false.false.true => exact (whileReleased_released (clearEffect k _ _ _) hs).symm
  all_goals rfl

theorem stationCommandWrite_eq_outcome :
    .next (stationCommandWrite v s) = writeOutcome (placeCommand .stationCommand v) (placeMisuse .stationCommand v) s := by
  have h0 : v = 0 ↔ v.toNat = 0 := BitVec.toNat_eq
  have h1 : v = 1 ↔ v.toNat = 1 := BitVec.toNat_eq
  have h2 : v = 2 ↔ v.toNat = 2 := BitVec.toNat_eq
  simp only [stationCommandWrite, placeCommand, placeMisuse, h0, h1, h2]
  generalize v.toNat = n
  match n with
  | 0 => rfl
  | 1 => exact (whileReleased_released barEffect hs).symm
  | 2 => exact (whileReleased_released unbarEffect hs).symm
  | n + 3 => simp [writeOutcome]

theorem portControlWrite_eq_outcome :
    .next (portControlWrite v s) = writeOutcome (placeCommand .portControl v) (placeMisuse .portControl v) s := by
  simp only [portControlWrite, placeCommand, placeMisuse]
  cases v.getLsbD 0
  · cases v.getLsbD 1
    · rfl
    · exact (whileReleased_released clockLatchEffect hs).symm
  · exact (whileReleased_released (portControlReset _) hs).symm

theorem noticeControlWrite_eq_outcome :
    .next (noticeControlWrite v s) = writeOutcome (placeCommand .noticeControl v) (placeMisuse .noticeControl v) s := by
  simp only [noticeControlWrite, placeCommand, placeMisuse]
  cases v.getLsbD 0 <;> cases v.getLsbD 1
  · rfl
  · exact (whileReleased_released ackEffect hs).symm
  · exact (whileReleased_released takeEffect hs).symm
  · rfl

theorem linkControlWrite_eq_outcome :
    .next (linkControl (v.getLsbD 0) (v.getLsbD 1) s) =
      writeOutcome (placeCommand .linkControl v) (placeMisuse .linkControl v) s := by
  simp only [placeCommand]
  cases v.getLsbD 0 <;> exact (whileReleased_released (linkControl _ _) hs).symm

/-- A write of a place acts as its command; one that is none is ignored, with PORT_FAULT where it is misuse. -/
theorem writePlace_eq_outcome (p : Place) :
    .next (writePlace p v s) = writeOutcome (placeCommand p v) (placeMisuse p v) s := by
  cases p
  case portControl => exact portControlWrite_eq_outcome hs v
  case noticeControl => exact noticeControlWrite_eq_outcome hs v
  case stationCommand => exact stationCommandWrite_eq_outcome hs v
  case linkControl => exact linkControlWrite_eq_outcome hs v
  case slotWord k w =>
    cases w
    case op => exact opWordWrite_eq_outcome hs v k
    all_goals exact (whileReleased_released (writePlace _ v) hs).symm
  case portStatus | recordsInUse | freeCells | clockWord | slotState | slotResult | snapshot | snapshotValue | nothing
      | stationState | stationCount | inflight | lastRequest => rfl
  all_goals exact (whileReleased_released (writePlace _ v) hs).symm

end

/-! ## The map of the window (R182) -/

section
variable {a : BitVec 9}

theorem placeOf_port (h : a.toNat < 0x040) : placeOf a = portPlace a.toNat := if_pos h

theorem placeOf_slot {k : Fin 4} {o : Nat} (ho : o < 0x30) (h : a.toNat = 0x040 + 0x30 * k.val + o) :
    placeOf a = slotPlace k o := by
  have hk : (⟨(a.toNat - 0x040) / 0x30, by omega⟩ : Fin 4) = k := Fin.ext (by simp only; omega)
  have ho' : (a.toNat - 0x040) % 0x30 = o := by omega
  simp only [placeOf]
  rw [if_neg (by omega), dif_pos (by omega), hk, ho']

theorem placeOf_notice (h1 : 0x100 ≤ a.toNat) (h2 : a.toNat < 0x140) : placeOf a = noticePlace a.toNat := by
  simp only [placeOf]
  rw [if_neg (by omega), dif_neg (by omega), if_pos h2]

theorem placeOf_station (h1 : 0x140 ≤ a.toNat) (h2 : a.toNat < 0x160) : placeOf a = stationPlace a.toNat := by
  simp only [placeOf]
  rw [if_neg (by omega), dif_neg (by omega), if_neg (by omega), if_pos h2]

theorem placeOf_sweep (h : 0x160 ≤ a.toNat) : placeOf a = sweepPlace a.toNat := by
  simp only [placeOf]
  rw [if_neg (by omega), dif_neg (by omega), if_neg (by omega), if_neg (by omega)]

end

/-- A word of a slot block is written as the terms say (R182). -/
theorem slotCommand_eq (k : Fin 4) (o : Nat) (v : Word) : slotCommand k o v = placeCommand (slotPlace k o) v := by
  unfold slotCommand slotPlace
  split_ifs <;> first | rfl | omega

/-- A counter's word is written as the terms say (R178, R182). -/
theorem linkCounter_command {n : Nat} (h : 0x179 ≤ n ∧ n ≤ 0x18A) (v : Word) :
    placeCommand (sweepPlace n) v =
      some (.linkCounterWrite (linkCounterAt ((n - 0x179) / 2)) ((n - 0x179) % 2 = 1) v) := by
  unfold sweepPlace
  split_ifs <;> first | rfl | omega

/-- Below the slots the terms' commands stand at the model's registers, and at no other address. -/
theorem portPlace_command {n : Nat}
    (h : n ≠ 0x000 ∧ n ≠ 0x002 ∧ n ≠ 0x003 ∧ n ≠ 0x004 ∧ n ≠ 0x005 ∧ n ≠ 0x012 ∧ n ≠ 0x013) (v : Word) :
    placeCommand (portPlace n) v = none := by
  unfold portPlace
  split <;> first | rfl | omega

theorem noticePlace_command {n : Nat} (h : n ≠ 0x100) (v : Word) : placeCommand (noticePlace n) v = none := by
  unfold noticePlace
  split_ifs <;> first | rfl | exact absurd ‹_› h

theorem stationPlace_command {n : Nat} (h : n ≠ 0x140 ∧ n ≠ 0x142 ∧ n ≠ 0x143 ∧ ¬ (0x14E ≤ n ∧ n ≤ 0x152)) (v : Word) :
    placeCommand (stationPlace n) v = none := by
  unfold stationPlace
  split_ifs <;> first | rfl | omega

theorem sweepPlace_command {n : Nat} (h : ¬ (0x160 ≤ n ∧ n ≤ 0x167)) (h' : ¬ (0x170 ≤ n ∧ n ≤ 0x18A)) (v : Word) :
    placeCommand (sweepPlace n) v = none := by
  unfold sweepPlace
  split_ifs <;> first | rfl | omega

/-- The terms' table of commands is the model's map: the named addresses, the counters, the slots, and none elsewhere
(R182). -/
theorem portCommand_eq_placeCommand (a : BitVec 9) (v : Word) : portCommand a.toNat v = placeCommand (placeOf a) v := by
  have hlt : a.toNat < 512 := a.isLt
  unfold portCommand
  split
  case h_34 =>
    simp only [imp_false] at *
    split_ifs with hcounter hslot0 hslot1 hslot2 hslot3
    · rw [placeOf_sweep (by omega), linkCounter_command hcounter]
      rfl
    · rw [slotCommand_eq, placeOf_slot (k := 0) (o := a.toNat - 0x040) (by omega) (by omega)]
    · rw [slotCommand_eq, placeOf_slot (k := 1) (o := a.toNat - 0x070) (by omega) (by omega)]
    · rw [slotCommand_eq, placeOf_slot (k := 2) (o := a.toNat - 0x0A0) (by omega) (by omega)]
    · rw [slotCommand_eq, placeOf_slot (k := 3) (o := a.toNat - 0x0D0) (by omega) (by omega)]
    · symm
      by_cases hport : a.toNat < 0x040
      · rw [placeOf_port hport, portPlace_command (by omega)]
      by_cases hnotice : a.toNat < 0x140
      · rw [placeOf_notice (by omega) hnotice, noticePlace_command (by omega)]
      by_cases hstation : a.toNat < 0x160
      · rw [placeOf_station (by omega) hstation, stationPlace_command (by omega)]
      · rw [placeOf_sweep (by omega), sweepPlace_command (by omega) (by omega)]
  all_goals
    next h =>
    simp [placeOf, h, portPlace, noticePlace, stationPlace, sweepPlace, placeCommand, stationCounterAt, fenceFieldAt,
      linkParameterAt] <;> rfl

/-- A write of a word of a slot block is misuse at its OP word alone. -/
theorem slotPlace_misuse (k : Fin 4) (o : Nat) (v : Word) :
    placeMisuse (slotPlace k o) v =
      (decide (o = 0) && decide (2 ≤ (v.getLsbD 12).toNat + (v.getLsbD 13).toNat + (v.getLsbD 14).toNat)) := by
  unfold slotPlace
  split_ifs <;> simp [placeMisuse, *]

/-- The terms' misuse is that of the places (R183, R187, R188). -/
theorem misuse_eq_placeMisuse (a : BitVec 9) (v : Word) : misuse a.toNat v = placeMisuse (placeOf a) v := by
  by_cases hport : a.toNat < 0x040
  · have hplace : placeMisuse (portPlace a.toNat) v = false := by
      unfold portPlace
      split <;> rfl
    rw [placeOf_port hport, hplace]
    simp only [misuse, decide_eq_false_iff_not]
    omega
  by_cases hslot : a.toNat < 0x100
  · have hbase : (a.toNat = 0x040 ∨ a.toNat = 0x070 ∨ a.toNat = 0x0A0 ∨ a.toNat = 0x0D0) ↔
        (a.toNat - 0x040) % 0x30 = 0 := by omega
    rw [placeOf_slot (k := ⟨(a.toNat - 0x040) / 0x30, by omega⟩) (o := (a.toNat - 0x040) % 0x30) (by omega)
      (by simp only; omega), slotPlace_misuse]
    simp only [misuse, hbase, ← Bool.decide_and, decide_eq_decide]
    omega
  by_cases hcontrol : a.toNat = 0x100
  · rw [placeOf_notice (by omega) (by omega), hcontrol, noticePlace, if_pos rfl]
    simp [misuse, placeMisuse]
  by_cases hnotice : a.toNat < 0x140
  · rw [placeOf_notice (by omega) hnotice]
    unfold noticePlace
    split_ifs <;> simp only [misuse, placeMisuse, decide_eq_false_iff_not] <;> omega
  by_cases hstation : a.toNat < 0x160
  · rw [placeOf_station (by omega) hstation]
    unfold stationPlace
    split_ifs <;> simp only [misuse, placeMisuse, decide_eq_true_eq, decide_eq_false_iff_not, decide_eq_decide] <;> omega
  · rw [placeOf_sweep (by omega)]
    unfold sweepPlace
    split_ifs <;> simp only [misuse, placeMisuse, decide_eq_false_iff_not] <;> omega

/-- Settles O49: a bus write is the write of the place at its address, whose command and misuse are the terms'. -/
theorem busWritesActAsTheirRows : Obligations.BusWritesActAsTheirRows := by
  intro s a v hs
  have hwrite : exec (.registerWrite a v) s = writeOutcome (portCommand a.toNat v) (misuse a.toNat v) s := by
    rw [portCommand_eq_placeCommand, misuse_eq_placeMisuse, ← writePlace_eq_outcome hs]
    exact whileReleased_released (busWrite a v) hs
  rw [hwrite]
  unfold writeOutcome
  rfl

end Sys2Proof.Machine
end

