-- ==== Sys2Proof/Proofs/Steps.lean ====
section
/-! Steps: the front command (R181, R193), the effect of each command while RESET is released, and the principle by which
an invariant that every effect keeps is kept by every step. -/

namespace Sys2Proof.Machine

open Sys2Proof.Spec

/-- Settles O1: `step` on a queue that is not empty. -/
theorem stepRunsTheFrontCommand : Obligations.StepRunsTheFrontCommand := by
  intro c rest s hpending
  simp only [step, hpending]

/-- Settles O2: `step` on an empty queue. -/
theorem stepIdlesOnAnEmptyQueue : Obligations.StepIdlesOnAnEmptyQueue :=
  fun _ hpending => step_empty hpending

/-- What a command does while RESET is released. -/
def effectOf (c : Instr) (s : State) : State :=
  match c with
  | .grant => grantEffect s
  | .read => finishRequest 1 opRead s
  | .write => finishRequest 2 opWrite s
  | .create => finishRequest 3 opCreate s
  | .retire => finishRequest 4 opRetire s
  | .claim => finishRequest 5 opClaim s
  | .release => finishRequest 6 opRelease s
  | .subscribe => finishRequest 7 opSubscribe s
  | .unsubscribe => finishRequest 8 opUnsubscribe s
  | .next => finishRequest 9 opNext s
  | .pin => finishRequest 10 opPin s
  | .unpin => finishRequest 11 opUnpin s
  | .purge => finishRequest 12 opPurge s
  | .noticeFetch => noticeFetchEffect s
  | .noticeAck => noticeAckEffect s
  | .expire => expireEffect s
  | .clearChunk => clearChunkEffect s
  | .deadlineDue => monitorLook s
  | .walkEntry l => walkEffect l s
  | .sendVisit l => sendVisitEffect l s
  | .visitFrameSent l => visitSentEffect l s
  | .frameReceived l address type flags payload crcLow crcHigh =>
    frameReceivedEffect l address type flags payload crcLow crcHigh s
  | .frameBroken l _ => frameBrokenEffect l s
  | .replyTimeout l => replyTimeoutEffect l s
  | .sendResult l => sendResultEffect l s
  | .resultFrameSent l => resultSentEffect l s
  | .fullReset => { State.reset with resetHeld := true, fills := s.fills, pending := s.pending }
  | .resetRelease => { s with resetHeld := false }
  | .softReset latch => portControlReset latch s
  | .clockLatch => clockLatchEffect s
  | .go k code expect force => goEffect k code expect force s
  | .cancel k code expect force => cancelEffect k code expect force s
  | .clear k code expect force => clearEffect k code expect force s
  | .slotParameterWrite k w value => slotWordWrite k w value s
  | .take => takeEffect s
  | .ack => ackEffect s
  | .attnCauseWrite value => causeWriteEffect value s
  | .attnEnableWrite value => enableWriteEffect value s
  | .stationChangedWrite high value => changedWriteEffect high value s
  | .poolLowThresholdWrite value => thresholdEffect value s
  | .leaseMaxWrite value => leaseMaxEffect value s
  | .selectWrite which value => selectEffect which value s
  | .linkAssignmentWrite value => assignmentEffect value s
  | .bar => barEffect s
  | .unbar => unbarEffect s
  | .stationCounterWrite which _ => stationCounterEffect which s
  | .fenceWrite field value => fenceEffect field value s
  | .entryValueWrite value => entryEffect value s
  | .run switchBit => linkControl true switchBit s
  | .runCleared switchBit => linkControl false switchBit s
  | .switch runBit => linkControl runBit true s
  | .switchWithdraw runBit => linkControl runBit false s
  | .linkParameterWrite which value => parameterEffect which value s
  | .linkCounterWrite which _ _ => counterWriteEffect which s
  | .linkCounterLowRead which => counterReadEffect which s
  | .registerWrite address value => busWrite address value s
  | .directoryClockTick => { s with clock := s.clock + 1 }
  | .startOctetReceived l octet stopBit => startOctetEffect l octet stopBit s

/-- The state of a command met while RESET is held (R193). -/
def heldEffect (c : Instr) (s : State) : State :=
  match c with
  | .fullReset => { State.reset with resetHeld := true, fills := s.fills, pending := s.pending }
  | .resetRelease => { s with resetHeld := false }
  | .linkCounterLowRead _ => { s with dataLines := 0 }
  | _ => s

/-- Every command answers its effect, or what it does while RESET is held. -/
theorem exec_eq_next (c : Instr) (s : State) :
    exec c s = .next (if s.resetHeld then heldEffect c s else effectOf c s) := by
  cases c
  case fullReset => exact congrArg Host.Outcome.next (ite_self _).symm
  case resetRelease => exact congrArg Host.Outcome.next (ite_self _).symm
  all_goals rfl

theorem exec_released {s : State} (h : s.resetHeld = false) (c : Instr) : exec c s = .next (effectOf c s) := by
  rw [exec_eq_next, h]
  rfl

/-- The commands that have their effect while RESET is held (R193). -/
def actsWhileHeld : Instr → Bool
  | .fullReset | .resetRelease => true
  | _ => false

/-- RESET is released, or the command has its effect while RESET is held (R193). -/
def meetsReset (c : Instr) (s : State) : Prop := s.resetHeld = true → actsWhileHeld c = true

/-- A bus write, which acts as another command (R181). -/
def isBusWrite : Instr → Bool
  | .registerWrite _ _ => true
  | _ => false

/-- The command of a bus write is neither a bus write nor FULL_RESET (R181). -/
theorem opCommand_ne {k : Fin 4} {v : Word} {c : Instr} (h : opCommand k v = some c) :
    c ≠ .fullReset ∧ isBusWrite c = false := by
  unfold opCommand at h
  split at h <;> cases h <;> exact ⟨by simp, rfl⟩

theorem placeCommand_ne {p : Place} {v : Word} {c : Instr} (h : placeCommand p v = some c) :
    c ≠ .fullReset ∧ isBusWrite c = false := by
  cases p
  case portControl =>
    simp only [placeCommand] at h
    split_ifs at h <;> cases h <;> exact ⟨by simp, rfl⟩
  case slotWord k w =>
    cases w
    case op => exact opCommand_ne h
    all_goals cases h; exact ⟨by simp, rfl⟩
  case noticeControl =>
    simp only [placeCommand] at h
    split at h <;> cases h <;> exact ⟨by simp, rfl⟩
  case stationCommand =>
    simp only [placeCommand] at h
    split_ifs at h <;> cases h <;> exact ⟨by simp, rfl⟩
  case linkControl =>
    cases h
    split <;> exact ⟨by simp, rfl⟩
  case portStatus | recordsInUse | freeCells | clockWord | slotState | slotResult | snapshot | snapshotValue | nothing
      | stationState | stationCount | inflight | lastRequest => cases h
  all_goals cases h; exact ⟨by simp, rfl⟩

/-- A bus write changes nothing, sets PORT_FAULT, or acts as another command. -/
theorem busWrite_cases {s : State} (hs : s.resetHeld = false) (a : BitVec 9) (v : Word) :
    busWrite a v s = s ∨ busWrite a v s = portFault s ∨
      ∃ c, placeCommand (placeOf a) v = some c ∧ busWrite a v s = effectOf c s := by
  have hwrite := writePlace_eq_outcome hs v (placeOf a)
  cases hcommand : placeCommand (placeOf a) v with
  | none =>
    simp only [hcommand, writeOutcome, Host.Outcome.next.injEq] at hwrite
    split at hwrite
    · exact .inr (.inl hwrite)
    · exact .inl hwrite
  | some c =>
    simp only [hcommand, writeOutcome, exec_released hs, Host.Outcome.next.injEq] at hwrite
    exact .inr (.inr ⟨c, rfl, hwrite⟩)

/-- Where a command takes a state: nowhere, to a read of 0000h, to PORT_FAULT, or to the effect of a command that is no
bus write, and is FULL_RESET only if that is the command itself. -/
theorem exec_cases {c : Instr} {s t : State} (h : exec c s = .next t) :
    t = s ∨ t = { s with dataLines := 0 } ∨ t = portFault s ∨
      ∃ c', isBusWrite c' = false ∧ (c' = .fullReset → c = .fullReset) ∧ meetsReset c' s ∧ t = effectOf c' s := by
  rw [exec_eq_next] at h
  cases hs : s.resetHeld with
  | true =>
    simp only [hs, if_true, Host.Outcome.next.injEq] at h
    subst h
    cases c
    case fullReset => exact .inr (.inr (.inr ⟨.fullReset, rfl, fun _ => rfl, fun _ => rfl, rfl⟩))
    case resetRelease => exact .inr (.inr (.inr ⟨.resetRelease, rfl, by simp, fun _ => rfl, rfl⟩))
    case linkCounterLowRead => exact .inr (.inl (by rw [← hs]; rfl))
    all_goals exact .inl rfl
  | false =>
    simp only [hs, Bool.false_eq_true, if_false, Host.Outcome.next.injEq] at h
    subst h
    have hmeets (c' : Instr) : meetsReset c' s := fun hheld => absurd (hs.symm.trans hheld) Bool.false_ne_true
    cases c
    case registerWrite a v =>
      obtain hsame | hfault | ⟨c', hcommand, heffect⟩ := busWrite_cases hs a v
      · exact .inl hsame
      · exact .inr (.inr (.inl hfault))
      · obtain ⟨hreset, hother⟩ := placeCommand_ne hcommand
        exact .inr (.inr (.inr ⟨c', hother, fun heq => absurd heq hreset, hmeets c', heffect⟩))
    all_goals exact .inr (.inr (.inr ⟨_, rfl, id, hmeets _, rfl⟩))

/-- A property that every effect keeps, under a condition `Q` on the state it acts on, is kept by every step. -/
theorem step_keeps {P Q : State → Prop}
    (hqueueQ : ∀ (u : State) (q : List Instr), Q u → Q { u with pending := q })
    (hqueue : ∀ (u : State) (q : List Instr), P u → P { u with pending := q })
    (hlines : ∀ u : State, P u → P { u with dataLines := 0 })
    (hfault : ∀ u : State, P u → P (portFault u))
    (heffect : ∀ (c : Instr) (u : State), isBusWrite c = false → meetsReset c u → Q u → P u → P (effectOf c u))
    {s t : State} (hQ : Q s) (h : P s) (hstep : step s = .next t) : P t := by
  cases hpending : s.pending with
  | nil =>
    rw [step_empty hpending] at hstep
    cases hstep
    exact h
  | cons c rest =>
    rw [stepRunsTheFrontCommand c rest s hpending] at hstep
    have hu := hqueue s rest h
    obtain rfl | rfl | rfl | ⟨c', hbus, -, hmeets, rfl⟩ := exec_cases hstep
    · exact hu
    · exact hlines _ hu
    · exact hfault _ hu
    · exact heffect c' _ hbus hmeets (hqueueQ s rest hQ) hu

end Sys2Proof.Machine
end

