-- ==== Sys2Proof/Proofs/Tables.lean ====
section
/-! The tables of checks (R51, R55): each operation's checks refuse by the first failing row of its table, and a refused
operation changes nothing. -/

namespace Sys2Proof.Machine

open Sys2Proof.Spec

/-! ## Checks that agree with rows -/

/-- The checks refuse just as the rows do. -/
def Agrees {α : Type} (checks : Except Result α) (rows : List Row) : Prop :=
  ∀ res, checks = .error res ↔ refusedBy rows = some res

section
variable {α β : Type}

theorem agrees_ok (x : α) : Agrees (.ok x) [] := fun res => by simp [refusedBy]

/-- A check that refuses before the others is the first row. -/
theorem agrees_cons {fails : Prop} [Decidable fails] {row : Bool} {res : Result} {checks : Except Result α}
    {rows : List Row} (hrow : row = true ↔ ¬ fails) (h : ¬ fails → Agrees checks rows) :
    Agrees (if fails then .error res else checks) ((row, res) :: rows) := by
  intro res'
  by_cases hfails : fails
  · have hfalse : row = false := by simpa [hfails] using hrow
    rw [if_pos hfails, hfalse]
    simp [refusedBy]
  · rw [if_neg hfails, hrow.2 hfails]
    exact h hfails res'

theorem agrees_require {passes : Prop} [Decidable passes] {row : Bool} {res : Result} {checks : Except Result α}
    {rows : List Row} (hrow : row = true ↔ passes) (h : passes → Agrees checks rows) :
    Agrees (if ¬ passes then .error res else checks) ((row, res) :: rows) :=
  agrees_cons (by rw [hrow, not_not]) fun hpass => h (not_not.1 hpass)

/-- A lookup that finds nothing is the first row. -/
theorem agrees_lookup {found : Option α} {res : Result} {next : α → Except Result β} {rows : List Row}
    (h : ∀ x, found = some x → Agrees (next x) rows) :
    Agrees (found.elim (.error res) next) ((found.isSome, res) :: rows) := by
  intro res'
  cases found with
  | none => simp [refusedBy]
  | some x => exact h x rfl res'

theorem refusedBy_append (rows rest : List Row) :
    refusedBy (rows ++ rest) = (refusedBy rows).or (refusedBy rest) := by
  induction rows with
  | nil => rfl
  | cons row rows ih =>
    obtain ⟨check, res⟩ := row
    cases check
    · rfl
    · exact ih

/-- Checks made one after the other agree with their rows one after the other. -/
theorem agrees_bind {checks : Except Result α} {next : α → Except Result β} {rows rest : List Row}
    (h : Agrees checks rows) (hnext : ∀ x, checks = .ok x → Agrees (next x) rest) :
    Agrees (checks.bind next) (rows ++ rest) := by
  intro res
  rw [refusedBy_append]
  cases hchecks : checks with
  | error res' =>
    rw [(h res').1 hchecks]
    simp [Except.bind]
  | ok x =>
    have hpass : refusedBy rows = none := by
      cases hrefused : refusedBy rows with
      | none => rfl
      | some res' => rw [(h res').2 hrefused] at hchecks; cases hchecks
    rw [hpass]
    exact hnext x hchecks res

/-- Checks that no row refuses accept. -/
theorem agrees_accepts {checks : Except Result α} {rows : List Row} (h : Agrees checks rows)
    (hrows : refusedBy rows = none) : ∃ x, checks = .ok x := by
  cases hchecks : checks with
  | error res => rw [(h res).1 hchecks] at hrows; cases hrows
  | ok x => exact ⟨x, rfl⟩

theorem ok_of_require {passes : Prop} [Decidable passes] {res : Result} {checks : Except Result α} {x : α}
    (h : (if ¬ passes then .error res else checks) = .ok x) : passes ∧ checks = .ok x := by
  split_ifs at h with hpass
  · exact ⟨hpass, h⟩

theorem bind_eq_ok_iff {checks : Except Result α} {next : α → Except Result β} {y : β} :
    checks.bind next = .ok y ↔ ∃ x, checks = .ok x ∧ next x = .ok y := by
  cases checks <;> simp [Except.bind]

end

/-! ## Lookups (R3, R20) -/

theorem validPoint_row (p : Word) : decide (1 ≤ p.toNat ∧ p.toNat ≤ 65534) = true ↔ validPoint p = true := by
  rw [decide_eq_true_eq, validPoint_iff]

section
variable (s : State) (p : Word)

theorem lookupActive_eq :
    lookupActive s p = if ¬ validPoint p = true then refuse .badPoint
      else (activeAt s p).elim (refuse .notFound) .ok := by
  rw [ite_not]
  refine ite_congr rfl (fun _ => ?_) fun _ => rfl
  cases hfind : s.findRecord p with
  | none => simp [activeAt, hfind]
  | some r => cases hphase : r.phase <;> simp [activeAt, hfind, hphase, Record.active?]

theorem lookupActive_agrees : Agrees (lookupActive s p) (activeRows s p) := by
  rw [lookupActive_eq]
  exact agrees_require (validPoint_row p) fun _ => agrees_lookup fun x _ => agrees_ok x

theorem lookupAny_agrees (q : Request) : Agrees (lookupAny s q.point) (anyPhaseTable q s) := by
  have heq : lookupAny s q.point = if ¬ validPoint q.point = true then refuse .badPoint
      else (s.findRecord q.point).elim (refuse .notFound) .ok := by
    rw [ite_not]
    refine ite_congr rfl (fun _ => ?_) fun _ => rfl
    cases s.findRecord q.point <;> rfl
  rw [heq]
  exact agrees_require (validPoint_row _) fun _ => agrees_lookup fun x _ => agrees_ok x

end

theorem lookupActive_activeAt {s : State} {p : Word} {x : Record × Active} (h : lookupActive s p = .ok x) :
    activeAt s p = some x := by
  obtain ⟨-, hfind, hphase⟩ := lookupActive_ok h
  exact activeAt_eq_some_iff.2 ⟨hfind, hphase⟩

/-! ## Checks on the record found -/

theorem acceptsLength_eq (cls : PointClass) (n : Nat) : acceptsLength cls n = lengthSuits cls n := by
  cases cls <;> rfl

theorem cellsWith_eq (a : Active) (n : Nat) : cellsWith a n = cellsAfter a n := by
  cases hcls : a.cls <;> simp [cellsWith, cellsAfter, hcls]

section
variable {s : State} {p : Word} {r : Record} {a : Active} (hactive : activeAt s p = some (r, a))
include hactive

theorem heldBy_eq {o : Station} (h : a.owner = some o) : heldBy s p = { code := .held, fields := .owner o } := by
  simp [heldBy, hactive, h]

theorem conflictAt_eq : conflictAt s p = { code := .conflict, fields := .generation a.generation } := by
  simp [conflictAt, hactive]

/-- The owner's standing is the last row of its checks: HELD names the owner (R52). -/
theorem held_agrees {row : Bool} {allowedOwner : Station → Prop} [∀ o, Decidable (allowedOwner o)]
    (hrow : row = true ↔ ∀ o, a.owner = some o → allowedOwner o) :
    Agrees (a.owner.elim (.ok ()) fun o => if ¬ allowedOwner o then refuseHeld o else .ok ()) [(row, heldBy s p)] := by
  cases howner : a.owner with
  | none =>
    have hpass : row = true := hrow.2 (by simp [howner])
    rw [hpass]
    exact agrees_ok ()
  | some o =>
    rw [heldBy_eq hactive howner]
    exact agrees_cons (by simpa [howner] using hrow) fun _ => agrees_ok ()

/-- The fence, pinned and held checks of WRITE and RETIRE (R56, R62, R72). -/
theorem writerCheck_agrees (g : Granted) (st : Station) :
    Agrees (writerCheck g st p a)
      [(allowed Fence.writeMask g.fences st p, plain .denied),
       (ofActive s p fun _ a => a.pinned = false ∨ st = 0, plain .pinned),
       (ofActive s p fun _ a => a.owner = none ∨ a.owner = some st ∨ st = 0, heldBy s p)] := by
  have heq : writerCheck g st p a = if ¬ mayWrite g st p = true then refuse .denied
      else if a.pinned = true ∧ st ≠ 0 then refuse .pinned
      else a.owner.elim (.ok ()) fun o => if ¬ (o = st ∨ st = 0) then refuseHeld o else .ok () := by
    unfold writerCheck
    cases a.owner <;> simp only [Option.elim, ite_not]
  rw [heq, ofActive_eq hactive, ofActive_eq hactive]
  refine agrees_require (by simp [allowed_eq_permits, mayWrite]) fun _ => agrees_cons (by cases a.pinned <;> simp) fun _ =>
    held_agrees hactive ?_
  cases a.owner <;> simp

/-- The length, expected-generation and cell checks of a value write (R61, R63, R64, R77). -/
theorem valueCheck_agrees {q : Request} (hp : q.point = p) : Agrees (valueCheck s.freeCells q a) (valueRows q s) := by
  subst hp
  unfold valueRows
  rw [ofActive_eq hactive, ofActive_eq hactive, ofActive_eq hactive, conflictAt_eq hactive]
  refine agrees_require (by simp [acceptsLength_eq]) fun _ => agrees_cons (by cases q.expect <;> simp) fun _ =>
    agrees_cons (by simp [cellsWith_eq]) fun _ => agrees_ok ()

/-- The held check of PIN (R77). -/
theorem pinHeldCheck_agrees {q : Request} (hp : q.point = p) :
    Agrees (pinHeldCheck q a)
      [(ofActive s q.point fun _ a => a.owner = none ∨ a.owner = some 0 ∨ q.force, heldBy s q.point)] := by
  subst hp
  have heq : pinHeldCheck q a =
      a.owner.elim (.ok ()) fun o => if ¬ (o = 0 ∨ q.force = true) then refuseHeld o else .ok () := by
    unfold pinHeldCheck
    cases a.owner <;> simp only [Option.elim, ite_not]
  rw [heq, ofActive_eq hactive]
  refine held_agrees hactive ?_
  cases a.owner <;> simp

/-- The fence, pinned and held checks of CLAIM (R86). -/
theorem claimantCheck_agrees (g : Granted) (st : Station) :
    Agrees (claimantCheck g st p a)
      [(allowed Fence.writeMask g.fences st p, plain .denied),
       (ofActive s p fun _ a => a.pinned = false ∨ st = 0, plain .pinned),
       (ofActive s p fun _ a => a.owner = none ∨ a.owner = some st, heldBy s p)] := by
  have heq : claimantCheck g st p a = if ¬ mayWrite g st p = true then refuse .denied
      else if a.pinned = true ∧ st ≠ 0 then refuse .pinned
      else a.owner.elim (.ok ()) fun o => if ¬ o = st then refuseHeld o else .ok () := by
    unfold claimantCheck
    cases a.owner <;> simp only [Option.elim, ite_not]
  rw [heq, ofActive_eq hactive, ofActive_eq hactive]
  refine agrees_require (by simp [allowed_eq_permits, mayWrite]) fun _ => agrees_cons (by cases a.pinned <;> simp) fun _ =>
    held_agrees hactive ?_
  cases a.owner <;> simp

end

/-! ## The tables of the operations -/

section
variable (g : Granted) (st : Station) (q : Request) (s : State)

theorem readChecks_eq :
    readChecks g st q s = (lookupActive s q.point).bind fun x =>
      if ¬ mayRead g st q.point = true then refuse .denied else .ok x := by
  unfold readChecks
  cases lookupActive s q.point <;> simp only [Except.bind, ite_not]

theorem readChecks_agrees : Agrees (readChecks g st q s) (readTable g st q s) := by
  rw [readChecks_eq]
  exact agrees_bind (lookupActive_agrees s q.point) fun x _ =>
    agrees_require (by simp [allowed_eq_permits, mayRead]) fun _ => agrees_ok x

theorem retireChecks_eq :
    retireChecks g st q s = (lookupActive s q.point).bind fun x =>
      (writerCheck g st q.point x.2).bind fun _ => .ok x := by
  unfold retireChecks
  rcases lookupActive s q.point with _ | ⟨r, a⟩
  · rfl
  · simp only [Except.bind]
    cases writerCheck g st q.point a <;> rfl

theorem retireChecks_agrees : Agrees (retireChecks g st q s) (retireTable g st q s) := by
  rw [retireChecks_eq]
  exact agrees_bind (lookupActive_agrees s q.point) fun x hx =>
    agrees_bind (rest := []) (writerCheck_agrees (lookupActive_activeAt hx) g st) fun _ _ => agrees_ok x

theorem writeChecks_eq :
    writeChecks g st q s = (retireChecks g st q s).bind fun x =>
      (valueCheck s.freeCells q x.2).bind fun _ => .ok x := by
  unfold writeChecks retireChecks
  rcases lookupActive s q.point with _ | ⟨r, a⟩
  · rfl
  · simp only
    cases writerCheck g st q.point a
    · rfl
    · simp only [Except.bind]
      cases valueCheck s.freeCells q a <;> rfl

theorem pinChecks_eq :
    pinChecks q s = (lookupActive s q.point).bind fun x => (pinHeldCheck q x.2).bind fun _ =>
      if pinHasValue q then (valueCheck s.freeCells q x.2).bind fun _ => .ok x else .ok x := by
  unfold pinChecks
  rcases lookupActive s q.point with _ | ⟨r, a⟩
  · rfl
  · simp only [Except.bind]
    cases pinHeldCheck q a
    · rfl
    · cases valueCheck s.freeCells q a <;> rfl

theorem claimChecks_eq :
    claimChecks g st q s = (lookupActive s q.point).bind fun x => (claimantCheck g st q.point x.2).bind fun _ =>
      if st ≠ 0 ∧ q.arg0 = 0 then refuse .badArg
      else if ¬ (x.2.owner = some st ∨ (s.station st).claims < Config.claimLimit) then refuse .limit
      else .ok x := by
  unfold claimChecks
  rcases lookupActive s q.point with _ | ⟨r, a⟩
  · rfl
  · simp only [Except.bind]
    cases claimantCheck g st q.point a
    · rfl
    · by_cases howner : a.owner = some st <;> simp [howner]

theorem releaseChecks_eq :
    releaseChecks st q s = (lookupActive s q.point).bind fun x =>
      if ¬ (x.2.owner = none ∨ x.2.owner = some st ∨ (st = 0 ∧ q.force = true)) then refuse .notOwner else .ok x := by
  unfold releaseChecks
  rcases lookupActive s q.point with _ | ⟨r, a⟩
  · rfl
  · cases howner : a.owner <;> simp [Except.bind, howner, -not_or, ite_not]

theorem subscribeChecks_eq :
    subscribeChecks g st q s = (readChecks g st q s).bind fun x =>
      if ¬ (setHas x.1.subscribers st = true ∨ (s.station st).subscriptions < Config.subscriptionLimit)
      then refuse .limit else .ok x.1 := by
  unfold subscribeChecks
  rcases readChecks g st q s with _ | ⟨r, a⟩
  · rfl
  · cases hfollows : setHas r.subscribers st <;> simp [Except.bind, hfollows]

end

/-! ## The record that checks find -/

section
variable {g : Granted} {st : Station} {q : Request} {s : State} {x : Record × Active}

theorem readChecks_activeAt (h : readChecks g st q s = .ok x) : activeAt s q.point = some x := by
  rw [readChecks_eq, bind_eq_ok_iff] at h
  obtain ⟨y, hy, hnext⟩ := h
  obtain ⟨-, hlast⟩ := ok_of_require hnext
  cases hlast
  exact lookupActive_activeAt hy

theorem retireChecks_activeAt (h : retireChecks g st q s = .ok x) : activeAt s q.point = some x := by
  simp only [retireChecks_eq, bind_eq_ok_iff] at h
  obtain ⟨y, hy, _, -, hnext⟩ := h
  cases hnext
  exact lookupActive_activeAt hy

theorem writeChecks_ok (h : writeChecks g st q s = .ok x) :
    activeAt s q.point = some x ∧ valueCheck s.freeCells q x.2 = .ok () := by
  simp only [writeChecks_eq, bind_eq_ok_iff] at h
  obtain ⟨y, hy, _, hvalue, hnext⟩ := h
  cases hnext
  exact ⟨retireChecks_activeAt hy, hvalue⟩

theorem pinChecks_ok (h : pinChecks q s = .ok x) :
    activeAt s q.point = some x ∧ (pinHasValue q = true → valueCheck s.freeCells q x.2 = .ok ()) := by
  simp only [pinChecks_eq, bind_eq_ok_iff] at h
  obtain ⟨y, hy, _, -, hnext⟩ := h
  split_ifs at hnext with hvalue
  · obtain ⟨_, hcheck, hlast⟩ := bind_eq_ok_iff.1 hnext
    cases hlast
    exact ⟨lookupActive_activeAt hy, fun _ => hcheck⟩
  · cases hnext
    exact ⟨lookupActive_activeAt hy, fun hyes => absurd hyes hvalue⟩

theorem claimChecks_ok (h : claimChecks g st q s = .ok x) :
    activeAt s q.point = some x ∧ (x.2.owner = none ∨ x.2.owner = some st) ∧ (st ≠ 0 → q.arg0 ≠ 0) ∧
      (x.2.owner = some st ∨ (s.station st).claims < Config.claimLimit) := by
  rw [claimChecks_eq, bind_eq_ok_iff] at h
  obtain ⟨y, hy, hrest⟩ := h
  obtain ⟨_, hclaimant, hnext⟩ := bind_eq_ok_iff.1 hrest
  by_cases harg : st ≠ 0 ∧ q.arg0 = 0
  · rw [if_pos harg] at hnext
    cases hnext
  rw [if_neg harg] at hnext
  obtain ⟨hroom, hlast⟩ := ok_of_require hnext
  cases hlast
  refine ⟨lookupActive_activeAt hy, ?_, fun hst h0 => harg ⟨hst, h0⟩, hroom⟩
  unfold claimantCheck refuse refuseHeld at hclaimant
  cases howner : x.2.owner with
  | none => exact .inl rfl
  | some o =>
    rw [howner] at hclaimant
    by_cases ho : o = st
    · exact .inr (congrArg some ho)
    · simp only [if_neg ho] at hclaimant
      split_ifs at hclaimant

theorem releaseChecks_activeAt (h : releaseChecks st q s = .ok x) : activeAt s q.point = some x := by
  rw [releaseChecks_eq, bind_eq_ok_iff] at h
  obtain ⟨y, hy, hnext⟩ := h
  obtain ⟨-, hlast⟩ := ok_of_require hnext
  cases hlast
  exact lookupActive_activeAt hy

theorem subscribeChecks_ok {r : Record} (h : subscribeChecks g st q s = .ok r) :
    (∃ a, activeAt s q.point = some (r, a)) ∧
      (setHas r.subscribers st = true ∨ (s.station st).subscriptions < Config.subscriptionLimit) := by
  rw [subscribeChecks_eq, bind_eq_ok_iff] at h
  obtain ⟨y, hy, hnext⟩ := h
  obtain ⟨hroom, hlast⟩ := ok_of_require hnext
  cases hlast
  exact ⟨⟨y.2, readChecks_activeAt hy⟩, hroom⟩

end

section
variable (g : Granted) (st : Station) (q : Request) (s : State)

theorem writeChecks_agrees : Agrees (writeChecks g st q s) (writeTable g st q s) := by
  rw [writeChecks_eq]
  exact agrees_bind (retireChecks_agrees g st q s) fun x hx =>
    agrees_bind (rest := []) (valueCheck_agrees (retireChecks_activeAt hx) rfl) fun _ _ => agrees_ok x

theorem pinChecks_agrees : Agrees (pinChecks q s) (pinTable q s) := by
  rw [pinChecks_eq, pinTable, List.append_assoc]
  refine agrees_bind (lookupActive_agrees s q.point) fun x hx => ?_
  have hactive := lookupActive_activeAt hx
  refine agrees_bind (pinHeldCheck_agrees hactive rfl) fun _ _ => ?_
  have hvalue : pinHasValue q = true ↔ ¬ q.arg1 = 0xFFFF#16 := decide_eq_true_iff
  simp only [hvalue, ite_not]
  split
  · exact agrees_ok x
  · rw [← List.append_nil (valueRows q s)]
    exact agrees_bind (valueCheck_agrees hactive rfl) fun _ _ => agrees_ok x

theorem claimChecks_agrees : Agrees (claimChecks g st q s) (claimTable g st q s) := by
  rw [claimChecks_eq]
  refine agrees_bind (lookupActive_agrees s q.point) fun x hx => ?_
  have hactive := lookupActive_activeAt hx
  refine agrees_bind (rows := _ :: _ :: [_]) (claimantCheck_agrees hactive g st) fun _ _ => ?_
  rw [ofActive_eq hactive]
  exact agrees_cons (by simp; tauto) fun _ => agrees_require (by simp [Config.claimLimit]) fun _ => agrees_ok x

theorem releaseChecks_agrees : Agrees (releaseChecks st q s) (releaseTable st q s) := by
  rw [releaseChecks_eq]
  refine agrees_bind (lookupActive_agrees s q.point) fun x hx => ?_
  rw [ofActive_eq (lookupActive_activeAt hx)]
  exact agrees_require (by simp) fun _ => agrees_ok x

theorem subscribeChecks_agrees : Agrees (subscribeChecks g st q s) (subscribeTable g st q s) := by
  rw [subscribeChecks_eq]
  refine agrees_bind (readChecks_agrees g st q s) fun x hx => ?_
  rw [ofActive_eq (readChecks_activeAt hx)]
  exact agrees_require (by simp [Config.subscriptionLimit]) fun _ => agrees_ok _

end

/-! ## CREATE (R69) -/

/-- The slot that `lowestFreeSlot` answers is FREE, and none below it is (R1). -/
theorem lowestFreeSlot_eq_find (s : State) : lowestFreeSlot s = (List.range 1024).find? (slotFree s) := by
  have hfree : (fun m => !slotUsed s.index m) = slotFree s := by
    funext m
    simp [slotUsed, slotFree, List.not_any_eq_all_not]
  rw [lowestFreeSlot, hfree, Config.recordSlots]

theorem lowestFreeSlot_eq_some_iff {s : State} {n : Nat} :
    lowestFreeSlot s = some n ↔ n < 1024 ∧ slotFree s n = true ∧ ∀ m, m < n → slotFree s m = false := by
  rw [lowestFreeSlot_eq_find]
  rw [List.find?_range_eq_some]
  simp only [List.mem_range, Bool.not_eq_true']
  tauto

theorem lowestFreeSlot_isSome (s : State) : (lowestFreeSlot s).isSome = (List.range 1024).any (slotFree s) := by
  rw [lowestFreeSlot_eq_find, Bool.eq_iff_iff, List.find?_isSome, List.any_eq_true]

theorem classOf_isSome (code size : Word) : (classOf code size).isSome = decide (1 ≤ code.toNat ∧ code.toNat ≤ 5) := by
  unfold classOf
  split <;> simp_all
  omega

/-- A class named by CREATE is BLOCK, with its size, just for code 4 (R7, R68). -/
theorem classOf_block {code size : Word} {cls : PointClass} (h : classOf code size = some cls) :
    (blockSizeOk cls = true ↔ (!decide (code.toNat = 4) || decide (1 ≤ size.toNat ∧ size.toNat ≤ 64)) = true) ∧
      cellsAtCreate cls = if code.toNat = 4 then cellsFor size.toNat else 0 := by
  unfold classOf at h
  split at h
  case h_4 hcode =>
    cases h
    simp only [hcode, if_true]
    exact ⟨Iff.rfl, rfl⟩
  case h_6 => cases h
  all_goals
    next hcode =>
    cases h
    simp [hcode, blockSizeOk, cellsAtCreate]

section
variable (g : Granted) (st : Station) (q : Request) (s : State)

theorem createRoom_eq :
    createRoom st q s = (classOf q.arg0 q.arg1).elim (refuse .badClass) fun cls =>
      if ¬ blockSizeOk cls = true then refuse .badLength
      else if ¬ q.arg2.toNat ≤ Config.maxRefresh then refuse .badArg
      else (lowestFreeSlot s).elim (refuse .noRecord) fun n =>
        if ¬ (q.arg3 = 0 ∨ (s.station st).claims < Config.claimLimit) then refuse .limit
        else if ¬ cellsAtCreate cls ≤ s.freeCells then refuse .noSpace
        else .ok (cls, n) := by
  unfold createRoom
  cases classOf q.arg0 q.arg1
  · rfl
  · simp only [Option.elim, Nat.not_le, not_or, Nat.not_lt]
    cases lowestFreeSlot s <;> rfl

theorem createChecks_eq :
    createChecks g st q s = if ¬ validPoint q.point = true then refuse .badPoint
      else if ¬ mayWrite g st q.point = true then refuse .denied
      else if ¬ (s.findRecord q.point).all (fun r => r.isRetiring) = true then refuse .exists_
      else if ¬ (s.findRecord q.point).isNone = true then refuse .retiring
      else createRoom st q s := by
  unfold createChecks
  cases s.findRecord q.point with
  | none => simp
  | some r => cases hretiring : r.isRetiring <;> simp [hretiring]

theorem createRoom_agrees :
    Agrees (createRoom st q s) ((createTable g st q s).drop 4) := by
  rw [createRoom_eq]
  simp only [createTable, List.drop, ← classOf_isSome q.arg0 q.arg1, ← lowestFreeSlot_isSome]
  refine agrees_lookup fun cls hcls => ?_
  obtain ⟨hblock, hcells⟩ := classOf_block hcls
  refine agrees_require hblock.symm fun _ => agrees_require (by simp [Config.maxRefresh]) fun _ =>
    agrees_lookup fun n _ => agrees_require (by simp [Config.claimLimit]) fun _ => agrees_require ?_ fun _ => agrees_ok _
  rw [hcells]
  by_cases h4 : q.arg0.toNat = 4 <;> simp [h4]

theorem createChecks_agrees : Agrees (createChecks g st q s) (createTable g st q s) := by
  rw [createChecks_eq]
  refine agrees_require (validPoint_row _) fun _ => agrees_require (by simp [allowed_eq_permits, mayWrite]) fun _ =>
    agrees_require Iff.rfl fun _ => agrees_require Iff.rfl fun _ => createRoom_agrees g st q s

end

/-- What CREATE's checks accept: a point number not in use, a class, the lowest FREE slot, and room (R69). -/
theorem createChecks_ok {g : Granted} {st : Station} {q : Request} {s : State} {x : PointClass × Nat}
    (h : createChecks g st q s = .ok x) :
    validPoint q.point = true ∧ s.findRecord q.point = none ∧ classOf q.arg0 q.arg1 = some x.1 ∧
      blockSizeOk x.1 = true ∧ q.arg2.toNat ≤ Config.maxRefresh ∧ lowestFreeSlot s = some x.2 ∧
      (q.arg3 = 0 ∨ (s.station st).claims < Config.claimLimit) ∧ cellsAtCreate x.1 ≤ s.freeCells := by
  rw [createChecks_eq] at h
  obtain ⟨hvalid, h⟩ := ok_of_require h
  obtain ⟨-, h⟩ := ok_of_require h
  obtain ⟨-, h⟩ := ok_of_require h
  obtain ⟨hnone, h⟩ := ok_of_require h
  rw [createRoom_eq] at h
  cases hcls : classOf q.arg0 q.arg1 with
  | none => rw [hcls] at h; cases h
  | some cls =>
    rw [hcls, Option.elim_some] at h
    obtain ⟨hblock, h⟩ := ok_of_require h
    obtain ⟨hrefresh, h⟩ := ok_of_require h
    cases hslot : lowestFreeSlot s with
    | none => rw [hslot] at h; cases h
    | some n =>
      rw [hslot, Option.elim_some] at h
      obtain ⟨hclaims, h⟩ := ok_of_require h
      obtain ⟨hcells, h⟩ := ok_of_require h
      cases h
      exact ⟨hvalid, Option.isNone_iff_eq_none.1 hnone, rfl, hblock, hrefresh, rfl, hclaims, hcells⟩

/-! ## Refused operations -/

/-- An operation whose checks agree with a table leaves the state alone when the table refuses it (R51). -/
theorem checked_of_refused {α : Type} {checks : Except Result α} {rows : List Row} (h : Agrees checks rows) {res : Result}
    (hrefused : refusedBy rows = some res) (effects : α → Result × State) (s : State) :
    checked checks effects s = (res, s) :=
  checked_error effects s ((h res).2 hrefused)

theorem RequestersKept.refl (s : State) : RequestersKept s s := ⟨rfl, rfl, rfl, fun _ => ⟨rfl, rfl, rfl⟩⟩

/-- A refused request completes with its refusal answered and the directory as it was. -/
theorem refusesBy_of {c : Instr} {code : Byte} {table : Granted → Station → Request → State → List Row}
    {op : Granted → Station → Request → State → Result × State}
    (hexec : ∀ s, exec c s = whileReleased (finishRequest code op) s)
    (hop : ∀ s g st q res, refusedBy (table g st q s) = some res → op g st q s = (res, s)) : RefusesBy c code table := by
  intro s g st q res hprogress hrefused
  have hsame := hop s g st q res hrefused
  refine ⟨_, (hexec s).trans (whileReleased_finishRequest hprogress op), ?_, ?_⟩
  · exact completeRequest_directoryKept (by rw [hsame])
  · have hanswers := completeRequest_answers g st q op s (by rw [hsame]; exact .refl s)
    rwa [hsame] at hanswers

/-- Settles O14: each operation's checks agree with its table. -/
theorem pointOperationsRefuseByTheirTables : Obligations.PointOperationsRefuseByTheirTables :=
  ⟨refusesBy_of (fun _ => rfl) fun s g st q _ h => checked_of_refused (readChecks_agrees g st q s) h _ s,
    refusesBy_of (fun _ => rfl) fun s g st q _ h => checked_of_refused (writeChecks_agrees g st q s) h _ s,
    refusesBy_of (fun _ => rfl) fun s g st q _ h => checked_of_refused (createChecks_agrees g st q s) h _ s,
    refusesBy_of (fun _ => rfl) fun s g st q _ h => checked_of_refused (retireChecks_agrees g st q s) h _ s,
    refusesBy_of (fun _ => rfl) fun s _ _ q _ h => checked_of_refused (pinChecks_agrees q s) h _ s,
    refusesBy_of (fun _ => rfl) fun s _ _ q _ h => checked_of_refused (lookupActive_agrees s q.point) h _ s,
    refusesBy_of (fun _ => rfl) fun s _ _ q _ h => checked_of_refused (lookupAny_agrees s q) h _ s⟩

/-- Settles O15, in the same way as O14. -/
theorem claimsAndSubscriptionsRefuseByTheirTables : Obligations.ClaimsAndSubscriptionsRefuseByTheirTables :=
  ⟨refusesBy_of (fun _ => rfl) fun s g st q _ h => checked_of_refused (claimChecks_agrees g st q s) h _ s,
    refusesBy_of (fun _ => rfl) fun s _ st q _ h => checked_of_refused (releaseChecks_agrees st q s) h _ s,
    refusesBy_of (fun _ => rfl) fun s g st q _ h => checked_of_refused (subscribeChecks_agrees g st q s) h _ s,
    refusesBy_of (fun _ => rfl) fun s _ _ q _ h => checked_of_refused (lookupAny_agrees s q) h _ s⟩

end Sys2Proof.Machine
end

