-- ==== Sys2Proof/Proofs/Effects.lean ====
section
/-! The effects of accepted requests (chapters 4 to 6): a record put back under its number with the deadline list after
it, a record made, or a record freed; and what the completion of a request shows of them. -/

namespace Sys2Proof.Machine

open Sys2Proof.Spec

/-! ## The deadline list (R58, R94) -/

theorem insertDeadline_eq_placed (d : Deadline) (l : List Deadline) : insertDeadline d l = placed d l := by
  rw [insertDeadline_eq_takeWhile]
  rfl

theorem withDeadlines_of_rearm (s : State) (r : Record) (kind : DeadlineKind) (due : LongWord) :
    s.rearm r kind due = { s with deadlines := rearmed r kind due s.deadlines } := by
  simp only [State.rearm, insertDeadline_eq_placed]
  rfl

/-- The list after the FRESHNESS entry of a supervised, unpinned record is re-armed (R66). -/
def freshened (now : LongWord) (r : Record) (a : Active) (l : List Deadline) : List Deadline :=
  match a.refresh with
  | some n => if a.pinned then l else rearmed r .freshness (now + BitVec.ofNat 32 (10 * n)) l
  | none => l

/-- The list after the LEASE entry of a remote owner is re-armed (R66, R93). -/
def leased (now : LongWord) (st : Station) (r : Record) (a : Active) (l : List Deadline) : List Deadline :=
  match a.lease with
  | some n => if st ≠ 0 ∧ a.owner = some st then rearmed r .lease (now + BitVec.ofNat 32 (100 * n)) l else l
  | none => l

/-- The list after an UNPIN (R80). -/
def unpinned (now : LongWord) (r : Record) (a : Active) (l : List Deadline) : List Deadline :=
  match a.refresh with
  | some n => if a.quality = .good then rearmed r .freshness (now + BitVec.ofNat 32 (10 * n)) l else l
  | none => l

section
variable (now : LongWord) (st : Station) (r : Record) (a : Active) (s : State)

theorem rearmFreshness_eq :
    rearmFreshness now r a s = { s with deadlines := freshened now r a s.deadlines } := by
  unfold rearmFreshness freshened
  cases a.refresh with
  | none => rfl
  | some n => simp only [withDeadlines_of_rearm, freshnessDue]; split <;> rfl

theorem rearmLease_eq :
    rearmLease now st r a s = { s with deadlines := leased now st r a s.deadlines } := by
  unfold rearmLease leased
  cases a.lease with
  | none => split <;> rfl
  | some n => simp only [withDeadlines_of_rearm, leaseDue]; split <;> rfl

theorem unpinFreshness_eq :
    unpinFreshness now r a s = { s with deadlines := unpinned now r a s.deadlines } := by
  unfold unpinFreshness unpinned
  cases a.refresh with
  | none => rfl
  | some n => simp only [withDeadlines_of_rearm, freshnessDue]; split <;> rfl

end

/-! ## A record put back -/

/-- The state after a record is put back under its number, with the list `l` (R17, R25, R126). -/
def replaced (s : State) (old new : Record) (l : List Deadline) : State :=
  { s with
    index := indexReplace new s.index
    freeCells := s.freeCells + old.cells - new.cells
    stations := (s.recount (some old) (some new)).stations
    deadlines := l }

section
variable (s : State) (old new : Record) (l : List Deadline)

theorem putRecord_withDeadlines : { s.putRecord old new with deadlines := l } = replaced s old new l := by
  simp only [State.putRecord, State.recount, replaced]

theorem replaced_withDeadlines (l' : List Deadline) :
    { replaced s old new l with deadlines := l' } = replaced s old new l' := by
  simp only [replaced]

theorem putRecord_eq_replaced : s.putRecord old new = replaced s old new s.deadlines := by
  simp only [State.putRecord, State.recount, replaced]

@[simp] theorem replaced_index : (replaced s old new l).index = indexReplace new s.index := by simp only [replaced]

@[simp] theorem replaced_incarnation : (replaced s old new l).incarnation = s.incarnation := by simp only [replaced]

@[simp] theorem replaced_freeCells : (replaced s old new l).freeCells = s.freeCells + old.cells - new.cells := by
  simp only [replaced]

@[simp] theorem replaced_deadlines : (replaced s old new l).deadlines = l := by simp only [replaced]

theorem replaced_stations : (replaced s old new l).stations = (s.recount (some old) (some new)).stations := by
  simp only [replaced]

@[simp] theorem replaced_station (x : Station) :
    (replaced s old new l).station x = (s.station x).recount (some old) (some new) x := by
  rw [← recount_station]
  simp only [State.station, replaced_stations]

theorem replaced_requestersKept : RequestersKept s (replaced s old new l) := by
  refine ⟨?_, ?_, ?_, fun x => ?_⟩
  · simp only [replaced]
  · simp only [replaced]
  · simp only [replaced]
  · simp

end

section
variable {s t : State} {old new : Record} {l : List Deadline}

/-- What a completion shows of a record put back. -/
theorem Quiet.of_replaced (hfind : s.findRecord old.point = some old) (hpoint : new.point = old.point)
    (h : Quiet (replaced s old new l) t) :
    Becomes s t old.point new ∧ CountsFollow s t (some old) (some new) ∧ t.incarnation = s.incarnation ∧
      t.freeCells = s.freeCells + old.cells - new.cells ∧ t.deadlines = l := by
  have hput : Becomes s (replaced s old new l) old.point new := by
    rw [← hpoint] at hfind ⊢
    have hspec := putRecord_spec hfind
    rw [putRecord_eq_replaced] at hspec
    simpa only [Becomes, OthersKept, State.findRecord, replaced_index] using hspec
  have hcounts : CountsFollow s (replaced s old new l) (some old) (some new) := by
    intro x
    rw [replaced_station]
    exact ⟨rfl, rfl, rfl⟩
  have ⟨_, hincarnation, hfree, hdeadlines, _⟩ := h
  rw [replaced_incarnation] at hincarnation
  rw [replaced_freeCells] at hfree
  rw [replaced_deadlines] at hdeadlines
  exact ⟨h.becomes hput, h.countsFollow hcounts, hincarnation, hfree, hdeadlines⟩

/-- What a completion shows of a record freed (R6). -/
theorem Quiet.of_freeRecord (h : Quiet (s.freeRecord old) t) :
    t.index = (s.index.filter fun x => x.point ≠ old.point) ∧ CountsFollow s t (some old) none ∧
      t.incarnation = s.incarnation ∧ t.freeCells = s.freeCells + old.cells ∧ t.deadlines = othersEntries s old := by
  have ⟨hindex, hincarnation, hfree, hdeadlines, _⟩ := h
  rw [freeRecord_index] at hindex
  rw [freeRecord_incarnation] at hincarnation
  rw [freeRecord_freeCells] at hfree
  rw [freeRecord_deadlines] at hdeadlines
  refine ⟨hindex, h.countsFollow fun x => ?_, hincarnation, hfree, hdeadlines⟩
  rw [freeRecord_station]
  exact ⟨rfl, rfl, rfl⟩

end

/-! ## The completion of an accepted request -/

section
variable {c : Instr} {code : Byte} {op : Granted → Station → Request → State → Result × State} {s u : State}
  {g : Granted} {st : Station} {q : Request} {res : Result}
  (hexec : ∀ s, exec c s = whileReleased (finishRequest code op) s) (hprogress : InProgress code s g st q)
include hexec hprogress

/-- The command completes its request: the directory as the operation left it, and its result answered. -/
theorem completes_of_op (hop : op g st q s = (res, u)) (hkept : RequestersKept s u) :
    ∃ t, exec c s = .next t ∧ Quiet u t ∧ Answered s t g.origin st q res := by
  have hquiet := completeRequest_quiet g st q op s
  have hanswers := completeRequest_answers g st q op s (by rw [hop]; exact hkept)
  rw [hop] at hquiet hanswers
  exact ⟨_, (hexec s).trans (whileReleased_finishRequest hprogress op), hquiet, hanswers⟩

/-- An operation that leaves the state alone completes with the directory as it was. -/
theorem completes_of_same (hop : op g st q s = (res, s)) :
    ∃ t, exec c s = .next t ∧ DirectoryKept s t ∧ Answered s t g.origin st q res := by
  have hanswers := completeRequest_answers g st q op s (by rw [hop]; exact .refl s)
  rw [hop] at hanswers
  exact ⟨_, (hexec s).trans (whileReleased_finishRequest hprogress op), completeRequest_directoryKept (by rw [hop]),
    hanswers⟩

end

/-- The checks that a table accepts find the record that stands at the point number. -/
theorem checks_of_table {checks : Except Result (Record × Active)} {rows : List Row} {s : State} {p : Word}
    {x : Record × Active} (hagrees : Agrees checks rows) (hfound : ∀ y, checks = .ok y → activeAt s p = some y)
    (hrows : refusedBy rows = none) (hactive : activeAt s p = some x) : checks = .ok x := by
  obtain ⟨y, hy⟩ := agrees_accepts hagrees hrows
  have hsame := hfound y hy
  rw [hactive] at hsame
  cases hsame
  exact hy

/-! ## READ (R60) -/

/-- Settles O17: the checks pass, and the operation answers the record's fields and changes nothing. -/
theorem readReturnsTheRecord : Obligations.ReadReturnsTheRecord := by
  intro s g st q r a hprogress htable hactive
  exact completes_of_same (fun _ => rfl) hprogress
    (checked_ok _ s (checks_of_table (readChecks_agrees g st q s) (fun _ => readChecks_activeAt) htable hactive))

/-! ## WRITE (R65 to R67) -/

theorem generationAfter_eq (g : Word) : generationAfter g = nextGeneration g := by
  have hmax : g.toNat = 65535 ↔ g = 0xFFFF#16 := by rw [BitVec.toNat_eq]; rfl
  simp only [generationAfter, nextGeneration, hmax]

theorem written_eq (q : Request) (a : Active) : written q a = writeValue q a := by
  simp only [written, writeValue, generationAfter_eq, cellsWith_eq]

/-- A record after a notice-worthy operation of `st` on its ACTIVE fields (R11, R57). -/
def revisedBy (st : Station) (r : Record) (a : Active) : Record :=
  { r with phase := .active a, revision := r.revision + 1, pendingSet := announcedTo r st }

theorem announce_eq_revisedBy (st : Station) (r : Record) (a : Active) :
    ((r.withActive a).revised).announce (some st) = revisedBy st r a := rfl

theorem writeEffect_eq (g : Granted) (st : Station) (q : Request) (s : State) (r : Record) (a : Active) :
    writeEffect g st q s r a =
      ({ code := .ok, fields := .generation (generationAfter a.generation) },
        replaced s r (revisedBy st r (written q a)) (leased g.now st r a (freshened g.now r a s.deadlines))) := by
  have hgeneration : (writeValue q a).generation = generationAfter a.generation := (generationAfter_eq _).symm
  simp only [writeEffect, announce_eq_revisedBy, rearmFreshness_eq, rearmLease_eq, written_eq, hgeneration, okWith,
    putRecord_withDeadlines, replaced_withDeadlines, replaced_deadlines, putRecord_deadlines]

theorem cells_of_active {r : Record} {a : Active} (h : r.phase = .active a) : r.cells = a.cells := by
  simp only [Record.cells, h]

/-- Settles O18: the checks pass, and the written record is put back with its deadlines re-armed. -/
theorem writeTakesEffect : Obligations.WriteTakesEffect := by
  intro s g st q r a hprogress htable hactive r'
  obtain ⟨hfind, hphase⟩ := activeAt_eq_some_iff.1 hactive
  obtain ⟨-, hpoint⟩ := findRecord_some hfind
  have hchecks := checks_of_table (writeChecks_agrees g st q s) (fun _ hy => (writeChecks_ok hy).1) htable hactive
  have hop : opWrite g st q s = _ := (checked_ok _ s hchecks).trans (writeEffect_eq g st q s r a)
  obtain ⟨t, hexec, hquiet, hanswers⟩ :=
    completes_of_op (c := .write) (fun _ => rfl) hprogress hop (replaced_requestersKept _ _ _ _)
  rw [← hpoint] at hfind ⊢
  obtain ⟨hbecomes, hcounts, hincarnation, hfree, hdeadlines⟩ := hquiet.of_replaced (new := revisedBy st r _) hfind rfl
  refine ⟨t, hexec, hbecomes, hcounts, hincarnation, ?_, ?_, hanswers⟩
  · rw [hfree, cells_of_active hphase]
    rfl
  · rw [hdeadlines]
    unfold leased freshened
    rfl

/-! ## CREATE (R18, R71) -/

/-- The class that the code of CREATE names (R7). -/
theorem classOf_eq_some {code size : Word} {cls : PointClass} (h : classOf code size = some cls) :
    cls = match code.toNat with
      | 1 => .word
      | 2 => .long
      | 3 => .quad
      | 4 => .block size.toNat
      | _ => .text := by
  unfold classOf at h
  split at h <;> cases h <;> simp only [*]

/-- The state after a record is made, with the list `l` and the next incarnation (R13, R18, R27). -/
def created (s : State) (new : Record) (l : List Deadline) : State :=
  { s with
    index := indexInsert new s.index
    incarnation := s.incarnation + 1
    freeCells := s.freeCells - new.cells
    stations := (s.recount none (some new)).stations
    deadlines := l }

section
variable (s : State) (new : Record) (l : List Deadline)

theorem addRecord_created (inc : Word) (h : inc = s.incarnation + 1) :
    { s.addRecord new with incarnation := inc } = created s new s.deadlines := by
  subst h
  simp only [State.addRecord, State.recount, created]

theorem created_withDeadlines (l' : List Deadline) : { created s new l with deadlines := l' } = created s new l' := by
  simp only [created]

@[simp] theorem created_index : (created s new l).index = indexInsert new s.index := by simp only [created]

@[simp] theorem created_incarnation : (created s new l).incarnation = s.incarnation + 1 := by simp only [created]

@[simp] theorem created_freeCells : (created s new l).freeCells = s.freeCells - new.cells := by simp only [created]

@[simp] theorem created_deadlines : (created s new l).deadlines = l := by simp only [created]

theorem created_stations : (created s new l).stations = (s.recount none (some new)).stations := by
  simp only [created]

@[simp] theorem created_station (x : Station) :
    (created s new l).station x = (s.station x).recount none (some new) x := by
  rw [← recount_station]
  simp only [State.station, created_stations]

theorem created_requestersKept : RequestersKept s (created s new l) := by
  refine ⟨?_, ?_, ?_, fun x => ?_⟩
  · simp only [created]
  · simp only [created]
  · simp only [created]
  · simp

end

/-- What a completion shows of a record made. -/
theorem Quiet.of_created {s t : State} {new : Record} {l : List Deadline} (hnone : s.findRecord new.point = none)
    (h : Quiet (created s new l) t) :
    Becomes s t new.point new ∧ t.index.length = s.index.length + 1 ∧ CountsFollow s t none (some new) ∧
      t.incarnation = s.incarnation + 1 ∧ t.freeCells = s.freeCells - new.cells ∧ t.deadlines = l := by
  have hnew : Becomes s (created s new l) new.point new := by
    obtain ⟨hfind, hothers, -⟩ := addRecord_spec hnone
    simpa only [Becomes, OthersKept, State.findRecord, created_index, addRecord_index] using And.intro hfind hothers
  have hcounts : CountsFollow s (created s new l) none (some new) := by
    intro x
    rw [created_station]
    exact ⟨rfl, rfl, rfl⟩
  have ⟨hindex, hincarnation, hfree, hdeadlines, _⟩ := h
  rw [created_index] at hindex
  rw [created_incarnation] at hincarnation
  rw [created_freeCells] at hfree
  rw [created_deadlines] at hdeadlines
  refine ⟨h.becomes hnew, ?_, h.countsFollow hcounts, hincarnation, hfree, hdeadlines⟩
  rw [hindex, length_indexInsert]

/-- The lease that CREATE grants, 0 without a claim (R71, R85). -/
def createLease (g : Granted) (st : Station) (q : Request) : Nat :=
  if st = 0 ∨ q.arg3 = 0 then 0 else min q.arg3.toNat g.leaseMax

/-- The list after CREATE: the LEASE entry of a remote station's claim (R71). -/
def createDeadlines (g : Granted) (st : Station) (q : Request) (r : Record) (l : List Deadline) : List Deadline :=
  if st = 0 ∨ q.arg3 = 0 then l
  else rearmed r .lease (g.now + BitVec.ofNat 32 (100 * createLease g st q)) l

theorem createEffect_eq (g : Granted) (st : Station) (q : Request) (s : State) (cls : PointClass) (n : Nat) :
    createEffect g st q s cls n =
      ({ code := .ok, fields := .created s.incarnation (BitVec.ofNat 16 (createLease g st q)) },
        created s (newRecord g st q s cls n) (createDeadlines g st q (newRecord g st q s cls n) s.deadlines)) := by
  have hgranted : (if q.arg3 = 0 then 0 else grantedLease g st q.arg3) = createLease g st q := by
    simp only [grantedLease, createLease]
    split_ifs <;> simp_all
  simp only [createEffect, hgranted, addRecord_created, okWith, wordOfNat, createDeadlines]
  congr 1
  by_cases h : st = 0 ∨ q.arg3 = 0
  · rw [if_pos h, if_neg (by tauto)]
  · rw [if_neg h, if_pos (by tauto), withDeadlines_of_rearm, created_withDeadlines, created_deadlines]
    rfl

/-- The record made by CREATE, written out (R18, R71). -/
theorem newRecord_eq {g : Granted} {st : Station} {q : Request} {s : State} {cls : PointClass}
    (hcls : classOf q.arg0 q.arg1 = some cls) (n : Nat) :
    newRecord g st q s cls n =
      { point := q.point, slot := n, incarnation := s.incarnation, revision := 0, subscribers := 0, pendingSet := 0
        phase := .active
          { cls, value := none, quality := .unset, generation := 0
            owner := if q.arg3 = 0 then none else some st
            lease := if st = 0 ∨ q.arg3 = 0 then none else some (createLease g st q)
            refresh := if q.arg2 = 0 then none else some q.arg2.toNat
            pinned := false, cells := if q.arg0.toNat = 4 then cellsFor q.arg1.toNat else 0 } } := by
  obtain ⟨-, hcells⟩ := classOf_block hcls
  simp only [newRecord, hcells, decide_eq_true_eq, leaseOf, grantedLease, createLease]
  by_cases hclaims : q.arg3 = 0
  · simp [hclaims]
  · by_cases hst : st = 0 <;> simp only [hclaims, hst, or_false, ne_eq, not_false_eq_true, if_true, if_false]

/-- Settles O19: the checks pass with the class and the lowest FREE slot, and the record is made there. -/
theorem createMakesTheRecord : Obligations.CreateMakesTheRecord := by
  intro s g st q n hprogress htable hn hfree hlowest cls cells granted r
  obtain ⟨x, hchecks⟩ := agrees_accepts (createChecks_agrees g st q s) htable
  obtain ⟨-, hnone, hcls, -, -, hslot, -⟩ := createChecks_ok hchecks
  rw [lowestFreeSlot_eq_some_iff.2 ⟨hn, hfree, hlowest⟩] at hslot
  have hrecord : newRecord g st q s x.1 x.2 = r := by
    rw [newRecord_eq hcls, ← Option.some.inj hslot, classOf_eq_some hcls]
    rfl
  have hop : opCreate g st q s = _ := (checked_ok _ s hchecks).trans (createEffect_eq g st q s x.1 x.2)
  rw [hrecord] at hop
  obtain ⟨t, hexec, hquiet, hanswers⟩ :=
    completes_of_op (c := .create) (fun _ => rfl) hprogress hop (created_requestersKept _ _ _)
  obtain ⟨hbecomes, hlength, hcounts, hincarnation, hcells, hdeadlines⟩ := hquiet.of_created (new := r) hnone
  exact ⟨t, hexec, hbecomes, hlength, hcounts, hincarnation, hcells, hdeadlines, hanswers⟩

/-! ## NEXT (R75, R76) -/

/-- In an ascending index the first record that satisfies `p` is the lowest-numbered one. -/
theorem find_of_lowest {s : State} (hindex : IndexOk s) {p : Record → Bool} {r : Record} (hr : r ∈ s.index)
    (hp : p r = true) (hlowest : ∀ x ∈ s.index, p x = true → r.point.toNat ≤ x.point.toNat) :
    s.index.find? p = some r := by
  cases hfind : s.index.find? p with
  | none => exact absurd hp (List.find?_eq_none.1 hfind r hr)
  | some x =>
    obtain ⟨hascending, -⟩ := hindex
    obtain ⟨hx, before, after, hlist, hbefore⟩ := List.find?_eq_some_iff_append.1 hfind
    rw [hlist] at hr hascending hlowest
    obtain hr | hr := List.mem_append.1 hr
    · simpa [hp] using hbefore r hr
    · obtain rfl | hr := List.mem_cons.1 hr
      · rfl
      · have hlt := (List.pairwise_cons.1 (List.pairwise_append.1 hascending).2.1).1 r hr
        have hle := hlowest x (by simp) hx
        omega

/-- The records at which NEXT stops, as the terms say it (R75). -/
def nextReads (g : Granted) (st : Station) (q : Request) (r : Record) : Bool :=
  !r.isRetiring && q.arg0.toNat < r.point.toNat && allowed Fence.readMask g.fences st r.point

theorem nextStops_eq (g : Granted) (st : Station) (q : Request) (r : Record) :
    nextStops g st q.arg0 r = if nextReads g st q r then r.active?.map fun a => (r.point, a.cls) else none := by
  have hreads : nextReads g st q r = true ↔
      r.isRetiring = false ∧ q.arg0.toNat < r.point.toNat ∧ mayRead g st r.point = true := by
    simp [nextReads, allowed_eq_permits, mayRead, and_assoc]
  simp only [hreads]
  cases hphase : r.phase with
  | retiring => simp [nextStops, hphase, Record.isRetiring]
  | active a => simp only [nextStops, hphase, Record.isRetiring, Record.active?, true_and, Option.map_some]

theorem findSome_nextStops (g : Granted) (st : Station) (q : Request) (l : List Record) :
    l.findSome? (nextStops g st q.arg0) =
      (l.find? (nextReads g st q)).bind fun r => r.active?.map fun a => (r.point, a.cls) := by
  induction l with
  | nil => rfl
  | cons r rest ih =>
    rw [List.findSome?_cons, nextStops_eq, List.find?_cons, ih]
    cases hreads : nextReads g st q r with
    | false => simp
    | true =>
      cases hphase : r.phase with
      | active a => simp [Record.active?, hphase]
      | retiring => simp [nextReads, Record.isRetiring, hphase] at hreads

/-- Settles O21: NEXT refuses 65535, and otherwise answers the first record of the ascending index that it may stop at. -/
theorem nextFindsTheLowestReadable : Obligations.NextFindsTheLowestReadable := by
  intro s g st q hprogress hindex stops
  have hmax : q.arg0 = 0xFFFF#16 ↔ q.arg0.toNat = 65535 := by rw [BitVec.toNat_eq]; rfl
  have hcompletes {res : Result} (hop : opNext g st q s = (res, s)) :=
    completes_of_same (c := .next) (code := 9) (fun _ => rfl) hprogress hop
  refine ⟨fun harg => hcompletes ?_, fun harg hnone => hcompletes ?_, fun harg r hr a hphase hstops hlowest => hcompletes ?_⟩
  · exact if_pos (hmax.2 harg)
  · have hfind : s.index.find? (nextReads g st q) = none :=
      List.find?_eq_none.2 fun r hr => Bool.eq_false_iff.1 (hnone r hr)
    simp only [opNext, if_neg (mt hmax.1 harg), findSome_nextStops, hfind]
    rfl
  · have hfind : s.index.find? (nextReads g st q) = some r := find_of_lowest hindex hr hstops hlowest
    simp only [opNext, if_neg (mt hmax.1 harg), findSome_nextStops, hfind, Option.bind_some, Record.active?, hphase]
    rfl

end Sys2Proof.Machine
end

