-- ==== Sys2Proof/Proofs/Requests.lean ====
section
/-! PIN, UNPIN, PURGE, CLAIM, SUBSCRIBE and UNSUBSCRIBE (R77 to R88, R105, R107), and what the completion of any request
leaves alone (R40, R51). -/

namespace Sys2Proof.Machine

open Sys2Proof.Spec

/-! ## PIN (R78, R79) -/

/-- The ACTIVE fields after a PIN: its value write, if it has one, and the mark (R78). -/
def pinnedFields (q : Request) (a : Active) : Active :=
  { (if pinHasValue q then written q a else a) with pinned := true }

theorem pinHasValue_eq (q : Request) : pinHasValue q = decide (q.arg1.toNat ≠ 65535) := by
  have hmax : q.arg1 = 0xFFFF#16 ↔ q.arg1.toNat = 65535 := by rw [BitVec.toNat_eq]; rfl
  simp only [pinHasValue, Config.noValueLength, ne_eq, hmax]

/-- A PIN of a pinned point without a value changes nothing; any other puts the record back (R78, R79). -/
theorem pinEffect_eq (st : Station) (q : Request) (s : State) (r : Record) (a : Active) :
    pinEffect st q s r a =
      ({ code := .ok, fields := .generation (pinnedFields q a).generation },
        if a.pinned = true ∧ pinHasValue q = false then s
        else replaced s r (revisedBy st r (pinnedFields q a))
          (if a.pinned then s.deadlines else dropped r .freshness s.deadlines)) := by
  cases hpinned : a.pinned with
  | true =>
    cases hvalue : pinHasValue q <;>
      simp [pinEffect, pinnedFields, hpinned, hvalue, written_eq, announce_eq_revisedBy, putRecord_eq_replaced, okWith]
  | false =>
    cases hvalue : pinHasValue q <;>
      simp [pinEffect, pinnedFields, hpinned, hvalue, written_eq, announce_eq_revisedBy, putRecord_eq_replaced, okWith,
        State.dropDeadline, dropped, replaced]

/-- Settles O22: the checks pass; a pinned point without a value is left alone, any other is put back pinned. -/
theorem pinTakesEffect : Obligations.PinTakesEffect := by
  intro s g st q r a hprogress htable hactive hasValue a' r'
  obtain ⟨hfind, hphase⟩ := activeAt_eq_some_iff.1 hactive
  obtain ⟨-, hpoint⟩ := findRecord_some hfind
  have hvalue : pinHasValue q = hasValue := pinHasValue_eq q
  have hfields : pinnedFields q a = a' := by rw [pinnedFields, hvalue]
  have hchecks := checks_of_table (pinChecks_agrees q s) (fun _ hy => (pinChecks_ok hy).1) htable hactive
  have hop : opPin g st q s = _ := (checked_ok _ s hchecks).trans (pinEffect_eq st q s r a)
  rw [hvalue, hfields] at hop
  by_cases hsame : a.pinned = true ∧ hasValue = false
  · rw [if_pos hsame] at hop
    obtain ⟨t, hexec, ⟨hindex, hincarnation, hfree, hdeadlines, hstations⟩, hanswers⟩ :=
      completes_of_same (c := .pin) (fun _ => rfl) hprogress hop
    have hcells : a'.cells = a.cells := by simp only [a', hsame.2, Bool.false_eq_true, if_false]
    refine ⟨t, hexec, ?_, hincarnation, ?_, ?_, hanswers⟩
    · rw [if_pos hsame]
      exact ⟨hindex, hstations⟩
    · rw [hfree, hcells, Nat.add_sub_cancel]
    · rw [hdeadlines, if_pos hsame.1]
  · rw [if_neg hsame] at hop
    obtain ⟨t, hexec, hquiet, hanswers⟩ :=
      completes_of_op (c := .pin) (fun _ => rfl) hprogress hop (replaced_requestersKept _ _ _ _)
    rw [← hpoint] at hfind ⊢
    obtain ⟨hbecomes, hcounts, hincarnation, hfree, hdeadlines⟩ :=
      hquiet.of_replaced (new := revisedBy st r a') hfind rfl
    refine ⟨t, hexec, ?_, hincarnation, ?_, hdeadlines, hanswers⟩
    · rw [if_neg hsame]
      exact ⟨hbecomes, hcounts⟩
    · rw [hfree, cells_of_active hphase]
      rfl

/-! ## UNPIN (R80) -/

theorem unpinEffect_eq (g : Granted) (st : Station) (s : State) (r : Record) (a : Active) :
    unpinEffect g st s r a = (plain .ok,
      if a.pinned then replaced s r (revisedBy st r { a with pinned := false }) (unpinned g.now r a s.deadlines)
      else s) := by
  simp only [unpinEffect, announce_eq_revisedBy, unpinFreshness_eq, putRecord_deadlines, putRecord_withDeadlines]
  rfl

/-- Settles O23: an unpinned point is left alone, a pinned one is put back without the mark. -/
theorem unpinTakesEffect : Obligations.UnpinTakesEffect := by
  intro s g st q r a hprogress htable hactive r'
  obtain ⟨hfind, hphase⟩ := activeAt_eq_some_iff.1 hactive
  obtain ⟨-, hpoint⟩ := findRecord_some hfind
  have hchecks := lookupActive_of_activeRows htable hactive
  have hop : opUnpin g st q s = _ := (checked_ok _ s hchecks).trans (unpinEffect_eq g st s r a)
  cases hpinned : a.pinned with
  | false =>
    rw [hpinned] at hop
    obtain ⟨t, hexec, hkept, hanswers⟩ := completes_of_same (c := .unpin) (fun _ => rfl) hprogress hop
    exact ⟨t, hexec, hanswers, fun _ => hkept, nofun⟩
  | true =>
    rw [hpinned] at hop
    obtain ⟨t, hexec, hquiet, hanswers⟩ :=
      completes_of_op (c := .unpin) (fun _ => rfl) hprogress hop (replaced_requestersKept _ _ _ _)
    rw [← hpoint] at hfind ⊢
    obtain ⟨hbecomes, hcounts, hincarnation, hfree, hdeadlines⟩ :=
      hquiet.of_replaced (new := revisedBy st r { a with pinned := false }) hfind rfl
    refine ⟨t, hexec, hanswers, nofun, fun _ => ⟨hbecomes, hcounts, hincarnation, ?_, ?_⟩⟩
    · rw [hfree, cells_of_active hphase]
      exact Nat.add_sub_cancel s.freeCells a.cells
    · rw [hdeadlines]
      unfold unpinned
      rfl

/-! ## PURGE (R81, R82) -/

theorem lookupAny_of_table {s : State} {q : Request} {r : Record} (htable : refusedBy (anyPhaseTable q s) = none)
    (hfind : s.findRecord q.point = some r) : lookupAny s q.point = .ok r := by
  obtain ⟨x, hx⟩ := agrees_accepts (lookupAny_agrees s q) htable
  obtain ⟨-, hfound⟩ := lookupAny_ok hx
  rw [hfind] at hfound
  cases hfound
  exact hx

/-- Settles O24: the record found is freed, whatever its phase. -/
theorem purgeFreesTheRecord : Obligations.PurgeFreesTheRecord := by
  intro s g st q r hprogress htable hfind
  obtain ⟨-, hpoint⟩ := findRecord_some hfind
  have hop : opPurge g st q s = (plain .ok, s.freeRecord r) := checked_ok _ s (lookupAny_of_table htable hfind)
  obtain ⟨t, hexec, hquiet, hanswers⟩ :=
    completes_of_op (c := .purge) (fun _ => rfl) hprogress hop (RequestersKept.freeRecord s r)
  obtain ⟨hindex, hcounts, hincarnation, hfree, hdeadlines⟩ := hquiet.of_freeRecord
  rw [← hpoint]
  exact ⟨t, hexec, hindex, hcounts, hincarnation, hfree, hdeadlines, hanswers⟩

/-! ## CLAIM (R85 to R88) -/

/-- The lease that CLAIM grants (R85, R92). -/
def claimGranted (g : Granted) (st : Station) (q : Request) : Nat := if st = 0 then 0 else min q.arg0.toNat g.leaseMax

/-- The ACTIVE fields after a CLAIM (R87, R88). -/
def claimedFields (g : Granted) (st : Station) (q : Request) (a : Active) : Active :=
  { a with owner := some st, lease := if st = 0 then none else some (claimGranted g st q) }

/-- The record after a CLAIM: renewed in silence, or taken and announced (R87, R88). -/
def claimedRecord (g : Granted) (st : Station) (q : Request) (r : Record) (a : Active) : Record :=
  if a.owner = some st then { r with phase := .active (claimedFields g st q a) }
  else revisedBy st r (claimedFields g st q a)

theorem claimEffect_eq (g : Granted) (st : Station) (q : Request) (s : State) (r : Record) (a : Active) :
    claimEffect g st q s r a =
      ({ code := .ok, fields := .lease (BitVec.ofNat 16 (claimGranted g st q)) },
        replaced s r (claimedRecord g st q r a)
          (if st = 0 then s.deadlines
           else rearmed r .lease (g.now + BitVec.ofNat 32 (100 * claimGranted g st q)) s.deadlines)) := by
  have hrecord : (if a.owner = some st then r.withActive (claimedFields g st q a)
      else (r.withActive (claimedFields g st q a)).revised.announce (some st)) = claimedRecord g st q r a := rfl
  have hgranted : grantedLease g st q.arg0 = claimGranted g st q := rfl
  have hfields : { a with owner := some st, lease := leaseOf st (claimGranted g st q) } = claimedFields g st q a := rfl
  simp only [claimEffect, hgranted, hfields, hrecord, okWith, wordOfNat, claimLease, leaseDue]
  congr 1
  split
  · rw [putRecord_eq_replaced]
  · rw [withDeadlines_of_rearm, putRecord_eq_replaced, replaced_withDeadlines, replaced_deadlines]

section
variable (g : Granted) (st : Station) (q : Request) (r : Record) (a : Active)

theorem claimedRecord_point : (claimedRecord g st q r a).point = r.point := by
  unfold claimedRecord
  split <;> rfl

theorem claimedRecord_cells {r : Record} {a : Active} (h : r.phase = .active a) :
    (claimedRecord g st q r a).cells = r.cells := by
  rw [cells_of_active h]
  unfold claimedRecord
  split <;> rfl

end

/-- Settles O25: the checks pass, and the claimed record is put back with its LEASE entry. -/
theorem claimTakesOrRenews : Obligations.ClaimTakesOrRenews := by
  intro s g st q r a hprogress htable hactive granted a' r'
  obtain ⟨hfind, hphase⟩ := activeAt_eq_some_iff.1 hactive
  obtain ⟨-, hpoint⟩ := findRecord_some hfind
  have hchecks := checks_of_table (claimChecks_agrees g st q s) (fun _ hy => (claimChecks_ok hy).1) htable hactive
  have hop : opClaim g st q s = _ := (checked_ok _ s hchecks).trans (claimEffect_eq g st q s r a)
  obtain ⟨t, hexec, hquiet, hanswers⟩ :=
    completes_of_op (c := .claim) (fun _ => rfl) hprogress hop (replaced_requestersKept _ _ _ _)
  rw [← hpoint] at hfind ⊢
  obtain ⟨hbecomes, hcounts, hincarnation, hfree, hdeadlines⟩ :=
    hquiet.of_replaced hfind (claimedRecord_point g st q r a)
  refine ⟨t, hexec, hbecomes, hcounts, hincarnation, ?_, hdeadlines, hanswers⟩
  rw [hfree, claimedRecord_cells g st q hphase, Nat.add_sub_cancel]

/-! ## SUBSCRIBE and UNSUBSCRIBE (R105, R107) -/

/-- The record with a new subscriber, pending (R105). -/
def subscribed (st : Station) (r : Record) : Record :=
  { r with subscribers := setAdd r.subscribers st, pendingSet := setAdd r.pendingSet st }

theorem subscribeEffect_eq (st : Station) (s : State) (r : Record) :
    subscribeEffect st s r = (plain .ok,
      if setHas r.subscribers st then s else replaced s r (subscribed st r) s.deadlines) := by
  simp only [subscribeEffect, putRecord_eq_replaced]
  rfl

/-- Settles O27: a subscriber is left alone, another station's record is put back with it in both sets. -/
theorem subscribeJoinsBothSets : Obligations.SubscribeJoinsBothSets := by
  intro s g st q r a hprogress htable hactive r'
  obtain ⟨hfind, hphase⟩ := activeAt_eq_some_iff.1 hactive
  obtain ⟨-, hpoint⟩ := findRecord_some hfind
  have hchecks : subscribeChecks g st q s = .ok r := by
    obtain ⟨x, hx⟩ := agrees_accepts (subscribeChecks_agrees g st q s) htable
    obtain ⟨⟨b, hb⟩, -⟩ := subscribeChecks_ok hx
    rw [hactive] at hb
    cases hb
    exact hx
  have hop : opSubscribe g st q s = _ := (checked_ok _ s hchecks).trans (subscribeEffect_eq st s r)
  cases hfollows : setHas r.subscribers st with
  | true =>
    rw [hfollows] at hop
    obtain ⟨t, hexec, hkept, hanswers⟩ := completes_of_same (c := .subscribe) (fun _ => rfl) hprogress hop
    exact ⟨t, hexec, hanswers, fun _ => hkept, nofun⟩
  | false =>
    rw [hfollows] at hop
    obtain ⟨t, hexec, hquiet, hanswers⟩ :=
      completes_of_op (c := .subscribe) (fun _ => rfl) hprogress hop (replaced_requestersKept _ _ _ _)
    rw [← hpoint] at hfind ⊢
    obtain ⟨hbecomes, hcounts, hincarnation, hfree, hdeadlines⟩ :=
      hquiet.of_replaced (new := subscribed st r) hfind rfl
    have hcells : (subscribed st r).cells = r.cells := rfl
    refine ⟨t, hexec, hanswers, nofun, fun _ => ⟨hbecomes, hcounts, hincarnation, ?_, hdeadlines⟩⟩
    rw [hfree, hcells, Nat.add_sub_cancel]

/-- A station that leaves both sets has its record freed when that ends its drain, and put back otherwise (R107). -/
theorem putOrFree_without (s : State) (r : Record) (st : Station) :
    s.putOrFree r (r.without st) =
      if r.isRetiring = true ∧ setDrop r.subscribers st = 0 then s.freeRecord r
      else replaced s r (r.without st) s.deadlines := by
  rw [← putRecord_eq_replaced]
  rfl

theorem putOrFree_requestersKept (s : State) (old new : Record) : RequestersKept s (s.putOrFree old new) := by
  obtain ⟨-, -, h⟩ | ⟨-, h⟩ := putOrFree_cases s old new <;> rw [h]
  · exact .freeRecord s old
  · exact .putRecord s old new

/-- Settles O28: the record found is put back without the station, or freed when its drain ends; the completion leaves
every in-flight notice alone. -/
theorem unsubscribeLeavesBothSets : Obligations.UnsubscribeLeavesBothSets := by
  intro s g st q r hprogress htable hfind r'
  obtain ⟨-, hpoint⟩ := findRecord_some hfind
  have hop : opUnsubscribe g st q s = (plain .ok, s.putOrFree r (r.without st)) :=
    checked_ok _ s (lookupAny_of_table htable hfind)
  have hexec : exec .unsubscribe s = .next (completeRequest g st q opUnsubscribe s) :=
    whileReleased_finishRequest hprogress opUnsubscribe
  have hquiet := completeRequest_quiet g st q opUnsubscribe s
  have hanswers := completeRequest_answers g st q opUnsubscribe s (by rw [hop]; exact putOrFree_requestersKept s r _)
  have hnotices := completeRequest_notices g st q opUnsubscribe s
  rw [hop] at hquiet hanswers hnotices
  have hincarnation : (completeRequest g st q opUnsubscribe s).incarnation = s.incarnation :=
    hquiet.2.1.trans (by rw [putOrFree_frame])
  refine ⟨_, hexec, hanswers, hincarnation, fun x => ?_, ?_⟩
  · rw [(hnotices x).2, putOrFree_station]
  · dsimp only at hquiet
    rw [putOrFree_without] at hquiet
    split at hquiet
    next hends =>
      obtain ⟨hindex, hcounts, -, hfree, hdeadlines⟩ := hquiet.of_freeRecord
      rw [cells_of_isRetiring hends.1, Nat.add_zero] at hfree
      rw [if_pos hends, ← hpoint]
      exact ⟨hindex, hcounts, hfree, hdeadlines⟩
    next hstays =>
      rw [← hpoint] at hfind ⊢
      obtain ⟨hbecomes, hcounts, -, hfree, hdeadlines⟩ := hquiet.of_replaced (new := r.without st) hfind rfl
      have hcells : (r.without st).cells = r.cells := rfl
      rw [hcells, Nat.add_sub_cancel] at hfree
      rw [if_neg hstays]
      exact ⟨hbecomes, hcounts, hfree, hdeadlines⟩

end Sys2Proof.Machine
end

