-- ==== Sys2Proof/Proofs/Directory.lean ====
section
/-! The ways in which an operation changes the directory: a record put back under its number, freed, or made, or the head
taken from the deadline list. Each operation is shown to be one of them; what every step keeps of the directory is then
proved once for each way. -/

namespace Sys2Proof.Machine

open Sys2Proof.Spec

/-! ## Sets of stations -/

theorem setHas_setAdd (set : StationSet) (st x : Station) :
    setHas (setAdd set st) x = (setHas set x || decide (x = st)) := by
  have htwo : (BitVec.twoPow 31 st.val).getLsbD x.val = decide (x = st) := by
    rw [BitVec.getLsbD_twoPow, Bool.eq_iff_iff]
    simp only [Bool.and_eq_true, decide_eq_true_eq, Fin.ext_iff]
    omega
  rw [setHas, setAdd, BitVec.getLsbD_or, htwo]
  rfl

theorem inSet_iff {p q : StationSet} : p &&& ~~~q = 0 ↔ ∀ x, setHas p x = true → setHas q x = true := by
  constructor
  · intro h x hp
    have hx := congrArg (setHas · x) h
    simp only [setHas, BitVec.getLsbD_and, BitVec.getLsbD_not] at hx hp ⊢
    simpa [hp, x.isLt] using hx
  · intro h
    refine BitVec.eq_of_getLsbD_eq fun i hi => ?_
    have hx := h ⟨i, hi⟩
    simp only [setHas] at hx
    cases hp : p.getLsbD i <;> simp_all

/-! ## The entries of a record (R58, R94, R95) -/

/-- The entries of a list that belong to a record and are of one kind. -/
def entriesIn (l : List Deadline) (r : Record) (k : DeadlineKind) : Nat := l.countP fun d => d.belongs r && d.kind == k

/-- The list `l` follows from `l0` when the entries the record `r` should have go from `before` to `after`: every other
entry stays. -/
structure ListFollows (r : Record) (before after : DeadlineKind → Bool) (l0 l : List Deadline) : Prop where
  others : (l.filter fun d => !d.belongs r) = l0.filter fun d => !d.belongs r
  own : (∀ k, entriesIn l0 r k = (before k).toNat) → ∀ k, entriesIn l r k = (after k).toNat

section
variable {r : Record} {k : DeadlineKind} {before mid after : DeadlineKind → Bool} {l0 l1 l : List Deadline}

theorem ListFollows.refl (h : ∀ k, before k = after k) : ListFollows r before after l0 l0 :=
  ⟨rfl, fun hown k => (hown k).trans (by rw [h])⟩

theorem ListFollows.trans (h1 : ListFollows r before mid l0 l1) (h2 : ListFollows r mid after l1 l) :
    ListFollows r before after l0 l :=
  ⟨h2.others.trans h1.others, fun hown => h2.own (h1.own hown)⟩

theorem entriesIn_dropped (j : DeadlineKind) : entriesIn (dropped r k l) r j = if j = k then 0 else entriesIn l r j := by
  unfold entriesIn dropped
  rw [List.countP_filter]
  split
  next h =>
    refine List.countP_eq_zero.2 fun d _ => ?_
    cases hb : d.belongs r <;> simp [h]
  next h =>
    refine List.countP_congr fun d _ => ?_
    cases hb : d.belongs r <;> simp
    rintro rfl
    exact h

theorem others_dropped : ((dropped r k l).filter fun d => !d.belongs r) = l.filter fun d => !d.belongs r := by
  unfold dropped
  rw [List.filter_filter]
  refine List.filter_congr fun d _ => ?_
  cases d.belongs r <;> simp

theorem ListFollows.dropped (hgone : after k = false) (hkept : ∀ j, j ≠ k → after j = before j) :
    ListFollows r before after l (dropped r k l) := by
  refine ⟨others_dropped, fun hown j => ?_⟩
  rw [entriesIn_dropped]
  split
  next h => rw [h, hgone]; rfl
  next h => rw [hown, hkept j h]

theorem ListFollows.rearmed (due : LongWord) (hthere : after k = true) (hkept : ∀ j, j ≠ k → after j = before j) :
    ListFollows r before after l (rearmed r k due l) := by
  unfold Spec.rearmed
  rw [← insertDeadline_eq_placed]
  refine ⟨?_, fun hown j => ?_⟩
  · rw [filter_insertDeadline _ _ _ (by simp [Deadline.belongs]), others_dropped]
  · rw [entriesIn, countP_insertDeadline]
    change entriesIn (Spec.dropped r k l) r j + _ = _
    rw [entriesIn_dropped]
    by_cases h : j = k
    · simp [h, hthere, Deadline.belongs]
    · have hkind : ¬ k = j := fun he => h he.symm
      simp [h, hkind, hown, hkept j h]

/-- The head of the list, an entry that the record should have, is taken. -/
theorem ListFollows.tail {d : Deadline} (hbelongs : d.belongs r = true) (hgone : after d.kind = false)
    (hkept : ∀ j, j ≠ d.kind → after j = before j) : ListFollows r before after (d :: l) l := by
  refine ⟨by simp [hbelongs], fun hown j => ?_⟩
  have hj := hown j
  unfold entriesIn at hj ⊢
  rw [List.countP_cons, hbelongs] at hj
  by_cases h : j = d.kind
  · subst h
    rw [hgone]
    cases hb : before d.kind <;> simp [hb] at hj ⊢; omega
  · have hkind : ¬ d.kind = j := fun he => h he.symm
    simpa [hkind, hkept j h] using hj

end

/-! ## The changes of the directory -/

/-- The record `new` may take the place of `old`, with the list `l` after it: what `who` asked for, when `ctx` holds of
the request. -/
structure Succeeds (ctx : Prop) (who : Option Station) (s : State) (old new : Record) (l : List Deadline) : Prop where
  point : new.point = old.point
  slot : new.slot = old.slot
  incarnation : new.incarnation = old.incarnation
  cells : new.cells ≤ s.freeCells + old.cells
  claims : ∀ x, ownsCount (some new) x ≤ ownsCount (some old) x ∨ (s.station x).claims < Config.claimLimit
  follows : ∀ x, followsCount (some new) x ≤ followsCount (some old) x ∨
    (s.station x).subscriptions < Config.subscriptionLimit
  holders : ∀ x, holds new x = true → holds old x = true ∨ who = some x
  record : ctx → RecordOk old → RecordOk new
  list : ListFollows old (hasDeadline old) (hasDeadline new) s.deadlines l

/-- The record `new` may be made, with the list `l` after it. -/
structure Enters (ctx : Prop) (who : Option Station) (s : State) (new : Record) (l : List Deadline) : Prop where
  valid : validPoint new.point = true
  fresh : ∀ r ∈ s.index, r.point ≠ new.point
  slot : new.slot < Config.recordSlots ∧ ∀ r ∈ s.index, r.slot ≠ new.slot
  cells : new.cells ≤ s.freeCells
  claims : ∀ x, ownsCount (some new) x = 0 ∨ (s.station x).claims < Config.claimLimit
  follows : ∀ x, followsCount (some new) x = 0
  holders : ∀ x, holds new x = true → who = some x
  record : ctx → RecordOk new
  list : ListFollows new (fun _ => false) (hasDeadline new) s.deadlines l

/-- What an operation does to the directory. -/
inductive RecordChange (ctx : Prop) (who : Option Station) (s : State) : State → Prop
  | same : RecordChange ctx who s s
  | put {old new : Record} {l : List Deadline} (hold : old ∈ s.index) (h : Succeeds ctx who s old new l) :
      RecordChange ctx who s (replaced s old new l)
  | free {old : Record} (hold : old ∈ s.index) : RecordChange ctx who s (s.freeRecord old)
  | make {new : Record} {l : List Deadline} (h : Enters ctx who s new l) : RecordChange ctx who s (created s new l)
  | take {d : Deadline} {l : List Deadline} (hhead : s.deadlines = d :: l)
      (hnone : IndexOk s → ∀ r ∈ s.index, d.belongs r = true → hasDeadline r d.kind = false) :
      RecordChange ctx who s { s with deadlines := l }

/-! ## Records that may take another's place -/

section
variable {ctx : Prop} {who : Option Station} {s : State} {r new : Record} {a a' : Active} {l : List Deadline}

theorem owner_of_active (h : r.phase = .active a) : r.owner = a.owner := by
  simp only [Record.owner, h]

theorem active_of_active (h : r.phase = .active a) : r.active? = some a := by
  simp only [Record.active?, h]

theorem isRetiring_of_active (h : r.phase = .active a) : r.isRetiring = false := by
  simp only [Record.isRetiring, h]

theorem hasDeadline_lease (h : r.phase = .active a) : hasDeadline r .lease = a.owner.any fun o => decide (o ≠ 0) := by
  simp only [hasDeadline, h]

theorem hasDeadline_freshness (h : r.phase = .active a) :
    hasDeadline r .freshness = decide (a.refresh.isSome ∧ a.quality = .good ∧ a.pinned = false) := by
  simp only [hasDeadline, h]

theorem ownsCount_some (x : Station) : ownsCount (some r) x = if r.owner = some x then 1 else 0 := rfl

theorem followsCount_some (x : Station) : followsCount (some r) x = if setHas r.subscribers x = true then 1 else 0 := by
  simp [followsCount]

theorem holds_iff (x : Station) :
    holds r x = true ↔ r.owner = some x ∨ setHas r.subscribers x = true ∨ setHas r.pendingSet x = true := by
  simp [holds]

/-- New ACTIVE fields, announced: the sets stay but for subscribers that become pending. -/
theorem Succeeds.of_fields (hphase : r.phase = .active a) (hnew : new.phase = .active a')
    (hpoint : new.point = r.point) (hslot : new.slot = r.slot) (hincarnation : new.incarnation = r.incarnation)
    (hsubscribers : new.subscribers = r.subscribers)
    (hpending : ∀ x, setHas new.pendingSet x = true → setHas r.pendingSet x = true ∨ setHas r.subscribers x = true)
    (hcells : a'.cells ≤ s.freeCells + a.cells)
    (howner : ∀ x, a'.owner = some x → a.owner = some x ∨
      (who = some x ∧ (s.station x).claims < Config.claimLimit))
    (hfields : ctx → ActiveOk a → ActiveOk a')
    (hlist : ListFollows r (hasDeadline r) (hasDeadline new) s.deadlines l) : Succeeds ctx who s r new l where
  point := hpoint
  slot := hslot
  incarnation := hincarnation
  cells := by rwa [cells_of_active hphase, cells_of_active hnew]
  claims x := by
    rw [ownsCount_some, ownsCount_some, owner_of_active hphase, owner_of_active hnew]
    by_cases hx : a'.owner = some x
    · obtain hkept | ⟨-, hroom⟩ := howner x hx
      · exact .inl (by simp [hx, hkept])
      · exact .inr hroom
    · exact .inl (by simp [hx])
  follows x := .inl (by rw [followsCount_some, followsCount_some, hsubscribers])
  holders x := by
    rw [holds_iff, holds_iff, owner_of_active hphase, owner_of_active hnew, hsubscribers]
    rintro (hx | hx | hx)
    · exact (howner x hx).imp .inl And.left
    · exact .inl (.inr (.inl hx))
    · exact .inl ((hpending x hx).elim (fun h => .inr (.inr h)) fun h => .inr (.inl h))
  record hctx hr := by
    obtain ⟨hsets, hactive, -⟩ := hr
    refine ⟨?_, ?_, ?_⟩
    · rw [inSet_iff, hsubscribers] at *
      exact fun x hx => (hpending x hx).elim (hsets x) id
    · rw [active_of_active hnew]
      rintro _ ⟨⟩
      exact hfields hctx (hactive a (active_of_active hphase))
    · rw [isRetiring_of_active hnew]
      exact nofun
  list := hlist

/-- New ACTIVE fields, the requester not told (R57). -/
theorem Succeeds.of_revised (st : Station) (hphase : r.phase = .active a) (hcells : a'.cells ≤ s.freeCells + a.cells)
    (howner : ∀ x, a'.owner = some x → a.owner = some x ∨ (who = some x ∧ (s.station x).claims < Config.claimLimit))
    (hfields : ctx → ActiveOk a → ActiveOk a')
    (hlist : ListFollows r (hasDeadline r) (hasDeadline (revisedBy st r a')) s.deadlines l) :
    Succeeds ctx who s r (revisedBy st r a') l := by
  refine .of_fields hphase rfl rfl rfl rfl rfl (fun x hx => ?_) hcells howner hfields hlist
  have hpending : setHas (announcedTo r st) x = true := hx
  rw [announcedTo, setHas_or, setHas_setDrop] at hpending
  simp only [Bool.or_eq_true, Bool.and_eq_true] at hpending
  exact hpending.imp_right And.left

/-- Changed sets, the phase as it was. -/
theorem Succeeds.of_sets (hphase : new.phase = r.phase) (hpoint : new.point = r.point) (hslot : new.slot = r.slot)
    (hincarnation : new.incarnation = r.incarnation)
    (hsubscribers : ∀ x, setHas new.subscribers x = true → setHas r.subscribers x = true ∨
      (who = some x ∧ (s.station x).subscriptions < Config.subscriptionLimit))
    (hpending : ∀ x, setHas new.pendingSet x = true → setHas r.pendingSet x = true ∨ who = some x)
    (hsets : (∀ x, setHas r.pendingSet x = true → setHas r.subscribers x = true) →
      ∀ x, setHas new.pendingSet x = true → setHas new.subscribers x = true)
    (hdrains : r.isRetiring = true → r.pendingSet = r.subscribers →
      new.subscribers ≠ 0 ∧ new.pendingSet = new.subscribers) :
    Succeeds ctx who s r new s.deadlines where
  point := hpoint
  slot := hslot
  incarnation := hincarnation
  cells := by simp only [Record.cells, hphase, Nat.le_add_left]
  claims x := by
    have howner : new.owner = r.owner := by simp only [Record.owner, hphase]
    exact .inl (by rw [ownsCount_some, ownsCount_some, howner])
  follows x := by
    rw [followsCount_some, followsCount_some]
    by_cases hx : setHas new.subscribers x = true
    · obtain hkept | ⟨-, hroom⟩ := hsubscribers x hx
      · exact .inl (by simp [hx, hkept])
      · exact .inr hroom
    · exact .inl (by simp [hx])
  holders x := by
    have howner : new.owner = r.owner := by simp only [Record.owner, hphase]
    rw [holds_iff, holds_iff, howner]
    rintro (hx | hx | hx)
    · exact .inl (.inl hx)
    · exact (hsubscribers x hx).imp (fun h => .inr (.inl h)) And.left
    · exact (hpending x hx).imp_left fun h => .inr (.inr h)
  record _ hr := by
    obtain ⟨hin, hactive, hretiring⟩ := hr
    have hfields : new.active? = r.active? := by simp only [Record.active?, hphase]
    have hsame : new.isRetiring = r.isRetiring := by simp only [Record.isRetiring, hphase]
    rw [inSet_iff] at hin
    refine ⟨inSet_iff.2 (hsets hin), by rwa [hfields], fun h => ?_⟩
    rw [hsame] at h
    exact hdrains h (hretiring h).2
  list := .refl fun k => by simp only [hasDeadline, hphase]

/-- A record that leaves the directory or is put back (R6), after other entries of its own left the list. -/
theorem RecordChange.putOrFree (hold : r ∈ s.index)
    (hothers : (l.filter fun d => !d.belongs r) = s.deadlines.filter fun d => !d.belongs r)
    (hput : ¬ (new.isRetiring = true ∧ new.subscribers = 0) → Succeeds ctx who s r new l) :
    RecordChange ctx who s ({ s with deadlines := l }.putOrFree r new) := by
  obtain ⟨-, -, h⟩ | ⟨hstays, h⟩ := putOrFree_cases { s with deadlines := l } r new <;> rw [h]
  · have hfree : { s with deadlines := l }.freeRecord r = s.freeRecord r := by
      simp only [State.freeRecord, State.recount, hothers]
    rw [hfree]
    exact .free hold
  · rw [putRecord_eq_replaced]
    exact .put hold (hput hstays)

end

end Sys2Proof.Machine
end

