-- ==== Sys2Proof/Proofs/Changes.lean ====
section
/-! What each request does to the directory, an accepted one and a refused one, as one of the changes of a record. -/

namespace Sys2Proof.Machine

open Sys2Proof.Spec

/-- What a request in progress brings of its own: the value it counts, and a LEASE_MAX in range (R54, R92). -/
def RequestSound (g : Granted) (q : Request) : Prop :=
  RequestOk q ∧ 1 ≤ g.leaseMax ∧ g.leaseMax ≤ Config.maxLeaseMax

theorem checked_change {α : Type} {ctx : Prop} {who : Option Station} {checks : Except Result α}
    {effects : α → Result × State} {s : State}
    (h : ∀ x, checks = .ok x → RecordChange ctx who s (effects x).2) :
    RecordChange ctx who s (checked checks effects s).2 := by
  cases hchecks : checks with
  | error res => exact .same
  | ok x => exact h x hchecks

/-! ## The ACTIVE fields stay in order -/

section
variable {q : Request} {a : Active} {n : Nat}

theorem activeOk_pinned (b : Bool) (h : ActiveOk a) : ActiveOk { a with pinned := b } := h

theorem nextGeneration_ne_zero (g : Word) : nextGeneration g ≠ 0 := by
  unfold nextGeneration
  split
  · decide
  · next h => bv_omega

theorem lengthSuits_le {cls : PointClass} (hblock : blockSizeOk cls = true) (h : lengthSuits cls n = true) :
    n ≤ Config.maxValueOctets := by
  cases cls with
  | word | long | quad => simp [lengthSuits, Config.maxValueOctets] at h ⊢; omega
  | block size =>
    simp only [lengthSuits, blockSizeOk, decide_eq_true_eq] at h hblock
    omega
  | text => simpa [lengthSuits] using h

theorem valueCheck_ok {free : Nat} (h : valueCheck free q a = .ok ()) :
    lengthSuits a.cls q.arg1.toNat = true ∧ cellsAfter a q.arg1.toNat ≤ free + a.cells := by
  unfold valueCheck refuse at h
  split_ifs at h with hlength hexpect hcells
  exact ⟨hlength, by omega⟩

theorem ownerOk_of_open (howner : a.owner = none) (hlease : a.lease = none) : ownerOk a := by
  simp [ownerOk, howner, hlease]

theorem ownerOk_of_owned {st : Station} (howner : a.owner = some st) (hlease : a.lease = leaseOf st n)
    (hn : st ≠ 0 → 1 ≤ n ∧ n ≤ Config.maxLeaseMax) : ownerOk a := by
  by_cases hst : st = 0
  · simp [ownerOk, howner, hlease, leaseOf, hst]
  · have hlease' : a.lease = some n := hlease.trans (if_neg hst)
    rw [ownerOk, howner, hlease']
    refine ⟨by simp [hst], ?_⟩
    rintro _ ⟨⟩
    exact hn hst

/-- A value write whose request carries the octets it counts leaves the fields in order (R8, R9, R10, R65). -/
theorem activeOk_written (hvalue : q.arg1.toNat ≤ Config.maxValueOctets → q.arg1.toNat ≤ q.data.length)
    (hsuits : lengthSuits a.cls q.arg1.toNat = true) (h : ActiveOk a) : ActiveOk (writeValue q a) := by
  obtain ⟨-, -, -, hblock, hcells, howner, hrefresh⟩ := h
  have hlength : (q.data.take q.arg1.toNat).length = q.arg1.toNat := by
    rw [List.length_take, min_eq_left (hvalue (lengthSuits_le hblock hsuits))]
  refine ⟨?_, ?_, ?_, hblock, ?_, howner, hrefresh⟩
  · exact ⟨fun h0 => absurd h0 (nextGeneration_ne_zero _), nofun⟩
  · exact ⟨nofun, nofun⟩
  · rintro _ ⟨⟩
    rwa [hlength]
  · have hlen : (writeValue q a).length = q.arg1.toNat := hlength
    unfold chainCells at hcells ⊢
    rw [hlen]
    change cellsAfter a q.arg1.toNat = _
    unfold cellsAfter
    change _ = match a.cls with | .block size => _ | .text => _ | .word | .long | .quad => _
    cases hcls : a.cls <;> simp [hcls] at hcells ⊢ <;> exact hcells

end

/-! ## Requests on ACTIVE fields -/

section
variable {g : Granted} {st : Station} {q : Request} {s : State}

/-- The lists of a value write: a GOOD record that is supervised and unpinned has a FRESHNESS entry, the LEASE entry
stays (R66). -/
theorem freshened_follows {r : Record} {a a' : Active} (now : LongWord) (l : List Deadline) {new : Record}
    (hphase : r.phase = .active a) (hnew : new.phase = .active a') (howner : a'.owner = a.owner)
    (hrefresh : a'.refresh = a.refresh) (hgood : a'.quality = .good) (hpinned : a'.pinned = a.pinned) :
    ListFollows r (hasDeadline r) (hasDeadline new) l (freshened now r a l) := by
  have hlease : hasDeadline new .lease = hasDeadline r .lease := by
    rw [hasDeadline_lease hphase, hasDeadline_lease hnew, howner]
  unfold freshened
  cases hsupervised : a.refresh with
  | none =>
    refine .refl fun k => ?_
    cases k
    · exact hlease.symm
    · simp [hasDeadline_freshness hphase, hasDeadline_freshness hnew, hrefresh, hsupervised]
  | some n =>
    dsimp only
    split
    next hpin =>
      refine .refl fun k => ?_
      cases k
      · exact hlease.symm
      · simp [hasDeadline_freshness hphase, hasDeadline_freshness hnew, hpinned, hpin]
    next hpin =>
      refine .rearmed _ ?_ fun j hj => ?_
      · simp [hasDeadline_freshness hnew, hrefresh, hsupervised, hgood, hpinned, hpin]
      · cases j
        · exact hlease
        · exact absurd rfl hj

/-- The lease entry of the writer who owns the record is re-armed (R66, R93). -/
theorem leased_follows {r new : Record} {a a' : Active} (now : LongWord) (l : List Deadline)
    (hnew : new.phase = .active a') (howner : a'.owner = a.owner) :
    ListFollows r (hasDeadline new) (hasDeadline new) l (leased now st r a l) := by
  unfold leased
  cases a.lease with
  | none => exact .refl fun _ => rfl
  | some n =>
    dsimp only
    split
    next h =>
      refine .rearmed _ ?_ fun _ _ => rfl
      simp [hasDeadline_lease hnew, howner, h.2, h.1]
    next => exact .refl fun _ => rfl

theorem opWrite_change (hcode : q.code = 2) : RecordChange (RequestSound g q) (some st) s (opWrite g st q s).2 := by
  refine checked_change fun x hx => ?_
  obtain ⟨hactive, hvalue⟩ := writeChecks_ok hx
  obtain ⟨hfind, hphase⟩ := activeAt_eq_some_iff.1 hactive
  obtain ⟨hsuits, hcells⟩ := valueCheck_ok hvalue
  dsimp only
  rw [writeEffect_eq]
  refine .put (findRecord_some hfind).1 (.of_revised st hphase ?_ (fun x hx => .inl hx) ?_ ?_)
  · rw [written_eq]
    exact hcells
  · rintro ⟨hrequest, -⟩ hok
    rw [written_eq]
    exact activeOk_written (hrequest (.inl hcode)) hsuits hok
  · exact (freshened_follows (a' := written q x.2) g.now s.deadlines hphase rfl rfl rfl rfl rfl).trans
      (leased_follows g.now _ rfl rfl)

theorem opPin_change (hcode : q.code = 10) : RecordChange (RequestSound g q) (some st) s (opPin g st q s).2 := by
  refine checked_change fun x hx => ?_
  obtain ⟨hactive, hvalue⟩ := pinChecks_ok hx
  obtain ⟨hfind, hphase⟩ := activeAt_eq_some_iff.1 hactive
  dsimp only
  rw [pinEffect_eq]
  dsimp only
  split
  next => exact .same
  next =>
    have hfields : (pinnedFields q x.2).owner = x.2.owner ∧ (pinnedFields q x.2).cells ≤ s.freeCells + x.2.cells := by
      unfold pinnedFields
      rw [written_eq]
      cases hwrites : pinHasValue q with
      | false => exact ⟨rfl, Nat.le_add_left _ _⟩
      | true => exact ⟨rfl, (valueCheck_ok (hvalue hwrites)).2⟩
    obtain ⟨howner, hcells⟩ := hfields
    refine .put (findRecord_some hfind).1 (.of_revised st hphase hcells (fun x hx => .inl ?_) ?_ ?_)
    · rwa [howner] at hx
    · rintro ⟨hrequest, -⟩ hok
      unfold pinnedFields
      rw [written_eq]
      cases hwrites : pinHasValue q with
      | false => exact activeOk_pinned true hok
      | true => exact activeOk_pinned true (activeOk_written (hrequest (.inr hcode)) (valueCheck_ok (hvalue hwrites)).1 hok)
    · have hlease : hasDeadline (revisedBy st x.1 (pinnedFields q x.2)) .lease = hasDeadline x.1 .lease := by
        rw [hasDeadline_lease hphase, hasDeadline_lease rfl, howner]
      have hfresh : hasDeadline (revisedBy st x.1 (pinnedFields q x.2)) .freshness = false := by
        rw [hasDeadline_freshness rfl]
        simp [pinnedFields]
      split
      next hpinned =>
        refine .refl fun k => ?_
        cases k
        · exact hlease.symm
        · rw [hfresh, hasDeadline_freshness hphase]
          simp [hpinned]
      next =>
        refine .dropped hfresh fun j hj => ?_
        cases j
        · exact hlease
        · exact absurd rfl hj

/-- An UNPIN gives a GOOD, supervised record its FRESHNESS entry (R80, R95). -/
theorem unpinned_follows {r new : Record} {a a' : Active} (now : LongWord) (l : List Deadline)
    (hphase : r.phase = .active a) (hnew : new.phase = .active a') (hpinned : a.pinned = true)
    (hfields : a' = { a with pinned := false }) :
    ListFollows r (hasDeadline r) (hasDeadline new) l (unpinned now r a l) := by
  subst hfields
  have hlease : hasDeadline new .lease = hasDeadline r .lease := by
    rw [hasDeadline_lease hphase, hasDeadline_lease hnew]
  have hfresh : hasDeadline new .freshness = decide (a.refresh.isSome ∧ a.quality = .good) := by
    rw [hasDeadline_freshness hnew]
    simp
  have hbefore : hasDeadline r .freshness = false := by
    rw [hasDeadline_freshness hphase]
    simp [hpinned]
  unfold unpinned
  cases hsupervised : a.refresh with
  | none =>
    refine .refl fun k => ?_
    cases k
    · exact hlease.symm
    · rw [hfresh, hbefore]
      simp [hsupervised]
  | some n =>
    dsimp only
    split
    next hgood =>
      refine .rearmed _ (by simp [hfresh, hsupervised, hgood]) fun j hj => ?_
      cases j
      · exact hlease
      · exact absurd rfl hj
    next hgood =>
      refine .refl fun k => ?_
      cases k
      · exact hlease.symm
      · rw [hfresh, hbefore]
        simp [hgood]

theorem opUnpin_change : RecordChange (RequestSound g q) (some st) s (opUnpin g st q s).2 := by
  refine checked_change fun x hx => ?_
  obtain ⟨hfind, hphase⟩ := activeAt_eq_some_iff.1 (lookupActive_activeAt hx)
  dsimp only
  rw [unpinEffect_eq]
  dsimp only
  split
  next hpinned =>
    refine .put (findRecord_some hfind).1 (.of_revised st hphase (Nat.le_add_left _ _) (fun x hx => .inl hx)
      (fun _ => activeOk_pinned false) ?_)
    exact unpinned_follows g.now s.deadlines hphase rfl hpinned rfl
  next => exact .same

theorem opClaim_change : RecordChange (RequestSound g q) (some st) s (opClaim g st q s).2 := by
  refine checked_change fun x hx => ?_
  obtain ⟨hactive, howner, hasked, hroom⟩ := claimChecks_ok hx
  obtain ⟨hfind, hphase⟩ := activeAt_eq_some_iff.1 hactive
  have hnew : (claimedRecord g st q x.1 x.2).phase = .active (claimedFields g st q x.2) := by
    unfold claimedRecord
    split <;> rfl
  have hpending : ∀ y, setHas (claimedRecord g st q x.1 x.2).pendingSet y = true →
      setHas x.1.pendingSet y = true ∨ setHas x.1.subscribers y = true := by
    intro y hy
    unfold claimedRecord at hy
    split at hy
    · exact .inl hy
    · change setHas (announcedTo x.1 st) y = true at hy
      rw [announcedTo, setHas_or, setHas_setDrop] at hy
      simp only [Bool.or_eq_true, Bool.and_eq_true] at hy
      exact hy.imp_right And.left
  have hfresh : hasDeadline (claimedRecord g st q x.1 x.2) .freshness = hasDeadline x.1 .freshness := by
    rw [hasDeadline_freshness hnew, hasDeadline_freshness hphase]
    rfl
  have hlease : hasDeadline (claimedRecord g st q x.1 x.2) .lease = decide (st ≠ 0) := by
    rw [hasDeadline_lease hnew]
    rfl
  dsimp only
  rw [claimEffect_eq]
  refine .put (findRecord_some hfind).1 (.of_fields hphase hnew (claimedRecord_point ..) ?_ ?_ ?_ hpending
    (Nat.le_add_left _ _) ?_ ?_ ?_)
  · unfold claimedRecord; split <;> rfl
  · unfold claimedRecord; split <;> rfl
  · unfold claimedRecord; split <;> rfl
  · rintro y ⟨⟩
    exact hroom.imp_right fun h => ⟨rfl, h⟩
  · rintro ⟨-, hleast, hmost⟩ ⟨hgeneration, hvalue, hlength, hblock, hcells, -, hrefresh⟩
    refine ⟨hgeneration, hvalue, hlength, hblock, hcells, ?_, hrefresh⟩
    refine ownerOk_of_owned rfl rfl fun hst => ?_
    have harg : 1 ≤ q.arg0.toNat := by
      have := hasked hst
      bv_omega
    rw [claimGranted, if_neg hst]
    exact ⟨le_min harg hleast, (min_le_right _ _).trans hmost⟩
  · split
    next hst =>
      refine .refl fun k => ?_
      cases k
      · rw [hlease, hasDeadline_lease hphase]
        obtain h | h := howner <;> simp [h, hst]
      · exact hfresh.symm
    next hst =>
      refine .rearmed _ (by simp [hlease, hst]) fun j hj => ?_
      cases j
      · exact absurd rfl hj
      · exact hfresh

end

/-! ## A record made (R18, R69, R71) -/

section
variable {g : Granted} {st : Station} {q : Request} {s : State} {cls : PointClass} {n : Nat}

theorem newRecord_phase : (newRecord g st q s cls n).phase = .active
    { cls, value := none, quality := .unset, generation := 0
      owner := if q.arg3 = 0 then none else some st
      lease := if q.arg3 = 0 then none else leaseOf st (grantedLease g st q.arg3)
      refresh := if q.arg2 = 0 then none else some q.arg2.toNat
      pinned := false, cells := cellsAtCreate cls } := by
  by_cases h : q.arg3 = 0 <;> simp [newRecord, h]

theorem activeOk_new (hsound : RequestSound g q) (hblock : blockSizeOk cls = true)
    (hrefresh : q.arg2.toNat ≤ Config.maxRefresh) :
    ∀ a ∈ (newRecord g st q s cls n).active?, ActiveOk a := by
  obtain ⟨-, hleast, hmost⟩ := hsound
  rw [active_of_active newRecord_phase]
  rintro _ ⟨⟩
  refine ⟨by simp, by simp, nofun, hblock, ?_, ?_, ?_⟩
  · cases cls <;> rfl
  · by_cases hclaims : q.arg3 = 0
    · exact ownerOk_of_open (if_pos hclaims) (if_pos hclaims)
    · refine ownerOk_of_owned (if_neg hclaims) (if_neg hclaims) fun hst => ?_
      have hasked : 1 ≤ q.arg3.toNat := by bv_omega
      rw [grantedLease, if_neg hst]
      exact ⟨le_min hasked hleast, (min_le_right _ _).trans hmost⟩
  · intro m hm
    dsimp only at hm
    split at hm
    · cases hm
    · cases hm
      exact ⟨by bv_omega, hrefresh⟩

theorem opCreate_change : RecordChange (RequestSound g q) (some st) s (opCreate g st q s).2 := by
  refine checked_change fun x hx => ?_
  obtain ⟨hvalid, hnone, -, hblock, hrefresh, hslot, hclaims, hcells⟩ := createChecks_ok hx
  obtain ⟨hbelow, hunused⟩ := lowestFreeSlot_some hslot
  have howner : (newRecord g st q s x.1 x.2).owner = if q.arg3 = 0 then none else some st := by
    rw [owner_of_active newRecord_phase]
  have hnobody : ∀ y, setHas (newRecord g st q s x.1 x.2).subscribers y = false := setHas_zero
  have hnonePending : ∀ y, setHas (newRecord g st q s x.1 x.2).pendingSet y = false := setHas_zero
  dsimp only
  rw [createEffect_eq]
  refine .make
    { valid := hvalid
      fresh := findRecord_none.1 hnone
      slot := ⟨hbelow, fun r hr hsame => ?_⟩
      cells := hcells
      claims := fun y => ?_
      follows := fun y => by rw [followsCount_some, hnobody y, if_neg Bool.false_ne_true]
      holders := fun y hy => ?_
      record := fun hsound => ⟨by simp [newRecord], activeOk_new hsound hblock hrefresh, nofun⟩
      list := ?_ }
  · simp only [slotUsed, List.any_eq_false, decide_eq_true_eq] at hunused
    exact hunused r hr hsame
  · rw [ownsCount_some, howner]
    by_cases h : q.arg3 = 0
    · exact .inl (by simp [h])
    · by_cases hy : st = y
      · subst hy
        exact .inr (hclaims.resolve_left h)
      · exact .inl (by simp [hy])
  · rw [holds_iff, howner] at hy
    obtain h | h | h := hy
    · split at h
      · cases h
      · exact h
    · rw [hnobody y] at h
      cases h
    · rw [hnonePending y] at h
      cases h
  · have hfresh : hasDeadline (newRecord g st q s x.1 x.2) .freshness = false := by
      rw [hasDeadline_freshness newRecord_phase]
      simp
    have hlease (h : ¬ (st = 0 ∨ q.arg3 = 0)) : hasDeadline (newRecord g st q s x.1 x.2) .lease = true := by
      obtain ⟨hst, hasked⟩ := not_or.1 h
      rw [hasDeadline_lease newRecord_phase, if_neg hasked, Option.any_some]
      exact decide_eq_true hst
    have hnolease (h : st = 0 ∨ q.arg3 = 0) : hasDeadline (newRecord g st q s x.1 x.2) .lease = false := by
      rw [hasDeadline_lease newRecord_phase]
      dsimp only
      split
      · rfl
      · next hasked => simp [h.resolve_right hasked]
    unfold createDeadlines
    split
    next h =>
      refine .refl fun k => ?_
      cases k
      · exact (hnolease h).symm
      · exact hfresh.symm
    next h =>
      refine .rearmed _ (hlease h) fun j hj => ?_
      cases j
      · exact absurd rfl hj
      · exact hfresh

end

/-! ## Requests that take a record out, or a station out of it -/

section
variable {ctx : Prop} {g : Granted} {st : Station} {q : Request} {s : State}

theorem without_succeeds {who : Option Station} (r : Record)
    (hstays : ¬ (r.isRetiring = true ∧ setDrop r.subscribers st = 0)) :
    Succeeds ctx who s r (r.without st) s.deadlines := by
  refine .of_sets rfl rfl rfl rfl (fun x hx => .inl ?_) (fun x hx => .inl ?_) (fun h x hx => ?_) fun hretiring hsame => ?_
  · simp only [Record.without, setHas_setDrop, Bool.and_eq_true] at hx
    exact hx.1
  · simp only [Record.without, setHas_setDrop, Bool.and_eq_true] at hx
    exact hx.1
  · simp only [Record.without, setHas_setDrop, Bool.and_eq_true] at hx ⊢
    exact ⟨h x hx.1, hx.2⟩
  · exact ⟨fun h => hstays ⟨hretiring, h⟩, by simp only [Record.without, hsame]⟩

theorem opUnsubscribe_change : RecordChange ctx (some st) s (opUnsubscribe g st q s).2 :=
  checked_change fun r hr => .putOrFree (findRecord_some (lookupAny_ok hr).2).1 rfl (without_succeeds r)

theorem opPurge_change : RecordChange ctx (some st) s (opPurge g st q s).2 :=
  checked_change fun _ hr => .free (findRecord_some (lookupAny_ok hr).2).1

theorem opSubscribe_change : RecordChange ctx (some st) s (opSubscribe g st q s).2 := by
  refine checked_change fun r hr => ?_
  obtain ⟨⟨a, hactive⟩, hroom⟩ := subscribeChecks_ok hr
  obtain ⟨hfind, hphase⟩ := activeAt_eq_some_iff.1 hactive
  rw [subscribeEffect_eq]
  dsimp only
  split
  next => exact .same
  next hnew =>
    refine .put (findRecord_some hfind).1
      (.of_sets rfl rfl rfl rfl (fun x hx => ?_) (fun x hx => ?_) (fun h x hx => ?_) fun hretiring => ?_)
    · simp only [subscribed, setHas_setAdd, Bool.or_eq_true, decide_eq_true_eq] at hx
      refine hx.imp_right fun he => ?_
      rw [he]
      exact ⟨rfl, hroom.resolve_left hnew⟩
    · simp only [subscribed, setHas_setAdd, Bool.or_eq_true, decide_eq_true_eq] at hx
      exact hx.imp_right fun he => by rw [he]
    · simp only [subscribed, setHas_setAdd, Bool.or_eq_true] at hx ⊢
      exact hx.imp_left (h x)
    · rw [isRetiring_of_active hphase] at hretiring
      cases hretiring

section
variable {who : Option Station} {r : Record} {a : Active} {l : List Deadline} (except : Option Station)

theorem disowned_lease : hasDeadline (disowned r a except) .lease = false := rfl

theorem disowned_otherDeadline (hphase : r.phase = .active a) (k : DeadlineKind) (hk : k ≠ .lease) :
    hasDeadline (disowned r a except) k = hasDeadline r k := by
  cases k
  · exact absurd rfl hk
  · rw [hasDeadline_freshness hphase]
    rfl

/-- A record disowned is one whose ACTIVE fields lose owner and lease interval (R91, R99, R137). -/
theorem disowned_succeeds (hphase : r.phase = .active a)
    (hlist : ListFollows r (hasDeadline r) (hasDeadline (disowned r a except)) s.deadlines l) :
    Succeeds ctx who s r (disowned r a except) l := by
  refine .of_fields hphase (a' := { a with owner := none, lease := none }) rfl rfl rfl rfl rfl (fun x hx => ?_)
    (Nat.le_add_left _ _) nofun ?_ hlist
  · cases except with
    | none =>
      change setHas (r.pendingSet ||| r.subscribers) x = true at hx
      simpa [setHas_or] using hx
    | some st =>
      change setHas (announcedTo r st) x = true at hx
      rw [announcedTo, setHas_or, setHas_setDrop] at hx
      simp only [Bool.or_eq_true, Bool.and_eq_true] at hx
      exact hx.imp_right And.left
  · rintro - ⟨hgeneration, hvalue, hlength, hblock, hcells, -, hrefresh⟩
    exact ⟨hgeneration, hvalue, hlength, hblock, hcells, ownerOk_of_open rfl rfl, hrefresh⟩

end

theorem opRelease_change : RecordChange ctx (some st) s (opRelease g st q s).2 := by
  refine checked_change fun x hx => ?_
  obtain ⟨hfind, hphase⟩ := activeAt_eq_some_iff.1 (releaseChecks_activeAt hx)
  dsimp only
  by_cases howner : x.2.owner = none
  · rw [releaseEffect_of_open _ _ _ howner]
    exact .same
  · rw [releaseEffect_of_owned _ _ _ howner]
    have hput : (s.putRecord x.1 (disowned x.1 x.2 (some st))).dropDeadline x.1 .lease =
        replaced s x.1 (disowned x.1 x.2 (some st)) (dropped x.1 .lease s.deadlines) := by
      rw [putRecord_eq_replaced, State.dropDeadline, replaced_withDeadlines, replaced_deadlines]
      rfl
    rw [hput]
    exact .put (findRecord_some hfind).1
      (disowned_succeeds _ hphase (.dropped (disowned_lease _) (disowned_otherDeadline _ hphase)))

/-- A RETIRE leaves the two sets equal, and no deadline entry (R73, R118). -/
theorem retired_succeeds {who : Option Station} {r : Record} (hstays : setDrop r.subscribers st ≠ 0) :
    Succeeds ctx who s r (retiredRecord r st) (dropped r .freshness (dropped r .lease s.deadlines)) where
  point := rfl
  slot := rfl
  incarnation := rfl
  cells := Nat.zero_le _
  claims _ := .inl (Nat.zero_le _)
  follows x := by
    left
    rw [followsCount_some, followsCount_some]
    have hsubscribers : (retiredRecord r st).subscribers = setDrop r.subscribers st := rfl
    rw [hsubscribers, setHas_setDrop]
    cases setHas r.subscribers x <;> simp
    split <;> simp
  holders x hx := by
    left
    rw [holds_iff] at hx ⊢
    obtain h | h | h := hx
    · cases h
    · have : setHas (setDrop r.subscribers st) x = true := h
      rw [setHas_setDrop, Bool.and_eq_true] at this
      exact .inr (.inl this.1)
    · have : setHas (setDrop r.pendingSet st ||| setDrop r.subscribers st) x = true := h
      rw [setHas_or, setHas_setDrop, setHas_setDrop, Bool.or_eq_true, Bool.and_eq_true, Bool.and_eq_true] at this
      exact .inr (this.symm.imp And.left And.left)
  record _ hr := by
    obtain ⟨hin, -, -⟩ := hr
    have hsame : (retiredRecord r st).pendingSet = (retiredRecord r st).subscribers := by
      change setDrop r.pendingSet st ||| setDrop r.subscribers st = setDrop r.subscribers st
      refine BitVec.eq_of_getLsbD_eq fun i hi => ?_
      change setHas (setDrop r.pendingSet st ||| setDrop r.subscribers st) ⟨i, hi⟩ = setHas (setDrop r.subscribers st) ⟨i, hi⟩
      have hx := inSet_iff.1 hin ⟨i, hi⟩
      simp only [setHas_or, setHas_setDrop]
      cases hp : setHas r.pendingSet ⟨i, hi⟩
      · simp
      · simp [hx hp]
    refine ⟨?_, nofun, fun _ => ⟨hstays, hsame⟩⟩
    rw [hsame, inSet_iff]
    exact fun x hx => hx
  list := by
    refine (ListFollows.dropped (after := fun k => decide (k ≠ .lease) && hasDeadline r k) (by simp) fun j hj => ?_).trans
      (.dropped rfl fun j hj => ?_)
    · simp [hj]
    · cases j
      · rfl
      · exact absurd rfl hj

theorem opRetire_change : RecordChange ctx (some st) s (opRetire g st q s).2 := by
  refine checked_change fun x hx => ?_
  obtain ⟨hfind, -⟩ := activeAt_eq_some_iff.1 (retireChecks_activeAt hx)
  have hlist : (s.dropDeadline x.1 .lease).dropDeadline x.1 .freshness =
      { s with deadlines := dropped x.1 .freshness (dropped x.1 .lease s.deadlines) } := rfl
  simp only [retireEffect, hlist]
  exact .putOrFree (findRecord_some hfind).1 (by rw [others_dropped, others_dropped]) fun hstays =>
    retired_succeeds fun hnone => hstays ⟨rfl, hnone⟩

theorem opRead_change : RecordChange ctx (some st) s (opRead g st q s).2 := checked_change fun _ _ => .same

theorem opNext_change : RecordChange ctx (some st) s (opNext g st q s).2 := by
  unfold opNext
  split
  · exact .same
  · split <;> exact .same

end

end Sys2Proof.Machine
end

