-- ==== Sys2Proof/Proofs/Completions.lean ====
section
/-! What every command does to the directory: a run of changes of records, between which nothing of it moves. The
completion of a request touches nothing else (R40, R51). -/

namespace Sys2Proof.Machine

open Sys2Proof.Spec

/-! ## Runs of changes -/

/-- Changes of the directory, one after the other. -/
def DirectoryRun (ctx : Prop) (who : Option Station) : State → State → Prop :=
  Relation.ReflTransGen fun s t => RecordChange ctx who s t ∨ Quiet s t

section
variable {ctx ctx' : Prop} {who : Option Station} {s t u : State}

theorem RecordChange.mono (hctx : ctx' → ctx) (h : RecordChange ctx who s t) : RecordChange ctx' who s t := by
  cases h with
  | same => exact .same
  | put hold h => exact .put hold { h with record := fun hc => h.record (hctx hc) }
  | free hold => exact .free hold
  | make h => exact .make { h with record := fun hc => h.record (hctx hc) }
  | take hhead hnone => exact .take hhead hnone

theorem DirectoryRun.of_quiet (h : Quiet s t) : DirectoryRun ctx who s t := .single (.inr h)

theorem DirectoryRun.of_change (h : RecordChange ctx who s t) : DirectoryRun ctx who s t := .single (.inl h)

/-- A property that a change of a record keeps, and that looks at nothing but the directory, is kept by a run. -/
theorem DirectoryRun.keeps {P : State → Prop} (hchange : ∀ s t, RecordChange ctx who s t → P s → P t)
    (hquiet : ∀ s t, Quiet s t → P s → P t) (h : DirectoryRun ctx who s t) (hs : P s) : P t := by
  induction h with
  | refl => exact hs
  | tail _ hstep ih => exact hstep.elim (fun h => hchange _ _ h ih) fun h => hquiet _ _ h ih

end

/-! ## Requests -/

/-- The request in progress brings what a record may be made from. -/
def RunSound (s : State) : Prop := ∀ g ∈ s.running, ∀ q ∈ runningRequest s, RequestSound g q

/-- The station that the request in progress acts for. -/
def requestStation : Work → Option Station
  | .request st _ => some st
  | .noticeFetch _ | .noticeAck _ _ | .expire | .clearChunk _ _ => none

/-- The station that may gain a holding by the completion of the operation in progress. -/
def gainer (s : State) : Option Station := s.running.bind fun g => requestStation g.work

/-- The operation of a request command. -/
def opOf : Instr → Granted → Station → Request → State → Result × State
  | .read => opRead
  | .write => opWrite
  | .create => opCreate
  | .retire => opRetire
  | .claim => opClaim
  | .release => opRelease
  | .subscribe => opSubscribe
  | .unsubscribe => opUnsubscribe
  | .pin => opPin
  | .unpin => opUnpin
  | .purge => opPurge
  | _ => opNext

theorem effectOf_request {c : Instr} {code : Byte} (h : codeOf c = some code) (s : State) :
    effectOf c s = finishRequest code (opOf c) s := by
  cases c <;> cases h <;> rfl

/-- Each of the twelve operations is a change of the directory for its requester. -/
theorem opOf_change {c : Instr} {g : Granted} {q : Request} (h : codeOf c = some q.code) (st : Station) (s : State) :
    RecordChange (RequestSound g q) (some st) s (opOf c g st q s).2 := by
  cases c <;> simp only [codeOf, reduceCtorEq] at h
  case read => exact opRead_change
  case write => exact opWrite_change (Option.some.inj h).symm
  case create => exact opCreate_change
  case retire => exact opRetire_change
  case claim => exact opClaim_change
  case release => exact opRelease_change (g := g)
  case subscribe => exact opSubscribe_change
  case unsubscribe => exact opUnsubscribe_change (g := g)
  case next => exact opNext_change
  case pin => exact opPin_change (Option.some.inj h).symm
  case unpin => exact opUnpin_change
  case purge => exact opPurge_change (g := g)

theorem request_run {c : Instr} {code : Byte} (hc : codeOf c = some code) (s : State) :
    DirectoryRun (RunSound s) (gainer s) s (finishRequest code (opOf c) s) := by
  unfold finishRequest
  cases hrunning : s.running with
  | none => exact .refl
  | some g =>
    dsimp only
    cases hwork : g.work with
    | request st q =>
      dsimp only
      split
      next hcode =>
        have hgainer : gainer s = some st := by simp only [gainer, hrunning, Option.bind_some, hwork, requestStation]
        have hsound : RunSound s → RequestSound g q := fun h =>
          h g hrunning q (by simp only [runningRequest, hrunning, Option.bind_some, hwork, Option.mem_some_iff])
        rw [hgainer]
        exact .trans (DirectoryRun.of_change ((opOf_change (hc.trans (congrArg some hcode.symm)) st s).mono hsound))
          (DirectoryRun.of_quiet (completeRequest_quiet g st q (opOf c) s))
      next => exact .refl
    | noticeFetch | noticeAck | expire | clearChunk => exact .refl

/-! ## Nothing else (O16) -/

/-- The directory and the counts alone differ. -/
structure DirectoryAlone (s t : State) : Prop where
  frame : t = { s with
    index := t.index, incarnation := t.incarnation, freeCells := t.freeCells, deadlines := t.deadlines
    stations := t.stations }
  entries : ∀ x : Station, t.station x = { s.station x with
    claims := (t.station x).claims, subscriptions := (t.station x).subscriptions
    pendingCount := (t.station x).pendingCount }

theorem RecordChange.alone {ctx : Prop} {who : Option Station} {s t : State} (h : RecordChange ctx who s t) :
    DirectoryAlone s t := by
  cases h with
  | same => exact ⟨rfl, fun _ => rfl⟩
  | put hold h =>
    refine ⟨by simp only [replaced], fun x => ?_⟩
    rw [replaced_station]
    rfl
  | free hold =>
    refine ⟨by simp only [State.freeRecord, State.recount], fun x => ?_⟩
    rw [freeRecord_station]
    rfl
  | make h =>
    refine ⟨by simp only [created], fun x => ?_⟩
    rw [created_station]
    rfl
  | take hhead hnone => exact ⟨rfl, fun _ => rfl⟩

theorem RecordChange.requestersKept {ctx : Prop} {who : Option Station} {s t : State} (h : RecordChange ctx who s t) :
    RequestersKept s t := by
  cases h with
  | same => exact .refl s
  | put hold h => exact replaced_requestersKept ..
  | free hold => exact .freeRecord s _
  | make h => exact created_requestersKept ..
  | take hhead hnone => exact ⟨rfl, rfl, rfl, fun _ => ⟨rfl, rfl, rfl⟩⟩

/-- The attention cause of an outcome handed to a slot (R184). -/
def answerCause : Origin → Word
  | .slot k => BitVec.twoPow 16 k.val
  | .link _ | .window | .deadline | .clear => 0

section
variable (o : Origin) (st : Station) (q : Request) (res : Result) (s : State)

theorem deliver_frame : ∃ stations linkA linkB slots,
    deliver o st q res s =
      { s with stations, linkA, linkB, slots, causes := s.causes ||| answerCause o } := by
  refine ⟨(deliver o st q res s).stations, (deliver o st q res s).linkA, (deliver o st q res s).linkB,
    (deliver o st q res s).slots, ?_⟩
  have hnone : s.causes ||| 0 = s.causes := BitVec.or_zero
  cases o with
  | slot k => rfl
  | link l => cases l <;> simp only [answerCause, hnone] <;> rfl
  | window | deadline | clear => simp only [answerCause, hnone]; rfl

theorem deliver_entry (x : Station) :
    (deliver o st q res s).station x = { s.station x with
      last := ((deliver o st q res s).station x).last
      executed := ((deliver o st q res s).station x).executed
      refusals := ((deliver o st q res s).station x).refusals } := by
  cases o with
  | link l =>
    by_cases hx : x = st
    · subst hx
      simp [deliver, completeLinkRequest, countRequest, State.modVisit]
    · simp [deliver, completeLinkRequest, State.modVisit, hx]
  | slot k => rfl
  | window | deadline | clear => rfl

end

section
variable {s u : State} (h : DirectoryAlone s u) (n : Nat) (o : Origin) (st : Station) (q : Request) (res : Result)
include h

/-- The steps of a completion after the operation's effects: the pool's test, the hand-over, the look at the head. -/
theorem DirectoryAlone.completed :
    ∃ t, monitorLook (deliver o st q res (poolLowTest n { u with running := none })) = t ∧
      t = { s with
        index := t.index, incarnation := t.incarnation, freeCells := t.freeCells, running := none
        deadlines := t.deadlines, expirePresented := s.expirePresented || headIsDue t
        stations := t.stations, linkA := t.linkA, linkB := t.linkB, slots := t.slots
        causes := s.causes ||| answerCause o |||
          (if s.poolThreshold ≠ 0 ∧ s.poolThreshold ≤ n ∧ t.freeCells < s.poolThreshold then 0x0100 else 0) } := by
  have ⟨index, incarnation, freeCells, deadlines, stations, hu⟩ :
      ∃ i n f d v, u = { s with index := i, incarnation := n, freeCells := f, deadlines := d, stations := v } :=
    ⟨_, _, _, _, _, h.frame⟩
  subst hu
  obtain ⟨stations', linkA, linkB, slots, hdeliver⟩ := deliver_frame o st q res
    (poolLowTest n { s with index, incarnation, freeCells, deadlines, stations, running := none })
  have hcauses (p : Prop) [Decidable p] :
      (if p then s.causes ||| BitVec.twoPow 16 8 else s.causes) ||| answerCause o =
        s.causes ||| answerCause o ||| (if p then 0x0100 else 0) := by
    split
    · rw [BitVec.or_assoc, BitVec.or_comm (BitVec.twoPow 16 8), ← BitVec.or_assoc]
      rfl
    · exact BitVec.or_zero.symm
  refine ⟨_, rfl, ?_⟩
  rw [hdeliver, poolLowTest_eq]
  dsimp only
  rw [hcauses, monitorLook_eq_looked rfl]
  rfl

theorem DirectoryAlone.completed_entries (x : Station) :
    let t := monitorLook (deliver o st q res (poolLowTest n { u with running := none }))
    t.station x = { s.station x with
      claims := (t.station x).claims, subscriptions := (t.station x).subscriptions
      pendingCount := (t.station x).pendingCount, last := (t.station x).last
      executed := (t.station x).executed, refusals := (t.station x).refusals } := by
  have hstation (t : State) : (monitorLook t).station x = t.station x := by rw [monitorLook_eq]; rfl
  have hpool : (poolLowTest n { u with running := none }).station x = u.station x := by rw [poolLowTest_eq]; rfl
  dsimp only
  rw [hstation, deliver_entry, hpool, h.entries]

end

/-- Settles O16: the operation changes the directory and the counts, and the completion hands the outcome over, tests
the pool and looks at the head. -/
theorem requestCompletionsTouchNothingElse : Obligations.RequestCompletionsTouchNothingElse := by
  intro c code s g st q hc hprogress
  have hcode : codeOf c = some q.code := hc.trans (congrArg some hprogress.2.2.2.symm)
  have hchange := opOf_change (g := g) hcode st s
  have hanswers := completeRequest_answers g st q (opOf c) s hchange.requestersKept
  have hexec : exec c s = .next (completeRequest g st q (opOf c) s) := by
    rw [exec_released hprogress.1, effectOf_request hc,
      finishRequest_of (opOf c) hprogress.2.1 hprogress.2.2.1 hprogress.2.2.2]
  obtain ⟨t, ht, hframe⟩ := hchange.alone.completed s.freeCells g.origin st q (opOf c g st q s).1
  have hcompletes : completeRequest g st q (opOf c) s = t := ht
  refine ⟨_, hexec, ?_, hchange.alone.completed_entries _ _ st q _, _, hanswers⟩
  rw [hcompletes]
  cases horigin : g.origin <;> rw [horigin] at hframe <;> exact hframe

end Sys2Proof.Machine
end

