-- ==== Sys2Proof/Proofs/DirectoryRuns.lean ====
section
/-! The completions of acknowledgements, expiries and chunks as runs of changes of the directory, and with them those of
every command but the resets. -/

namespace Sys2Proof.Machine

open Sys2Proof.Spec

section
variable {ctx : Prop} {who : Option Station} {s : State} {r new : Record} {l : List Deadline} {st : Station}

/-- A station leaves both sets of a record that was ready to be put back ACTIVE (R137). -/
theorem Succeeds.without (h : Succeeds ctx who s r new l) (hactive : new.isRetiring = false) :
    Succeeds ctx who s r (new.without st) l where
  point := h.point
  slot := h.slot
  incarnation := h.incarnation
  cells := h.cells
  claims := h.claims
  follows x := by
    refine (h.follows x).imp_left (le_trans ?_)
    rw [followsCount_some, followsCount_some]
    simp only [Record.without, setHas_setDrop]
    cases setHas new.subscribers x <;> simp
    split <;> simp
  holders x hx := by
    refine h.holders x ?_
    rw [holds_iff] at hx ⊢
    simp only [Record.without, setHas_setDrop, Bool.and_eq_true] at hx
    exact hx.imp id (Or.imp And.left And.left)
  record hctx hr := by
    obtain ⟨hin, hfields, -⟩ := h.record hctx hr
    refine ⟨?_, hfields, fun hretiring => ?_⟩
    · rw [inSet_iff] at hin ⊢
      intro x hx
      simp only [Record.without, setHas_setDrop, Bool.and_eq_true] at hx ⊢
      exact ⟨hin x hx.1, hx.2⟩
    · have hsame : (new.without st).isRetiring = new.isRetiring := rfl
      rw [hsame, hactive] at hretiring
      cases hretiring
  list := h.list

/-! ## Acknowledgements (R114 to R117) -/

theorem acked_succeeds (hstays : ¬ ((ackedRecord r st).isRetiring = true ∧ (ackedRecord r st).subscribers = 0)) :
    Succeeds ctx who s r (ackedRecord r st) s.deadlines := by
  unfold ackedRecord at hstays ⊢
  split at hstays
  next hretiring =>
    rw [if_pos hretiring]
    exact without_succeeds r hstays
  next hactive =>
    rw [if_neg hactive]
    refine .of_sets rfl rfl rfl rfl (fun x hx => .inl hx) (fun x hx => .inl ?_) (fun h x hx => ?_)
      fun hretiring => absurd hretiring hactive
    · rw [setHas_setDrop, Bool.and_eq_true] at hx
      exact hx.1
    · rw [setHas_setDrop, Bool.and_eq_true] at hx
      exact h x hx.1

theorem ackRecord_change (id : NoticeId) : RecordChange ctx who s (ackRecord st id s) := by
  unfold ackRecord
  split
  next => exact .same
  next r hfind =>
    split
    · exact .putOrFree (findIncarnation_some hfind).1 rfl acked_succeeds
    · exact .same

theorem ackNotice_run (id : NoticeId) : DirectoryRun ctx who s (ackNotice st id s) := by
  unfold ackNotice
  split
  · have htaken : Quiet s (s.modStation st fun e => { e with inflight := none }) :=
      .modStation s st fun _ => ⟨rfl, rfl, rfl⟩
    exact .trans (DirectoryRun.of_quiet htaken) (DirectoryRun.of_change (ackRecord_change id))
  · refine DirectoryRun.of_quiet ?_
    unfold countStray
    exact .ite (.refl s) (.modStation s st fun _ => ⟨rfl, rfl, rfl⟩)

/-! ## Expiries (R97 to R99) -/

/-- The head of the list acts on the record it names, which must be one of the index (R97). -/
theorem expireRecord_change {d : Deadline} (hlist : s.deadlines = d :: l) (hr : r ∈ s.index)
    (hbelongs : d.belongs r = true) : RecordChange ctx who s (expireRecord d.kind r { s with deadlines := l }) := by
  have htake (hnone : hasDeadline r d.kind = false) : RecordChange ctx who s { s with deadlines := l } := by
    refine .take hlist fun hindex x hx hbelongs' => ?_
    have hpoint : x.point = r.point := by
      simp only [Deadline.belongs, decide_eq_true_eq] at hbelongs hbelongs'
      rw [← hbelongs.1, ← hbelongs'.1]
    rw [eq_of_mem_index hindex hr hx hpoint]
    exact hnone
  have hput (new : Record) (h : Succeeds ctx who s r new l) :
      RecordChange ctx who s ({ s with deadlines := l }.putRecord r new) := by
    rw [putRecord_eq_replaced]
    exact .put hr h
  unfold expireRecord
  cases hphase : r.phase with
  | retiring => exact htake (by simp only [hasDeadline, hphase])
  | active a =>
    dsimp only
    cases hkind : d.kind with
    | freshness =>
      dsimp only
      split
      next hgood =>
        refine hput _ (.of_fields hphase (a' := { a with quality := .stale }) rfl rfl rfl rfl rfl (fun x hx => ?_)
          (Nat.le_add_left _ _) (fun x hx => .inl hx) ?_ ?_)
        · change setHas (r.pendingSet ||| r.subscribers) x = true at hx
          simpa [setHas_or] using hx
        · rintro - ⟨hgeneration, hvalue, hlength, hblock, hcells, howner, hrefresh⟩
          rw [hgood] at hgeneration hvalue
          exact ⟨by simpa using hgeneration, by simpa using hvalue, hlength, hblock, hcells, howner, hrefresh⟩
        · rw [hlist]
          refine .tail hbelongs ?_ fun j hj => ?_
          · rw [hkind, hasDeadline_freshness (a := { a with quality := .stale }) rfl]
            simp
          cases j
          · rw [hasDeadline_lease hphase]
            rfl
          · exact absurd hkind.symm hj
      next hbad =>
        rw [hkind] at htake
        exact htake (by simp [hasDeadline_freshness hphase, hbad])
    | lease =>
      dsimp only
      cases howner : a.owner with
      | none =>
        rw [hkind] at htake
        exact htake (by simp [hasDeadline_lease hphase, howner])
      | some o =>
        refine hput _ (disowned_succeeds none hphase ?_)
        rw [hlist]
        refine .tail hbelongs (by rw [hkind]; rfl) fun j hj => ?_
        rw [hkind] at hj
        exact disowned_otherDeadline none hphase j hj

theorem expireHead_change (now : LongWord) : RecordChange ctx who s (expireHead now s) := by
  unfold expireHead
  split
  next => exact .same
  next d rest hlist =>
    split
    · split
      next hnone =>
        refine .take hlist fun _ r hr hbelongs => absurd hbelongs ?_
        have := List.find?_eq_none.1 hnone r hr
        simp only [Deadline.belongs, decide_eq_true_eq] at this ⊢
        exact fun h => this ⟨h.1.symm, h.2.symm⟩
      next r hfind =>
        obtain ⟨hr, hpoint, hincarnation⟩ := findIncarnation_some hfind
        exact expireRecord_change hlist hr (by simp [Deadline.belongs, hpoint, hincarnation])
    · exact .same

/-! ## Chunks (R137) -/

theorem clearRecord_change (hr : r ∈ s.index) : RecordChange ctx who s (clearRecord st r s) := by
  unfold clearRecord
  obtain ⟨a, hphase, howner, hcleared⟩ | ⟨howner, hcleared⟩ := clearOwner_cases st r <;> rw [hcleared]
  · rw [if_pos howner]
    have hdropped : s.dropDeadline r .lease = { s with deadlines := dropped r .lease s.deadlines } := rfl
    rw [hdropped]
    exact .putOrFree hr others_dropped fun _ => (disowned_succeeds (some st) hphase
      (.dropped (disowned_lease _) (disowned_otherDeadline _ hphase))).without rfl
  · rw [if_neg howner]
    exact .putOrFree hr rfl (without_succeeds r)

theorem clearSlot_change (n : Nat) : RecordChange ctx who s (clearSlot st s n) := by
  unfold clearSlot
  split
  next => exact .same
  next r hfind =>
    split
    · exact clearRecord_change (List.mem_of_find?_eq_some hfind)
    · exact .same

theorem clearSlots_run (slots : List Nat) : DirectoryRun ctx who s (slots.foldl (clearSlot st) s) := by
  induction slots generalizing s with
  | nil => exact .refl
  | cons n rest ih => exact .trans (DirectoryRun.of_change (clearSlot_change n)) ih

theorem clearEnd_quiet : Quiet s (clearEnd st s) := by
  have hmark : Quiet s (s.modStation st fun e =>
      { e with inflight := none, last := none, barredMark := false, freshOwed := true }) :=
    .modStation s st fun _ => ⟨rfl, rfl, rfl⟩
  exact (hmark.trans (.changeState _ st _)).trans (.of_fields rfl rfl rfl rfl rfl)

theorem clearChunkOn_run (k : Fin 16) : DirectoryRun ctx who s (clearChunkOn st k s) := by
  have hprogress (u : State) : Quiet u { u with clearProgress := k + 1 } := .of_fields rfl rfl rfl rfl rfl
  have hchunk : DirectoryRun ctx who s { (chunkRange k).foldl (clearSlot st) s with clearProgress := k + 1 } :=
    (clearSlots_run (chunkRange k)).tail (.inr (hprogress _))
  unfold clearChunkOn
  dsimp only
  split
  · exact hchunk.tail (.inr clearEnd_quiet)
  · exact hchunk

/-! ## Every command -/

theorem noticeAckEffect_run : DirectoryRun ctx who s (noticeAckEffect s) := by
  unfold noticeAckEffect
  split
  next => exact .refl
  next g hrunning =>
    split
    next id hwork =>
      have hfree : DirectoryRun ctx who s { s with running := none } := .of_quiet (.of_fields rfl rfl rfl rfl rfl)
      exact (hfree.trans (ackNotice_run id)).tail (.inr ((Quiet.deliverAck _ _).trans (.monitorLook _)))
    all_goals exact .refl

theorem expireEffect_run : DirectoryRun ctx who s (expireEffect s) := by
  unfold expireEffect
  split
  next => exact .refl
  next g hrunning =>
    split
    next hwork =>
      have hfree : DirectoryRun ctx who s { s with running := none } := .of_quiet (.of_fields rfl rfl rfl rfl rfl)
      exact (hfree.tail (.inl (expireHead_change g.now))).tail (.inr (.monitorLook _))
    all_goals exact .refl

theorem clearChunkEffect_run : DirectoryRun ctx who s (clearChunkEffect s) := by
  unfold clearChunkEffect
  split
  next => exact .refl
  next g hrunning =>
    split
    next k hwork =>
      have hfree : DirectoryRun ctx who s { s with running := none } := .of_quiet (.of_fields rfl rfl rfl rfl rfl)
      exact (hfree.trans (clearChunkOn_run k)).tail (.inr (.monitorLook _))
    all_goals exact .refl

theorem noticeFetchEffect_quiet : Quiet s (noticeFetchEffect s) := by
  unfold noticeFetchEffect
  split
  next => exact .refl s
  next g hrunning =>
    split
    next hwork =>
      have hfree : Quiet s { s with running := none } := .of_fields rfl rfl rfl rfl rfl
      refine hfree.trans (.trans ?_ ((Quiet.deliverFetch _ _ _).trans (.monitorLook _)))
      unfold fetchMark
      split
      · exact .refl _
      · exact .modStation _ _ fun _ => ⟨rfl, rfl, rfl⟩
    all_goals exact .refl s

end

/-- The commands that empty the directory. -/
def isReset : Instr → Bool
  | .fullReset | .softReset _ => true
  | _ => false

theorem effectOf_quiet {c : Instr} (hc : touchesDirectory c = false) {s : State} (hmeets : meetsReset c s) :
    Quiet s (effectOf c s) := by
  cases hheld : s.resetHeld with
  | false => exact exec_quiet hc (exec_released hheld c)
  | true =>
    have hacts := hmeets hheld
    cases c <;> cases hacts
    · cases hc
    · exact .of_fields rfl rfl rfl rfl rfl

/-- Every command but a reset changes the directory record by record, for the station of its request alone. -/
theorem effectOf_run {c : Instr} (hbus : isBusWrite c = false) (hreset : isReset c = false) {s : State}
    (hmeets : meetsReset c s) : DirectoryRun (RunSound s) (gainer s) s (effectOf c s) := by
  cases hcode : codeOf c with
  | some code =>
    rw [effectOf_request hcode]
    exact request_run hcode s
  | none =>
    cases htouches : touchesDirectory c with
    | false => exact .of_quiet (effectOf_quiet htouches hmeets)
    | true =>
      cases c <;> simp only [codeOf, touchesDirectory, isBusWrite, isReset, reduceCtorEq] at hcode htouches hbus hreset
      case noticeFetch => exact .of_quiet noticeFetchEffect_quiet
      case noticeAck => exact noticeAckEffect_run
      case expire => exact expireEffect_run
      case clearChunk => exact clearChunkEffect_run

end Sys2Proof.Machine
end

