-- ==== Sys2Proof/Proofs/Directories.lean ====
section
/-! What every step keeps of the directory: the index, the records, the cells, the counts and the deadline list. Each is
shown once for each way in which an operation changes the directory. -/

namespace Sys2Proof.Machine

open Sys2Proof.Spec

/-! ## The directory after a reset -/

/-- The directory as a reset leaves it. -/
structure DirectoryEmpty (t : State) : Prop where
  index : t.index = []
  freeCells : t.freeCells = Config.poolCells
  deadlines : t.deadlines = []
  counts : ∀ x : Station, (t.station x).claims = 0 ∧ (t.station x).subscriptions = 0 ∧ (t.station x).pendingCount = 0

theorem resetStations_entry (x : Station) :
    resetStations[x] = StationEntry.reset (if x = 0 then .local_ else .offline) := by
  unfold resetStations
  rw [Fin.getElem_fin, Vector.getElem_set]
  by_cases hx : x = 0
  · simp [hx]
  · have hval : ¬ 0 = x.val := fun h => hx (Fin.ext h.symm)
    simp [hx, hval]

theorem softReset_station (s : State) (x : Station) :
    (softResetEffect s).station x = (s.station x).softReset := by
  simp [softResetEffect, State.station]

theorem portControlReset_frame (latch : Bool) (s : State) :
    portControlReset latch s =
      { softResetEffect s with clockWords := if latch then s.clock else s.clockWords } := by
  cases latch <;> rfl

theorem effectOf_reset {c : Instr} (hc : isReset c = true) (s : State) : DirectoryEmpty (effectOf c s) := by
  cases c <;> cases hc
  case fullReset =>
    refine ⟨rfl, rfl, rfl, fun x => ?_⟩
    have hentry : (effectOf .fullReset s).station x = StationEntry.reset (if x = 0 then .local_ else .offline) :=
      resetStations_entry x
    rw [hentry]
    exact ⟨rfl, rfl, rfl⟩
  case softReset latch =>
    have heffect : effectOf (.softReset latch) s = portControlReset latch s := rfl
    rw [heffect, portControlReset_frame]
    refine ⟨rfl, rfl, rfl, fun x => ?_⟩
    change ((softResetEffect s).station x).claims = 0 ∧ ((softResetEffect s).station x).subscriptions = 0 ∧
      ((softResetEffect s).station x).pendingCount = 0
    rw [softReset_station]
    exact ⟨rfl, rfl, rfl⟩

/-- A property of the directory is kept by every step when a reset leaves it and a change of a record keeps it. -/
theorem directory_keeps {P Q : State → Prop} (hQ : ∀ (u : State) (l : List Instr), Q u → Q { u with pending := l })
    (hquiet : ∀ u v, Quiet u v → P u → P v) (hempty : ∀ u, DirectoryEmpty u → P u)
    (hchange : ∀ u w v, Q u → RecordChange (RunSound u) (gainer u) w v → P w → P v)
    {s t : State} (hs : Q s) (h : P s) (hstep : step s = .next t) : P t := by
  refine step_keeps hQ (fun u l => hquiet u _ (.of_fields rfl rfl rfl rfl rfl))
    (fun u => hquiet u _ (.of_fields rfl rfl rfl rfl rfl)) (fun u => hquiet u _ (.setCause _ u))
    (fun c u hbus hmeets hu hP => ?_) hs h hstep
  cases hreset : isReset c with
  | true => exact hempty _ (effectOf_reset hreset u)
  | false => exact (effectOf_run hbus hreset hmeets).keeps (fun w v => hchange u w v hu) hquiet hP

/-! ## The index (O51) -/

/-- What the order of the index is about. -/
def indexKeys (l : List Record) : List (Word × Nat) := l.map fun r => (r.point, r.slot)

theorem indexOk_iff_keys (s : State) :
    IndexOk s ↔ (indexKeys s.index).Pairwise (fun a b => a.1.toNat < b.1.toNat) ∧
      (indexKeys s.index).Pairwise (fun a b => a.2 ≠ b.2) ∧
      ∀ k ∈ indexKeys s.index, validPoint k.1 = true ∧ k.2 < Config.recordSlots := by
  simp only [indexKeys, List.pairwise_map, List.forall_mem_map]

theorem indexKeys_replace {s : State} {old new : Record} (h : IndexOk s) (hold : old ∈ s.index)
    (hpoint : new.point = old.point) (hslot : new.slot = old.slot) :
    indexKeys (indexReplace new s.index) = indexKeys s.index := by
  unfold indexKeys indexReplace
  rw [List.map_map]
  refine List.map_congr_left fun x hx => ?_
  rw [Function.comp_apply]
  split
  next hsame =>
    rw [eq_of_mem_index h hold hx (hsame.trans hpoint), hpoint, hslot]
  next => rfl

theorem indexInsert_perm (r : Record) (l : List Record) : (indexInsert r l).Perm (r :: l) := by
  induction l with
  | nil => exact .refl _
  | cons x xs ih =>
    unfold indexInsert
    split
    · exact .refl _
    · exact (ih.cons x).trans (.swap r x xs)

theorem indexInsert_ascending {r : Record} {l : List Record} (hfresh : ∀ x ∈ l, x.point ≠ r.point)
    (h : l.Pairwise fun a b => a.point.toNat < b.point.toNat) :
    (indexInsert r l).Pairwise fun a b => a.point.toNat < b.point.toNat := by
  induction l with
  | nil => simp [indexInsert]
  | cons x xs ih =>
    obtain ⟨hx, hxs⟩ := List.pairwise_cons.1 h
    unfold indexInsert
    split
    next hlt =>
      refine List.pairwise_cons.2 ⟨fun y hy => ?_, h⟩
      obtain rfl | hy := List.mem_cons.1 hy
      · exact hlt
      · exact hlt.trans (hx y hy)
    next hge =>
      refine List.pairwise_cons.2 ⟨fun y hy => ?_, ih (fun y hy => hfresh y (List.mem_cons_of_mem x hy)) hxs⟩
      obtain rfl | hy := (mem_indexInsert r y xs).1 hy
      · have hne : x.point.toNat ≠ y.point.toNat := fun he =>
          hfresh x List.mem_cons_self (BitVec.eq_of_toNat_eq he)
        omega
      · exact hx y hy

section
variable {ctx : Prop} {who : Option Station} {s t : State}

theorem indexOk_of_index (hindex : t.index = s.index) (h : IndexOk s) : IndexOk t := by
  rwa [IndexOk, hindex]

theorem RecordChange.indexOk (h : RecordChange ctx who s t) (hs : IndexOk s) : IndexOk t := by
  cases h with
  | same => exact hs
  | put hold hnew =>
    rw [indexOk_iff_keys, replaced_index, indexKeys_replace hs hold hnew.point hnew.slot, ← indexOk_iff_keys]
    exact hs
  | free hold =>
    obtain ⟨hascending, hslots, hvalid⟩ := hs
    exact ⟨hascending.filter _, hslots.filter _, fun r hr => hvalid r (List.mem_filter.1 hr).1⟩
  | make hnew =>
    obtain ⟨hascending, hslots, hvalid⟩ := hs
    rw [IndexOk, created_index]
    refine ⟨indexInsert_ascending hnew.fresh hascending, ?_, fun r hr => ?_⟩
    · refine (List.Perm.pairwise_iff (fun hne he => hne he.symm) (indexInsert_perm _ _)).2 ?_
      exact List.pairwise_cons.2 ⟨fun r hr he => hnew.slot.2 r hr he.symm, hslots⟩
    · obtain rfl | hr := (mem_indexInsert _ _ _).1 hr
      · exact ⟨hnew.valid, hnew.slot.1⟩
      · exact hvalid r hr
  | take hhead hnone => exact hs

theorem DirectoryEmpty.indexOk (h : DirectoryEmpty t) : IndexOk t := by
  rw [IndexOk, h.index]
  exact ⟨.nil, .nil, nofun⟩

end

/-- Settles O51: a record put back keeps point number and slot, a record made has a fresh point number and a FREE slot. -/
theorem stepsKeepTheIndexInOrder : Obligations.StepsKeepTheIndexInOrder := fun _ _ h hstep =>
  directory_keeps (Q := fun _ => True) (fun _ _ _ => trivial) (fun _ _ hquiet => indexOk_of_index hquiet.1)
    (fun _ => DirectoryEmpty.indexOk) (fun _ _ _ _ hchange => hchange.indexOk) trivial h hstep

/-! ## The records apart from one -/

section
variable {old new : Record} {l : List Record}

theorem indexRemove_of_fresh {p : Word} (h : ∀ x ∈ l, x.point ≠ p) : indexRemove p l = l :=
  List.filter_eq_self.2 fun x hx => decide_eq_true (h x hx)

theorem indexReplace_of_fresh (h : ∀ x ∈ l, x.point ≠ new.point) : indexReplace new l = l := by
  unfold indexReplace
  refine (List.map_congr_left fun x hx => ?_).trans (List.map_id l)
  exact if_neg (h x hx)

/-- The index is the record and the others; after it is put back, the new one and the same others. -/
theorem index_perm (hold : old ∈ l) (hpoint : new.point = old.point)
    (h : l.Pairwise fun a b => a.point.toNat < b.point.toNat) :
    l.Perm (old :: indexRemove old.point l) ∧ (indexReplace new l).Perm (new :: indexRemove old.point l) := by
  induction l with
  | nil => cases hold
  | cons x xs ih =>
    obtain ⟨hx, hxs⟩ := List.pairwise_cons.1 h
    by_cases hsame : x.point = old.point
    · have hfresh : ∀ y ∈ xs, y.point ≠ old.point := by
        intro y hy he
        have := hx y hy
        rw [hsame, he] at this
        exact lt_irrefl _ this
      have hxold : old = x := (List.mem_cons.1 hold).resolve_right fun hmem => hfresh old hmem rfl
      have hremove : indexRemove old.point (x :: xs) = xs := by
        rw [indexRemove, List.filter_cons_of_neg (by simp [hsame])]
        exact indexRemove_of_fresh hfresh
      have hreplace : indexReplace new (x :: xs) = new :: xs := by
        rw [indexReplace, List.map_cons, if_pos (hsame.trans hpoint.symm)]
        exact congrArg _ (indexReplace_of_fresh (by rwa [hpoint]))
      rw [hremove, hreplace, hxold]
      exact ⟨.refl _, .refl _⟩
    · have hmem : old ∈ xs := (List.mem_cons.1 hold).resolve_left fun he => hsame (he ▸ rfl)
      obtain ⟨hl, hr⟩ := ih hmem hxs
      have hremove : indexRemove old.point (x :: xs) = x :: indexRemove old.point xs :=
        List.filter_cons_of_pos (by simp [hsame])
      have hreplace : indexReplace new (x :: xs) = x :: indexReplace new xs := by
        rw [indexReplace, List.map_cons, if_neg (by rwa [hpoint])]
        rfl
      rw [hremove, hreplace]
      exact ⟨(hl.cons x).trans (.swap _ _ _), (hr.cons x).trans (.swap _ _ _)⟩

end

/-! ## The records (O52) -/

section
variable {ctx : Prop} {who : Option Station} {s t : State}

theorem RecordChange.recordsOk (hctx : ctx) (h : RecordChange ctx who s t) (hs : ∀ r ∈ s.index, RecordOk r) :
    ∀ r ∈ t.index, RecordOk r := by
  cases h with
  | same => exact hs
  | put hold hnew =>
    intro r hr
    rw [replaced_index] at hr
    obtain ⟨rfl, -⟩ | ⟨hr, -⟩ := (mem_indexReplace _ _ _).1 hr
    · exact hnew.record hctx (hs _ hold)
    · exact hs r hr
  | free hold =>
    intro r hr
    exact hs r (List.mem_filter.1 hr).1
  | make hnew =>
    intro r hr
    rw [created_index] at hr
    obtain rfl | hr := (mem_indexInsert _ _ _).1 hr
    · exact hnew.record hctx
    · exact hs r hr
  | take hhead hnone => exact hs

end

/-- The records of the index stay in order when the request in progress carries what it counts. -/
theorem step_recordOk {s t : State} (hsound : RunSound s) (h : ∀ r ∈ s.index, RecordOk r) (hstep : step s = .next t) :
    ∀ r ∈ t.index, RecordOk r :=
  directory_keeps (P := fun s => ∀ r ∈ s.index, RecordOk r) (Q := RunSound) (fun _ _ hq => hq)
    (fun u v hquiet hu => by rwa [hquiet.1]) (fun u hu => by rw [hu.index]; exact nofun)
    (fun _ _ _ hu hchange => hchange.recordsOk hu) hsound h hstep

/-! ## The cells (O53) -/

section
variable {ctx : Prop} {who : Option Station} {s t : State}

theorem RecordChange.poolOk (h : RecordChange ctx who s t) (hindex : IndexOk s) (hs : PoolOk s) : PoolOk t := by
  cases h with
  | same => exact hs
  | put hold hnew =>
    obtain ⟨hbefore, hafter⟩ := index_perm hold hnew.point hindex.1
    have hcells := hnew.cells
    rw [PoolOk, (hbefore.map Record.cells).sum_eq, List.map_cons, List.sum_cons] at hs
    rw [PoolOk, replaced_index, (hafter.map Record.cells).sum_eq, List.map_cons, List.sum_cons, replaced_freeCells]
    omega
  | @free old hold =>
    obtain ⟨hbefore, -⟩ := index_perm (new := old) hold rfl hindex.1
    rw [PoolOk, (hbefore.map Record.cells).sum_eq, List.map_cons, List.sum_cons] at hs
    rw [PoolOk, freeRecord_index, freeRecord_freeCells]
    omega
  | make hnew =>
    have hcells := hnew.cells
    rw [PoolOk] at hs ⊢
    rw [created_index, ((indexInsert_perm _ _).map Record.cells).sum_eq, List.map_cons, List.sum_cons, created_freeCells]
    omega
  | take hhead hnone => exact hs

end

/-- Settles O53: cells move between the free count and one record at a time; the table by the bounds of `cellsFor`. -/
theorem stepsConserveTheCells : Obligations.StepsConserveTheCells := by
  refine ⟨fun s t hindex hpool hstep => ?_, fun n => ?_⟩
  · refine (directory_keeps (P := fun s => IndexOk s ∧ PoolOk s) (Q := fun _ => True) (fun _ _ _ => trivial)
      (fun u v hquiet hu => ⟨indexOk_of_index hquiet.1 hu.1, ?_⟩) (fun u hu => ⟨hu.indexOk, ?_⟩)
      (fun _ _ _ _ hchange hu => ⟨hchange.indexOk hu.1, hchange.poolOk hu.1 hu.2⟩) trivial ⟨hindex, hpool⟩ hstep).2
    · rw [PoolOk, hquiet.1, hquiet.2.2.1]
      exact hu.2
    · rw [PoolOk, hu.index, hu.freeCells]
      rfl
  · obtain ⟨hinline, hchain⟩ := cellsFor_bounds n
    refine ⟨hinline, fun h _ => ?_, fun h _ => ?_, fun h _ => ?_, fun h _ => ?_⟩ <;>
    · have := hchain (by omega)
      omega

/-! ## The counts (O54) -/

section
variable {ctx : Prop} {who : Option Station} {s t : State}

theorem recount_counts (e : StationEntry) (old new : Option Record) (x : Station) :
    (e.recount old new x).claims = e.claims + ownsCount new x - ownsCount old x ∧
    (e.recount old new x).subscriptions = e.subscriptions + followsCount new x - followsCount old x ∧
    (e.recount old new x).pendingCount = e.pendingCount + owedCount new x - owedCount old x := ⟨rfl, rfl, rfl⟩

theorem owedCount_some (r : Record) (x : Station) :
    owedCount (some r) x = if setHas r.pendingSet x = true then 1 else 0 := by
  simp [owedCount]

/-- The counts of a list of records, of a station. -/
def CountsAre (e : StationEntry) (l : List Record) (x : Station) : Prop :=
  e.claims = l.countP (fun r => r.owner = some x) ∧
  e.subscriptions = l.countP (fun r => setHas r.subscribers x) ∧
  e.pendingCount = l.countP (fun r => setHas r.pendingSet x)

theorem countsAre_perm {e : StationEntry} {l l' : List Record} {x : Station} (h : l.Perm l') :
    CountsAre e l x ↔ CountsAre e l' x := by
  unfold CountsAre
  rw [h.countP_eq, h.countP_eq, h.countP_eq]

theorem countsAre_cons {e : StationEntry} {r : Record} {l : List Record} {x : Station} :
    CountsAre e (r :: l) x ↔ e.claims = l.countP (fun r => r.owner = some x) + ownsCount (some r) x ∧
      e.subscriptions = l.countP (fun r => setHas r.subscribers x) + followsCount (some r) x ∧
      e.pendingCount = l.countP (fun r => setHas r.pendingSet x) + owedCount (some r) x := by
  unfold CountsAre
  simp only [List.countP_cons, decide_eq_true_eq, ownsCount_some, followsCount_some, owedCount_some]

theorem RecordChange.countsOk (h : RecordChange ctx who s t) (hindex : IndexOk s)
    (hs : ∀ x, CountsAre (s.station x) s.index x) (x : Station) : CountsAre (t.station x) t.index x := by
  have hx := hs x
  cases h with
  | same => exact hx
  | @put old new _ hold hnew =>
    obtain ⟨hbefore, hafter⟩ := index_perm hold hnew.point hindex.1
    rw [countsAre_perm hbefore, countsAre_cons] at hx
    rw [replaced_station, replaced_index, countsAre_perm hafter, countsAre_cons]
    obtain ⟨hclaims, hsubscriptions, hpending⟩ := recount_counts (s.station x) (some old) (some new) x
    omega
  | @free old hold =>
    obtain ⟨hbefore, -⟩ := index_perm (new := old) hold rfl hindex.1
    rw [countsAre_perm hbefore, countsAre_cons] at hx
    rw [freeRecord_station, freeRecord_index, CountsAre]
    obtain ⟨hclaims, hsubscriptions, hpending⟩ := recount_counts (s.station x) (some old) none x
    have hnobody : ownsCount none x = 0 ∧ followsCount none x = 0 ∧ owedCount none x = 0 := ⟨rfl, rfl, rfl⟩
    omega
  | @make new _ hnew =>
    rw [created_station, created_index, countsAre_perm (indexInsert_perm _ _), countsAre_cons]
    obtain ⟨hclaims, hsubscriptions, hpending⟩ := recount_counts (s.station x) none (some new) x
    have hnobody : ownsCount none x = 0 ∧ followsCount none x = 0 ∧ owedCount none x = 0 := ⟨rfl, rfl, rfl⟩
    unfold CountsAre at hx
    omega
  | take hhead hnone => exact hx

theorem ownsCount_le (r : Option Record) (x : Station) : ownsCount r x ≤ 1 := by
  unfold ownsCount
  split <;> omega

theorem followsCount_le (r : Option Record) (x : Station) : followsCount r x ≤ 1 := by
  unfold followsCount
  split <;> omega

theorem RecordChange.limitsOk (h : RecordChange ctx who s t) (hs : LimitsOk s) : LimitsOk t := by
  intro x
  have hx := hs x
  simp only [Config.claimLimit, Config.subscriptionLimit] at hx ⊢
  cases h with
  | same => exact hx
  | @put old new _ hold hnew =>
    rw [replaced_station]
    obtain ⟨hclaims, hsubscriptions, -⟩ := recount_counts (s.station x) (some old) (some new) x
    have howns := hnew.claims x
    have hfollows := hnew.follows x
    have hone := ownsCount_le (some new) x
    have hone' := followsCount_le (some new) x
    simp only [Config.claimLimit, Config.subscriptionLimit] at howns hfollows
    omega
  | @free old hold =>
    rw [freeRecord_station]
    obtain ⟨hclaims, hsubscriptions, -⟩ := recount_counts (s.station x) (some old) none x
    have hnobody : ownsCount none x = 0 ∧ followsCount none x = 0 := ⟨rfl, rfl⟩
    omega
  | @make new _ hnew =>
    rw [created_station]
    obtain ⟨hclaims, hsubscriptions, -⟩ := recount_counts (s.station x) none (some new) x
    have howns := hnew.claims x
    have hfollows := hnew.follows x
    have hone := ownsCount_le (some new) x
    simp only [Config.claimLimit] at howns
    omega
  | take hhead hnone => exact hx

end

/-- Settles O54: each count follows the membership that a change moves, and the checks stop it at its limit. -/
theorem stepsKeepTheCounts : Obligations.StepsKeepTheCounts := by
  refine ⟨fun s t hindex hcounts hstep => ?_, fun s t hlimits hstep => ?_⟩
  · refine (directory_keeps (P := fun s => IndexOk s ∧ ∀ x, CountsAre (s.station x) s.index x) (Q := fun _ => True)
      (fun _ _ _ => trivial) (fun u v hquiet hu => ⟨indexOk_of_index hquiet.1 hu.1, fun x => ?_⟩)
      (fun u hu => ⟨hu.indexOk, fun x => ?_⟩)
      (fun _ _ _ _ hchange hu => ⟨hchange.indexOk hu.1, hchange.countsOk hu.1 hu.2⟩) trivial ⟨hindex, hcounts⟩ hstep).2
    · obtain ⟨hindex', -, -, -, hstations⟩ := hquiet
      obtain ⟨hclaims, hsubscriptions, hpending⟩ := hstations x
      rw [CountsAre, hindex', hclaims, hsubscriptions, hpending]
      exact hu.2 x
    · rw [CountsAre, hu.index]
      exact hu.counts x
  · refine directory_keeps (P := LimitsOk) (Q := fun _ => True) (fun _ _ _ => trivial) (fun u v hquiet hu x => ?_)
      (fun u hu x => ?_) (fun _ _ _ _ hchange => hchange.limitsOk) trivial hlimits hstep
    · obtain ⟨-, -, -, -, hstations⟩ := hquiet
      obtain ⟨hclaims, hsubscriptions, -⟩ := hstations x
      rw [hclaims, hsubscriptions]
      exact hu x
    · obtain ⟨hclaims, hsubscriptions, -⟩ := hu.counts x
      rw [hclaims, hsubscriptions]
      exact ⟨Nat.zero_le _, Nat.zero_le _⟩

/-! ## The deadline list (O55) -/

section
variable {r x : Record} {before after : DeadlineKind → Bool} {l0 l : List Deadline}

/-- The entries of a record with another point number do not move. -/
theorem ListFollows.entriesIn_other (h : ListFollows r before after l0 l) (hpoint : x.point ≠ r.point)
    (k : DeadlineKind) : entriesIn l x k = entriesIn l0 x k := by
  have hothers (m : List Deadline) : entriesIn m x k = entriesIn (m.filter fun d => !d.belongs r) x k := by
    rw [entriesIn, entriesIn, List.countP_filter]
    refine List.countP_congr fun d _ => ?_
    have hother : d.belongs x = true → d.belongs r = false := by
      intro hx
      simp only [Deadline.belongs, decide_eq_true_eq, decide_eq_false_iff_not] at hx ⊢
      exact fun hr => hpoint (hx.1.symm.trans hr.1)
    cases hx : d.belongs x <;> simp [hother, hx]
  rw [hothers l, hothers l0, h.others]

theorem ListFollows.mem_of_other (h : ListFollows r before after l0 l) {d : Deadline} (hd : d ∈ l)
    (hother : d.belongs r = false) : d ∈ l0 := by
  have hmem : d ∈ l.filter fun d => !d.belongs r := List.mem_filter.2 ⟨hd, by rw [hother]; rfl⟩
  rw [h.others] at hmem
  exact (List.mem_filter.1 hmem).1

theorem belongs_congr (hpoint : x.point = r.point) (hincarnation : x.incarnation = r.incarnation) (d : Deadline) :
    d.belongs x = d.belongs r := by
  simp only [Deadline.belongs, hpoint, hincarnation]

end

/-- The list holds the entries its records should have, one of each, and no other. -/
def ListFits (index : List Record) (l : List Deadline) : Prop :=
  (∀ r ∈ index, ∀ k, entriesIn l r k = (hasDeadline r k).toNat) ∧ ∀ d ∈ l, ∃ r ∈ index, d.belongs r = true

theorem deadlinesOk_iff_fits (s : State) : DeadlinesOk s ↔ ListFits s.index s.deadlines := by
  refine and_congr_left fun _ => forall₂_congr fun r _ => ⟨fun ⟨hlease, hfresh⟩ k => ?_, fun h => ⟨h .lease, h .freshness⟩⟩
  cases k
  · exact hlease
  · exact hfresh

section
variable {ctx : Prop} {who : Option Station} {s t : State}

theorem RecordChange.listFits (h : RecordChange ctx who s t) (hindex : IndexOk s)
    (hs : ListFits s.index s.deadlines) : ListFits t.index t.deadlines := by
  obtain ⟨hown, hmembers⟩ := hs
  cases h with
  | same => exact ⟨hown, hmembers⟩
  | @put old new l hold hnew =>
    have hbelongs := belongs_congr hnew.point hnew.incarnation
    rw [replaced_index, replaced_deadlines]
    have hthere : new ∈ indexReplace new s.index :=
      (mem_indexReplace _ _ _).2 (.inl ⟨rfl, old, hold, hnew.point.symm⟩)
    refine ⟨fun r hr k => ?_, fun d hd => ?_⟩
    · obtain ⟨rfl, -⟩ | ⟨hr, hpoint⟩ := (mem_indexReplace _ _ _).1 hr
      · rw [← hnew.list.own (hown old hold) k]
        simp only [entriesIn, hbelongs]
      · rw [hnew.point] at hpoint
        rw [hnew.list.entriesIn_other hpoint, hown r hr k]
    · cases hd' : d.belongs old with
      | true => exact ⟨new, hthere, (hbelongs d).trans hd'⟩
      | false =>
        obtain ⟨r, hr, hbelongs'⟩ := hmembers d (hnew.list.mem_of_other hd hd')
        refine ⟨r, (mem_indexReplace _ _ _).2 (.inr ⟨hr, fun hpoint => ?_⟩), hbelongs'⟩
        rw [eq_of_mem_index hindex hold hr (hpoint.trans hnew.point), hd'] at hbelongs'
        cases hbelongs'
  | @free old hold =>
    rw [freeRecord_index, freeRecord_deadlines]
    have hfollows : ListFollows old (hasDeadline old) (fun _ => false) s.deadlines
        (s.deadlines.filter fun d => !d.belongs old) := by
      refine ⟨by simp [List.filter_filter], fun _ k => ?_⟩
      rw [entriesIn, List.countP_filter]
      exact List.countP_eq_zero.2 fun d _ => by cases d.belongs old <;> simp
    refine ⟨fun r hr k => ?_, fun d hd => ?_⟩
    · obtain ⟨hr, hpoint⟩ := (mem_indexRemove _ _ _).1 hr
      rw [hfollows.entriesIn_other hpoint, hown r hr k]
    · obtain ⟨hd, hother⟩ := List.mem_filter.1 hd
      obtain ⟨r, hr, hbelongs⟩ := hmembers d hd
      refine ⟨r, (mem_indexRemove _ _ _).2 ⟨hr, fun hpoint => ?_⟩, hbelongs⟩
      rw [← eq_of_mem_index hindex hold hr hpoint, hbelongs] at hother
      cases hother
  | @make new l hnew =>
    rw [created_index, created_deadlines]
    have hbefore (k : DeadlineKind) : entriesIn s.deadlines new k = (false).toNat := by
      refine List.countP_eq_zero.2 fun d hd hnew' => ?_
      obtain ⟨r, hr, hbelongs⟩ := hmembers d hd
      simp only [Deadline.belongs, Bool.and_eq_true, decide_eq_true_eq] at hbelongs hnew'
      exact hnew.fresh r hr (hbelongs.1.symm.trans hnew'.1.1)
    refine ⟨fun r hr k => ?_, fun d hd => ?_⟩
    · obtain rfl | hr := (mem_indexInsert _ _ _).1 hr
      · exact hnew.list.own hbefore k
      · rw [hnew.list.entriesIn_other (hnew.fresh r hr), hown r hr k]
    · cases hd' : d.belongs new with
      | true => exact ⟨new, (mem_indexInsert _ _ _).2 (.inl rfl), hd'⟩
      | false =>
        obtain ⟨r, hr, hbelongs⟩ := hmembers d (hnew.list.mem_of_other hd hd')
        exact ⟨r, (mem_indexInsert _ _ _).2 (.inr hr), hbelongs⟩
  | @take d l hhead hnone =>
    obtain ⟨r, hr, hbelongs⟩ := hmembers d (by rw [hhead]; exact List.mem_cons_self)
    have hcount := hown r hr d.kind
    rw [hnone hindex r hr hbelongs, hhead, entriesIn, List.countP_cons_of_pos (by simp [hbelongs])] at hcount
    cases hcount

end

/-- Settles O55: each change leaves the entries of its record as R95 gives them, and no other entry moves. -/
theorem stepsKeepTheDeadlines : Obligations.StepsKeepTheDeadlines := by
  intro s t hindex _ hdeadlines hstep
  rw [deadlinesOk_iff_fits] at hdeadlines ⊢
  refine (directory_keeps (P := fun s => IndexOk s ∧ ListFits s.index s.deadlines) (Q := fun _ => True)
    (fun _ _ _ => trivial) (fun u v hquiet hu => ⟨indexOk_of_index hquiet.1 hu.1, ?_⟩)
    (fun u hu => ⟨hu.indexOk, ?_⟩)
    (fun _ _ _ _ hchange hu => ⟨hchange.indexOk hu.1, hchange.listFits hu.1 hu.2⟩) trivial ⟨hindex, hdeadlines⟩ hstep).2
  · obtain ⟨hindex', -, -, hlist, -⟩ := hquiet
    rw [hindex', hlist]
    exact hu.2
  · rw [hu.index, hu.deadlines]
    exact ⟨nofun, nofun⟩

end Sys2Proof.Machine
end

