-- ==== Sys2Proof/Proofs/Touches.lean ====
section
/-! The commands that leave the directory alone, as runs of touches: of a link engine, of an entry of the station table, of
a station's state, or of what no safety claim looks at. What such a touch keeps is then proved once for each kind. -/

namespace Sys2Proof.Machine

open Sys2Proof.Spec

/-! ## The kinds of touch -/

/-- A request held after a touch was held before it, or carries the octets it counts. -/
def HeldFrom (before after : Option Request) : Prop := ∀ q ∈ after, q ∈ before ∨ RequestOk q

/-- A visit after a touch of its engine: a new one of a remote station, or the same one. -/
structure EngineTouch (banks : Prop) (e e' : LinkEngine) : Prop where
  visits : ∀ v' ∈ e'.visit, (v'.reply = none ∧ v'.station ≠ 0) ∨
    ∃ v ∈ e.visit, v'.station = v.station ∧ HeldFrom (v.reply.bind (·.request)) (v'.reply.bind (·.request))
  banks : banks → e'.banks = e.banks

/-- An entry of the station table touched in its counters, its miss count, its link or its barred mark. -/
structure EntryTouch (st : Station) (e e' : StationEntry) : Prop where
  state : e'.state = e.state
  inflight : e'.inflight = e.inflight
  last : e'.last = e.last
  fresh : e'.freshOwed = e.freshOwed
  mark : e'.barredMark = e.barredMark ∨ e.state = .online ∨ e.state = .leaving
  local_ : st = 0 → e.state = .local_ → e' = e ∨ ∃ which, e' = zeroStationCounter which e

/-- Nothing of the directory, the stations or the links differs. -/
structure Plain (desk : Prop) (s t : State) : Prop where
  index : t.index = s.index
  running : t.running = s.running
  stations : t.stations = s.stations
  clearQueue : t.clearQueue = s.clearQueue
  clearProgress : t.clearProgress = s.clearProgress
  linkA : t.linkA = s.linkA
  linkB : t.linkB = s.linkB
  leaseMax : t.leaseMax = s.leaseMax ∨ (1 ≤ t.leaseMax ∧ t.leaseMax ≤ Config.maxLeaseMax)
  fences : ∀ i : Fin 8, (setHas t.fences[i].readMask 0 = true → setHas s.fences[i].readMask 0 = true) ∧
    (setHas t.fences[i].writeMask 0 = true → setHas s.fences[i].writeMask 0 = true)
  changed : setHas t.stationChanged 0 = true → setHas s.stationChanged 0 = true
  desk : desk → t.slots = s.slots ∧ t.submission = s.submission ∧ t.window = s.window
  shown : t.window.snapshot = s.window.snapshot
  fills : t.fills = s.fills
  held : t.resetHeld = true → s.resetHeld = true

/-- A station comes ONLINE (R128). -/
def cameOnline (s : State) (st : Station) : State :=
  (s.changeState st .online).modStation st fun e => { e with missCount := 0, freshOwed := false }

/-- A BARRED station is let in again (R131). -/
def letIn (s : State) (st : Station) : State :=
  (s.modStation st fun e => { e with freshOwed := true }).changeState st .offline

/-- One touch. `desk` says that the slots and the notice window stay, `banks` that the sweep banks do. -/
inductive Touch (desk banks : Prop) (s : State) : State → Prop
  | plain {t : State} (h : Plain desk s t) : Touch desk banks s t
  | engine (l : Link) {f : LinkEngine → LinkEngine} (h : EngineTouch banks (s.link l) (f (s.link l))) :
      Touch desk banks s (s.modLink l f)
  | entry (st : Station) {f : StationEntry → StationEntry} (h : EntryTouch st (s.station st) (f (s.station st))) :
      Touch desk banks s (s.modStation st f)
  | online (st : Station) (h : (s.station st).state = .offline) : Touch desk banks s (cameOnline s st)
  | leave (st : Station) (h : (s.station st).state = .online) : Touch desk banks s (s.leave st)
  | bar (st : Station) (h : (s.station st).state = .offline) : Touch desk banks s (s.changeState st .barred)
  | unbar (st : Station) (h : (s.station st).state = .barred) : Touch desk banks s (letIn s st)

/-- Touches, one after the other. -/
def Touches (desk banks : Prop) : State → State → Prop := Relation.ReflTransGen (Touch desk banks)

section
variable {desk banks : Prop} {s t u : State}

theorem Plain.refl (s : State) : Plain desk s s :=
  ⟨rfl, rfl, rfl, rfl, rfl, rfl, rfl, .inl rfl, fun _ => ⟨id, id⟩, id, fun _ => ⟨rfl, rfl, rfl⟩, rfl, rfl, id⟩

/-- A step that differs in none of the fields that the claims look at. -/
theorem Plain.setCause (c : Cause) (s : State) : Plain desk s (setCause c s) :=
  ⟨rfl, rfl, rfl, rfl, rfl, rfl, rfl, .inl rfl, fun _ => ⟨id, id⟩, id, fun _ => ⟨rfl, rfl, rfl⟩, rfl, rfl, id⟩

theorem EngineTouch.of_visit {e e' : LinkEngine} (hvisit : e'.visit = e.visit) (hbanks : banks → e'.banks = e.banks) :
    EngineTouch banks e e' :=
  ⟨fun v hv => .inr ⟨v, by rwa [← hvisit], rfl, fun _ => .inl⟩, hbanks⟩

theorem EngineTouch.of_none {e e' : LinkEngine} (hvisit : e'.visit = none) (hbanks : e'.banks = e.banks) :
    EngineTouch banks e e' :=
  ⟨fun v hv => absurd hv (by rw [hvisit]; simp), fun _ => hbanks⟩

namespace Touches

theorem one (h : Touch desk banks s t) : Touches desk banks s t := .single h

theorem refl (s : State) : Touches desk banks s s := Relation.ReflTransGen.refl

theorem then_ (h1 : Touches desk banks s t) (h2 : Touches desk banks t u) : Touches desk banks s u :=
  Relation.ReflTransGen.trans h1 h2

theorem ite {c : Prop} [Decidable c] (h1 : c → Touches desk banks s t) (h2 : ¬ c → Touches desk banks s u) :
    Touches desk banks s (if c then t else u) := by
  split
  next h => exact h1 h
  next h => exact h2 h

theorem setCause (c : Cause) (s : State) : Touches desk banks s (setCause c s) := one (.plain (.setCause c s))

/-- An engine changed but in its visit and its banks. -/
theorem gear (s : State) (l : Link) {f : LinkEngine → LinkEngine} (hvisit : ∀ e, (f e).visit = e.visit)
    (hbanks : ∀ e, (f e).banks = e.banks) : Touches desk banks s (s.modLink l f) :=
  one (.engine l (.of_visit (hvisit _) fun _ => hbanks _))

theorem modCounters (s : State) (l : Link) (f : LinkCounters → LinkCounters) :
    Touches desk banks s (s.modCounters l f) := gear s l (fun _ => rfl) fun _ => rfl

theorem dropVisit (s : State) (l : Link) {f : LinkEngine → LinkEngine} (hvisit : ∀ e, (f e).visit = none)
    (hbanks : ∀ e, (f e).banks = e.banks) : Touches desk banks s (s.modLink l f) :=
  one (.engine l (.of_none (hvisit _) (hbanks _)))

theorem modVisit (s : State) (l : Link) {f : Visit → Visit} (hstation : ∀ v, (f v).station = v.station)
    (hreply : ∀ v, HeldFrom (v.reply.bind (·.request)) ((f v).reply.bind (·.request))) :
    Touches desk banks s (s.modVisit l f) := by
  refine one (.engine l ⟨fun v' hv' => ?_, fun _ => rfl⟩)
  obtain ⟨v, hv, rfl⟩ := Option.mem_map.1 hv'
  exact .inr ⟨v, hv, hstation v, hreply v⟩

theorem keepReply {v v' : Visit} (h : v'.reply = v.reply) :
    HeldFrom (v.reply.bind (·.request)) (v'.reply.bind (·.request)) := by
  rw [h]
  exact fun _ => .inl

/-! ## Departures -/

theorem leave_state (s : State) (st x : Station) :
    ((s.leave st).station x).state = if x = st then .leaving else (s.station x).state := by
  rw [leave_station]
  split <;> rfl

theorem leaveAll {sts : List Station} (hnodup : sts.Nodup) {s : State}
    (honline : ∀ st ∈ sts, (s.station st).state = .online) : Touches desk banks s (s.leaveAll sts) := by
  induction sts generalizing s with
  | nil => exact refl s
  | cons st rest ih =>
    obtain ⟨hfresh, hrest⟩ := List.nodup_cons.1 hnodup
    refine then_ (one (.leave st (honline st List.mem_cons_self))) (ih hrest fun x hx => ?_)
    have hx' : x ≠ st := fun he => hfresh (he ▸ hx)
    rw [leave_state, if_neg hx']
    exact honline x (List.mem_cons_of_mem st hx)

theorem leaveOnline (s : State) (l : Link) (p : Station → Bool) :
    Touches desk banks s (s.leaveAll (onlineStations s l p)) := by
  refine leaveAll ((List.nodup_finRange 31).filter _) fun st hst => ?_
  have := (List.mem_filter.1 hst).2
  simp only [onlineOn, Bool.and_eq_true, decide_eq_true_eq] at this
  exact this.1.1

/-! ## Links -/

theorem takeSwitch (s : State) (l : Link) : Touches desk banks s (s.takeSwitch l) :=
  have hswitch := gear s l (f := fun e => { e with activeBank := e.activeBank + 1, switchRequest := false, walk := 0 })
    (fun _ => rfl) fun _ => rfl
  then_ (then_ hswitch (setCause (.bank l) _)) (leaveOnline _ l _)

theorem wrap (s : State) (l : Link) : Touches desk banks s (s.wrap l) :=
  have hwalk := gear s l (f := fun e => { e with walk := 0 }) (fun _ => rfl) fun _ => rfl
  ite (fun _ => then_ hwalk (takeSwitch _ l)) fun _ => hwalk

theorem advance (s : State) (l : Link) : Touches desk banks s (s.advance l) :=
  ite (fun _ => wrap s l) fun _ => gear s l (fun _ => rfl) fun _ => rfl

theorem completeStop (s : State) (l : Link) : Touches desk banks s (s.completeStop l) := by
  have hstop : Touches desk banks s (s.modLink l fun e => { e with state := .stopped, visit := none, walk := 0 }) :=
    dropVisit s l (fun _ => rfl) fun _ => rfl
  have h := then_ hstop (then_ (leaveOnline _ l fun _ => true) (setCause (.linkStopped l) _))
  exact ite (fun _ => then_ h (takeSwitch _ l)) fun _ => h

theorem endVisit (s : State) (l : Link) : Touches desk banks s (s.endVisit l) :=
  have hdrop := dropVisit s l (f := fun e => { e with visit := none }) (fun _ => rfl) fun _ => rfl
  ite (fun _ => then_ hdrop (completeStop _ l)) fun _ => then_ hdrop (advance _ l)

theorem buildVisit (s : State) (l : Link) (n : Option Snapshot) : Touches desk banks s (s.buildVisit l n) :=
  modVisit s l (fun _ => rfl) fun _ => keepReply rfl

theorem enterRequest (s : State) (l : Link) : Touches desk banks s (s.enterRequest l) := by
  unfold State.enterRequest
  split
  · exact refl s
  next v hvisit =>
    split
    · exact refl s
    next reply hreply =>
      split
      · exact endVisit s l
      · split
        next t hrepeat =>
          have honline : (s.station v.station).state = .online := by
            unfold repeatOf at hrepeat
            split at hrepeat
            · split at hrepeat
              next h => exact (of_decide_eq_true h.1).1
              · cases hrepeat
            · cases hrepeat
          have hresult := modVisit (desk := desk) (banks := banks) s l
            (f := fun v => { v with phase := .sendResult, result := some t }) (fun _ => rfl) fun _ => keepReply rfl
          refine then_ (then_ hresult (modCounters _ l fun c => { c with repeats := c.repeats + 1 })) ?_
          refine one (.entry v.station ⟨rfl, rfl, rfl, rfl, .inl rfl, fun _ hlocal => ?_⟩)
          simp only [State.modVisit, State.modCounters, modLink_station, honline] at hlocal
          cases hlocal
        · exact modVisit s l (fun _ => rfl) fun _ => keepReply rfl

theorem beginVisit (s : State) (l : Link) {st : Station} (hst : st ≠ 0) :
    Touches desk banks s (beginVisit l st s) := by
  unfold Machine.beginVisit
  refine one (.engine l ⟨fun v hv => .inl ?_, fun _ => rfl⟩)
  cases hv
  exact ⟨rfl, hst⟩

theorem entryMeaning_remote {code : Fin 32} {st : Station} (h : entryMeaning code = .station st) : st ≠ 0 := by
  unfold entryMeaning at h
  split_ifs at h with hzero hlow
  cases h
  intro hst
  have hval : code.val = 0 := congrArg Fin.val hst
  exact hzero (Fin.ext hval)

theorem walk (l : Link) (s : State) : Touches desk banks s (walkEffect l s) := by
  refine ite (fun _ => ?_) fun _ => refl s
  split
  · exact wrap s l
  · exact advance s l
  next st hentry =>
    unfold walkStation
    split
    · exact advance s l
    · refine ite (fun _ => then_ (modCounters s l _) (advance _ l)) fun _ => ?_
      split
      · exact advance s l
      · exact advance s l
      · exact beginVisit s l (entryMeaning_remote hentry)
      · exact beginVisit s l (entryMeaning_remote hentry)
      · exact advance s l

/-! ## Tries and frames -/

theorem missStation (l : Link) (st : Station) (s : State) : Touches desk banks s (missStation l st s) := by
  refine ite (fun honline => ?_) fun _ => refl s
  have hstate : (s.station st).state = .online := (of_decide_eq_true honline).1
  have hmiss : Touches desk banks s (s.modStation st fun e => { e with missCount := e.missCount + 1 }) := by
    refine one (.entry st ⟨rfl, rfl, rfl, rfl, .inl rfl, fun _ hlocal => ?_⟩)
    rw [hstate] at hlocal
    cases hlocal
  refine ite (fun _ => then_ hmiss (one (.leave st ?_))) fun _ => hmiss
  rw [modStation_station, if_pos rfl]
  exact hstate

theorem missVisit (l : Link) (st : Station) (s : State) : Touches desk banks s (missVisit l st s) :=
  then_ (modCounters s l _) (then_ (missStation l st _) (endVisit _ l))

theorem failTry (l : Link) (s : State) : Touches desk banks s (failTry l s) := by
  unfold Machine.failTry
  split
  · exact refl s
  · have hagain := modVisit (desk := desk) (banks := banks) s l
      (f := fun v => { v with tryNumber := v.tryNumber + 1, phase := .sendVisit }) (fun _ => rfl) fun _ => keepReply rfl
    exact ite (fun _ => then_ hagain (modCounters _ l fun c => { c with retries := c.retries + 1 }))
      fun _ => missVisit l _ s

theorem badFrame (l : Link) (w : Bool) (s : State) : Touches desk banks s (badFrame l w s) :=
  ite (fun _ => then_ (modCounters s l _) (failTry l _)) fun _ => modCounters s l _

theorem strayFrame (l : Link) (w : Bool) (s : State) : Touches desk banks s (strayFrame l w s) :=
  ite (fun _ => then_ (modCounters s l _) (failTry l _)) fun _ => modCounters s l _

theorem replyStation (l : Link) (st : Station) (s : State) : Touches desk banks s (replyStation l st s) := by
  refine ite (fun h => one (.online st h.1)) fun _ => ite (fun honline => ?_) fun _ => refl s
  refine one (.entry st ⟨rfl, rfl, rfl, rfl, .inl rfl, fun _ hlocal => ?_⟩)
  rw [(of_decide_eq_true honline).1] at hlocal
  cases hlocal

theorem validReply (l : Link) (st : Station) {reply : Reply} (hreply : ∀ q ∈ reply.request, RequestOk q) (s : State) :
    Touches desk banks s (validReply l st reply s) := by
  have h := then_ (modCounters (desk := desk) (banks := banks) s l fun c => { c with goodReplies := c.goodReplies + 1 })
    (then_ (replyStation l st _) (modVisit _ l (f := fun v => { v with phase := .ack, reply := some reply })
      (fun _ => rfl) fun _ q hq => .inr (hreply q hq)))
  unfold Machine.validReply
  split
  · exact h
  · exact then_ h (enterRequest _ l)

theorem toNat_wordOf_zero (n : Byte) : (wordOf n 0).toNat = n.toNat := by
  have happend : ((0 : Byte) ++ n).toNat = n.toNat := by
    rw [BitVec.toNat_append]
    simp
  exact happend

/-- A WRITE of a REPLY counts the octets of its value, and a PIN of one carries none (R151). -/
theorem parseArguments_sound {code : Byte} {point : Word} {expect : Bool} {octets : List Byte} {q : Request}
    (h : parseArguments code point expect octets = some q) : RequestOk q := by
  intro hcode _
  unfold parseArguments at h
  dsimp only at h
  split at h
  · have hvalue {n : Byte} {value : List Byte} (hn : value.length = n.toNat) : (wordOf n 0).toNat ≤ value.length := by
      rw [toNat_wordOf_zero, hn]
    split at h
    · split at h
      next hn => cases h; exact hvalue hn
      next => cases h
    · split at h
      next hn => cases h; exact hvalue hn
      next => cases h
    · cases h
  next hwrite =>
    have hpin {q : Request} (hq : q.code = code) (hcode : q.code = 2 ∨ q.code = 10) : code = 10 :=
      hq ▸ hcode.resolve_left fun h => hwrite (hq ▸ h)
    split at h
    next hother =>
      split at h
      · cases h
        exact absurd (hpin rfl hcode) (by rw [hother]; decide)
      · cases h
    next =>
      split at h
      next hother =>
        split at h
        · cases h
          have := hpin rfl hcode
          rw [this] at hother
          exact absurd hother (by decide)
        · cases h
      next =>
        split at h
        · cases h
          exact Nat.zero_le _
        · cases h

theorem parseReply_sound {flags : Byte} {payload : List Byte} {reply : Reply}
    (h : parseReply flags payload = some reply) : ∀ q ∈ reply.request, RequestOk q := by
  have hafter {ack : Option NoticeId} {rest : List Byte} (h : parseAfterAck ack flags rest = some reply) :
      ∀ q ∈ reply.request, RequestOk q := by
    unfold parseAfterAck at h
    split at h
    · obtain ⟨q, hq, rfl⟩ := Option.map_eq_some_iff.1 h
      rintro _ ⟨⟩
      unfold parseRequest at hq
      split at hq
      · exact parseArguments_sound hq
      · cases hq
    · split at h
      · cases h
        exact nofun
      · cases h
  unfold parseReply at h
  split at h
  · split at h
    · exact hafter h
    · cases h
  · exact hafter h

theorem frameReceived (l : Link) (a ty f : Byte) (p : List Byte) (lo hi : Byte) (s : State) :
    Touches desk banks s (frameReceivedEffect l a ty f p lo hi s) := by
  unfold frameReceivedEffect wholeFrame
  split
  · exact refl s
  · refine then_ (gear s l (f := fun e => { e with receiver := .hunting }) (fun _ => rfl) fun _ => rfl)
      (ite (fun _ => badFrame l _ _) fun _ => ite (fun _ => ?_) fun _ => strayFrame l _ _)
    split
    next st reply hreply =>
      refine validReply l st (fun q hq => ?_) _
      unfold replyOf at hreply
      split at hreply
      · cases hreply
      · split at hreply
        · obtain ⟨r, hparse, hpair⟩ := Option.map_eq_some_iff.1 hreply
          cases hpair
          exact parseReply_sound hparse q hq
        · cases hreply
    · exact strayFrame l _ _

theorem frameBroken (l : Link) (s : State) : Touches desk banks s (frameBrokenEffect l s) := by
  unfold frameBrokenEffect
  split
  · exact refl s
  · exact then_ (gear s l (f := fun e => { e with receiver := .hunting }) (fun _ => rfl) fun _ => rfl) (badFrame l _ _)

theorem replyTimeout (l : Link) (s : State) : Touches desk banks s (replyTimeoutEffect l s) :=
  ite (fun _ => then_ (modCounters s l _) (failTry l _)) fun _ => refl s

theorem startOctet (l : Link) (octet : Byte) (stopBit : Bool) (s : State) :
    Touches desk banks s (startOctetEffect l octet stopBit s) :=
  ite (fun _ => gear s l (f := fun e => { e with receiver := .inFrame (windowOpen e) }) (fun _ => rfl) fun _ => rfl)
    fun _ => refl s

theorem sendVisit (l : Link) (s : State) : Touches desk banks s (sendVisitEffect l s) :=
  have hsend := gear s l (f := fun e => { e with sending := e.visit.map visitFrame }) (fun _ => rfl) fun _ => rfl
  ite (fun _ => then_ hsend (modCounters _ l _)) fun _ => refl s

theorem visitSent (l : Link) (s : State) : Touches desk banks s (visitSentEffect l s) :=
  have hsent := gear s l (f := fun e => { e with sending := none }) (fun _ => rfl) fun _ => rfl
  ite (fun _ => then_ hsent (modVisit _ l (f := fun v => { v with phase := .awaitReply }) (fun _ => rfl)
    fun _ => keepReply rfl)) fun _ => refl s

theorem sendResult (l : Link) (s : State) : Touches desk banks s (sendResultEffect l s) :=
  ite (fun _ => gear s l (f := fun e => { e with sending := e.visit.bind fun v => v.result.map (resultFrame v.station) })
    (fun _ => rfl) fun _ => rfl) fun _ => refl s

theorem resultSent (l : Link) (s : State) : Touches desk banks s (resultSentEffect l s) :=
  have hsent := gear s l (f := fun e => { e with sending := none }) (fun _ => rfl) fun _ => rfl
  ite (fun _ => then_ hsent (endVisit _ l)) fun _ => refl s

/-! ## The sweep window -/

theorem switchControl (l : Link) (b : Bool) (s : State) : Touches desk banks s (switchControl l b s) :=
  have hset := gear s l (f := fun e => { e with switchRequest := true }) (fun _ => rfl) fun _ => rfl
  ite (fun _ => ite (fun _ => then_ hset (takeSwitch _ l)) fun _ => hset)
    fun _ => gear s l (f := fun e => { e with switchRequest := false }) (fun _ => rfl) fun _ => rfl

theorem runControl (l : Link) (b : Bool) (s : State) : Touches desk banks s (runControl l b s) := by
  unfold Machine.runControl
  split
  · exact gear s l (f := fun e => { e with state := .running, walk := 0 }) (fun _ => rfl) fun _ => rfl
  · have hstop := gear (desk := desk) (banks := banks) s l (f := fun e => { e with state := .stopping }) (fun _ => rfl)
      fun _ => rfl
    exact ite (fun _ => then_ hstop (completeStop _ l)) fun _ => hstop
  · exact setCause _ s
  all_goals exact refl s

theorem linkControl (r b : Bool) (s : State) : Touches desk banks s (linkControl r b s) :=
  then_ (switchControl _ b s) (runControl _ r _)

theorem parameter (w : LinkParameter) (v : Word) (s : State) : Touches desk banks s (parameterEffect w v s) := by
  refine ite (fun _ => ?_) fun _ => setCause _ s
  split
  next e he =>
    have hkept : e.visit = (s.link s.linkSelect).visit ∧ e.banks = (s.link s.linkSelect).banks := by
      unfold storeParameter at he
      split at he
      · split at he
        · cases he
          exact ⟨rfl, rfl⟩
        · cases he
      all_goals
        cases he
        exact ⟨rfl, rfl⟩
    exact one (.engine s.linkSelect (.of_visit hkept.1 fun _ => hkept.2))
  · exact setCause _ s

theorem counterWrite (w : LinkCounter) (s : State) : Touches desk banks s (counterWriteEffect w s) :=
  modCounters s _ _

/-! ## The station window -/

theorem assignment (v : Word) (s : State) : Touches desk banks s (assignmentEffect v s) := by
  unfold assignmentEffect
  dsimp only
  split
  · exact setCause _ s
  · have hassign (hstate : (s.station s.stationSelect).state ≠ .local_) :
        Touches desk banks s (s.modStation s.stationSelect fun e => { e with link := assignmentOf v.toNat }) :=
      one (.entry _ ⟨rfl, rfl, rfl, rfl, .inl rfl, fun _ hlocal => absurd hlocal hstate⟩)
    split
    next h => exact hassign (by simp [h])
    next h => exact hassign (by simp [h])
    all_goals exact setCause _ s

theorem bar (s : State) : Touches desk banks s (barEffect s) := by
  unfold barEffect
  dsimp only
  split
  · exact setCause _ s
  · have hmark (hstate : (s.station s.stationSelect).state = .online ∨ (s.station s.stationSelect).state = .leaving)
        : Touches desk banks s (s.modStation s.stationSelect fun e => { e with barredMark := true }) :=
      one (.entry _ ⟨rfl, rfl, rfl, rfl, .inr hstate, fun _ hlocal => by
        rw [hlocal] at hstate
        obtain h | h := hstate <;> cases h⟩)
    split
    next h =>
      refine then_ (hmark (.inl h)) (one (.leave _ ?_))
      rw [modStation_station, if_pos rfl]
      exact h
    next h => exact hmark (.inr h)
    next h => exact one (.bar _ h)
    all_goals exact refl s

theorem unbar (s : State) : Touches desk banks s (unbarEffect s) := by
  unfold unbarEffect
  dsimp only
  split
  · exact setCause _ s
  · split
    next h =>
      refine one (.entry _ ⟨rfl, rfl, rfl, rfl, .inr (.inr h), fun _ hlocal => ?_⟩)
      rw [h] at hlocal
      cases hlocal
    next h => exact one (.unbar _ h)
    all_goals exact refl s

theorem stationCounter (which : StationCounter) (s : State) : Touches desk banks s (stationCounterEffect which s) := by
  refine one (.entry _ ⟨?_, ?_, ?_, ?_, .inl ?_, fun _ _ => .inr ⟨which, rfl⟩⟩) <;> cases which <;> rfl

/-! ## Plain registers -/

theorem select (w : Select) (v : Word) (s : State) : Touches desk banks s (selectEffect w v s) := by
  cases w <;> simp only [selectEffect]
  all_goals
    split
    · exact one (.plain ⟨rfl, rfl, rfl, rfl, rfl, rfl, rfl, .inl rfl, fun _ => ⟨id, id⟩, id, fun _ => ⟨rfl, rfl, rfl⟩,
        rfl, rfl, id⟩)
    · exact setCause _ s

theorem leaseMax (v : Word) (s : State) : Touches desk banks s (leaseMaxEffect v s) := by
  refine one (.plain ⟨rfl, rfl, rfl, rfl, rfl, rfl, rfl, .inr ⟨?_, ?_⟩, fun _ => ⟨id, id⟩, id, fun _ => ⟨rfl, rfl, rfl⟩,
    rfl, rfl, id⟩)
  · exact le_max_left _ _
  · exact max_le (by decide) (min_le_right _ _)

theorem changed (high : Bool) (v : Word) (s : State) : Touches desk banks s (changedWriteEffect high v s) := by
  refine one (.plain
    ⟨rfl, rfl, rfl, rfl, rfl, rfl, rfl, .inl rfl, fun _ => ⟨id, id⟩, fun h => ?_, fun _ => ⟨rfl, rfl, rfl⟩, rfl, rfl, id⟩)
  simp only [changedWriteEffect, setHas, BitVec.getLsbD_and, Bool.and_eq_true] at h
  exact h.1

theorem fence (field : FenceField) (v : Word) (s : State) : Touches desk banks s (fenceEffect field v s) := by
  refine one (.plain ⟨rfl, rfl, rfl, rfl, rfl, rfl, rfl, .inl rfl, fun i => ?_, id, fun _ => ⟨rfl, rfl, rfl⟩, rfl, rfl, id⟩)
  simp only [fenceEffect, State.modFence, Fin.getElem_fin, Vector.getElem_set]
  split
  next hi =>
    have hfence : s.fences[s.fenceSelect.val] = s.fences[i.val] := by simp only [hi]
    rw [hfence]
    cases field <;> simp [storeFence, setHas_setOfWords_zero]
  next => exact ⟨id, id⟩

theorem monitorLook (s : State) : Touches desk banks s (monitorLook s) := by
  rw [monitorLook_eq]
  exact one (.plain ⟨rfl, rfl, rfl, rfl, rfl, rfl, rfl, .inl rfl, fun _ => ⟨id, id⟩, id, fun _ => ⟨rfl, rfl, rfl⟩,
    rfl, rfl, id⟩)

theorem entryValue (v : Word) (s : State) (hbanks : ¬ banks) : Touches desk banks s (entryEffect v s) := by
  unfold entryEffect
  split
  · exact ite (fun _ => setCause _ s) fun _ => one (.engine _ (.of_visit rfl fun h => absurd h hbanks))
  · exact setCause _ s

/-! ## Slots and the notice window -/

section
variable (hdesk : ¬ desk) (k : Fin 4)
include hdesk

/-- The slots, their queue and the notice window alone differ. -/
theorem atDesk {slots : Vector Slot 4} {submission : List (Fin 4)} {window : NoticeWindow} (s : State)
    (hshown : window.snapshot = s.window.snapshot) :
    Touches desk banks s { s with slots, submission, window } :=
  one (.plain ⟨rfl, rfl, rfl, rfl, rfl, rfl, rfl, .inl rfl, fun _ => ⟨id, id⟩, id, fun h => absurd h hdesk, hshown, rfl,
    id⟩)

theorem go (code : Byte) (e f : Bool) (s : State) : Touches desk banks s (goEffect k code e f s) :=
  ite (fun _ => atDesk hdesk s rfl) fun _ => setCause _ s

theorem cancel (code : Byte) (e f : Bool) (s : State) : Touches desk banks s (cancelEffect k code e f s) := by
  unfold cancelEffect
  split
  · exact then_ (atDesk hdesk s rfl) (setCause _ _)
  · exact refl s
  all_goals exact atDesk hdesk s rfl

theorem clear (code : Byte) (e f : Bool) (s : State) : Touches desk banks s (clearEffect k code e f s) := by
  unfold clearEffect
  split
  · exact atDesk hdesk s rfl
  · exact atDesk hdesk s rfl
  all_goals exact setCause _ s

theorem slotWrite (w : SlotWord) (v : Word) (s : State) : Touches desk banks s (slotWriteEffect k w v s) :=
  ite (fun _ => atDesk hdesk s rfl) fun _ => setCause _ s

theorem slotWord (w : SlotWord) (v : Word) (s : State) : Touches desk banks s (slotWordWrite k w v s) := by
  cases w
  case op =>
    simp only [slotWordWrite, opWordWrite]
    split
    · exact slotWrite hdesk k _ v s
    · exact go hdesk k _ _ _ s
    · exact cancel hdesk k _ _ _ s
    · exact clear hdesk k _ _ _ s
    · exact setCause _ s
  all_goals exact slotWrite hdesk k _ v s

theorem take (s : State) : Touches desk banks s (takeEffect s) :=
  ite (fun _ => setCause _ s) fun _ => atDesk hdesk s rfl

theorem ack (s : State) : Touches desk banks s (ackEffect s) :=
  ite (fun _ => setCause _ s) fun _ => atDesk hdesk s rfl

end

end Touches

end

/-! ## The commands -/

/-- The writes to the request slots and to the notice window. -/
def isDeskWrite : Instr → Bool
  | .go _ _ _ _ | .cancel _ _ _ _ | .clear _ _ _ _ | .slotParameterWrite _ _ _ | .take | .ack => true
  | _ => false

/-- A write to a sweep bank. -/
def isEntryWrite : Instr → Bool
  | .entryValueWrite _ => true
  | _ => false

theorem effectOf_touches {c : Instr} (hc : touchesDirectory c = false) (hgrant : c ≠ .grant) (s : State) :
    Touches (isDeskWrite c = false) (isEntryWrite c = false) s (effectOf c s) := by
  have hplain {t : State} (h : Plain (isDeskWrite c = false) s t) :
      Touches (isDeskWrite c = false) (isEntryWrite c = false) s t := .one (.plain h)
  cases c
  case grant => exact absurd rfl hgrant
  case read | write | create | retire | claim | release | subscribe | unsubscribe | next | pin | unpin | purge
      | noticeFetch | noticeAck | expire | clearChunk | fullReset | softReset | registerWrite => cases hc
  case deadlineDue => exact .monitorLook s
  case walkEntry l => exact .walk l s
  case sendVisit l => exact .sendVisit l s
  case visitFrameSent l => exact .visitSent l s
  case frameReceived l a ty f p lo hi => exact .frameReceived l a ty f p lo hi s
  case frameBroken l b => exact .frameBroken l s
  case replyTimeout l => exact .replyTimeout l s
  case sendResult l => exact .sendResult l s
  case resultFrameSent l => exact .resultSent l s
  case startOctetReceived l o b => exact .startOctet l o b s
  case go k code e f => exact .go nofun k code e f s
  case cancel k code e f => exact .cancel nofun k code e f s
  case clear k code e f => exact .clear nofun k code e f s
  case slotParameterWrite k w v => exact .slotWord nofun k w v s
  case take => exact .take nofun s
  case ack => exact .ack nofun s
  case stationChangedWrite b v => exact .changed b v s
  case leaseMaxWrite v => exact .leaseMax v s
  case selectWrite w v => exact .select w v s
  case linkAssignmentWrite v => exact .assignment v s
  case bar => exact .bar s
  case unbar => exact .unbar s
  case stationCounterWrite w v => exact .stationCounter w s
  case fenceWrite f v => exact .fence f v s
  case entryValueWrite v => exact .entryValue v s nofun
  case run b => exact .linkControl _ _ s
  case runCleared b => exact .linkControl _ _ s
  case switch b => exact .linkControl _ _ s
  case switchWithdraw b => exact .linkControl _ _ s
  case linkParameterWrite w v => exact .parameter w v s
  case linkCounterWrite w h v => exact .counterWrite w s
  case resetRelease =>
    exact hplain ⟨rfl, rfl, rfl, rfl, rfl, rfl, rfl, .inl rfl, fun _ => ⟨id, id⟩, id, fun _ => ⟨rfl, rfl, rfl⟩, rfl, rfl,
      fun h => absurd h Bool.false_ne_true⟩
  all_goals
    exact hplain
      ⟨rfl, rfl, rfl, rfl, rfl, rfl, rfl, .inl rfl, fun _ => ⟨id, id⟩, id, fun _ => ⟨rfl, rfl, rfl⟩, rfl, rfl, id⟩

end Sys2Proof.Machine
end

