-- ==== Sys2Proof/Proofs/Grants.lean ====
section
/-! The arbiter (R36 to R43): what the requesters present, the first of them in the cyclic order, and what a grant does. -/

namespace Sys2Proof.Machine

open Sys2Proof.Spec

/-! ## What is presented -/

/-- The operations that the state has waiting, by what makes them wait (R36, R37). -/
inductive Presents (s : State) : Requester → Origin → Work → Prop
  | link (l : Link) {w : Work} (hwork : ((s.link l).visit.bind visitWork) = some w)
      (hidle : runningFor s (.link l) = false) : Presents s (match l with | .a => .linkA | .b => .linkB) (.link l) w
  | fetch (h : s.window.waiting = some .fetch) : Presents s .local_ .window (.noticeFetch 0)
  | ack (h : s.window.waiting = some .ack) : Presents s .local_ .window (.noticeAck 0 (windowId s))
  | slot {k : Fin 4} {rest : List (Fin 4)} (hwindow : s.window.waiting = none) (h : s.submission = k :: rest) :
      Presents s .local_ (.slot k) (.request 0 (slotRequest s.slots[k]))
  | expire (h : s.expirePresented = true) : Presents s .deadline .deadline .expire
  | chunk {st : Station} {rest : List Station} (h : s.clearQueue = st :: rest) (hidle : runningFor s .clear = false) :
      Presents s .clear .clear (.clearChunk st s.clearProgress)

section
variable {s : State} {o : Origin} {w : Work} {r : Requester}

theorem presents_of_linkPresented {l : Link} (h : linkPresented s l = some (o, w)) :
    o = .link l ∧ ((s.link l).visit.bind visitWork) = some w ∧ runningFor s (.link l) = false := by
  unfold linkPresented at h
  split at h
  · cases h
  next hidle =>
    obtain ⟨w', hw, hpair⟩ := Option.map_eq_some_iff.1 h
    cases hpair
    exact ⟨rfl, hw, Bool.eq_false_iff.2 hidle⟩

theorem presents_of_presented (h : presented s r = some (o, w)) : Presents s r o w := by
  cases r with
  | linkA =>
    obtain ⟨rfl, hwork, hidle⟩ := presents_of_linkPresented h
    exact .link .a hwork hidle
  | linkB =>
    obtain ⟨rfl, hwork, hidle⟩ := presents_of_linkPresented h
    exact .link .b hwork hidle
  | local_ =>
    have hlocal : localPresented s = some (o, w) := h
    unfold localPresented at hlocal
    split at hlocal
    next hwaiting => cases hlocal; exact .fetch hwaiting
    next hwaiting => cases hlocal; exact .ack hwaiting
    next hwaiting =>
      split at hlocal
      next hqueue => cases hlocal; exact .slot hwaiting hqueue
      next => cases hlocal
  | deadline =>
    have hdeadline : (if s.expirePresented then some (Origin.deadline, Work.expire) else none) = some (o, w) := h
    split at hdeadline
    next hpresented => cases hdeadline; exact .expire hpresented
    next => cases hdeadline
  | clear =>
    have hclear : clearPresented s = some (o, w) := h
    unfold clearPresented at hclear
    split at hclear
    next hqueue =>
      split at hclear
      · cases hclear
      next hidle => cases hclear; exact .chunk hqueue (Bool.eq_false_iff.2 hidle)
    next => cases hclear

/-- A visit waits for an operation of its own station, of a kind that links present (R36, R154, R159, R161). -/
theorem visitWork_some {v : Visit} {w : Work} (h : visitWork v = some w) :
    workStation w = some v.station ∧ ∀ l, originFits (.link l) w = true := by
  unfold visitWork at h
  split at h
  · cases h
    exact ⟨rfl, fun _ => rfl⟩
  · obtain ⟨id, -, rfl⟩ := Option.map_eq_some_iff.1 h
    exact ⟨rfl, fun _ => rfl⟩
  · obtain ⟨q, -, rfl⟩ := Option.map_eq_some_iff.1 h
    exact ⟨rfl, fun _ => rfl⟩
  all_goals cases h

/-! ## The first waiting -/

theorem nthFrom_succ (p : Requester) (n : Nat) : nthFrom p (n + 1) = nthFrom (nextRequester p) n := rfl

/-- The search finds the first requester from the pointer on that presents something. -/
theorem firstWaiting_eq_some_iff {n : Nat} {p : Requester} :
    firstWaiting s n p = some (r, o, w) ↔
      presented s r = some (o, w) ∧ ∃ m, m < n ∧ nthFrom p m = r ∧ ∀ j < m, presented s (nthFrom p j) = none := by
  induction n generalizing p with
  | zero => simp [firstWaiting]
  | succ n ih =>
    unfold firstWaiting
    cases hp : presented s p with
    | some x =>
      obtain ⟨o', w'⟩ := x
      constructor
      · intro h
        cases h
        exact ⟨hp, 0, Nat.succ_pos n, rfl, nofun⟩
      · rintro ⟨hr, m, -, hm, hbefore⟩
        cases m with
        | zero =>
          have hsame : p = r := hm
          subst hsame
          rw [hp] at hr
          cases hr
          rfl
        | succ m =>
          have hfirst : presented s p = none := hbefore 0 (Nat.succ_pos m)
          rw [hp] at hfirst
          cases hfirst
    | none =>
      dsimp only
      rw [ih]
      refine and_congr_right fun hr => ⟨?_, ?_⟩
      · rintro ⟨m, hm, hnth, hbefore⟩
        refine ⟨m + 1, Nat.succ_lt_succ hm, hnth, fun j hj => ?_⟩
        cases j with
        | zero => exact hp
        | succ j => exact hbefore j (Nat.lt_of_succ_lt_succ hj)
      · rintro ⟨m, hm, hnth, hbefore⟩
        cases m with
        | zero =>
          have hsame : p = r := hnth
          subst hsame
          rw [hp] at hr
          cases hr
        | succ m =>
          exact ⟨m, Nat.lt_of_succ_lt_succ hm, hnth, fun j hj => hbefore (j + 1) (Nat.succ_lt_succ hj)⟩

theorem firstWaiting_of_first (h : FirstWaiting s r o w) : firstWaiting s 5 s.pointer = some (r, o, w) := by
  obtain ⟨hr, n, hnth, hbefore⟩ := h
  exact firstWaiting_eq_some_iff.2 ⟨hr, n.val, n.isLt, hnth, fun j hj => hbefore ⟨j, hj.trans n.isLt⟩ hj⟩

theorem firstWaiting_none {n : Nat} {p : Requester} (h : ∀ r, presented s r = none) : firstWaiting s n p = none := by
  induction n generalizing p with
  | zero => rfl
  | succ n ih => rw [firstWaiting, h p]; exact ih

/-- A grant does nothing, starts what the first waiting requester presents, or refuses it. -/
theorem grantEffect_cases (s : State) :
    grantEffect s = s ∨ (s.running = none ∧ ∃ r o w, presented s r = some (o, w) ∧
      ((grantRefusal s o w = none ∧
          grantEffect s = startWork o w (leaveRequester o { s with pointer := nextRequester r })) ∨
        ∃ code, grantRefusal s o w = some code ∧
          grantEffect s =
            monitorLook (refuseAtGrant o w code (leaveRequester o { s with pointer := nextRequester r })))) := by
  unfold grantEffect
  split
  next => exact .inl rfl
  next hfree =>
    split
    next => exact .inl rfl
    next r o w hfirst =>
      refine .inr ⟨by simpa using hfree, r, o, w, (firstWaiting_eq_some_iff.1 hfirst).1, ?_⟩
      split
      next hpass => exact .inl ⟨hpass, rfl⟩
      next code hcode => exact .inr ⟨code, hcode, rfl⟩

end

/-! ## The grants (O9, O10, O11) -/

section
variable {s : State} {r : Requester} {o : Origin} {w : Work}

theorem standingOk_eq (s : State) (o : Origin) (w : Work) : standingOk s o w = standingGood s o w := by
  cases o with
  | link l => cases hst : workStation w <;> simp [standingOk, standingGood, hst, onlineOn]
  | slot | window | deadline | clear => rfl

theorem workCodeOk_eq (o : Origin) (w : Work) : workCodeOk o w = codeGood o w := by
  cases w with
  | request st q => cases o <;> rfl
  | noticeFetch | noticeAck | expire | clearChunk => rfl

theorem grantEffect_of_passed (hfree : s.running = none) (hfirst : firstWaiting s 5 s.pointer = some (r, o, w))
    (hpass : grantRefusal s o w = none) :
    grantEffect s = startWork o w (leaveRequester o { s with pointer := nextRequester r }) := by
  rw [grantEffect, if_neg (by simp [hfree])]
  simp only [hfirst, hpass]

theorem grantEffect_of_refused (hfree : s.running = none) (hfirst : firstWaiting s 5 s.pointer = some (r, o, w))
    {code : ResultCode} (hrefuse : grantRefusal s o w = some code) :
    grantEffect s =
      monitorLook (refuseAtGrant o w code (leaveRequester o { s with pointer := nextRequester r })) := by
  rw [grantEffect, if_neg (by simp [hfree])]
  simp only [hfirst, hrefuse]

theorem exec_grant_of_passed (h : GrantTo s r o w) (hpass : grantRefusal s o w = none) :
    exec .grant s = .next (startWork o w (leaveRequester o { s with pointer := nextRequester r })) := by
  obtain ⟨hreleased, hfree, hfirst⟩ := h
  rw [← grantEffect_of_passed hfree (firstWaiting_of_first hfirst) hpass]
  exact exec_released hreleased .grant

theorem exec_grant_of_refused (h : GrantTo s r o w) {code : ResultCode} (hrefuse : grantRefusal s o w = some code) :
    exec .grant s =
      .next (monitorLook (refuseAtGrant o w code (leaveRequester o { s with pointer := nextRequester r }))) := by
  obtain ⟨hreleased, hfree, hfirst⟩ := h
  rw [← grantEffect_of_refused hfree (firstWaiting_of_first hfirst) hrefuse]
  exact exec_released hreleased .grant

end

/-- Settles O9: the search finds the first waiting, and both checks pass. -/
theorem grantStartsTheFirstWaiting : Obligations.GrantStartsTheFirstWaiting := by
  refine ⟨⟨rfl, rfl, rfl, rfl, rfl⟩, fun s r o w hgrant hstanding hcode => ?_, fun s hidle => ?_⟩
  · have hpass : grantRefusal s o w = none := by
      simp [grantRefusal, standingOk_eq, workCodeOk_eq, hstanding, hcode]
    rw [exec_grant_of_passed hgrant hpass]
    cases o <;> rfl
  · cases hheld : s.resetHeld with
    | true => rw [exec_eq_next, hheld]; rfl
    | false =>
      have heffect : effectOf .grant s = s := by
        change grantEffect s = s
        unfold grantEffect
        obtain hrunning | hnone := hidle
        · rw [if_pos hrunning]
        · rw [firstWaiting_none hnone]
          exact ite_self s
      rw [exec_released hheld, heffect]

/-- Settles O10: the standing check comes first, and its refusal completes at the link. -/
theorem grantRefusesStationsNotOnline : Obligations.GrantRefusesStationsNotOnline := by
  intro s r l w hgrant hstanding s1
  have hrefuse : grantRefusal s (.link l) w = some .notOnline := by
    simp [grantRefusal, standingOk_eq, hstanding]
  have hfree : s1.running = none := hgrant.2.1
  rw [exec_grant_of_refused hgrant hrefuse]
  change Host.Outcome.next (monitorLook (refuseAtGrant (.link l) w .notOnline s1)) = _
  congr 1
  cases w with
  | request st q =>
    have hdeliver : refuseAtGrant (.link l) (.request st q) .notOnline s1 =
        (s1.modLink l fun e => linkWith e q (plain .notOnline)).modStation st
          fun e => { e with refusals := e.refusals + 1 } := by
      cases l <;> rfl
    rw [hdeliver]
    exact monitorLook_eq_looked (by simpa using hfree)
  | noticeFetch st =>
    exact monitorLook_eq_looked (by simpa [refuseAtGrant, deliverFetch, State.buildVisit, State.modVisit] using hfree)
  | noticeAck st id =>
    have hdeliver : refuseAtGrant (.link l) (.noticeAck st id) .notOnline s1 = ackHanded s1 (.link l) := by
      rw [refuseAtGrant, deliverAck_eq_ackHanded]
    rw [hdeliver]
    exact monitorLook_eq_looked ((ackHanded_running _ _).trans hfree)
  | expire => exact monitorLook_eq_looked hfree
  | clearChunk => exact monitorLook_eq_looked hfree

/-- A request refused at its grant leaves the counts and the notices of every station alone. -/
theorem refused_stationsKept (o : Origin) (st : Station) (q : Request) (res : Result) (u : State) :
    StationsKept u (monitorLook (deliver o st q res u)) := by
  intro x
  obtain ⟨-, -, -, -, hcounts⟩ := (Quiet.deliver o st q res u).trans (Quiet.monitorLook _)
  obtain ⟨hclaims, hsubscriptions, hpending⟩ := hcounts x
  obtain ⟨hcursor, hinflight⟩ := deliver_notices o st q res u x
  rw [monitorLook_eq] at hclaims hsubscriptions hpending ⊢
  exact ⟨hclaims, hsubscriptions, hpending, hcursor, hinflight⟩

/-- The look of a refused request, with what its requester gets. -/
theorem refused_frame (o : Origin) (st : Station) (q : Request) (res : Result) {u : State} (hfree : u.running = none) :
    ∃ t, monitorLook (deliver o st q res u) = t ∧
      t = looked { u with
        stations := t.stations, linkA := t.linkA, linkB := t.linkB, slots := t.slots
        causes := u.causes ||| answerCause o } := by
  obtain ⟨stations, linkA, linkB, slots, hdeliver⟩ := deliver_frame o st q res u
  have hrunning : (deliver o st q res u).running = none := by rw [hdeliver]; exact hfree
  refine ⟨_, rfl, ?_⟩
  rw [monitorLook_eq_looked hrunning, hdeliver]
  rfl

/-- Settles O11: the standing check passes and the code check does not; a slot or a link gets BAD_OP. -/
theorem grantRefusesBadCodes : Obligations.GrantRefusesBadCodes := by
  intro s r o st q hgrant hstanding hcode
  have hrefuse : grantRefusal s o (.request st q) = some .badOp := by
    simp [grantRefusal, standingOk_eq, workCodeOk_eq, hstanding, hcode]
  have hpresents := presents_of_presented hgrant.2.2.1
  have hexec := exec_grant_of_refused hgrant hrefuse
  have hfree := hgrant.2.1
  clear hgrant
  generalize nextRequester r = pointer at hexec ⊢
  generalize hw : Work.request st q = w at hpresents
  cases hpresents with
  | link l hwork hidle =>
    subst hw
    obtain ⟨t, ht, hframe⟩ := refused_frame (.link l) st q (plain .badOp)
      (u := { s with pointer }) hfree
    have hanswers := answered_monitorLook (deliver_answers (s := s) (u := { s with pointer })
      ⟨rfl, rfl, rfl, fun _ => ⟨rfl, rfl, rfl⟩⟩ q (plain .badOp) (.link l) st)
    have hkept := refused_stationsKept (.link l) st q (plain .badOp) { s with pointer }
    rw [ht] at hanswers hkept
    refine ⟨t, hexec.trans (congrArg _ ht), ?_, hkept, hanswers⟩
    have hcause : s.causes ||| answerCause (.link l) = s.causes := BitVec.or_zero
    dsimp only at hframe
    rw [hcause] at hframe
    exact hframe
  | @slot k rest hwindow hqueue =>
    cases hw
    obtain ⟨t, ht, hframe⟩ := refused_frame (.slot k) 0 (slotRequest s.slots[k]) (plain .badOp)
      (u := leaveRequester (.slot k) { s with pointer }) hfree
    obtain ⟨hslots, hlinkA, hlinkB, hcause, hstations⟩ := answered_monitorLook
      (deliver_answers (RequestersKept.refl (leaveRequester (.slot k) { s with pointer }))
        (slotRequest s.slots[k]) (plain .badOp) (.slot k) 0)
    have hkept := refused_stationsKept (.slot k) 0 (slotRequest s.slots[k]) (plain .badOp)
      (leaveRequester (.slot k) { s with pointer })
    rw [ht] at hslots hlinkA hlinkB hcause hstations hkept
    refine ⟨t, hexec.trans (congrArg _ ht), hframe, hkept, ?_, hlinkA, hlinkB, hcause, hstations⟩
    rw [hslots]
    simp [leaveRequester, State.modSlot, slotWith]
  | fetch | ack | expire | chunk => cases hw

/-! ## Who else waits (O12) -/

/-- A step on behalf of link `l` alone: what the other requesters present stays as it was. -/
structure Aside (l : Link) (s t : State) : Prop where
  link : ∀ l', l' ≠ l → t.link l' = s.link l'
  slots : t.slots = s.slots
  submission : t.submission = s.submission
  window : t.window = s.window
  expire : t.expirePresented = s.expirePresented
  progress : t.clearProgress = s.clearProgress
  queue : s.clearQueue <+: t.clearQueue
  running : t.running = s.running
  pointer : t.pointer = s.pointer

namespace Aside

variable {l : Link} {s t u : State}

theorem refl (s : State) : Aside l s s := ⟨fun _ _ => rfl, rfl, rfl, rfl, rfl, rfl, List.prefix_refl _, rfl, rfl⟩

theorem trans (h1 : Aside l s t) (h2 : Aside l t u) : Aside l s u where
  link l' hl := (h2.link l' hl).trans (h1.link l' hl)
  slots := h2.slots.trans h1.slots
  submission := h2.submission.trans h1.submission
  window := h2.window.trans h1.window
  expire := h2.expire.trans h1.expire
  progress := h2.progress.trans h1.progress
  queue := h1.queue.trans h2.queue
  running := h2.running.trans h1.running
  pointer := h2.pointer.trans h1.pointer

theorem ite {c : Prop} [Decidable c] (h1 : Aside l s t) (h2 : Aside l s u) : Aside l s (if c then t else u) := by
  split <;> assumption

theorem modLink (s : State) (l : Link) (f : LinkEngine → LinkEngine) : Aside l s (s.modLink l f) := by
  refine ⟨fun l' hl => ?_, by simp, by simp, by simp, by simp, by simp, by simp, by simp, by simp⟩
  cases l <;> cases l' <;> first | rfl | exact absurd rfl hl

theorem modStation (s : State) (st : Station) (f : StationEntry → StationEntry) : Aside l s (s.modStation st f) :=
  ⟨fun l' _ => by cases l' <;> rfl, rfl, rfl, rfl, rfl, rfl, List.prefix_refl _, rfl, rfl⟩

theorem setCause (c : Cause) (s : State) : Aside l s (setCause c s) :=
  ⟨fun l' _ => by cases l' <;> rfl, rfl, rfl, rfl, rfl, rfl, List.prefix_refl _, rfl, rfl⟩

theorem leave (s : State) (st : Station) : Aside l s (s.leave st) := by
  rw [leave_eq]
  exact ⟨fun l' _ => by cases l' <;> rfl, rfl, rfl, rfl, rfl, rfl, List.prefix_append _ _, rfl, rfl⟩

theorem leaveAll (s : State) (sts : List Station) : Aside l s (s.leaveAll sts) := by
  induction sts generalizing s with
  | nil => exact refl s
  | cons st rest ih => exact (leave s st).trans (ih (s.leave st))

theorem takeSwitch (s : State) : Aside l s (s.takeSwitch l) :=
  ((modLink s l _).trans (setCause _ _)).trans (leaveAll _ _)

theorem wrap (s : State) : Aside l s (s.wrap l) := ite ((modLink s l _).trans (takeSwitch _)) (modLink s l _)

theorem advance (s : State) : Aside l s (s.advance l) := ite (wrap s) (modLink s l _)

theorem completeStop (s : State) : Aside l s (s.completeStop l) := by
  have h := ((modLink s l fun e => { e with state := .stopped, visit := none, walk := 0 }).trans
    (leaveAll _ (onlineStations (s.modLink l fun e => { e with state := .stopped, visit := none, walk := 0 }) l
      fun _ => true))).trans (setCause (.linkStopped l) _)
  exact ite (h.trans (takeSwitch _)) h

theorem endVisit (s : State) : Aside l s (s.endVisit l) :=
  ite ((modLink s l _).trans (completeStop _)) ((modLink s l _).trans (advance _))

theorem enterRequest (s : State) : Aside l s (s.enterRequest l) := by
  unfold State.enterRequest
  split
  · exact refl s
  · split
    · exact refl s
    · split
      · exact endVisit s
      · split
        · exact ((modLink s l _).trans (modLink _ l _)).trans (modStation _ _ _)
        · exact modLink s l _

theorem completeLinkRequest (st : Station) (q : Request) (res : Result) (s : State) :
    Aside l s (Machine.completeLinkRequest l st q res s) := by
  unfold Machine.completeLinkRequest State.modVisit
  exact (modLink s l _).trans (modStation _ st _)

theorem buildVisit (n : Option Snapshot) (s : State) : Aside l s (s.buildVisit l n) := by
  unfold State.buildVisit State.modVisit
  exact modLink s l _

/-- A refusal at a grant, handed to a link. -/
theorem refuseAtGrant (w : Work) (code : ResultCode) (s : State) :
    Aside l s (Machine.refuseAtGrant (.link l) w code s) := by
  cases w with
  | request st q => exact completeLinkRequest st q _ s
  | noticeFetch st => exact buildVisit none s
  | noticeAck st id => exact enterRequest s
  | expire | clearChunk => exact refl s

end Aside

/-- The requester whose block an operation comes from (R36). -/
def requesterOf : Origin → Requester
  | .link .a => .linkA
  | .link .b => .linkB
  | .slot _ | .window => .local_
  | .deadline => .deadline
  | .clear => .clear

/-- A step on behalf of requester `r` alone: what the others present stays. -/
structure Elsewhere (r : Requester) (s t : State) : Prop where
  link : ∀ l, requesterOf (.link l) ≠ r → t.link l = s.link l
  desk : r ≠ .local_ → t.slots = s.slots ∧ t.submission = s.submission ∧ t.window = s.window
  expire : r ≠ .deadline → s.expirePresented = true → t.expirePresented = true
  progress : t.clearProgress = s.clearProgress
  queue : s.clearQueue <+: t.clearQueue
  running : ∀ g ∈ t.running, requesterOf g.origin = r

section
variable {s t u : State} {r r' : Requester} {o : Origin} {w : Work}

theorem presents_origin (h : Presents s r o w) : requesterOf o = r := by
  cases h with
  | link l => cases l <;> rfl
  | fetch | ack | slot | expire | chunk => rfl

theorem runningFor_of_elsewhere (h : Elsewhere r' s t) (hr : r ≠ r') (ho : requesterOf o = r) :
    runningFor t o = false := by
  unfold runningFor
  cases hrunning : t.running with
  | none => rfl
  | some g =>
    refine decide_eq_false fun hsame => hr ?_
    cases hsame
    rw [← ho, h.running g hrunning]

/-- A requester that another's grant did not touch still presents what it presented. -/
theorem presented_of_elsewhere (h : Elsewhere r' s t) (hr : r ≠ r') (hs : presented s r = some (o, w)) :
    presented t r = some (o, w) := by
  have hpresents := presents_of_presented hs
  have hidle := runningFor_of_elsewhere h hr (presents_origin hpresents)
  cases hpresents with
  | link l hwork _ =>
    have hlink : t.link l = s.link l := h.link l (by cases l <;> exact hr)
    have hpresented : linkPresented t l = some (.link l, w) := by
      rw [linkPresented, if_neg (by rw [hidle]; exact Bool.false_ne_true), hlink, hwork]
      rfl
    cases l <;> exact hpresented
  | fetch hwaiting =>
    obtain ⟨-, -, hwindow⟩ := h.desk hr.symm
    have hpresented : localPresented t = some (.window, .noticeFetch 0) := by
      simp only [localPresented, hwindow, hwaiting]
    exact hpresented
  | ack hwaiting =>
    obtain ⟨-, -, hwindow⟩ := h.desk hr.symm
    have hpresented : localPresented t = some (.window, .noticeAck 0 (windowId s)) := by
      simp only [localPresented, windowId, hwindow, hwaiting]
    exact hpresented
  | @slot k rest hwaiting hqueue =>
    obtain ⟨hslots, hsubmission, hwindow⟩ := h.desk hr.symm
    have hpresented : localPresented t = some (.slot k, .request 0 (slotRequest s.slots[k])) := by
      simp only [localPresented, hwindow, hwaiting, hsubmission, hqueue, hslots]
    exact hpresented
  | expire hpresented => exact if_pos (h.expire hr.symm hpresented)
  | @chunk st rest hqueue _ =>
    obtain ⟨more, hmore⟩ := h.queue
    have hpresented : clearPresented t = some (.clear, .clearChunk st s.clearProgress) := by
      rw [hqueue, List.cons_append] at hmore
      simp only [clearPresented, ← hmore, hidle, h.progress, Bool.false_eq_true, if_false]
    exact hpresented

theorem elsewhere_looked (h : Elsewhere r s t) : Elsewhere r s (monitorLook t) := by
  have hlink (l : Link) : (monitorLook t).link l = t.link l := by rw [monitorLook_eq]; cases l <;> rfl
  refine ⟨fun l hl => (hlink l).trans (h.link l hl), ?_, fun hr hs => ?_, ?_, ?_, ?_⟩ <;> rw [monitorLook_eq]
  · exact h.desk
  · simp only [h.expire hr hs, Bool.true_or]
  · exact h.progress
  · exact h.queue
  · exact h.running

theorem elsewhere_started (p : Requester) (ho : requesterOf o = r) :
    Elsewhere r s (startWork o w (leaveRequester o { s with pointer := p })) := by
  have hrunning : ∀ g ∈ (startWork o w (leaveRequester o { s with pointer := p })).running, requesterOf g.origin = r := by
    rintro g ⟨⟩
    exact ho
  subst ho
  cases o with
  | link l =>
    exact ⟨fun l' _ => by cases l' <;> rfl, fun _ => ⟨rfl, rfl, rfl⟩, fun _ => id, rfl, List.prefix_refl _, hrunning⟩
  | slot k =>
    exact ⟨fun l' _ => by cases l' <;> rfl, fun h => absurd rfl h, fun _ => id, rfl, List.prefix_refl _, hrunning⟩
  | window =>
    exact ⟨fun l' _ => by cases l' <;> rfl, fun h => absurd rfl h, fun _ => id, rfl, List.prefix_refl _, hrunning⟩
  | deadline =>
    exact ⟨fun l' _ => by cases l' <;> rfl, fun _ => ⟨rfl, rfl, rfl⟩, fun h => absurd rfl h, rfl, List.prefix_refl _,
      hrunning⟩
  | clear =>
    exact ⟨fun l' _ => by cases l' <;> rfl, fun _ => ⟨rfl, rfl, rfl⟩, fun _ => id, rfl, List.prefix_refl _, hrunning⟩

theorem elsewhere_refused (p : Requester) (code : ResultCode) (hfree : s.running = none)
    (hpresents : Presents s r o w) (hrefused : grantRefusal s o w = some code) :
    Elsewhere r s (monitorLook (refuseAtGrant o w code (leaveRequester o { s with pointer := p }))) := by
  refine elsewhere_looked ?_
  cases hpresents with
  | link l =>
    have h := Aside.refuseAtGrant (l := l) w code { s with pointer := p }
    have hlink (l' : Link) (hl : l' ≠ l) : { s with pointer := p }.link l' = s.link l' := by cases l' <;> rfl
    refine ⟨fun l' hl => ?_, fun _ => ⟨h.slots, h.submission, h.window⟩, fun _ hs => h.expire.trans hs, h.progress,
      h.queue, ?_⟩
    · have hother : l' ≠ l := by
        rintro rfl
        cases l' <;> exact hl rfl
      exact (h.link l' hother).trans (hlink l' hother)
    · have hrunning := h.running.trans hfree
      intro g hg
      have hsome := hrunning.symm.trans hg
      cases hsome
  | slot =>
    refine ⟨fun l' _ => by cases l' <;> rfl, fun h => absurd rfl h, fun _ => id, rfl, List.prefix_refl _, ?_⟩
    intro g hg
    have hsome := hfree.symm.trans hg
    cases hsome
  | fetch | ack | expire | chunk => simp [grantRefusal, standingOk, workCodeOk] at hrefused

theorem refused_pointer (p : Requester) (code : ResultCode) (hpresents : Presents s r o w)
    (hrefused : grantRefusal s o w = some code) :
    (monitorLook (refuseAtGrant o w code (leaveRequester o { s with pointer := p }))).pointer = p := by
  rw [monitorLook_eq]
  cases hpresents with
  | link l => exact (Aside.refuseAtGrant (l := l) w code { s with pointer := p }).pointer
  | slot => rfl
  | fetch | ack | expire | chunk => simp [grantRefusal, standingOk, workCodeOk] at hrefused

/-- A grant moves the pointer past the first waiting requester and touches no other. -/
theorem grantEffect_elsewhere (hfree : s.running = none) (hr : presented s r = some (o, w))
    (hfirst : firstWaiting s 5 s.pointer = some (r, o, w)) :
    (grantEffect s).pointer = nextRequester r ∧ Elsewhere r s (grantEffect s) := by
  have hpresents := presents_of_presented hr
  cases hrefused : grantRefusal s o w with
  | none =>
    rw [grantEffect_of_passed hfree hfirst hrefused]
    refine ⟨?_, elsewhere_started _ (presents_origin hpresents)⟩
    cases o <;> rfl
  | some code =>
    rw [grantEffect_of_refused hfree hfirst hrefused]
    exact ⟨refused_pointer _ code hpresents hrefused, elsewhere_refused _ code hfree hpresents hrefused⟩

/-- When a requester waits, the search finds one. -/
theorem firstWaiting_isSome {p : Requester} {n m : Nat} (hm : m < n) (h : presented s (nthFrom p m) = some (o, w)) :
    ∃ x, firstWaiting s n p = some x := by
  induction n generalizing p m with
  | zero => exact absurd hm (Nat.not_lt_zero m)
  | succ n ih =>
    unfold firstWaiting
    cases hp : presented s p with
    | some x => exact ⟨_, rfl⟩
    | none =>
      cases m with
      | zero =>
        have hfirst : presented s p = some (o, w) := h
        rw [hp] at hfirst
        cases hfirst
      | succ m => exact ih (Nat.lt_of_succ_lt_succ hm) h

end

/-! ## The cyclic order -/

theorem nthFrom_add (p : Requester) (m n : Nat) : nthFrom p (m + n) = nthFrom (nthFrom p m) n := by
  induction m generalizing p with
  | zero => rw [Nat.zero_add]; rfl
  | succ m ih => rw [Nat.succ_add, nthFrom_succ, nthFrom_succ, ih]

theorem exists_nthFrom (p r : Requester) : ∃ n : Fin 5, nthFrom p n = r := by
  cases p <;> cases r <;> decide

/-- Settles O12: the grant goes to the first waiting, and every other stays where it was, nearer to the pointer. -/
theorem grantNearsEveryWaitingRequester : Obligations.GrantNearsEveryWaitingRequester := by
  rintro s r ⟨o, w⟩ hreleased hfree hr
  refine ⟨grantEffect s, exec_released hreleased .grant, ?_⟩
  obtain ⟨n, hn⟩ := exists_nthFrom s.pointer r
  obtain ⟨⟨r', o', w'⟩, hfirst⟩ := firstWaiting_isSome n.isLt (hn.symm ▸ hr)
  obtain ⟨hr', m, hm, hnth, hbefore⟩ := firstWaiting_eq_some_iff.1 hfirst
  obtain ⟨hpointer, helsewhere⟩ := grantEffect_elsewhere hfree hr' hfirst
  by_cases hsame : r = r'
  · exact .inl (hsame ▸ hpointer)
  · refine .inr ⟨presented_of_elsewhere helsewhere hsame hr, ⟨n.val - (m + 1), by omega⟩, n, ?_, hn, ?_⟩
    all_goals
      have hne : n.val ≠ m := by
        rintro rfl
        exact hsame (hn.symm.trans hnth)
      have hafter : ¬ n.val < m := by
        intro hlt
        have hnone := hbefore n.val hlt
        rw [hn, hr] at hnone
        cases hnone
    · have hnext : nextRequester r' = nthFrom s.pointer (m + 1) := by
        rw [nthFrom_add, hnth]
        rfl
      rw [hpointer, hnext, ← nthFrom_add]
      have hsum : m + 1 + (n.val - (m + 1)) = n.val := by omega
      rw [hsum, hn]
    · exact Fin.lt_def.2 (by dsimp only; omega)

end Sys2Proof.Machine
end

