-- ==== Sys2Proof/Proofs/Kinds.lean ====
section
/-! The commands by kind: touches outside the directory, the grant, the completion of the operation in progress, and the
resets. A safety claim is kept by every step when each kind keeps it. -/

namespace Sys2Proof.Machine

open Sys2Proof.Spec

/-! ## What a touch changes -/

section
variable {desk banks : Prop} {s t : State}

theorem Plain.mono {desk' : Prop} (hdesk : desk' → desk) (h : Plain desk s t) : Plain desk' s t :=
  { h with desk := fun hd => h.desk (hdesk hd) }

theorem Touch.mono {desk' banks' : Prop} (hdesk : desk' → desk) (hbanks : banks' → banks) (h : Touch desk banks s t) :
    Touch desk' banks' s t := by
  cases h with
  | plain h => exact .plain (h.mono hdesk)
  | engine l h => exact .engine l ⟨h.visits, fun hb => h.banks (hbanks hb)⟩
  | entry st h => exact .entry st h
  | online st h => exact .online st h
  | leave st h => exact .leave st h
  | bar st h => exact .bar st h
  | unbar st h => exact .unbar st h

/-- A property that every touch keeps is kept by touches. -/
theorem Touches.keeps {P : State → Prop} (hP : ∀ s t, Touch desk banks s t → P s → P t) (h : Touches desk banks s t)
    (hs : P s) : P t := by
  induction h with
  | refl => exact hs
  | tail _ htouch ih => exact hP _ _ htouch ih

/-- The station table, the clear queue, the station-changed set and the causes alone differ. -/
def StationsAlone (s t : State) : Prop :=
  ∃ stations clearQueue stationChanged causes, t = { s with stations, clearQueue, stationChanged, causes }

/-- A touch is plain, of an engine, or of the station table. -/
theorem Touch.kinds (h : Touch desk banks s t) :
    Plain desk s t ∨ (∃ l f, EngineTouch banks (s.link l) (f (s.link l)) ∧ t = s.modLink l f) ∨ StationsAlone s t := by
  cases h with
  | plain h => exact .inl h
  | engine l h => exact .inr (.inl ⟨l, _, h, rfl⟩)
  | entry st h => exact .inr (.inr ⟨_, _, _, _, rfl⟩)
  | online st h => exact .inr (.inr ⟨_, _, _, _, rfl⟩)
  | leave st h => exact .inr (.inr ⟨_, _, _, _, leave_eq s st⟩)
  | bar st h => exact .inr (.inr ⟨_, _, _, _, rfl⟩)
  | unbar st h => exact .inr (.inr ⟨_, _, _, _, rfl⟩)

end

/-! ## Completions -/

/-- The completion of the operation `g` in progress, by its work (R40, R53, R97, R137). -/
inductive Completion (s : State) (g : Granted) : State → Prop
  | request {st : Station} {q : Request} {u : State} (hwork : g.work = .request st q)
      (hchange : RecordChange (RequestSound g q) (some st) s u) (n : Nat) (res : Result) :
      Completion s g (monitorLook (deliver g.origin st q res (poolLowTest n { u with running := none })))
  | fetch {st : Station} {found : Option Record} (hwork : g.work = .noticeFetch st) :
      Completion s g
        (monitorLook (deliverFetch g.origin (found.map snapshotOf) (fetchMark st found { s with running := none })))
  | ack {st : Station} {id : NoticeId} (hwork : g.work = .noticeAck st id) :
      Completion s g (monitorLook (deliverAck g.origin (ackNotice st id { s with running := none })))
  | expire (hwork : g.work = .expire) :
      Completion s g (monitorLook (expireHead g.now { s with running := none }))
  | chunk {st : Station} {k : Fin 16} (hwork : g.work = .clearChunk st k) :
      Completion s g (monitorLook (clearChunkOn st k { s with running := none }))

/-- Changes of records and nothing else, one after the other. -/
def RecordChanges (ctx : Prop) (who : Option Station) : State → State → Prop :=
  Relation.ReflTransGen (RecordChange ctx who)

theorem RecordChanges.keeps {ctx : Prop} {who : Option Station} {P : State → Prop} {s t : State}
    (hP : ∀ s t, RecordChange ctx who s t → P s → P t) (h : RecordChanges ctx who s t) (hs : P s) : P t := by
  induction h with
  | refl => exact hs
  | tail _ hchange ih => exact hP _ _ hchange ih

/-- A chunk on its slots is a run of changes of records. -/
theorem clearSlots_changes {ctx : Prop} {who : Option Station} {st : Station} (slots : List Nat) {s : State} :
    RecordChanges ctx who s (slots.foldl (clearSlot st) s) := by
  induction slots generalizing s with
  | nil => exact .refl
  | cons n rest ih => exact .trans (.single (clearSlot_change n)) ih

/-! ## The kinds of command -/

/-- The command completes work of this kind (R40). -/
def completes (c : Instr) : Work → Bool
  | .request _ _ => (codeOf c).isSome
  | .noticeFetch _ => c = .noticeFetch
  | .noticeAck _ _ => c = .noticeAck
  | .expire => c = .expire
  | .clearChunk _ _ => c = .clearChunk

theorem finishRequest_kinds {c : Instr} {code : Byte} (hc : codeOf c = some code) (s : State) :
    finishRequest code (opOf c) s = s ∨ ∃ g, s.running = some g ∧ completes c g.work = true ∧
      Completion s g (finishRequest code (opOf c) s) := by
  unfold finishRequest
  split
  next => exact .inl rfl
  next g hrunning =>
    split
    next st q hwork =>
      split
      next hcode =>
        have hfits : completes c g.work = true := by
          rw [hwork, completes, hc]
          rfl
        exact .inr ⟨g, hrunning, hfits,
          .request hwork (opOf_change (hc.trans (congrArg some hcode.symm)) st s) s.freeCells _⟩
      next => exact .inl rfl
    all_goals exact .inl rfl

theorem effectOf_kinds {c : Instr} (hbus : isBusWrite c = false) (s : State) :
    isReset c = true ∨ (touchesDirectory c = false ∧ c ≠ .grant) ∨ c = .grant ∨ effectOf c s = s ∨
      ∃ g, s.running = some g ∧ completes c g.work = true ∧ Completion s g (effectOf c s) := by
  cases hreset : isReset c with
  | true => exact .inl rfl
  | false =>
    by_cases hgrant : c = .grant
    · exact .inr (.inr (.inl hgrant))
    cases htouches : touchesDirectory c with
    | false => exact .inr (.inl ⟨rfl, hgrant⟩)
    | true =>
      refine .inr (.inr (.inr ?_))
      cases hcode : codeOf c with
      | some code =>
        rw [effectOf_request hcode]
        exact finishRequest_kinds hcode s
      | none =>
        cases c <;> simp only [codeOf, touchesDirectory, isBusWrite, isReset, reduceCtorEq] at hcode htouches hbus hreset
        case noticeFetch =>
          change noticeFetchEffect s = s ∨
            ∃ g, s.running = some g ∧ completes .noticeFetch g.work = true ∧ Completion s g (noticeFetchEffect s)
          unfold noticeFetchEffect
          split
          next => exact .inl rfl
          next g hrunning =>
            split
            next st hwork => exact .inr ⟨g, hrunning, by rw [hwork]; rfl, .fetch hwork⟩
            all_goals exact .inl rfl
        case noticeAck =>
          change noticeAckEffect s = s ∨
            ∃ g, s.running = some g ∧ completes .noticeAck g.work = true ∧ Completion s g (noticeAckEffect s)
          unfold noticeAckEffect
          split
          next => exact .inl rfl
          next g hrunning =>
            split
            next st id hwork => exact .inr ⟨g, hrunning, by rw [hwork]; rfl, .ack hwork⟩
            all_goals exact .inl rfl
        case expire =>
          change expireEffect s = s ∨
            ∃ g, s.running = some g ∧ completes .expire g.work = true ∧ Completion s g (expireEffect s)
          unfold expireEffect
          split
          next => exact .inl rfl
          next g hrunning =>
            split
            next hwork => exact .inr ⟨g, hrunning, by rw [hwork]; rfl, .expire hwork⟩
            all_goals exact .inl rfl
        case clearChunk =>
          change clearChunkEffect s = s ∨
            ∃ g, s.running = some g ∧ completes .clearChunk g.work = true ∧ Completion s g (clearChunkEffect s)
          unfold clearChunkEffect
          split
          next => exact .inl rfl
          next g hrunning =>
            split
            next st k hwork => exact .inr ⟨g, hrunning, by rw [hwork]; rfl, .chunk hwork⟩
            all_goals exact .inl rfl

/-- A property is kept by every step when each kind of command keeps it. With `D`, touches are those that leave the slots
and the notice window alone, and the writes to those are shown apart. -/
theorem step_keeps_by_kind {P Q : State → Prop} {D : Prop}
    (hQ : ∀ (u : State) (l : List Instr), Q u → Q { u with pending := l })
    (htouch : ∀ u v, Touch D False u v → P u → P v)
    (hdesk : ∀ (c : Instr) (u : State), D → isDeskWrite c = true → P u → P (effectOf c u))
    (hreset : ∀ (c : Instr) (u : State), isReset c = true → Q u → P u → P (effectOf c u))
    (hgrant : ∀ u, Q u → P u → P (grantEffect u))
    (hcompletion : ∀ u g v, u.running = some g → Q u → Completion u g v → P u → P v)
    {s t : State} (hs : Q s) (h : P s) (hstep : step s = .next t) : P t := by
  have hplain {u v : State} (h : Plain D u v) : P u → P v := htouch u v (.plain h)
  have hqueue (u : State) (l : List Instr) : Plain D u { u with pending := l } :=
    ⟨rfl, rfl, rfl, rfl, rfl, rfl, rfl, .inl rfl, fun _ => ⟨id, id⟩, id, fun _ => ⟨rfl, rfl, rfl⟩, rfl, rfl, id⟩
  have hlines (u : State) : Plain D u { u with dataLines := 0 } :=
    ⟨rfl, rfl, rfl, rfl, rfl, rfl, rfl, .inl rfl, fun _ => ⟨id, id⟩, id, fun _ => ⟨rfl, rfl, rfl⟩, rfl, rfl, id⟩
  refine step_keeps hQ (fun u l => hplain (hqueue u l)) (fun u => hplain (hlines u))
    (fun u => hplain (.setCause .portFault u)) (fun c u hbus hmeets hu hP => ?_) hs h hstep
  obtain hr | ⟨hc, hne⟩ | rfl | hsame | ⟨g, hrunning, -, hdone⟩ := effectOf_kinds hbus u
  · exact hreset c u hr hu hP
  · by_cases hd : D ∧ isDeskWrite c = true
    · exact hdesk c u hd.1 hd.2 hP
    · have hkept : D → isDeskWrite c = false := fun hD => Bool.eq_false_iff.2 fun hw => hd ⟨hD, hw⟩
      exact (effectOf_touches hc hne u).keeps (fun _ _ hone => htouch _ _ (hone.mono hkept False.elim)) hP
  · exact hgrant u hu hP
  · rwa [hsame]
  · exact hcompletion u g _ hrunning hu hdone hP

end Sys2Proof.Machine
end

