-- ==== Sys2Proof/Proofs/Sources.lean ====
section
/-! What a record may be made from (O52): LEASE_MAX, the request in progress and the requests that links hold stay in
order. -/

namespace Sys2Proof.Machine

open Sys2Proof.Spec

/-! ## The sources of records -/

/-- LEASE_MAX, the request in progress and the requests held are in order. -/
structure SourcesOk (s : State) : Prop where
  lease : 1 ≤ s.leaseMax ∧ s.leaseMax ≤ Config.maxLeaseMax
  granted : ∀ g ∈ s.running, 1 ≤ g.leaseMax ∧ g.leaseMax ≤ Config.maxLeaseMax
  request : ∀ q ∈ runningRequest s, RequestOk q
  held : ∀ l, ∀ q ∈ heldRequest (s.link l), RequestOk q

theorem recordsOk_iff (s : State) : RecordsOk s ↔ (∀ r ∈ s.index, RecordOk r) ∧ SourcesOk s := by
  constructor
  · rintro ⟨hrecords, hlease, hgranted, hrequest, hA, hB⟩
    exact ⟨hrecords, hlease, hgranted, hrequest, fun l => by cases l; exacts [hA, hB]⟩
  · rintro ⟨hrecords, h⟩
    exact ⟨hrecords, h.lease, h.granted, h.request, h.held .a, h.held .b⟩

theorem SourcesOk.runSound {s : State} (h : SourcesOk s) : RunSound s := fun g hg q hq =>
  ⟨h.request q hq, (h.granted g hg).1, (h.granted g hg).2⟩

section
variable {s t : State}

theorem SourcesOk.of_fields (h : SourcesOk s) (hlease : t.leaseMax = s.leaseMax) (hrunning : t.running = s.running)
    (hlinks : ∀ l, t.link l = s.link l) : SourcesOk t where
  lease := by rw [hlease]; exact h.lease
  granted := by rw [hrunning]; exact h.granted
  request := by rw [runningRequest, hrunning]; exact h.request
  held l := by rw [hlinks]; exact h.held l

theorem SourcesOk.free (h : SourcesOk s) : SourcesOk { s with running := none } where
  lease := h.lease
  granted := nofun
  request := nofun
  held := h.held

theorem SourcesOk.touch {desk banks : Prop} (htouch : Touch desk banks s t) (h : SourcesOk s) : SourcesOk t := by
  obtain hplain | ⟨l, f, hengine, rfl⟩ | ⟨v, q, c, k, rfl⟩ := htouch.kinds
  · have hlinks : ∀ l, t.link l = s.link l := fun l => by cases l; exacts [hplain.linkA, hplain.linkB]
    refine ⟨?_, by rw [hplain.running]; exact h.granted, by rw [runningRequest, hplain.running]; exact h.request,
      fun l => by rw [hlinks]; exact h.held l⟩
    obtain hsame | hbounds := hplain.leaseMax
    · rw [hsame]
      exact h.lease
    · exact hbounds
  · refine ⟨by simpa using h.lease, by simpa using h.granted, by simpa [runningRequest] using h.request, fun l' q hq => ?_⟩
    rw [modLink_link] at hq
    split at hq
    next =>
      obtain ⟨v', hv', hreq⟩ := Option.bind_eq_some_iff.1 hq
      obtain ⟨hnone, -⟩ | ⟨v, hv, -, hheld⟩ := hengine.visits v' hv'
      · rw [hnone] at hreq
        cases hreq
      · obtain hbefore | hsound := hheld q hreq
        · exact h.held l q (Option.bind_eq_some_iff.2 ⟨v, hv, hbefore⟩)
        · exact hsound
    next => exact h.held l' q hq
  · exact h.of_fields rfl rfl fun l => by cases l <;> rfl

theorem SourcesOk.touches {desk banks : Prop} (htouches : Touches desk banks s t) (h : SourcesOk s) : SourcesOk t :=
  htouches.keeps (fun _ _ htouch hs => hs.touch htouch) h

theorem SourcesOk.change {ctx : Prop} {who : Option Station} (hchange : RecordChange ctx who s t) (h : SourcesOk s) :
    SourcesOk t := by
  have hframe := hchange.alone.frame
  rw [hframe]
  exact h.of_fields rfl rfl fun l => by cases l <;> rfl

theorem SourcesOk.modStation (st : Station) (f : StationEntry → StationEntry) (h : SourcesOk s) :
    SourcesOk (s.modStation st f) := h.of_fields rfl rfl fun l => by cases l <;> rfl

theorem SourcesOk.deliver (o : Origin) (st : Station) (q : Request) (res : Result) (h : SourcesOk s) :
    SourcesOk (deliver o st q res s) := by
  cases o with
  | slot k => exact h.of_fields rfl rfl fun l => by cases l <;> rfl
  | link l =>
    have hresult : SourcesOk (s.modLink l fun e => linkWith e q res) := by
      refine h.touch (.engine (desk := False) (banks := False) l ⟨fun v' hv' => ?_, False.elim⟩)
      obtain ⟨v, hv, rfl⟩ := Option.mem_map.1 hv'
      exact .inr ⟨v, hv, rfl, fun _ => .inl⟩
    exact hresult.of_fields (by cases l <;> rfl) (by cases l <;> rfl) fun l' => by cases l <;> cases l' <;> rfl
  | window | deadline | clear => exact h

theorem SourcesOk.deliverFetch (o : Origin) (found : Option Snapshot) (h : SourcesOk s) :
    SourcesOk (deliverFetch o found s) := by
  cases o with
  | link l => exact h.touches (desk := False) (banks := False) (.buildVisit s l found)
  | window => exact h.of_fields rfl rfl fun l => by cases l <;> rfl
  | slot | deadline | clear => exact h

theorem SourcesOk.deliverAck (o : Origin) (h : SourcesOk s) : SourcesOk (deliverAck o s) := by
  cases o with
  | link l => exact h.touches (desk := False) (banks := False) (.enterRequest s l)
  | window => exact h.of_fields rfl rfl fun l => by cases l <;> rfl
  | slot | deadline | clear => exact h

theorem SourcesOk.look (h : SourcesOk s) : SourcesOk (monitorLook s) :=
  h.touches (desk := False) (banks := False) (.monitorLook s)

theorem SourcesOk.leaveRequester (o : Origin) (p : Requester) (h : SourcesOk s) :
    SourcesOk (leaveRequester o { s with pointer := p }) := by
  cases o <;> exact h.of_fields rfl rfl fun l => by cases l <;> rfl

/-- What is presented carries the octets it counts (R54, R151). -/
theorem SourcesOk.presents {r : Requester} {o : Origin} {st : Station} {q : Request} (h : SourcesOk s)
    (hpresents : Presents s r o (.request st q)) : RequestOk q := by
  generalize hw : Work.request st q = w at hpresents
  cases hpresents with
  | link l hwork =>
    subst hw
    obtain ⟨v, hv, hw⟩ := Option.bind_eq_some_iff.1 hwork
    refine h.held l q (Option.bind_eq_some_iff.2 ⟨v, hv, ?_⟩)
    unfold visitWork at hw
    split at hw
    case h_2 =>
      obtain ⟨x, -, hwork'⟩ := Option.map_eq_some_iff.1 hw
      cases hwork'
    case h_3 =>
      obtain ⟨x, hx, hwork'⟩ := Option.map_eq_some_iff.1 hw
      cases hwork'
      exact hx
    all_goals cases hw
  | slot =>
    cases hw
    intro _ hcount
    exact hcount.trans (dataOctets_length _).ge
  | fetch | ack | expire | chunk => cases hw

theorem SourcesOk.grant (h : SourcesOk s) : SourcesOk (grantEffect s) := by
  obtain hsame | ⟨-, r, o, w, hr, ⟨-, heffect⟩ | ⟨code, -, heffect⟩⟩ := grantEffect_cases s
  · rwa [hsame]
  · rw [heffect]
    have hleft := h.leaveRequester o (nextRequester r)
    refine ⟨hleft.lease, ?_, ?_, hleft.held⟩
    · rintro g ⟨⟩
      exact hleft.lease
    · intro q hq
      obtain ⟨g, hg, hq⟩ := Option.bind_eq_some_iff.1 hq
      cases hg
      cases w with
      | request st q' =>
        cases hq
        exact h.presents (presents_of_presented hr)
      | noticeFetch | noticeAck | expire | clearChunk => cases hq
  · rw [heffect]
    refine SourcesOk.look ?_
    have hleft := h.leaveRequester o (nextRequester r)
    cases w with
    | request st q => exact hleft.deliver ..
    | noticeFetch st => exact hleft.deliverFetch ..
    | noticeAck st id => exact hleft.deliverAck ..
    | expire | clearChunk => exact hleft

end

section
variable {s t : State}

theorem SourcesOk.completed {g : Granted} (h : SourcesOk s) (hcompletion : Completion s g t) : SourcesOk t := by
  cases hcompletion with
  | request hwork hchange n res =>
    refine SourcesOk.look (SourcesOk.deliver _ _ _ _ ?_)
    rw [poolLowTest_eq]
    exact (h.change hchange).free.of_fields rfl rfl fun l => by cases l <;> rfl
  | @fetch st found hwork =>
    refine SourcesOk.look (SourcesOk.deliverFetch _ _ ?_)
    unfold fetchMark
    split
    · exact h.free
    · exact h.free.modStation st _
  | @ack st id hwork =>
    refine SourcesOk.look (SourcesOk.deliverAck _ ?_)
    unfold ackNotice countStray
    split
    · exact SourcesOk.change (ackRecord_change (ctx := True) (who := none) id) (h.free.modStation st _)
    · split
      · exact h.free
      · exact h.free.modStation st _
  | expire hwork => exact (SourcesOk.change (expireHead_change (ctx := True) (who := none) _) h.free).look
  | @chunk st k hwork =>
    refine SourcesOk.look ?_
    have hcleared : SourcesOk ((chunkRange k).foldl (clearSlot st) { s with running := none }) := by
      refine (clearSlots_changes (ctx := True) (who := none) (chunkRange k)).keeps (fun _ _ hchange hu => ?_) h.free
      exact SourcesOk.change hchange hu
    have hprogress (u : State) (hu : SourcesOk u) : SourcesOk { u with clearProgress := k + 1 } :=
      hu.of_fields rfl rfl fun l => by cases l <;> rfl
    have hend (u : State) (hu : SourcesOk u) : SourcesOk (clearEnd st u) :=
      hu.of_fields rfl rfl fun l => by cases l <;> rfl
    unfold clearChunkOn
    dsimp only
    split
    · exact hend _ (hprogress _ hcleared)
    · exact hprogress _ hcleared

theorem SourcesOk.reset {c : Instr} (hc : isReset c = true) (h : SourcesOk s) : SourcesOk (effectOf c s) := by
  cases c <;> cases hc
  case fullReset =>
    have hlease : 1 ≤ Config.resetLeaseMax ∧ Config.resetLeaseMax ≤ Config.maxLeaseMax := by decide
    exact ⟨hlease, nofun, nofun, fun l => by cases l <;> exact nofun⟩
  case softReset latch =>
    have heffect : effectOf (.softReset latch) s = portControlReset latch s := rfl
    rw [heffect, portControlReset_frame]
    exact ⟨h.lease, nofun, nofun, fun l => by cases l <;> exact nofun⟩

end

theorem step_sourcesOk {s t : State} (h : SourcesOk s) (hstep : step s = .next t) : SourcesOk t :=
  step_keeps_by_kind (Q := fun _ => True) (D := False) (fun _ _ _ => trivial) (fun _ _ htouch hu => hu.touch htouch)
    (fun _ _ hD => hD.elim) (fun _ _ hreset _ hu => hu.reset hreset) (fun _ _ hu => hu.grant)
    (fun _ _ _ _ _ hcompletion hu => hu.completed hcompletion) trivial h hstep

/-- Settles O52: each change makes its record in order, from a request and a LEASE_MAX that are. -/
theorem stepsKeepTheRecordsInOrder : Obligations.StepsKeepTheRecordsInOrder := by
  intro s t h hstep
  rw [recordsOk_iff] at h ⊢
  obtain ⟨hrecords, hsources⟩ := h
  exact ⟨step_recordOk hsources.runSound hrecords hstep, step_sourcesOk hsources hstep⟩

end Sys2Proof.Machine
end

