-- ==== Sys2Proof/Proofs/Clears.lean ====
section
/-! Stations and their clears (O56): the clear queue, what a station may hold, and the slots that a clear has passed. -/

namespace Sys2Proof.Machine

open Sys2Proof.Spec

/-! ## The parts of the claim -/

/-- The table and the clear queue agree (R125, R131, R135, R139). -/
structure TableOk (s : State) : Prop where
  entries : ∀ st, entryOk s st
  nodup : s.clearQueue.Nodup
  leaving : ∀ st, st ∈ s.clearQueue ↔ (s.station st).state = .leaving
  idle : s.clearQueue = [] → s.clearProgress = 0

/-- What is held is held by stations that may, outside the slots that a clear has passed (R138, R139). -/
structure HoldingsOk (s : State) : Prop where
  holders : ∀ r ∈ s.index, ∀ st, holds r st = true → mayHold s st
  passed : ∀ r ∈ s.index, ∀ st, s.clearQueue.head? = some st → r.slot < Config.chunkSlots * s.clearProgress →
    holds r st = false

theorem clearOk_iff (s : State) : ClearOk s ↔ TableOk s ∧ HoldingsOk s ∧ workOk s := by
  constructor
  · rintro ⟨hentries, hnodup, hleaving, hidle, hholders, hpassed, hwork⟩
    exact ⟨⟨hentries, hnodup, hleaving, hidle⟩, ⟨hholders, hpassed⟩, hwork⟩
  · rintro ⟨h, hh, hwork⟩
    exact ⟨h.entries, h.nodup, h.leaving, h.idle, hh.holders, hh.passed, hwork⟩

/-- An entry keeps what the table claim looks at. -/
def SameStanding (e e' : StationEntry) : Prop :=
  e'.state = e.state ∧ e'.inflight = e.inflight ∧ e'.last = e.last ∧ e'.barredMark = e.barredMark

section
variable {s t : State}

theorem mayHold_iff (s : State) (st : Station) : mayHold s st ↔ st = 0 ∨ (s.station st).state = .online ∨
    (s.station st).state = .leaving := Iff.rfl

/-- A station that may hold something is not OFFLINE or BARRED. -/
theorem TableOk.standing (h : TableOk s) {st : Station} (hst : mayHold s st) :
    ¬ ((s.station st).state = .offline ∨ (s.station st).state = .barred) := by
  intro hout
  have hlocal := (h.entries st).1
  obtain rfl | honline | hleaving := hst
  · rw [hlocal.2 rfl] at hout
    obtain h | h := hout <;> cases h
  · rw [honline] at hout
    obtain h | h := hout <;> cases h
  · rw [hleaving] at hout
    obtain h | h := hout <;> cases h

/-- The clear of a station that is not LEAVING has not begun. -/
theorem TableOk.not_begun (h : TableOk s) {st : Station} (hst : (s.station st).state ≠ .leaving) : ¬ clearBegun s st :=
  fun hbegun => hst ((h.leaving st).1 (List.mem_of_mem_head? hbegun.1))

/-- Holdings and work stay in order through a move of stations that takes no standing away. -/
structure StationsMove (s t : State) : Prop where
  index : t.index = s.index
  running : t.running = s.running
  progress : t.clearProgress = s.clearProgress
  mayHold : ∀ st, mayHold s st → mayHold t st
  begun : ∀ st, clearBegun t st → clearBegun s st
  head : ∀ st, s.clearQueue.head? = some st → t.clearQueue.head? = some st

theorem StationsMove.of_states (hindex : t.index = s.index) (hrunning : t.running = s.running)
    (hprogress : t.clearProgress = s.clearProgress) (hqueue : t.clearQueue = s.clearQueue)
    (hstate : ∀ st, Machine.mayHold s st → Machine.mayHold t st) : StationsMove s t where
  index := hindex
  running := hrunning
  progress := hprogress
  mayHold := hstate
  begun st h := by rwa [clearBegun, hqueue, hprogress] at h
  head st h := by rwa [hqueue]

theorem HoldingsOk.move (hmove : StationsMove s t) (h : HoldingsOk s) : HoldingsOk t := by
  refine ⟨fun r hr st hst => ?_, fun r hr st hhead hslot => ?_⟩ <;> rw [hmove.index] at hr
  · exact hmove.mayHold st (h.holders r hr st hst)
  · rw [hmove.progress] at hslot
    have hprogress : t.clearProgress ≠ 0 := by
      rw [hmove.progress]
      intro hzero
      rw [hzero] at hslot
      exact Nat.not_lt_zero _ hslot
    exact h.passed r hr st (hmove.begun st ⟨hhead, hprogress⟩).1 hslot

theorem workOk_move (hmove : StationsMove s t) (h : workOk s) : workOk t := by
  intro g hg
  rw [hmove.running] at hg
  obtain ⟨hgaining, hchunk⟩ := h g hg
  refine ⟨fun st hst => ⟨hmove.mayHold st (hgaining st hst).1, fun hb => (hgaining st hst).2 (hmove.begun st hb)⟩,
    fun c hc => ⟨hmove.head _ (hchunk c hc).1, hmove.progress.trans (hchunk c hc).2⟩⟩

/-! ## Touches -/

theorem TableOk.of_standing (h : TableOk s) (hqueue : t.clearQueue = s.clearQueue)
    (hprogress : t.clearProgress = s.clearProgress) (hentries : ∀ st, (t.station st).state = (s.station st).state)
    (hok : ∀ st, (t.station st).state = .offline ∨ (t.station st).state = .barred →
      (t.station st).inflight = none ∧ (t.station st).last = none ∧ (t.station st).barredMark = false) : TableOk t where
  entries st := ⟨by rw [hentries]; exact (h.entries st).1, hok st⟩
  nodup := by rw [hqueue]; exact h.nodup
  leaving st := by rw [hqueue, hentries]; exact h.leaving st
  idle := by rw [hqueue, hprogress]; exact h.idle

theorem TableOk.of_same (h : TableOk s) (hqueue : t.clearQueue = s.clearQueue)
    (hprogress : t.clearProgress = s.clearProgress) (hentries : ∀ st, SameStanding (s.station st) (t.station st)) :
    TableOk t := by
  refine h.of_standing hqueue hprogress (fun st => (hentries st).1) fun st => ?_
  obtain ⟨hstate, hinflight, hlast, hmark⟩ := hentries st
  rw [hstate, hinflight, hlast, hmark]
  exact (h.entries st).2

theorem StationsMove.of_same (hindex : t.index = s.index) (hrunning : t.running = s.running)
    (hprogress : t.clearProgress = s.clearProgress) (hqueue : t.clearQueue = s.clearQueue)
    (hstate : ∀ st, (t.station st).state = (s.station st).state) : StationsMove s t :=
  .of_states hindex hrunning hprogress hqueue fun st h => by rwa [mayHold_iff, hstate]

/-- What the claim needs of a step that moves stations. -/
def Moves (s t : State) : Prop := TableOk t ∧ StationsMove s t

theorem changeState_station (s : State) (st : Station) (new : StationState) (x : Station) :
    (s.changeState st new).station x = if x = st then { s.station st with state := new } else s.station x :=
  modStation_station s st x fun e => { e with state := new }

theorem cameOnline_station (s : State) (st x : Station) :
    (cameOnline s st).station x =
      if x = st then { s.station st with state := .online, missCount := 0, freshOwed := false } else s.station x := by
  unfold cameOnline
  rw [modStation_station, changeState_station, changeState_station, if_pos rfl]
  split <;> rfl

theorem letIn_station (s : State) (st x : Station) :
    (letIn s st).station x =
      if x = st then { s.station st with state := .offline, freshOwed := true } else s.station x := by
  unfold letIn
  rw [changeState_station, modStation_station, modStation_station, if_pos rfl]
  split <;> rfl

/-- A station that was OFFLINE or BARRED changes its state, and is not LEAVING after it. -/
theorem moves_of_state (st : Station) (hs : TableOk s) (hindex : t.index = s.index) (hrunning : t.running = s.running)
    (hprogress : t.clearProgress = s.clearProgress) (hqueue : t.clearQueue = s.clearQueue)
    (hother : ∀ x, x ≠ st → t.station x = s.station x)
    (hbefore : (s.station st).state = .offline ∨ (s.station st).state = .barred)
    (hafter : (t.station st).state ≠ .local_ ∧ (t.station st).state ≠ .leaving)
    (hkept : (t.station st).inflight = (s.station st).inflight ∧ (t.station st).last = (s.station st).last ∧
      (t.station st).barredMark = (s.station st).barredMark) : Moves s t := by
  obtain ⟨hlocal, hclean⟩ := hs.entries st
  obtain ⟨hinflight, hlast, hmark⟩ := hkept
  have hremote : st ≠ 0 := by
    intro h
    rw [hlocal.2 h] at hbefore
    obtain h | h := hbefore <;> cases h
  have hnotLeaving : (s.station st).state ≠ .leaving := by
    intro h
    rw [h] at hbefore
    obtain h | h := hbefore <;> cases h
  refine ⟨⟨fun x => ?_, by rw [hqueue]; exact hs.nodup, fun x => ?_, by rw [hqueue, hprogress]; exact hs.idle⟩,
    .of_states hindex hrunning hprogress hqueue fun x hx => ?_⟩
  · by_cases hx : x = st
    · subst hx
      refine ⟨⟨fun h => absurd h hafter.1, fun h => absurd h hremote⟩, fun _ => ?_⟩
      rw [hinflight, hlast, hmark]
      exact hclean hbefore
    · rw [entryOk, hother x hx]
      exact hs.entries x
  · rw [hqueue]
    by_cases hx : x = st
    · subst hx
      exact ⟨fun h => absurd ((hs.leaving x).1 h) hnotLeaving, fun h => absurd h hafter.2⟩
    · rw [hother x hx]
      exact hs.leaving x
  · by_cases hx' : x = st
    · subst hx'
      exact absurd hbefore (hs.standing hx)
    · rwa [mayHold_iff, hother x hx']

theorem moves_of_entry (st : Station) (f : StationEntry → StationEntry) (hs : TableOk s)
    (hstate : (f (s.station st)).state = (s.station st).state)
    (hclean : (s.station st).state = .offline ∨ (s.station st).state = .barred →
      (f (s.station st)).inflight = none ∧ (f (s.station st)).last = none ∧ (f (s.station st)).barredMark = false) :
    Moves s (s.modStation st f) := by
  have hstates (x : Station) : ((s.modStation st f).station x).state = (s.station x).state := by
    rw [modStation_station]
    split
    next hx => rw [hx, hstate]
    next => rfl
  refine ⟨hs.of_standing rfl rfl hstates fun x hx => ?_, .of_same rfl rfl rfl rfl hstates⟩
  rw [hstates] at hx
  rw [modStation_station]
  split
  next he =>
    subst he
    exact hclean hx
  next => exact (hs.entries x).2 hx

theorem moves_leave {st : Station} (h : (s.station st).state = .online) (hs : TableOk s) : Moves s (s.leave st) := by
  have hfresh : st ∉ s.clearQueue := by
    rw [hs.leaving, h]
    exact nofun
  have hqueue : (s.leave st).clearQueue = s.clearQueue ++ [st] := by rw [leave_eq]
  have hprogress : (s.leave st).clearProgress = s.clearProgress := by rw [leave_eq]
  have hstate (x : Station) : ((s.leave st).station x).state = if x = st then .leaving else (s.station x).state :=
    Touches.leave_state s st x
  refine ⟨⟨fun x => ?_, ?_, fun x => ?_, ?_⟩, ⟨by rw [leave_eq], by rw [leave_eq], hprogress, fun x hx => ?_, fun x hx => ?_,
    fun x hx => ?_⟩⟩
  · rw [entryOk, leave_station]
    split
    next hx =>
      subst hx
      refine ⟨⟨nofun, fun hzero => ?_⟩, fun hout => by obtain h | h := hout <;> cases h⟩
      rw [(hs.entries x).1.2 hzero] at h
      cases h
    next => exact hs.entries x
  · rw [hqueue]
    exact hs.nodup.append (List.nodup_singleton st) (by simpa using hfresh)
  · rw [hqueue, hstate, List.mem_append, List.mem_singleton]
    split
    next hx => simp [hx]
    next hx => simp [hx, hs.leaving]
  · rw [hqueue]
    exact fun hnil => absurd hnil (by simp)
  · rw [mayHold_iff, hstate]
    split
    next => exact .inr (.inr rfl)
    next => exact hx
  · rw [clearBegun, hqueue, hprogress] at hx
    obtain ⟨hhead, hne⟩ := hx
    cases hlist : s.clearQueue with
    | nil => exact absurd (hs.idle hlist) hne
    | cons y rest =>
      rw [hlist] at hhead
      exact ⟨by rw [hlist]; exact hhead, hne⟩
  · rw [hqueue, List.head?_append, hx]
    rfl

theorem Touch.moves {desk banks : Prop} (h : Touch desk banks s t) (hs : TableOk s) : Moves s t := by
  cases h with
  | plain h =>
    have hstation (x : Station) : t.station x = s.station x := by simp only [State.station, h.stations]
    exact ⟨hs.of_same h.clearQueue h.clearProgress fun x => by rw [hstation]; exact ⟨rfl, rfl, rfl, rfl⟩,
      .of_same h.index h.running h.clearProgress h.clearQueue fun x => by rw [hstation]⟩
  | @engine l f h =>
    have hstation (x : Station) : (s.modLink l f).station x = s.station x := by simp [State.station]
    exact ⟨hs.of_same (by simp) (by simp) fun x => by rw [hstation]; exact ⟨rfl, rfl, rfl, rfl⟩,
      .of_same (by simp) (by simp) (by simp) (by simp) fun x => by rw [hstation]⟩
  | entry st h =>
    refine moves_of_entry st _ hs h.state fun hout => ?_
    obtain ⟨hinflight, hlast, hmark⟩ := (hs.entries st).2 hout
    have hnotIn : ¬ ((s.station st).state = .online ∨ (s.station st).state = .leaving) := by
      rintro (hin | hin) <;> rw [hin] at hout <;> obtain h | h := hout <;> cases h
    rw [h.inflight, h.last, h.mark.resolve_right hnotIn]
    exact ⟨hinflight, hlast, hmark⟩
  | online st h =>
    have hstation (x : Station) : (cameOnline s st).station x =
        if x = st then { s.station st with state := .online, missCount := 0, freshOwed := false } else s.station x :=
      cameOnline_station s st x
    refine moves_of_state st hs rfl rfl rfl rfl (fun x hx => ?_) (.inl h) ?_ ?_ <;> rw [hstation]
    · rw [if_neg hx]
    · simp
    · simp
  | leave st h => exact moves_leave h hs
  | bar st h =>
    have hstation (x : Station) : (s.changeState st .barred).station x =
        if x = st then { s.station st with state := .barred } else s.station x := changeState_station s st .barred x
    refine moves_of_state st hs rfl rfl rfl rfl (fun x hx => ?_) (.inl h) ?_ ?_ <;> rw [hstation]
    · rw [if_neg hx]
    · simp
    · simp
  | unbar st h =>
    have hstation (x : Station) : (letIn s st).station x =
        if x = st then { s.station st with state := .offline, freshOwed := true } else s.station x := letIn_station s st x
    refine moves_of_state st hs rfl rfl rfl rfl (fun x hx => ?_) (.inr h) ?_ ?_ <;> rw [hstation]
    · rw [if_neg hx]
    · simp
    · simp

/-! ## The whole claim through a touch -/

theorem ClearOk.move (hmoves : TableOk s → Moves s t) (h : ClearOk s) : ClearOk t := by
  rw [clearOk_iff] at h ⊢
  obtain ⟨htable, hholdings, hwork⟩ := h
  obtain ⟨htable', hmove⟩ := hmoves htable
  exact ⟨htable', hholdings.move hmove, workOk_move hmove hwork⟩

theorem ClearOk.touch {desk banks : Prop} (htouch : Touch desk banks s t) (h : ClearOk s) : ClearOk t :=
  h.move htouch.moves

theorem ClearOk.touches {desk banks : Prop} (htouches : Touches desk banks s t) (h : ClearOk s) : ClearOk t :=
  htouches.keeps (fun _ _ htouch hs => ClearOk.touch htouch hs) h

theorem workOk_free (s : State) : workOk { s with running := none } := nofun

theorem ClearOk.free (h : ClearOk s) : ClearOk { s with running := none } := by
  rw [clearOk_iff] at h ⊢
  obtain ⟨⟨hentries, hnodup, hleaving, hidle⟩, ⟨hholders, hpassed⟩, -⟩ := h
  exact ⟨⟨hentries, hnodup, hleaving, hidle⟩, ⟨hholders, hpassed⟩, workOk_free s⟩

/-- A record may gain a holder that may hold something and whose clear has not begun. -/
theorem ClearOk.change {ctx : Prop} {who : Option Station} (hchange : RecordChange ctx who s t)
    (hwho : ∀ st, who = some st → mayHold s st ∧ ¬ clearBegun s st) (h : ClearOk s) : ClearOk t := by
  rw [clearOk_iff] at h ⊢
  obtain ⟨htable, ⟨hholders, hpassed⟩, hwork⟩ := h
  have hframe := hchange.alone.frame
  have hentries := hchange.alone.entries
  have hqueue : t.clearQueue = s.clearQueue := by rw [hframe]
  have hprogress : t.clearProgress = s.clearProgress := by rw [hframe]
  have hrunning : t.running = s.running := by rw [hframe]
  have hstate (x : Station) : (t.station x).state = (s.station x).state := by rw [hentries x]
  have hmay (x : Station) (hx : mayHold s x) : mayHold t x := by rwa [mayHold_iff, hstate]
  have hnobody (x : Station) (hx : who = some x) (hhead : s.clearQueue.head? = some x) {n : Nat}
      (hn : n < Config.chunkSlots * s.clearProgress) : False := by
    refine (hwho x hx).2 ⟨hhead, fun hzero => ?_⟩
    rw [hzero] at hn
    exact Nat.not_lt_zero _ hn
  refine ⟨htable.of_same hqueue hprogress fun x => ?_, ⟨fun r hr x hx => hmay x ?_, fun r hr x hhead hslot => ?_⟩,
    fun g hg => ?_⟩
  · rw [hentries x]
    exact ⟨rfl, rfl, rfl, rfl⟩
  · cases hchange with
    | same => exact hholders r hr x hx
    | put hold hnew =>
      rw [replaced_index] at hr
      obtain ⟨rfl, -⟩ | ⟨hr, -⟩ := (mem_indexReplace _ _ _).1 hr
      · obtain hheld | hgains := hnew.holders x hx
        · exact hholders _ hold x hheld
        · exact (hwho x hgains).1
      · exact hholders r hr x hx
    | free hold => exact hholders r (List.mem_filter.1 hr).1 x hx
    | make hnew =>
      rw [created_index] at hr
      obtain rfl | hr := (mem_indexInsert _ _ _).1 hr
      · exact (hwho x (hnew.holders x hx)).1
      · exact hholders r hr x hx
    | take => exact hholders r hr x hx
  · rw [hqueue] at hhead
    rw [hprogress] at hslot
    refine Bool.eq_false_iff.2 fun hx => ?_
    cases hchange with
    | same => exact Bool.eq_false_iff.1 (hpassed r hr x hhead hslot) hx
    | put hold hnew =>
      rw [replaced_index] at hr
      obtain ⟨rfl, -⟩ | ⟨hr, -⟩ := (mem_indexReplace _ _ _).1 hr
      · obtain hheld | hgains := hnew.holders x hx
        · exact Bool.eq_false_iff.1 (hpassed _ hold x hhead (hnew.slot ▸ hslot)) hheld
        · exact hnobody x hgains hhead hslot
      · exact Bool.eq_false_iff.1 (hpassed r hr x hhead hslot) hx
    | free hold => exact Bool.eq_false_iff.1 (hpassed r (List.mem_filter.1 hr).1 x hhead hslot) hx
    | make hnew =>
      rw [created_index] at hr
      obtain rfl | hr := (mem_indexInsert _ _ _).1 hr
      · exact hnobody x (hnew.holders x hx) hhead hslot
      · exact Bool.eq_false_iff.1 (hpassed r hr x hhead hslot) hx
    | take => exact Bool.eq_false_iff.1 (hpassed r hr x hhead hslot) hx
  · rw [hrunning] at hg
    obtain ⟨hgaining, hchunk⟩ := hwork g hg
    refine ⟨fun x hx => ⟨hmay x (hgaining x hx).1, fun hb => (hgaining x hx).2 ?_⟩, fun c hc => ?_⟩
    · rwa [clearBegun, hqueue, hprogress] at hb
    · rw [hqueue, hprogress]
      exact hchunk c hc

/-! ## Outcomes -/

/-- An outcome is stored for a station that may hold something, or is none to store (R140, R160). -/
theorem ClearOk.deliver (o : Origin) {st : Station} (q : Request) {res : Result}
    (hst : res.code = .notOnline ∨ mayHold s st) (h : ClearOk s) : ClearOk (deliver o st q res s) := by
  cases o with
  | slot k =>
    exact h.move fun hs => ⟨hs.of_same rfl rfl fun _ => ⟨rfl, rfl, rfl, rfl⟩, .of_same rfl rfl rfl rfl fun _ => rfl⟩
  | link l =>
    have hstation (x : Station) : (s.modLink l fun e => linkWith e q res).station x = s.station x := by
      simp [State.station]
    have hresult : ClearOk (s.modLink l fun e => linkWith e q res) := h.move fun hs =>
      ⟨hs.of_same (by simp) (by simp) fun x => by rw [hstation]; exact ⟨rfl, rfl, rfl, rfl⟩,
        .of_same (by simp) (by simp) (by simp) (by simp) fun x => by rw [hstation]⟩
    have hdeliver : Machine.deliver (.link l) st q res s =
        (s.modLink l fun e => linkWith e q res).modStation st fun e =>
          { countRequest res.code e with
            last := if res.code = .notOnline then e.last else some (answerOf (s.link l) q res) } := by
      cases l <;> rfl
    rw [hdeliver]
    refine hresult.move fun hs => moves_of_entry st _ hs rfl fun hout => ?_
    obtain ⟨hinflight, hlast, hmark⟩ := (hs.entries st).2 hout
    obtain hcode | hst := hst
    · exact ⟨hinflight, by dsimp only; rw [if_pos hcode]; exact hlast, hmark⟩
    · exact absurd hout (hs.standing (by rwa [mayHold_iff, hstation]))
  | window | deadline | clear => exact h

theorem ClearOk.atDesk {slots : Vector Slot 4} {submission : List (Fin 4)} {window : NoticeWindow} {n : Nat}
    (h : ClearOk s) : ClearOk { s with slots, submission, window, fills := n } :=
  h.move fun hs => ⟨hs.of_same rfl rfl fun _ => ⟨rfl, rfl, rfl, rfl⟩, .of_same rfl rfl rfl rfl fun _ => rfl⟩

theorem ClearOk.deliverFetch (o : Origin) (found : Option Snapshot) (h : ClearOk s) :
    ClearOk (deliverFetch o found s) := by
  cases o with
  | link l => exact h.touches (desk := False) (banks := False) (.buildVisit s l found)
  | window => exact h.atDesk
  | slot | deadline | clear => exact h

theorem ClearOk.deliverAck (o : Origin) (h : ClearOk s) : ClearOk (deliverAck o s) := by
  cases o with
  | link l => exact h.touches (desk := False) (banks := False) (.enterRequest s l)
  | window => exact h.atDesk
  | slot | deadline | clear => exact h

theorem ClearOk.look (h : ClearOk s) : ClearOk (monitorLook s) :=
  h.touches (desk := False) (banks := False) (.monitorLook s)

/-! ## Grants -/

theorem ClearOk.leaveRequester (o : Origin) (p : Requester) (h : ClearOk s) :
    ClearOk (leaveRequester o { s with pointer := p }) := by
  cases o <;> exact h.move fun hs =>
    ⟨hs.of_same rfl rfl fun _ => ⟨rfl, rfl, rfl, rfl⟩, .of_same rfl rfl rfl rfl fun _ => rfl⟩

theorem leaveRequester_station (o : Origin) (p : Requester) (s : State) (x : Station) :
    (Machine.leaveRequester o { s with pointer := p }).station x = s.station x := by
  cases o <;> rfl

/-- What the checks at the grant let pass acts for a station that may gain a holding (R41, R42). -/
theorem ClearOk.grantable {r : Requester} {o : Origin} {w : Work} (h : ClearOk s) (hpresents : Presents s r o w)
    (hstanding : standingGood s o w = true) :
    (∀ st ∈ gainingStation w, mayHold s st ∧ ¬ clearBegun s st) ∧
      ∀ c ∈ chunkOf w, s.clearQueue.head? = some c.1 ∧ s.clearProgress = c.2 := by
  obtain ⟨htable, -, -⟩ := (clearOk_iff s).1 h
  have hlocal : mayHold s 0 ∧ ¬ clearBegun s 0 := by
    refine ⟨.inl rfl, htable.not_begun ?_⟩
    rw [(htable.entries 0).1.2 rfl]
    exact nofun
  cases hpresents with
  | link l hwork =>
    have honline {st : Station} (hst : workStation w = some st) : mayHold s st ∧ ¬ clearBegun s st := by
      have hstate : (s.station st).state = .online := by
        have := hstanding
        simp only [standingGood, hst, Option.all_some, decide_eq_true_eq] at this
        exact this.1
      exact ⟨.inr (.inl hstate), htable.not_begun (by rw [hstate]; exact nofun)⟩
    obtain ⟨v, -, hwork⟩ := Option.bind_eq_some_iff.1 hwork
    cases w with
    | request st q => exact ⟨by rintro _ ⟨⟩; exact honline rfl, nofun⟩
    | noticeFetch st => exact ⟨by rintro _ ⟨⟩; exact honline rfl, nofun⟩
    | noticeAck st id => exact ⟨by rintro _ ⟨⟩; exact honline rfl, nofun⟩
    | expire => exact ⟨nofun, nofun⟩
    | clearChunk st k => exact absurd ((visitWork_some hwork).2 l) Bool.false_ne_true
  | fetch => exact ⟨by rintro _ ⟨⟩; exact hlocal, nofun⟩
  | ack => exact ⟨by rintro _ ⟨⟩; exact hlocal, nofun⟩
  | slot => exact ⟨by rintro _ ⟨⟩; exact hlocal, nofun⟩
  | expire => exact ⟨nofun, nofun⟩
  | chunk hqueue => exact ⟨nofun, by rintro _ ⟨⟩; exact ⟨by rw [hqueue]; rfl, rfl⟩⟩

theorem ClearOk.grant (h : ClearOk s) : ClearOk (grantEffect s) := by
  obtain hsame | ⟨-, r, o, w, hr, ⟨hpass, heffect⟩ | ⟨code, hrefused, heffect⟩⟩ := grantEffect_cases s
  · rwa [hsame]
  · rw [heffect]
    have hleft := h.leaveRequester o (nextRequester r)
    have hstanding : standingGood s o w = true := by
      rw [← standingOk_eq]
      unfold grantRefusal at hpass
      split_ifs at hpass with hgood
      exact hgood
    obtain ⟨hgaining, hchunk⟩ := h.grantable (presents_of_presented hr) hstanding
    rw [clearOk_iff] at hleft ⊢
    obtain ⟨⟨hentries, hnodup, hleaving, hidle⟩, ⟨hholders, hpassed⟩, -⟩ := hleft
    refine ⟨⟨hentries, hnodup, hleaving, hidle⟩, ⟨hholders, hpassed⟩, ?_⟩
    rintro g ⟨⟩
    cases o <;> exact ⟨hgaining, hchunk⟩
  · rw [heffect]
    refine ClearOk.look ?_
    have hleft := h.leaveRequester o (nextRequester r)
    cases w with
    | request st q =>
      refine hleft.deliver o q ?_
      unfold grantRefusal at hrefused
      split_ifs at hrefused with hbad hcode
      · have hmay := ((h.grantable (presents_of_presented hr) (by rw [← standingOk_eq]; exact hbad)).1 st rfl).1
        right
        rwa [mayHold_iff, leaveRequester_station]
      · exact .inl (Option.some.inj hrefused).symm
    | noticeFetch st => exact hleft.deliverFetch ..
    | noticeAck st id => exact hleft.deliverAck ..
    | expire | clearChunk => exact hleft

/-! ## Chunks (R137 to R139) -/

theorem holds_departed (st : Station) (r : Record) : holds (departed st r) st = false := by
  refine Bool.eq_false_iff.2 fun h => ?_
  rw [holds_iff, departed_owner, departed_subscribers, departed_pendingSet] at h
  obtain h | h | h := h
  · split at h
    · cases h
    next hother => exact hother h
  · simp at h
  · simp at h

/-- A record in the slot that a chunk passes holds the station no longer. -/
theorem clearSlot_releases (hindex : IndexOk s) (st : Station) (n : Nat) :
    ∀ r ∈ (clearSlot st s n).index, r.slot = n → holds r st = false := by
  unfold clearSlot
  split
  next hnone =>
    intro r hr hslot
    exact absurd (List.find?_eq_none.1 hnone r hr) (by simp [hslot])
  next r hfind =>
    have hr := List.mem_of_find?_eq_some hfind
    have hslot : r.slot = n := by simpa using List.find?_some hfind
    have honly (x : Record) (hx : x ∈ s.index) (hx' : x.slot = n) : x = r := by
      have hnodup : (s.index.map Record.slot).Nodup := List.pairwise_map.2 hindex.2.1
      exact List.inj_on_of_nodup_map hnodup hx hr (hx'.trans hslot.symm)
    split
    next hholds =>
      rw [clearRecord_eq hholds, leaseDropped_eq]
      split
      · intro x hx hx'
        obtain ⟨hmem, hpoint⟩ := (mem_indexRemove _ _ _).1 hx
        exact absurd (congrArg Record.point (honly x hmem hx')) hpoint
      · intro x hx hx'
        obtain ⟨rfl, -⟩ | ⟨hmem, hpoint⟩ := (mem_indexReplace _ _ _).1 hx
        · exact holds_departed st r
        · exact absurd (congrArg Record.point (honly x hmem hx')) (by rwa [departed_point] at hpoint)
    next hfree =>
      intro x hx hx'
      rw [honly x hx hx']
      exact Bool.eq_false_iff.2 hfree

/-- No change of another record gives the station a holding in a slot. -/
theorem RecordChange.released {ctx : Prop} (hchange : RecordChange ctx none s t) {st : Station} {n : Nat}
    (h : ∀ r ∈ s.index, r.slot = n → holds r st = false) : ∀ r ∈ t.index, r.slot = n → holds r st = false := by
  intro r hr hslot
  cases hchange with
  | same => exact h r hr hslot
  | put hold hnew =>
    rw [replaced_index] at hr
    obtain ⟨rfl, -⟩ | ⟨hr, -⟩ := (mem_indexReplace _ _ _).1 hr
    · refine Bool.eq_false_iff.2 fun hx => ?_
      obtain hheld | hgains := hnew.holders st hx
      · exact Bool.eq_false_iff.1 (h _ hold (hnew.slot.symm.trans hslot)) hheld
      · cases hgains
    · exact h r hr hslot
  | free hold => exact h r (List.mem_filter.1 hr).1 hslot
  | make hnew =>
    rw [created_index] at hr
    obtain rfl | hr := (mem_indexInsert _ _ _).1 hr
    · exact Bool.eq_false_iff.2 fun hx => by cases hnew.holders st hx
    · exact h r hr hslot
  | take => exact h r hr hslot

theorem clearSlots_release (st : Station) (slots : List Nat) {s : State} (hindex : IndexOk s) :
    ∀ n ∈ slots, ∀ r ∈ (slots.foldl (clearSlot st) s).index, r.slot = n → holds r st = false := by
  induction slots generalizing s with
  | nil => exact nofun
  | cons m rest ih =>
    have hchange : RecordChange True none s (clearSlot st s m) := clearSlot_change m
    intro n hn
    obtain rfl | hn := List.mem_cons.1 hn
    · exact (clearSlots_changes (ctx := True) (who := none) rest).keeps (fun _ _ hc => hc.released)
        (clearSlot_releases hindex st n)
    · exact ih (hchange.indexOk hindex) n hn

/-! ## Completions -/

theorem ClearOk.clearSlots (st : Station) (slots : List Nat) (h : ClearOk s) :
    ClearOk (slots.foldl (clearSlot st) s) :=
  (clearSlots_changes (ctx := True) (who := none) slots).keeps
    (fun _ _ hc hu => ClearOk.change hc (fun _ hx => by cases hx) hu) h

/-- A run of changes of records keeps the clear queue, its progress and the operation in progress. -/
theorem RecordChanges.queue {ctx : Prop} {who : Option Station} (h : RecordChanges ctx who s t) :
    t.clearQueue = s.clearQueue ∧ t.clearProgress = s.clearProgress ∧ t.running = s.running := by
  refine h.keeps (P := fun u => u.clearQueue = s.clearQueue ∧ u.clearProgress = s.clearProgress ∧
    u.running = s.running) (fun u v hchange hu => ?_) ⟨rfl, rfl, rfl⟩
  rw [hchange.alone.frame]
  exact hu

theorem mem_chunkRange_iff (k : Fin 16) (n : Nat) :
    n ∈ chunkRange k ↔ Config.chunkSlots * k.val ≤ n ∧ n < Config.chunkSlots * (k.val + 1) := by
  simp only [chunkRange, List.mem_map, List.mem_range, Config.chunkSlots]
  constructor
  · rintro ⟨i, hi, rfl⟩
    omega
  · rintro ⟨hlow, hhigh⟩
    exact ⟨n - 64 * k.val, by omega, by omega⟩

/-- A chunk that is not the last one lets the progress pass its slots (R137). -/
theorem ClearOk.progressed {st : Station} {k : Fin 16} (hk : k ≠ 15) (hhead : s.clearQueue.head? = some st)
    (hfree : s.running = none)
    (hreleased : ∀ r ∈ s.index, r.slot < Config.chunkSlots * (k.val + 1) → holds r st = false) (h : ClearOk s) :
    ClearOk { s with clearProgress := k + 1 } := by
  have hnext : (k + 1).val = k.val + 1 := by
    rw [Fin.val_add_one_of_lt (Fin.lt_last_iff_ne_last.2 hk)]
  rw [clearOk_iff] at h ⊢
  obtain ⟨⟨hentries, hnodup, hleaving, -⟩, ⟨hholders, -⟩, -⟩ := h
  refine ⟨⟨hentries, hnodup, hleaving, fun hnil => ?_⟩, ⟨hholders, fun r hr x hx hslot => ?_⟩, fun g hg => ?_⟩
  · have hnone : s.clearQueue.head? = none := by rw [show s.clearQueue = [] from hnil]; rfl
    rw [hnone] at hhead
    cases hhead
  · have hsame : x = st := Option.some.inj (hx.symm.trans hhead)
    rw [hsame]
    refine hreleased r hr ?_
    rw [← hnext]
    exact hslot
  · rw [show s.running = some g from hg] at hfree
    cases hfree

/-- The last chunk ends the clear of a station that holds nothing any more (R139). -/
theorem ClearOk.ended {st : Station} (hhead : s.clearQueue.head? = some st) (hfree : s.running = none)
    (hreleased : ∀ r ∈ s.index, holds r st = false) (h : ClearOk s) :
    ClearOk (clearEnd st { s with clearProgress := 0 }) := by
  rw [clearOk_iff] at h ⊢
  obtain ⟨⟨hentries, hnodup, hleaving, -⟩, ⟨hholders, -⟩, -⟩ := h
  have hstate : (s.station st).state = .leaving := (hleaving st).1 (List.mem_of_mem_head? hhead)
  have hremote : st ≠ 0 := by
    intro hzero
    rw [(hentries st).1.2 hzero] at hstate
    cases hstate
  have hother {x : Station} (hx : x ≠ st) : (clearEnd st { s with clearProgress := 0 }).station x = s.station x := by
    rw [clearEnd_station, if_neg hx]
    rfl
  have hnew : ((clearEnd st { s with clearProgress := 0 }).station st).state = .barred ∨
      ((clearEnd st { s with clearProgress := 0 }).station st).state = .offline := by
    rw [clearEnd_station, if_pos rfl]
    dsimp only
    split
    · exact .inl rfl
    · exact .inr rfl
  refine ⟨⟨fun x => ?_, hnodup.filter _, fun x => ?_, fun _ => rfl⟩, ⟨fun r hr x hx => ?_, fun r _ x _ hslot => ?_⟩,
    fun g hg => ?_⟩
  · by_cases hx : x = st
    · subst hx
      refine ⟨⟨fun hlocal => ?_, fun hzero => absurd hzero hremote⟩, fun _ => ?_⟩
      · rw [hlocal] at hnew
        obtain h | h := hnew <;> cases h
      · rw [clearEnd_station, if_pos rfl]
        exact ⟨rfl, rfl, rfl⟩
    · rw [entryOk, hother hx]
      exact hentries x
  · refine List.mem_filter.trans ?_
    by_cases hx : x = st
    · subst hx
      refine ⟨fun hmem => absurd rfl (of_decide_eq_true hmem.2), fun hleave => ?_⟩
      rw [hleave] at hnew
      obtain h | h := hnew <;> cases h
    · rw [hother hx, ← hleaving x]
      exact ⟨And.left, fun hmem => ⟨hmem, decide_eq_true hx⟩⟩
  · have hx' : x ≠ st := by
      rintro rfl
      exact Bool.eq_false_iff.1 (hreleased r hr) hx
    rw [mayHold_iff, hother hx']
    exact hholders r hr x hx
  · exact absurd hslot (Nat.not_lt_zero _)
  · rw [show s.running = some g from hg] at hfree
    cases hfree

theorem ClearOk.chunk {st : Station} {k : Fin 16} (hindex : IndexOk s) (hhead : s.clearQueue.head? = some st)
    (hprogress : s.clearProgress = k) (hfree : s.running = none) (h : ClearOk s) : ClearOk (clearChunkOn st k s) := by
  have hcleared := h.clearSlots st (chunkRange k)
  have hchanges : RecordChanges True none s ((chunkRange k).foldl (clearSlot st) s) := clearSlots_changes (chunkRange k)
  have hindex' := hchanges.keeps (fun _ _ hchange => hchange.indexOk) hindex
  have hreleased := clearSlots_release st (chunkRange k) hindex
  obtain ⟨hqueue, hprogress', hfree'⟩ := hchanges.queue
  unfold clearChunkOn
  generalize (chunkRange k).foldl (clearSlot st) s = u at *
  rw [← hqueue] at hhead
  rw [← hfree'] at hfree
  have hpassed : ∀ r ∈ u.index, r.slot < Config.chunkSlots * (k.val + 1) → holds r st = false := by
    intro r hr hslot
    by_cases hlow : Config.chunkSlots * k.val ≤ r.slot
    · exact hreleased r.slot ((mem_chunkRange_iff k r.slot).2 ⟨hlow, hslot⟩) r hr rfl
    · obtain ⟨-, hholdings, -⟩ := (clearOk_iff u).1 hcleared
      refine hholdings.passed r hr st hhead ?_
      rw [hprogress', hprogress]
      exact Nat.lt_of_not_le hlow
  dsimp only
  split
  next hlast =>
    subst hlast
    exact hcleared.ended hhead hfree fun r hr => hpassed r hr (hindex'.2.2 r hr).2
  next hk => exact hcleared.progressed hk hhead hfree hpassed

theorem ClearOk.completed {g : Granted} (hindex : IndexOk s) (hrunning : s.running = some g)
    (hcompletion : Completion s g t) (h : ClearOk s) : ClearOk t := by
  obtain ⟨htable, -, hwork⟩ := (clearOk_iff s).1 h
  obtain ⟨hgaining, hchunk⟩ := hwork g hrunning
  cases hcompletion with
  | @request st q u hwork hchange n res =>
    obtain ⟨hmay, hbegun⟩ := hgaining st (by rw [hwork]; rfl)
    have hu : ClearOk u := ClearOk.change hchange (by rintro _ ⟨⟩; exact ⟨hmay, hbegun⟩) h
    have hstation (x : Station) : (u.station x).state = (s.station x).state := by rw [hchange.alone.entries x]
    have hpool : ClearOk (poolLowTest n { u with running := none }) := by
      rw [poolLowTest_eq]
      exact hu.free.move fun hs =>
        ⟨hs.of_same rfl rfl fun _ => ⟨rfl, rfl, rfl, rfl⟩, .of_same rfl rfl rfl rfl fun _ => rfl⟩
    refine (hpool.deliver _ q (.inr ?_)).look
    have hpoolState : ((poolLowTest n { u with running := none }).station st).state = (u.station st).state := by
      rw [poolLowTest_eq]
      rfl
    rwa [mayHold_iff, hpoolState, hstation]
  | @fetch st found hwork =>
    obtain ⟨hmay, -⟩ := hgaining st (by rw [hwork]; rfl)
    refine (ClearOk.deliverFetch _ _ ?_).look
    unfold fetchMark
    split
    · exact h.free
    · exact h.free.move fun hs => moves_of_entry st _ hs rfl fun hout => absurd hout (hs.standing hmay)
  | @ack st id hwork =>
    refine (ClearOk.deliverAck _ ?_).look
    unfold ackNotice countStray
    split
    · refine ClearOk.change (ackRecord_change (ctx := True) (who := none) id) nofun (h.free.move fun hs => ?_)
      exact moves_of_entry st _ hs rfl fun hout => ⟨rfl, ((hs.entries st).2 hout).2⟩
    · split
      · exact h.free
      · exact h.free.move fun hs => moves_of_entry st _ hs rfl fun hout => (hs.entries st).2 hout
  | expire hwork => exact (ClearOk.change (expireHead_change (ctx := True) (who := none) _) nofun h.free).look
  | @chunk st k hwork =>
    obtain ⟨hhead, hprogress⟩ := hchunk (st, k) (by rw [hwork]; rfl)
    exact (ClearOk.chunk (s := { s with running := none }) (indexOk_of_index rfl hindex) hhead hprogress rfl h.free).look

/-! ## Resets (R143, R144) -/

/-- An empty directory and no LEAVING station leave nothing to clear. -/
theorem ClearOk.of_empty (hindex : t.index = []) (hqueue : t.clearQueue = []) (hprogress : t.clearProgress = 0)
    (hfree : t.running = none) (hentries : ∀ st, entryOk t st) (hstates : ∀ st, (t.station st).state ≠ .leaving) :
    ClearOk t := by
  rw [clearOk_iff]
  refine ⟨⟨hentries, ?_, fun st => ?_, fun _ => hprogress⟩, ⟨?_, ?_⟩, ?_⟩
  · rw [hqueue]
    exact List.nodup_nil
  · rw [hqueue]
    exact ⟨fun h => absurd h List.not_mem_nil, fun h => absurd h (hstates st)⟩
  · rw [hindex]
    exact nofun
  · rw [hindex]
    exact nofun
  · intro g hg
    rw [hfree] at hg
    cases hg

theorem effectOf_softReset_station (latch : Bool) (s : State) (x : Station) :
    (effectOf (.softReset latch) s).station x = (s.station x).softReset := by
  have heffect : effectOf (.softReset latch) s = portControlReset latch s := rfl
  rw [heffect, portControlReset_frame]
  exact softReset_station s x

theorem effectOf_fullReset_station (s : State) (x : Station) :
    (effectOf .fullReset s).station x = StationEntry.reset (if x = 0 then .local_ else .offline) :=
  resetStations_entry x

/-- Which stations are LOCAL after a soft reset, and that none is ONLINE or LEAVING (R144). -/
theorem softResetStationState_local (e : StationState) : softResetStationState e = .local_ ↔ e = .local_ := by
  cases e <;> decide

theorem softResetStationState_out (e : StationState) :
    softResetStationState e ≠ .online ∧ softResetStationState e ≠ .leaving := by
  cases e <;> decide

theorem ClearOk.reset {c : Instr} (hc : isReset c = true) (h : ClearOk s) : ClearOk (effectOf c s) := by
  cases c <;> cases hc
  case fullReset =>
    refine ClearOk.of_empty rfl rfl rfl rfl (fun x => ?_) fun x => ?_
    · rw [entryOk, effectOf_fullReset_station]
      by_cases hx : x = 0
      · simp [hx, StationEntry.reset]
      · simp [hx, StationEntry.reset]
    · rw [effectOf_fullReset_station]
      by_cases hx : x = 0
      · simp [hx, StationEntry.reset]
      · simp [hx, StationEntry.reset]
  case softReset latch =>
    obtain ⟨htable, -, -⟩ := (clearOk_iff s).1 h
    have hempty : DirectoryEmpty (effectOf (.softReset latch) s) := effectOf_reset rfl s
    have heffect : effectOf (.softReset latch) s = portControlReset latch s := rfl
    refine ClearOk.of_empty ?_ ?_ ?_ ?_ (fun x => ?_) fun x => ?_
    · rw [heffect, portControlReset_frame]; rfl
    · rw [heffect, portControlReset_frame]; rfl
    · rw [heffect, portControlReset_frame]; rfl
    · rw [heffect, portControlReset_frame]; rfl
    · rw [entryOk, effectOf_softReset_station]
      exact ⟨(softResetStationState_local _).trans (htable.entries x).1, fun _ => ⟨rfl, rfl, rfl⟩⟩
    · rw [effectOf_softReset_station]
      exact (softResetStationState_out _).2

/-! ## The FRESH-owed flag (R163) -/

/-- Every ONLINE station after a step was ONLINE before it with the same FRESH-owed flag. -/
def StaysOnline (s t : State) : Prop :=
  ∀ x, (t.station x).state = .online →
    (s.station x).state = .online ∧ (t.station x).freshOwed = (s.station x).freshOwed

theorem StaysOnline.refl (s : State) : StaysOnline s s := fun _ h => ⟨h, rfl⟩

theorem StaysOnline.fresh (hstays : StaysOnline s t) (h : FreshOk s) : FreshOk t := fun x hx =>
  (hstays x hx).2.trans (h x (hstays x hx).1)

theorem staysOnline_modStation (st : Station) (f : StationEntry → StationEntry)
    (hf : (f (s.station st)).state = (s.station st).state ∧ (f (s.station st)).freshOwed = (s.station st).freshOwed) :
    StaysOnline s (s.modStation st f) := by
  intro x hx
  rw [modStation_station] at hx ⊢
  split at hx
  next h =>
    subst h
    rw [if_pos rfl]
    exact ⟨hf.1.symm.trans hx, hf.2⟩
  next h =>
    rw [if_neg h]
    exact ⟨hx, rfl⟩

/-- A step after which one station alone differs, and that one is not ONLINE. -/
theorem staysOnline_of_out (st : Station) (hout : (t.station st).state ≠ .online)
    (hother : ∀ x, x ≠ st → t.station x = s.station x) : StaysOnline s t := by
  intro x hx
  have hne : x ≠ st := by
    rintro rfl
    exact hout hx
  rw [hother x hne] at hx ⊢
  exact ⟨hx, rfl⟩

theorem FreshOk.touch {desk banks : Prop} (htouch : Touch desk banks s t) (h : FreshOk s) : FreshOk t := by
  cases htouch with
  | plain hplain =>
    intro x hx
    simp only [State.station, hplain.stations] at hx ⊢
    exact h x hx
  | @engine l f =>
    have hstation (x : Station) : (s.modLink l f).station x = s.station x := by simp [State.station]
    intro x hx
    rw [hstation] at hx ⊢
    exact h x hx
  | entry st hentry => exact (staysOnline_modStation st _ ⟨hentry.state, hentry.fresh⟩).fresh h
  | online st hoff =>
    have hstation (x : Station) : (cameOnline s st).station x =
        if x = st then { s.station st with state := .online, missCount := 0, freshOwed := false } else s.station x :=
      cameOnline_station s st x
    intro x hx
    rw [hstation] at hx ⊢
    split at hx
    next hsame => rw [if_pos hsame]
    next hne =>
      rw [if_neg hne]
      exact h x hx
  | leave st honline =>
    refine (staysOnline_of_out st ?_ fun x hx => ?_).fresh h
    · rw [Touches.leave_state, if_pos rfl]
      exact nofun
    · rw [leave_station, if_neg hx]
  | bar st hoff =>
    have hstation (x : Station) : (s.changeState st .barred).station x =
        if x = st then { s.station st with state := .barred } else s.station x := changeState_station s st .barred x
    refine (staysOnline_of_out st ?_ fun x hx => ?_).fresh h
    · rw [hstation, if_pos rfl]
      exact nofun
    · rw [hstation, if_neg hx]
  | unbar st hbarred =>
    have hstation (x : Station) : (letIn s st).station x =
        if x = st then { s.station st with state := .offline, freshOwed := true } else s.station x :=
      letIn_station s st x
    refine (staysOnline_of_out st ?_ fun x hx => ?_).fresh h
    · rw [hstation, if_pos rfl]
      exact nofun
    · rw [hstation, if_neg hx]

theorem FreshOk.touches {desk banks : Prop} (htouches : Touches desk banks s t) (h : FreshOk s) : FreshOk t :=
  htouches.keeps (fun _ _ htouch hs => FreshOk.touch htouch hs) h

theorem FreshOk.change {ctx : Prop} {who : Option Station} (hchange : RecordChange ctx who s t) (h : FreshOk s) :
    FreshOk t := by
  intro x hx
  rw [hchange.alone.entries x] at hx ⊢
  exact h x hx

theorem FreshOk.deliver (o : Origin) (st : Station) (q : Request) (res : Result) (h : FreshOk s) :
    FreshOk (deliver o st q res s) := by
  cases o with
  | slot | window | deadline | clear => exact h
  | link l =>
    have hresult : FreshOk (s.modLink l fun e => linkWith e q res) := fun x hx => by
      have hstation : (s.modLink l fun e => linkWith e q res).station x = s.station x := by simp [State.station]
      rw [hstation] at hx ⊢
      exact h x hx
    have hdeliver : Machine.deliver (.link l) st q res s =
        (s.modLink l fun e => linkWith e q res).modStation st fun e =>
          { countRequest res.code e with
            last := if res.code = .notOnline then e.last else some (answerOf (s.link l) q res) } := by
      cases l <;> rfl
    rw [hdeliver]
    exact (staysOnline_modStation st _ ⟨rfl, rfl⟩).fresh hresult

theorem FreshOk.deliverFetch (o : Origin) (found : Option Snapshot) (h : FreshOk s) :
    FreshOk (deliverFetch o found s) := by
  cases o with
  | link l => exact h.touches (desk := False) (banks := False) (.buildVisit s l found)
  | slot | window | deadline | clear => exact h

theorem FreshOk.deliverAck (o : Origin) (h : FreshOk s) : FreshOk (deliverAck o s) := by
  cases o with
  | link l => exact h.touches (desk := False) (banks := False) (.enterRequest s l)
  | slot | window | deadline | clear => exact h

theorem FreshOk.look (h : FreshOk s) : FreshOk (monitorLook s) :=
  h.touches (desk := False) (banks := False) (.monitorLook s)

theorem FreshOk.leaveRequester (o : Origin) (p : Requester) (h : FreshOk s) :
    FreshOk (leaveRequester o { s with pointer := p }) := by
  intro x hx
  rw [leaveRequester_station] at hx ⊢
  exact h x hx

theorem FreshOk.grant (h : FreshOk s) : FreshOk (grantEffect s) := by
  obtain hsame | ⟨-, r, o, w, -, ⟨-, heffect⟩ | ⟨code, -, heffect⟩⟩ := grantEffect_cases s
  · rwa [hsame]
  · rw [heffect]
    exact h.leaveRequester o (nextRequester r)
  · rw [heffect]
    refine FreshOk.look ?_
    have hleft := h.leaveRequester o (nextRequester r)
    cases w with
    | request st q => exact FreshOk.deliver _ _ _ _ hleft
    | noticeFetch st => exact FreshOk.deliverFetch _ _ hleft
    | noticeAck st id => exact FreshOk.deliverAck _ hleft
    | expire | clearChunk => exact hleft

theorem FreshOk.clearEnd (st : Station) (h : FreshOk s) : FreshOk (clearEnd st s) := by
  refine (staysOnline_of_out st ?_ fun x hx => ?_).fresh h
  · rw [clearEnd_station, if_pos rfl]
    dsimp only
    split <;> exact nofun
  · rw [clearEnd_station, if_neg hx]

theorem FreshOk.completed {g : Granted} (hcompletion : Completion s g t) (h : FreshOk s) : FreshOk t := by
  have hfree : FreshOk { s with running := none } := h
  cases hcompletion with
  | @request st q u hwork hchange n res =>
    have hu : FreshOk u := h.change hchange
    refine FreshOk.look (FreshOk.deliver _ _ _ _ ?_)
    rw [poolLowTest_eq]
    exact hu
  | @fetch st found hwork =>
    refine FreshOk.look (FreshOk.deliverFetch _ _ ?_)
    unfold fetchMark
    split
    · exact hfree
    · exact (staysOnline_modStation st _ ⟨rfl, rfl⟩).fresh hfree
  | @ack st id hwork =>
    refine FreshOk.look (FreshOk.deliverAck _ ?_)
    unfold ackNotice countStray
    split
    · exact FreshOk.change (ackRecord_change (ctx := True) (who := none) id)
        ((staysOnline_modStation st _ ⟨rfl, rfl⟩).fresh hfree)
    · split
      · exact hfree
      · exact (staysOnline_modStation st _ ⟨rfl, rfl⟩).fresh hfree
  | expire hwork => exact (FreshOk.change (expireHead_change (ctx := True) (who := none) _) hfree).look
  | @chunk st k hwork =>
    refine FreshOk.look ?_
    have hcleared : FreshOk ((chunkRange k).foldl (clearSlot st) { s with running := none }) :=
      (clearSlots_changes (ctx := True) (who := none) (chunkRange k)).keeps
        (fun _ _ hchange hu => FreshOk.change hchange hu) hfree
    unfold clearChunkOn
    generalize (chunkRange k).foldl (clearSlot st) { s with running := none } = u at hcleared ⊢
    dsimp only
    split
    · exact FreshOk.clearEnd st hcleared
    · exact hcleared

theorem FreshOk.reset {c : Instr} (hc : isReset c = true) (s : State) : FreshOk (effectOf c s) := by
  cases c <;> cases hc
  case fullReset =>
    intro x hx
    rw [effectOf_fullReset_station] at hx
    split at hx <;> cases hx
  case softReset latch =>
    intro x hx
    rw [effectOf_softReset_station] at hx
    exact absurd hx (softResetStationState_out _).1

end

/-! ## The obligation -/

theorem step_clearOk {s t : State} (hindex : IndexOk s) (h : ClearOk s) (hstep : step s = .next t) : ClearOk t :=
  step_keeps_by_kind (Q := IndexOk) (D := False) (fun _ _ hu => hu) (fun _ _ htouch hu => ClearOk.touch htouch hu)
    (fun _ _ hD => hD.elim) (fun _ _ hreset _ hu => ClearOk.reset hreset hu) (fun _ _ hu => ClearOk.grant hu)
    (fun _ _ _ hrunning hix hcompletion hu => ClearOk.completed hix hrunning hcompletion hu) hindex h hstep

theorem step_freshOk {s t : State} (h : FreshOk s) (hstep : step s = .next t) : FreshOk t :=
  step_keeps_by_kind (Q := fun _ => True) (D := False) (fun _ _ _ => trivial)
    (fun _ _ htouch hu => FreshOk.touch htouch hu) (fun _ _ hD => hD.elim)
    (fun _ u hreset _ _ => FreshOk.reset hreset u) (fun _ _ hu => FreshOk.grant hu)
    (fun _ _ _ _ _ hcompletion hu => FreshOk.completed hcompletion hu) trivial h hstep

/-- Settles O56, by the kinds of command: each keeps the table, the holdings and the work in order. -/
theorem clearsLeaveNothingBehind : Obligations.ClearsLeaveNothingBehind :=
  ⟨fun _ _ hindex h hstep => step_clearOk hindex h hstep, fun _ _ h hstep => step_freshOk h hstep⟩

end Sys2Proof.Machine
end

