-- ==== Sys2Proof/Proofs/LocalEntry.lean ====
section
/-! Station 0 (O57): its entry of the station table, and the sets of remote stations. -/

namespace Sys2Proof.Machine

open Sys2Proof.Spec

/-! ## What a step keeps of station 0 -/

/-- An entry changed in its counts, its cursor and its in-flight notice, or in a counter that is made 0. -/
def LocalKept (e e' : StationEntry) : Prop :=
  e' = { e with
    claims := e'.claims, subscriptions := e'.subscriptions, pendingCount := e'.pendingCount
    cursor := e'.cursor, inflight := e'.inflight } ∨ ∃ which, e' = zeroStationCounter which e

/-- A step keeps the local entry and puts station 0 in no set, as far as both hold before it. -/
def KeepsLocal (s t : State) : Prop :=
  (s.station 0).state = .local_ →
    (t.station 0).state = .local_ ∧ (LocalEntryOk s → LocalEntryOk t) ∧ (RemoteSetsOk s → RemoteSetsOk t)

section
variable {s t u : State}

theorem LocalKept.refl (e : StationEntry) : LocalKept e e := .inl rfl

theorem LocalKept.state {e e' : StationEntry} (h : LocalKept e e') : e'.state = e.state := by
  obtain h | ⟨which, rfl⟩ := h
  · rw [h]
  · cases which <;> rfl

theorem LocalKept.entryOk (h : LocalKept (s.station 0) (t.station 0)) (hs : LocalEntryOk s) : LocalEntryOk t := by
  unfold LocalEntryOk at hs ⊢
  generalize s.station 0 = e at h hs
  generalize t.station 0 = e' at h ⊢
  obtain h | ⟨which, rfl⟩ := h
  · rw [hs] at h
    exact h
  · rw [hs]
    cases which <;> rfl

theorem KeepsLocal.refl (s : State) : KeepsLocal s s := fun h => ⟨h, id, id⟩

theorem KeepsLocal.trans (h1 : KeepsLocal s t) (h2 : KeepsLocal t u) : KeepsLocal s u := fun h => by
  obtain ⟨ht, hentry, hsets⟩ := h1 h
  obtain ⟨hu, hentry', hsets'⟩ := h2 ht
  exact ⟨hu, hentry' ∘ hentry, hsets' ∘ hsets⟩

theorem KeepsLocal.of_parts (hentry : (s.station 0).state = .local_ → LocalKept (s.station 0) (t.station 0))
    (hfences : ∀ i : Fin 8, (setHas t.fences[i].readMask 0 = true → setHas s.fences[i].readMask 0 = true) ∧
      (setHas t.fences[i].writeMask 0 = true → setHas s.fences[i].writeMask 0 = true))
    (hchanged : (s.station 0).state = .local_ → setHas t.stationChanged 0 = true → setHas s.stationChanged 0 = true) :
    KeepsLocal s t := by
  intro h
  refine ⟨(hentry h).state.trans h, (hentry h).entryOk, fun ⟨hmasks, hset⟩ => ⟨fun i => ⟨?_, ?_⟩, ?_⟩⟩
  · exact Bool.eq_false_iff.2 fun hx => Bool.eq_false_iff.1 (hmasks i).1 ((hfences i).1 hx)
  · exact Bool.eq_false_iff.2 fun hx => Bool.eq_false_iff.1 (hmasks i).2 ((hfences i).2 hx)
  · exact Bool.eq_false_iff.2 fun hx => Bool.eq_false_iff.1 hset (hchanged h hx)

/-- The sets stay; entry 0 changes as it may. -/
theorem KeepsLocal.of_entry (hentry : (s.station 0).state = .local_ → LocalKept (s.station 0) (t.station 0))
    (hfences : t.fences = s.fences) (hchanged : t.stationChanged = s.stationChanged) : KeepsLocal s t :=
  .of_parts hentry (fun i => by rw [hfences]; exact ⟨id, id⟩) fun _ => by rw [hchanged]; exact id

theorem KeepsLocal.of_same (hentry : t.station 0 = s.station 0) (hfences : t.fences = s.fences)
    (hchanged : t.stationChanged = s.stationChanged) : KeepsLocal s t :=
  .of_entry (fun _ => by rw [hentry]; exact .refl _) hfences hchanged

/-- A remote station changes, and is put in the station-changed set. -/
theorem KeepsLocal.of_remote {st : Station} (hst : (s.station 0).state = .local_ → st ≠ 0)
    (hother : ∀ x, x ≠ st → t.station x = s.station x) (hfences : t.fences = s.fences)
    (hchanged : t.stationChanged = setAdd s.stationChanged st) : KeepsLocal s t := by
  refine .of_parts (fun h => ?_) (fun i => by rw [hfences]; exact ⟨id, id⟩) fun h hx => ?_
  · rw [hother 0 (hst h).symm]
    exact .refl _
  · rw [hchanged, setHas_setAdd, decide_eq_false (hst h).symm, Bool.or_false] at hx
    exact hx

theorem KeepsLocal.modStation (st : Station) {f : StationEntry → StationEntry}
    (hf : st = 0 → (s.station 0).state = .local_ → LocalKept (s.station 0) (f (s.station 0))) :
    KeepsLocal s (s.modStation st f) := by
  refine .of_entry (fun h => ?_) rfl rfl
  rw [modStation_station]
  split
  next hst =>
    subst hst
    exact hf rfl h
  next => exact .refl _

/-- A station that is not LOCAL is not station 0 while that one is. -/
theorem ne_zero_of_state {st : Station} (h : (s.station st).state ≠ .local_) (hlocal : (s.station 0).state = .local_) :
    st ≠ 0 := by
  rintro rfl
  exact h hlocal

theorem Touch.keepsLocal {desk banks : Prop} (htouch : Touch desk banks s t) : KeepsLocal s t := by
  cases htouch with
  | plain hplain =>
    refine .of_parts (fun _ => ?_) hplain.fences fun _ => hplain.changed
    simp only [State.station, hplain.stations]
    exact .refl _
  | engine l h => exact .of_same (by simp [State.station]) (by simp) (by simp)
  | entry st h =>
    refine .modStation st fun hst hlocal => ?_
    subst hst
    obtain hsame | hzeroed := h.local_ rfl hlocal
    · rw [hsame]
      exact .refl _
    · exact .inr hzeroed
  | online st h =>
    refine .of_remote (st := st) (ne_zero_of_state (by rw [h]; exact nofun)) (fun x hx => ?_) rfl rfl
    have hstation := cameOnline_station s st x
    rwa [if_neg hx] at hstation
  | leave st h =>
    refine .of_remote (st := st) (ne_zero_of_state (by rw [h]; exact nofun)) (fun x hx => ?_) rfl rfl
    rw [leave_station, if_neg hx]
  | bar st h =>
    refine .of_remote (st := st) (ne_zero_of_state (by rw [h]; exact nofun)) (fun x hx => ?_) rfl rfl
    have hstation := changeState_station s st .barred x
    rwa [if_neg hx] at hstation
  | unbar st h =>
    refine .of_remote (st := st) (ne_zero_of_state (by rw [h]; exact nofun)) (fun x hx => ?_) rfl rfl
    have hstation := letIn_station s st x
    rwa [if_neg hx] at hstation

theorem Touches.keepsLocal {desk banks : Prop} (h : Touches desk banks s t) : KeepsLocal s t :=
  h.keeps (P := KeepsLocal s) (fun _ _ htouch hu => hu.trans htouch.keepsLocal) (.refl s)

theorem RecordChange.keepsLocal {ctx : Prop} {who : Option Station} (h : RecordChange ctx who s t) : KeepsLocal s t := by
  refine .of_entry (fun _ => .inl ?_) ?_ ?_
  · have hentry := h.alone.entries 0
    generalize s.station 0 = e at hentry ⊢
    generalize t.station 0 = e' at hentry ⊢
    rw [hentry]
  · rw [h.alone.frame]
  · rw [h.alone.frame]

/-! ## Outcomes -/

theorem deliver_keepsLocal (o : Origin) {st : Station} (q : Request) (res : Result)
    (hst : ∀ l, o = .link l → st ≠ 0) : KeepsLocal s (deliver o st q res s) := by
  cases o with
  | slot k => exact .of_same rfl rfl rfl
  | link l =>
    have hresult : KeepsLocal s (s.modLink l fun e => linkWith e q res) :=
      .of_same (by simp [State.station]) (by simp) (by simp)
    have hdeliver : Machine.deliver (.link l) st q res s =
        (s.modLink l fun e => linkWith e q res).modStation st fun e =>
          { countRequest res.code e with
            last := if res.code = .notOnline then e.last else some (answerOf (s.link l) q res) } := by
      cases l <;> rfl
    rw [hdeliver]
    exact hresult.trans (.modStation st fun hzero => absurd hzero (hst l rfl))
  | window | deadline | clear => exact .refl s

theorem deliverFetch_keepsLocal (o : Origin) (found : Option Snapshot) : KeepsLocal s (deliverFetch o found s) := by
  cases o with
  | link l => exact (Touches.buildVisit (desk := False) (banks := False) s l found).keepsLocal
  | window | slot | deadline | clear => exact .of_same rfl rfl rfl

theorem deliverAck_keepsLocal (o : Origin) : KeepsLocal s (deliverAck o s) := by
  cases o with
  | link l => exact (Touches.enterRequest (desk := False) (banks := False) s l).keepsLocal
  | window | slot | deadline | clear => exact .of_same rfl rfl rfl

theorem look_keepsLocal (s : State) : KeepsLocal s (monitorLook s) :=
  (Touches.monitorLook (desk := False) (banks := False) s).keepsLocal

theorem free_keepsLocal (s : State) : KeepsLocal s { s with running := none } := .of_same rfl rfl rfl

theorem leaveRequester_keepsLocal (o : Origin) (p : Requester) (s : State) :
    KeepsLocal s (leaveRequester o { s with pointer := p }) := by
  cases o <;> exact .of_same rfl rfl rfl

/-! ## Grants, completions and resets -/

/-- A link presents operations of remote stations (R36, R153). -/
theorem Presents.remote {r : Requester} {o : Origin} {w : Work} (hvisits : visitRemote s.linkA ∧ visitRemote s.linkB)
    (h : Presents s r o w) {l : Link} (ho : o = .link l) : ∀ st ∈ workStation w, st ≠ 0 := by
  cases h with
  | link l' hwork =>
    cases ho
    obtain ⟨v, hv, hwork⟩ := Option.bind_eq_some_iff.1 hwork
    have hremote : v.station ≠ 0 := by
      cases l
      · exact hvisits.1 v hv
      · exact hvisits.2 v hv
    intro st hst
    rw [(visitWork_some hwork).1] at hst
    cases hst
    exact hremote
  | fetch | ack | slot | expire | chunk => cases ho

theorem grant_keepsLocal (hwindow : WindowOk s) : KeepsLocal s (grantEffect s) := by
  obtain ⟨-, -, -, -, hlinkA, hlinkB, -, -⟩ := hwindow
  obtain hsame | ⟨-, r, o, w, hr, ⟨-, heffect⟩ | ⟨code, -, heffect⟩⟩ := grantEffect_cases s
  · rw [hsame]
    exact .refl s
  · rw [heffect]
    exact (leaveRequester_keepsLocal o (nextRequester r) s).trans (.of_same rfl rfl rfl)
  · rw [heffect]
    refine (leaveRequester_keepsLocal o (nextRequester r) s).trans (.trans ?_ (look_keepsLocal _))
    cases w with
    | request st q =>
      exact deliver_keepsLocal o q _ fun l ho => (presents_of_presented hr).remote ⟨hlinkA, hlinkB⟩ ho st rfl
    | noticeFetch st => exact deliverFetch_keepsLocal o none
    | noticeAck st id => exact deliverAck_keepsLocal o
    | expire | clearChunk => exact .refl _

theorem completion_keepsLocal {g : Granted} (hclear : ClearOk s) (hwindow : WindowOk s) (hrunning : s.running = some g)
    (hcompletion : Completion s g t) : KeepsLocal s t := by
  obtain ⟨-, -, -, -, -, -, horigin, -⟩ := hwindow
  cases hcompletion with
  | @request st q u hwork hchange n res =>
    have hpool : KeepsLocal u (poolLowTest n { u with running := none }) := by
      rw [poolLowTest_eq]
      exact .of_same rfl rfl rfl
    refine hchange.keepsLocal.trans (hpool.trans (.trans (deliver_keepsLocal _ q res fun l ho => ?_) (look_keepsLocal _)))
    refine (horigin g hrunning st (by rw [hwork]; rfl)).2 ?_
    rw [ho]
    rfl
  | @fetch st found hwork =>
    refine (free_keepsLocal s).trans (.trans ?_ ((deliverFetch_keepsLocal _ _).trans (look_keepsLocal _)))
    unfold fetchMark
    split
    · exact .refl _
    · exact .modStation st fun _ _ => .inl rfl
  | @ack st id hwork =>
    refine (free_keepsLocal s).trans (.trans ?_ ((deliverAck_keepsLocal _).trans (look_keepsLocal _)))
    unfold ackNotice countStray
    split
    · exact .trans (.modStation st fun _ _ => .inl rfl) (ackRecord_change (ctx := True) (who := none) id).keepsLocal
    · split
      · exact .refl _
      next hst => exact .modStation st fun hzero => absurd hzero hst
  | expire hwork =>
    exact (free_keepsLocal s).trans
      ((expireHead_change (ctx := True) (who := none) _).keepsLocal.trans (look_keepsLocal _))
  | @chunk st k hwork =>
    obtain ⟨htable, -, hworks⟩ := (clearOk_iff s).1 hclear
    obtain ⟨hhead, -⟩ := (hworks g hrunning).2 (st, k) (by rw [hwork]; rfl)
    have hleaving := (htable.leaving st).1 (List.mem_of_mem_head? hhead)
    have hremote : st ≠ 0 := by
      rintro rfl
      rw [(htable.entries 0).1.2 rfl] at hleaving
      cases hleaving
    have hcleared (v : State) : KeepsLocal v ((chunkRange k).foldl (clearSlot st) v) :=
      (clearSlots_changes (ctx := True) (who := none) (chunkRange k)).keeps (P := KeepsLocal v)
        (fun _ _ hchange hu => hu.trans hchange.keepsLocal) (.refl v)
    have hend (v : State) : KeepsLocal v (clearEnd st v) :=
      .of_remote (st := st) (fun _ => hremote) (fun x hx => by rw [clearEnd_station, if_neg hx]) rfl rfl
    refine (free_keepsLocal s).trans (.trans ?_ (look_keepsLocal _))
    unfold clearChunkOn
    refine (hcleared _).trans ?_
    generalize (chunkRange k).foldl (clearSlot st) { s with running := none } = u
    have hprogress : KeepsLocal u { u with clearProgress := k + 1 } := .of_same rfl rfl rfl
    dsimp only
    split
    · exact hprogress.trans (hend _)
    · exact hprogress

theorem reset_keepsLocal {c : Instr} (hc : isReset c = true) (s : State) : KeepsLocal s (effectOf c s) := by
  cases c <;> cases hc
  case fullReset =>
    have hentry : (effectOf .fullReset s).station 0 = StationEntry.reset .local_ := effectOf_fullReset_station s 0
    intro _
    refine ⟨by rw [hentry]; rfl, fun _ => ?_, fun _ => ?_⟩
    · rw [LocalEntryOk, hentry]
    · have hsets : RemoteSetsOk State.reset := by decide
      exact hsets
  case softReset latch =>
    have hentry := effectOf_softReset_station latch s 0
    intro hlocal
    refine ⟨?_, fun h => ?_, fun h => ⟨?_, ?_⟩⟩
    · rw [hentry]
      exact (softResetStationState_local _).2 hlocal
    · rw [LocalEntryOk] at h
      rw [LocalEntryOk, hentry, h]
      rfl
    · have heffect : effectOf (.softReset latch) s = portControlReset latch s := rfl
      rw [heffect, portControlReset_frame]
      exact h.1
    · have heffect : effectOf (.softReset latch) s = portControlReset latch s := rfl
      rw [heffect, portControlReset_frame]
      exact setHas_zero 0

end

theorem step_keepsLocal {s t : State} (hclear : ClearOk s) (hwindow : WindowOk s) (hstep : step s = .next t) :
    KeepsLocal s t :=
  step_keeps_by_kind (P := KeepsLocal s) (Q := fun u => ClearOk u ∧ WindowOk u) (D := False) (fun _ _ hu => hu)
    (fun _ _ htouch hu => hu.trans htouch.keepsLocal) (fun _ _ hD => hD.elim)
    (fun _ u hreset _ hu => hu.trans (reset_keepsLocal hreset u)) (fun _ hok hu => hu.trans (grant_keepsLocal hok.2))
    (fun _ _ _ hrunning hok hcompletion hu => hu.trans (completion_keepsLocal hok.1 hok.2 hrunning hcompletion))
    ⟨hclear, hwindow⟩ (.refl s) hstep

/-- Settles O57, by the kinds of command: each that changes a state or puts a station in a set acts on a remote one. -/
theorem stepsKeepTheLocalEntry : Obligations.StepsKeepTheLocalEntry := by
  refine ⟨fun s t hclear hwindow h hstep => ?_, fun s t hclear hwindow h hstep => ?_⟩
  · obtain ⟨-, hentry, -⟩ := step_keepsLocal hclear hwindow hstep ((hclear.1 0).1.2 rfl)
    exact hentry h
  · obtain ⟨-, -, hsets⟩ := step_keepsLocal hclear hwindow hstep ((hclear.1 0).1.2 rfl)
    exact hsets h

end Sys2Proof.Machine
end

