-- ==== Sys2Proof/Proofs/Desk.lean ====
section
/-! The Local Controller Port (O58): the request slots with their queue, and the notice window. -/

namespace Sys2Proof.Machine

open Sys2Proof.Spec

/-! ## Slots -/

/-- Slot `k` agrees with the submission queue and with the operation in progress (R184, R185). -/
def SlotOk (s : State) (k : Fin 4) : Prop :=
  (k ∈ s.submission ↔ (s.slots[k]).state = .queued) ∧
    ((s.slots[k]).state = .running ↔ runningFor s (.slot k) = true)

/-- The slots, their queue and the operation in progress stay as they are. -/
structure SameDesk (s t : State) : Prop where
  slots : t.slots = s.slots
  submission : t.submission = s.submission
  running : t.running = s.running

section
variable {s t u : State}

theorem SameDesk.refl (s : State) : SameDesk s s := ⟨rfl, rfl, rfl⟩

theorem SameDesk.trans (h1 : SameDesk s t) (h2 : SameDesk t u) : SameDesk s u :=
  ⟨h2.slots.trans h1.slots, h2.submission.trans h1.submission, h2.running.trans h1.running⟩

theorem SameDesk.slotsOk (h : SameDesk s t) (hs : SlotsOk s) : SlotsOk t := by
  obtain ⟨hslots, hsubmission, hrunning⟩ := h
  unfold SlotsOk fitsOk runningFor
  rw [hslots, hsubmission, hrunning]
  exact hs

theorem Touch.sameDesk {desk banks : Prop} (hd : desk) (h : Touch desk banks s t) : SameDesk s t := by
  obtain hplain | ⟨l, f, -, rfl⟩ | ⟨v, q, c, k, rfl⟩ := h.kinds
  · obtain ⟨hslots, hsubmission, -⟩ := hplain.desk hd
    exact ⟨hslots, hsubmission, hplain.running⟩
  · exact ⟨by simp, by simp, by simp⟩
  · exact ⟨rfl, rfl, rfl⟩

theorem Touches.sameDesk {desk banks : Prop} (hd : desk) (h : Touches desk banks s t) : SameDesk s t :=
  h.keeps (P := SameDesk s) (fun _ _ htouch hu => hu.trans (htouch.sameDesk hd)) (.refl s)

theorem RecordChange.sameDesk {ctx : Prop} {who : Option Station} (h : RecordChange ctx who s t) : SameDesk s t := by
  rw [h.alone.frame]
  exact ⟨rfl, rfl, rfl⟩

theorem modStation_sameDesk (s : State) (st : Station) (f : StationEntry → StationEntry) :
    SameDesk s (s.modStation st f) := ⟨rfl, rfl, rfl⟩

theorem look_sameDesk (s : State) : SameDesk s (monitorLook s) :=
  (Touches.monitorLook (desk := True) (banks := False) s).sameDesk trivial

theorem deliverFetch_sameDesk (o : Origin) (found : Option Snapshot) (s : State) :
    SameDesk s (deliverFetch o found s) := by
  cases o with
  | link l => exact (Touches.buildVisit (desk := True) (banks := False) s l found).sameDesk trivial
  | slot | window | deadline | clear => exact ⟨rfl, rfl, rfl⟩

theorem deliverAck_sameDesk (o : Origin) (s : State) : SameDesk s (deliverAck o s) := by
  cases o with
  | link l => exact (Touches.enterRequest (desk := True) (banks := False) s l).sameDesk trivial
  | slot | window | deadline | clear => exact ⟨rfl, rfl, rfl⟩

/-- An outcome that does not go to a slot leaves the slots alone. -/
theorem deliver_sameDesk {o : Origin} (st : Station) (q : Request) (res : Result) (s : State)
    (ho : ∀ k, o ≠ .slot k) : SameDesk s (deliver o st q res s) := by
  cases o with
  | slot k => exact absurd rfl (ho k)
  | link l => cases l <;> exact ⟨rfl, rfl, rfl⟩
  | window | deadline | clear => exact ⟨rfl, rfl, rfl⟩

/-- An outcome that goes to a slot makes it DONE and leaves the other slots alone. -/
theorem completeSlot_state (k j : Fin 4) (res : Result) (s : State) :
    ((completeSlot k res s).slots[j]).state = if j = k then .done else (s.slots[j]).state := by
  have hslots : (completeSlot k res s).slots = s.slots.set k ((completeSlot k res s).slots[k]) := by
    simp [completeSlot_eq]
  rw [hslots]
  simp only [Fin.getElem_fin, Vector.getElem_set, Fin.ext_iff, eq_comm (a := k.val)]
  split
  · simp [completeSlot_eq]
  · rfl

theorem SlotsOk.of_slot (k : Fin 4) (hs : SlotsOk s) (hnodup : t.submission.Nodup) (hfits : fitsOk t)
    (hstate : ∀ j, j ≠ k → (t.slots[j]).state = (s.slots[j]).state)
    (hqueue : ∀ j, j ≠ k → (j ∈ t.submission ↔ j ∈ s.submission))
    (hrun : ∀ j, j ≠ k → runningFor t (.slot j) = runningFor s (.slot j)) (hslot : SlotOk t k) : SlotsOk t := by
  refine ⟨hnodup, hfits, fun j => ?_⟩
  by_cases hj : j = k
  · subst hj
    exact hslot
  · rw [hstate j hj, hqueue j hj, hrun j hj]
    exact hs.2.2 j

theorem set_state (v : Vector Slot 4) (x : Slot) {k j : Fin 4} (hj : j ≠ k) : ((v.set k x)[j]).state = (v[j]).state := by
  have hval : k.val ≠ j.val := fun h => hj (Fin.ext h.symm)
  simp [hval]

theorem modSlot_same (s : State) (k : Fin 4) (f : Slot → Slot) : (s.modSlot k f).slots[k] = f s.slots[k] := by
  simp [State.modSlot]

theorem runningFor_of_none (hfree : s.running = none) (o : Origin) : runningFor s o = false := by
  rw [runningFor, hfree]
  rfl

theorem runningFor_some {g : Granted} (hrunning : s.running = some g) (o : Origin) :
    runningFor s o = decide (g.origin = o) := by
  rw [runningFor, hrunning]
  simp

/-! ## Writes to the slots -/

theorem SlotsOk.store (k : Fin 4) {f : Slot → Slot} (hf : (f s.slots[k]).state = (s.slots[k]).state) (h : SlotsOk s) :
    SlotsOk (s.modSlot k f) := by
  refine SlotsOk.of_slot k h h.1 h.2.1 (fun j hj => set_state s.slots _ hj) (fun _ _ => Iff.rfl) (fun _ _ => rfl) ?_
  unfold SlotOk
  rw [modSlot_same, hf]
  exact h.2.2 k

/-- A slot that is not QUEUED or RUNNING is not in the queue and has no operation in progress. -/
theorem SlotsOk.open (h : SlotsOk s) {k : Fin 4} (hopen : slotOpen s.slots[k] = true) :
    k ∉ s.submission ∧ runningFor s (.slot k) = false := by
  obtain ⟨hqueued, hrunning⟩ := h.2.2 k
  rw [hqueued, ← Bool.not_eq_true, ← hrunning]
  obtain hstate | hstate := of_decide_eq_true hopen <;> rw [hstate] <;> exact ⟨nofun, nofun⟩

theorem SlotsOk.go (k : Fin 4) (code : Byte) (expect force : Bool) (h : SlotsOk s) :
    SlotsOk (goEffect k code expect force s) := by
  unfold goEffect
  split
  next hopen =>
    obtain ⟨hout, hidle⟩ := h.open hopen
    refine SlotsOk.of_slot k h ?_ h.2.1 (fun j hj => set_state s.slots _ hj) (fun j hj => ?_) (fun _ _ => rfl) ⟨?_, ?_⟩
    · exact h.1.append (List.nodup_singleton k) (by simpa using hout)
    · simp [hj]
    · exact ⟨fun _ => by rw [modSlot_same], fun _ => by simp⟩
    · dsimp only
      rw [modSlot_same]
      exact ⟨nofun, fun hrun => absurd hrun (Bool.eq_false_iff.1 hidle)⟩
  next => exact SameDesk.slotsOk ⟨rfl, rfl, rfl⟩ h

theorem SlotsOk.cancel (k : Fin 4) (code : Byte) (expect force : Bool) (h : SlotsOk s) :
    SlotsOk (cancelEffect k code expect force s) := by
  unfold cancelEffect
  split
  next hqueued =>
    have hidle : ¬ runningFor s (.slot k) = true := by
      rw [← (h.2.2 k).2, hqueued]
      exact nofun
    refine SlotsOk.of_slot k h (h.1.filter _) h.2.1 (fun j hj => set_state s.slots _ hj) (fun j hj => ?_)
      (fun _ _ => rfl) ⟨?_, ?_⟩
    · simp [setCause, hj]
    · dsimp only [setCause]
      rw [modSlot_same]
      exact ⟨fun hmem => absurd rfl (of_decide_eq_true (List.mem_filter.1 hmem).2), nofun⟩
    · dsimp only [setCause]
      rw [modSlot_same]
      exact ⟨nofun, fun hrun => absurd hrun hidle⟩
  next => exact h
  next => exact h.store k rfl
  next => exact h.store k rfl

theorem SlotsOk.clear (k : Fin 4) (code : Byte) (expect force : Bool) (h : SlotsOk s) :
    SlotsOk (clearEffect k code expect force s) := by
  unfold clearEffect
  split
  next hdone =>
    obtain ⟨hout, hidle⟩ := h.open (k := k) (decide_eq_true (.inr hdone))
    refine SlotsOk.of_slot k h h.1 h.2.1 (fun j hj => set_state s.slots _ hj) (fun _ _ => Iff.rfl) (fun _ _ => rfl)
      ⟨?_, ?_⟩
    · rw [modSlot_same]
      exact ⟨fun hmem => absurd hmem hout, nofun⟩
    · rw [modSlot_same]
      exact ⟨nofun, fun hrun => absurd hrun (Bool.eq_false_iff.1 hidle)⟩
  next => exact h.store k rfl
  all_goals exact SameDesk.slotsOk ⟨rfl, rfl, rfl⟩ h

theorem storeSlotWord_state (w : SlotWord) (value : Word) (x : Slot) : (storeSlotWord w value x).state = x.state := by
  cases w <;> rfl

theorem SlotsOk.write (k : Fin 4) (w : SlotWord) (value : Word) (h : SlotsOk s) :
    SlotsOk (slotWriteEffect k w value s) := by
  unfold slotWriteEffect
  split
  · exact h.store k (storeSlotWord_state w value _)
  · exact SameDesk.slotsOk ⟨rfl, rfl, rfl⟩ h

theorem SlotsOk.slotWord (k : Fin 4) (w : SlotWord) (value : Word) (h : SlotsOk s) :
    SlotsOk (slotWordWrite k w value s) := by
  cases w with
  | op =>
    unfold slotWordWrite opWordWrite
    dsimp only
    split
    · exact h.write ..
    · exact h.go ..
    · exact h.cancel ..
    · exact h.clear ..
    · exact SameDesk.slotsOk ⟨rfl, rfl, rfl⟩ h
  | point | argument | data => exact h.write ..

theorem take_sameDesk (s : State) : SameDesk s (takeEffect s) := by
  unfold takeEffect
  split <;> exact ⟨rfl, rfl, rfl⟩

theorem ack_sameDesk (s : State) : SameDesk s (ackEffect s) := by
  unfold ackEffect
  split <;> exact ⟨rfl, rfl, rfl⟩

theorem SlotsOk.deskWrite {c : Instr} (hc : isDeskWrite c = true) (h : SlotsOk s) : SlotsOk (effectOf c s) := by
  cases c <;> cases hc
  case go k code e f => exact h.go k code e f
  case cancel k code e f => exact h.cancel k code e f
  case clear k code e f => exact h.clear k code e f
  case slotParameterWrite k w v => exact h.slotWord k w v
  case take => exact (take_sameDesk s).slotsOk h
  case ack => exact (ack_sameDesk s).slotsOk h

/-! ## Grants -/

/-- What is presented is of a kind that its requester presents (R36, R37). -/
theorem Presents.fits {r : Requester} {o : Origin} {w : Work} (h : Presents s r o w) : originFits o w = true := by
  cases h with
  | link l hwork =>
    obtain ⟨v, -, hwork⟩ := Option.bind_eq_some_iff.1 hwork
    exact (visitWork_some hwork).2 l
  | fetch | ack | slot | expire | chunk => rfl

/-- A refusal reaches a link or a slot, since the other operations pass the checks at the grant (R42, R43). -/
theorem Presents.refused {r : Requester} {o : Origin} {w : Work} {code : ResultCode} (h : Presents s r o w)
    (hrefused : grantRefusal s o w = some code) :
    (∃ l, o = .link l) ∨ ∃ k q, o = .slot k ∧ w = .request 0 q := by
  cases h with
  | link l => exact .inl ⟨l, rfl⟩
  | slot => exact .inr ⟨_, _, rfl, rfl⟩
  | fetch | ack | expire | chunk => simp [grantRefusal, standingOk, workCodeOk] at hrefused

theorem leaveRequester_sameDesk {o : Origin} (ho : ∀ k, o ≠ .slot k) (s : State) : SameDesk s (leaveRequester o s) := by
  cases o with
  | slot k => exact absurd rfl (ho k)
  | link | window | deadline | clear => exact ⟨rfl, rfl, rfl⟩

theorem leaveSlot_out (k : Fin 4) (s : State) :
    k ∉ (leaveRequester (.slot k) s).submission ∧
      ∀ j, j ≠ k → (j ∈ (leaveRequester (.slot k) s).submission ↔ j ∈ s.submission) := by
  refine ⟨fun h => absurd rfl (of_decide_eq_true (List.mem_filter.1 h).2), fun j hj => ?_⟩
  exact List.mem_filter.trans ⟨And.left, fun h => ⟨h, decide_eq_true hj⟩⟩

theorem SlotsOk.started {o : Origin} {w : Work} (hfits : originFits o w = true) (hfree : s.running = none)
    (h : SlotsOk s) : SlotsOk (startWork o w (leaveRequester o s)) := by
  have hfits' : fitsOk (startWork o w (leaveRequester o s)) := by
    rintro g ⟨⟩
    exact hfits
  have hrunning (x : Origin) : runningFor (startWork o w (leaveRequester o s)) x = decide (o = x) :=
    runningFor_some (s := startWork o w (leaveRequester o s)) rfl x
  by_cases ho : ∃ k, o = .slot k
  · obtain ⟨k, rfl⟩ := ho
    obtain ⟨hout, hqueue⟩ := leaveSlot_out k s
    refine SlotsOk.of_slot k h (h.1.filter _) hfits' (fun j hj => set_state s.slots _ hj) hqueue (fun j hj => ?_) ⟨?_, ?_⟩
    · rw [hrunning, runningFor_of_none hfree]
      exact decide_eq_false fun heq => hj (Origin.slot.inj heq).symm
    · refine ⟨fun hmem => absurd hmem hout, fun hstate => ?_⟩
      have hstate' := (congrArg Slot.state (modSlot_same s k fun x => { x with state := .running })).symm.trans hstate
      cases hstate'
    · rw [hrunning]
      refine ⟨fun _ => decide_eq_true rfl, fun _ => ?_⟩
      exact congrArg Slot.state (modSlot_same s k fun x => { x with state := .running })
  · have hleft := leaveRequester_sameDesk (fun k hk => ho ⟨k, hk⟩) s
    refine ⟨hleft.submission ▸ h.1, hfits', fun j => ?_⟩
    have hidle : decide (o = .slot j) = false := decide_eq_false fun hj => ho ⟨j, hj⟩
    have hslot := h.2.2 j
    rw [runningFor_of_none hfree] at hslot
    rw [hrunning, hidle]
    have hqueue : (startWork o w (leaveRequester o s)).submission = s.submission := hleft.submission
    have hslots : (startWork o w (leaveRequester o s)).slots = s.slots := hleft.slots
    rw [hqueue, hslots]
    exact hslot

theorem SlotsOk.refused {o : Origin} {w : Work} {r : Requester} {code : ResultCode} (hpresents : Presents s r o w)
    (hrefused : grantRefusal s o w = some code) (hfree : s.running = none) {p : Requester} (h : SlotsOk s) :
    SlotsOk (refuseAtGrant o w code (leaveRequester o { s with pointer := p })) := by
  obtain ⟨l, rfl⟩ | ⟨k, q, rfl, rfl⟩ := hpresents.refused hrefused
  · refine SameDesk.slotsOk (s := leaveRequester (.link l) { s with pointer := p }) ?_ h
    cases w with
    | request st q => exact deliver_sameDesk (o := .link l) st q _ _ fun _ hk => by cases hk
    | noticeFetch st => exact deliverFetch_sameDesk (.link l) none _
    | noticeAck st id => exact deliverAck_sameDesk (.link l) _
    | expire | clearChunk => exact .refl _
  · obtain ⟨hout, hqueue⟩ := leaveSlot_out k { s with pointer := p }
    have hstate (j : Fin 4) :
        ((refuseAtGrant (.slot k) (.request 0 q) code (leaveRequester (.slot k) { s with pointer := p })).slots[j]).state =
          if j = k then .done else ((leaveRequester (.slot k) { s with pointer := p }).slots[j]).state :=
      completeSlot_state k j _ _
    refine SlotsOk.of_slot k h (h.1.filter _) h.2.1 (fun j hj => ?_) hqueue (fun _ _ => rfl) ⟨?_, ?_⟩
    · rw [hstate, if_neg hj]
      exact set_state s.slots _ hj
    · rw [hstate, if_pos rfl]
      exact ⟨fun hmem => absurd hmem hout, nofun⟩
    · rw [hstate, if_pos rfl]
      refine ⟨nofun, fun hrun => ?_⟩
      rw [runningFor_of_none] at hrun
      · cases hrun
      · exact hfree

theorem SlotsOk.grant (h : SlotsOk s) : SlotsOk (grantEffect s) := by
  obtain hsame | ⟨hfree, r, o, w, hr, ⟨-, heffect⟩ | ⟨code, hrefused, heffect⟩⟩ := grantEffect_cases s
  · rwa [hsame]
  · rw [heffect]
    exact SlotsOk.started (s := { s with pointer := nextRequester r }) (presents_of_presented hr).fits hfree h
  · rw [heffect]
    exact (look_sameDesk _).slotsOk (SlotsOk.refused (presents_of_presented hr) hrefused hfree h)

/-! ## Completions -/

/-- A completion frees the machine and takes its outcome to one slot at most. -/
theorem Completion.desk {g : Granted} (hcompletion : Completion s g t) :
    t.running = none ∧ t.submission = s.submission ∧
      ∀ j, (g.origin ≠ .slot j → (t.slots[j]).state = (s.slots[j]).state) ∧
        (g.origin = .slot j → (∃ st q, g.work = .request st q) → (t.slots[j]).state = .done) := by
  have hsame {u : State} (h : SameDesk { s with running := none } u) (hwork : ∀ st q, g.work ≠ .request st q) :
      u.running = none ∧ u.submission = s.submission ∧
        ∀ j, (g.origin ≠ .slot j → (u.slots[j]).state = (s.slots[j]).state) ∧
          (g.origin = .slot j → (∃ st q, g.work = .request st q) → (u.slots[j]).state = .done) := by
    refine ⟨h.running, h.submission, fun j => ⟨fun _ => by rw [h.slots], fun _ ⟨st, q, hw⟩ => absurd hw (hwork st q)⟩⟩
  cases hcompletion with
  | @request st q u hwork hchange n res =>
    have hu := hchange.sameDesk
    have hpool : SameDesk { u with running := none } (poolLowTest n { u with running := none }) := by
      rw [poolLowTest_eq]
      exact ⟨rfl, rfl, rfl⟩
    have hslots : (poolLowTest n { u with running := none }).slots = s.slots := hpool.slots.trans hu.slots
    by_cases ho : ∃ k, g.origin = .slot k
    · obtain ⟨k, hk⟩ := ho
      rw [hk]
      have hstate (j : Fin 4) : ((monitorLook (deliver (.slot k) st q res
          (poolLowTest n { u with running := none }))).slots[j]).state = if j = k then .done else (s.slots[j]).state := by
        rw [(look_sameDesk _).slots, ← hslots]
        exact completeSlot_state k j res _
      refine ⟨?_, ?_, fun j => ⟨fun hj => ?_, fun hj _ => ?_⟩⟩
      · rw [(look_sameDesk _).running]
        exact hpool.running
      · rw [(look_sameDesk _).submission]
        exact hpool.submission.trans hu.submission
      · rw [hstate, if_neg fun heq => hj (congrArg Origin.slot heq.symm)]
      · rw [hstate, if_pos (Origin.slot.inj hj).symm]
    · have hdone := (hpool.trans (deliver_sameDesk st q res _ fun k hk => ho ⟨k, hk⟩)).trans (look_sameDesk _)
      refine ⟨hdone.running, hdone.submission.trans hu.submission, fun j => ⟨fun _ => ?_, fun hj => absurd ⟨j, hj⟩ ho⟩⟩
      rw [hdone.slots]
      exact congrArg (fun v : Vector Slot 4 => v[j].state) hu.slots
  | @fetch st found hwork =>
    refine hsame (.trans ?_ ((deliverFetch_sameDesk _ _ _).trans (look_sameDesk _))) (by rw [hwork]; exact nofun)
    unfold fetchMark
    split <;> exact ⟨rfl, rfl, rfl⟩
  | @ack st id hwork =>
    refine hsame (.trans ?_ ((deliverAck_sameDesk _ _).trans (look_sameDesk _))) (by rw [hwork]; exact nofun)
    unfold ackNotice countStray
    split
    · have hack (v : State) : SameDesk v (ackRecord st id v) :=
        (ackRecord_change (ctx := True) (who := none) id).sameDesk
      exact (modStation_sameDesk _ st _).trans (hack _)
    · split <;> exact ⟨rfl, rfl, rfl⟩
  | expire hwork =>
    exact hsame ((expireHead_change (ctx := True) (who := none) _).sameDesk.trans (look_sameDesk _))
      (by rw [hwork]; exact nofun)
  | @chunk st k hwork =>
    refine hsame (.trans ?_ (look_sameDesk _)) (by rw [hwork]; exact nofun)
    have hcleared (v : State) : SameDesk v ((chunkRange k).foldl (clearSlot st) v) :=
      (clearSlots_changes (ctx := True) (who := none) (chunkRange k)).keeps (P := SameDesk v)
        (fun _ _ hchange hu => hu.trans hchange.sameDesk) (.refl v)
    unfold clearChunkOn
    refine (hcleared _).trans ?_
    generalize (chunkRange k).foldl (clearSlot st) { s with running := none } = u
    dsimp only
    split <;> exact ⟨rfl, rfl, rfl⟩

theorem SlotsOk.completed {g : Granted} (hrunning : s.running = some g) (hcompletion : Completion s g t)
    (h : SlotsOk s) : SlotsOk t := by
  obtain ⟨hfree, hsubmission, hslots⟩ := hcompletion.desk
  refine ⟨hsubmission ▸ h.1, fun g' hg' => ?_, fun k => ?_⟩
  · rw [hfree] at hg'
    cases hg'
  · obtain ⟨hqueued, hrun⟩ := h.2.2 k
    rw [runningFor_some hrunning, decide_eq_true_iff] at hrun
    rw [hsubmission, runningFor_of_none hfree]
    by_cases ho : g.origin = .slot k
    · have hwork : ∃ st q, g.work = .request st q := by
        have hfits := h.2.1 g hrunning
        rw [ho] at hfits
        cases hw : g.work with
        | request st q => exact ⟨st, q, rfl⟩
        | noticeFetch | noticeAck | expire | clearChunk => rw [hw] at hfits; cases hfits
      rw [(hslots k).2 ho hwork, hqueued, hrun.2 ho]
      exact ⟨⟨nofun, nofun⟩, nofun, nofun⟩
    · rw [(hslots k).1 ho]
      exact ⟨hqueued, fun hstate => absurd (hrun.1 hstate) ho, nofun⟩

theorem SlotsOk.reset {c : Instr} (hc : isReset c = true) (s : State) : SlotsOk (effectOf c s) := by
  have hslots : ∀ k : Fin 4, ((Vector.replicate 4 Slot.reset)[k]).state = .idle := by decide
  have hreset {t : State} (hs : t.slots = Vector.replicate 4 Slot.reset) (hq : t.submission = [])
      (hfree : t.running = none) : SlotsOk t := by
    refine ⟨hq ▸ List.nodup_nil, fun g hg => ?_, fun k => ?_⟩
    · rw [hfree] at hg
      cases hg
    · rw [hs, hq, hslots k, runningFor_of_none hfree]
      exact ⟨⟨nofun, nofun⟩, nofun, nofun⟩
  cases c <;> cases hc
  case fullReset => exact hreset rfl rfl rfl
  case softReset latch =>
    have heffect : effectOf (.softReset latch) s = portControlReset latch s := rfl
    rw [heffect, portControlReset_frame]
    exact hreset rfl rfl rfl

end

theorem step_slotsOk {s t : State} (h : SlotsOk s) (hstep : step s = .next t) : SlotsOk t :=
  step_keeps_by_kind (Q := fun _ => True) (D := True) (fun _ _ _ => trivial)
    (fun _ _ htouch hu => (htouch.sameDesk trivial).slotsOk hu) (fun _ _ _ hdesk hu => SlotsOk.deskWrite hdesk hu)
    (fun _ u hreset _ _ => SlotsOk.reset hreset u) (fun _ _ hu => SlotsOk.grant hu)
    (fun _ _ _ hrunning _ hcompletion hu => SlotsOk.completed hrunning hcompletion hu) trivial h hstep

/-! ## The notice window -/

/-- The notice window agrees with itself, with the operation in progress and with station 0 (R121, R187). -/
structure WindowShape (s : State) : Prop where
  busy : s.window.busy = true ↔ s.window.waiting.isSome = true ∨ runningFor s .window = true
  apart : ¬ (s.window.waiting.isSome = true ∧ runningFor s .window = true)
  ack : s.window.waiting = some .ack → s.window.snapshot.isSome = true
  shown : ∀ n ∈ s.window.snapshot, (s.station 0).inflight = some n.id

/-- The visits are of remote stations. -/
def VisitsRemote (s : State) : Prop := ∀ l, visitRemote (s.link l)

theorem windowOk_iff (s : State) : WindowOk s ↔ WindowShape s ∧ VisitsRemote s ∧ originOk s ∧ fitsOk s := by
  constructor
  · rintro ⟨hbusy, hapart, hack, hshown, hA, hB, horigin, hfits⟩
    exact ⟨⟨hbusy, hapart, hack, hshown⟩, fun l => by cases l <;> assumption, horigin, hfits⟩
  · rintro ⟨h, hvisits, horigin, hfits⟩
    exact ⟨h.busy, h.apart, h.ack, h.shown, hvisits .a, hvisits .b, horigin, hfits⟩

/-- The window and the operation in progress stay; station 0 keeps its in-flight notice, and visits stay remote. -/
structure SameWindow (s t : State) : Prop where
  window : t.window = s.window
  running : t.running = s.running
  inflight : (t.station 0).inflight = (s.station 0).inflight
  visits : VisitsRemote s → VisitsRemote t

section
variable {s t u : State}

theorem SameWindow.refl (s : State) : SameWindow s s := ⟨rfl, rfl, rfl, id⟩

theorem SameWindow.trans (h1 : SameWindow s t) (h2 : SameWindow t u) : SameWindow s u :=
  ⟨h2.window.trans h1.window, h2.running.trans h1.running, h2.inflight.trans h1.inflight, h2.visits ∘ h1.visits⟩

theorem SameWindow.windowOk (h : SameWindow s t) (hs : WindowOk s) : WindowOk t := by
  obtain ⟨hwindow, hrunning, hinflight, hvisits⟩ := h
  rw [windowOk_iff] at hs ⊢
  obtain ⟨⟨hbusy, hapart, hack, hshown⟩, hremote, horigin, hfits⟩ := hs
  refine ⟨⟨?_, ?_, ?_, ?_⟩, hvisits hremote, ?_, ?_⟩
  · rw [runningFor, hwindow, hrunning]
    exact hbusy
  · rw [runningFor, hwindow, hrunning]
    exact hapart
  · rw [hwindow]
    exact hack
  · rw [hwindow, hinflight]
    exact hshown
  · unfold originOk
    rw [hrunning]
    exact horigin
  · unfold fitsOk
    rw [hrunning]
    exact hfits

theorem VisitsRemote.of_links (hlinks : ∀ l, t.link l = s.link l) (h : VisitsRemote s) : VisitsRemote t := fun l => by
  rw [hlinks]
  exact h l

theorem SameWindow.of_links (hwindow : t.window = s.window) (hrunning : t.running = s.running)
    (hinflight : (t.station 0).inflight = (s.station 0).inflight) (hlinks : ∀ l, t.link l = s.link l) :
    SameWindow s t := ⟨hwindow, hrunning, hinflight, .of_links hlinks⟩

theorem modStation_sameWindow (st : Station) {f : StationEntry → StationEntry}
    (hf : st = 0 → (f (s.station 0)).inflight = (s.station 0).inflight) : SameWindow s (s.modStation st f) := by
  refine .of_links rfl rfl ?_ fun l => by cases l <;> rfl
  rw [modStation_station]
  split
  next hst =>
    subst hst
    exact hf rfl
  next => rfl

theorem VisitsRemote.engine {banks : Prop} {l : Link} {f : LinkEngine → LinkEngine}
    (hengine : EngineTouch banks (s.link l) (f (s.link l))) (h : VisitsRemote s) : VisitsRemote (s.modLink l f) := by
  intro l' v' hv'
  rw [modLink_link] at hv'
  split at hv'
  next =>
    obtain ⟨-, hremote⟩ | ⟨v, hv, hstation, -⟩ := hengine.visits v' hv'
    · exact hremote
    · rw [hstation]
      exact h l v hv
  next => exact h l' v' hv'

theorem changeState_inflight (s : State) (st x : Station) (new : StationState) :
    ((s.changeState st new).station x).inflight = (s.station x).inflight := by
  rw [changeState_station]
  split
  next hx => rw [hx]
  next => rfl

theorem Touch.sameWindow {desk banks : Prop} (hd : desk) (h : Touch desk banks s t) : SameWindow s t := by
  cases h with
  | plain hplain =>
    obtain ⟨-, -, hwindow⟩ := hplain.desk hd
    refine .of_links hwindow hplain.running ?_ fun l => ?_
    · simp only [State.station, hplain.stations]
    · cases l
      exacts [hplain.linkA, hplain.linkB]
  | engine l h => exact ⟨by simp, by simp, by simp [State.station], fun hs => hs.engine h⟩
  | entry st h => exact modStation_sameWindow st fun hst => by subst hst; exact h.inflight
  | online st h =>
    refine .of_links rfl rfl ?_ fun l => by cases l <;> rfl
    have hstation := cameOnline_station s st 0
    rw [hstation]
    split
    next hx => rw [← hx]
    next => rfl
  | leave st h =>
    refine .of_links rfl rfl ?_ fun l => by cases l <;> rfl
    rw [leave_station]
    split
    next hx => rw [← hx]
    next => rfl
  | bar st h => exact .of_links rfl rfl (changeState_inflight s st 0 .barred) fun l => by cases l <;> rfl
  | unbar st h =>
    refine .of_links rfl rfl ?_ fun l => by cases l <;> rfl
    have hstation := letIn_station s st 0
    rw [hstation]
    split
    next hx => rw [← hx]
    next => rfl

theorem Touches.sameWindow {desk banks : Prop} (hd : desk) (h : Touches desk banks s t) : SameWindow s t :=
  h.keeps (P := SameWindow s) (fun _ _ htouch hu => hu.trans (htouch.sameWindow hd)) (.refl s)

theorem RecordChange.sameWindow {ctx : Prop} {who : Option Station} (h : RecordChange ctx who s t) : SameWindow s t := by
  have hinflight : (t.station 0).inflight = (s.station 0).inflight := by rw [h.alone.entries 0]
  refine .of_links ?_ ?_ hinflight fun l => ?_
  · rw [h.alone.frame]
  · rw [h.alone.frame]
  · rw [h.alone.frame]
    cases l <;> rfl

theorem look_sameWindow (s : State) : SameWindow s (monitorLook s) :=
  (Touches.monitorLook (desk := True) (banks := False) s).sameWindow trivial

theorem deliver_sameWindow (o : Origin) (st : Station) (q : Request) (res : Result) (s : State) :
    SameWindow s (deliver o st q res s) := by
  cases o with
  | slot k => exact .of_links rfl rfl rfl fun l => by cases l <;> rfl
  | link l =>
    have hresult : SameWindow s (s.modLink l fun e => linkWith e q res) := by
      refine (Touch.engine (desk := True) (banks := False) l ⟨fun v' hv' => ?_, False.elim⟩).sameWindow trivial
      obtain ⟨v, hv, rfl⟩ := Option.mem_map.1 hv'
      exact .inr ⟨v, hv, rfl, fun _ => .inl⟩
    have hdeliver : Machine.deliver (.link l) st q res s =
        (s.modLink l fun e => linkWith e q res).modStation st fun e =>
          { countRequest res.code e with
            last := if res.code = .notOnline then e.last else some (answerOf (s.link l) q res) } := by
      cases l <;> rfl
    rw [hdeliver]
    exact hresult.trans (modStation_sameWindow st fun _ => rfl)
  | window | deadline | clear => exact .refl s

theorem deliverFetch_sameWindow {o : Origin} (found : Option Snapshot) (s : State) (ho : o ≠ .window) :
    SameWindow s (deliverFetch o found s) := by
  cases o with
  | window => exact absurd rfl ho
  | link l => exact (Touches.buildVisit (desk := True) (banks := False) s l found).sameWindow trivial
  | slot | deadline | clear => exact .refl s

theorem deliverAck_sameWindow {o : Origin} (s : State) (ho : o ≠ .window) : SameWindow s (deliverAck o s) := by
  cases o with
  | window => exact absurd rfl ho
  | link l => exact (Touches.enterRequest (desk := True) (banks := False) s l).sameWindow trivial
  | slot | deadline | clear => exact .refl s

/-! ## Writes at the window -/

theorem WindowOk.taken {op : WindowOp} (hfree : s.window.busy = false)
    (hack : op = .ack → s.window.snapshot.isSome = true) (h : WindowOk s) :
    WindowOk { s with window := { s.window with busy := true, waiting := some op } } := by
  rw [windowOk_iff] at h ⊢
  obtain ⟨⟨hbusy, -, -, hshown⟩, hvisits, horigin, hfits⟩ := h
  have hidle : ¬ runningFor s .window = true := fun hrun => Bool.eq_false_iff.1 hfree (hbusy.2 (.inr hrun))
  refine ⟨⟨⟨fun _ => .inl rfl, fun _ => rfl⟩, fun hboth => hidle hboth.2, fun hop => hack (Option.some.inj hop), hshown⟩,
    hvisits.of_links fun l => by cases l <;> rfl, horigin, hfits⟩

theorem WindowOk.deskWrite {c : Instr} (hc : isDeskWrite c = true) (h : WindowOk s) : WindowOk (effectOf c s) := by
  have hfault : WindowOk (portFault s) := SameWindow.windowOk (.of_links rfl rfl rfl fun l => by cases l <;> rfl) h
  have hat {slots : Vector Slot 4} {submission : List (Fin 4)} {causes : Word} :
      WindowOk { s with slots, submission, causes } :=
    SameWindow.windowOk (.of_links rfl rfl rfl fun l => by cases l <;> rfl) h
  have hgo (k : Fin 4) (code : Byte) (e f : Bool) : WindowOk (goEffect k code e f s) := by
    unfold goEffect
    split
    · exact hat
    · exact hfault
  have hcancel (k : Fin 4) (code : Byte) (e f : Bool) : WindowOk (cancelEffect k code e f s) := by
    unfold cancelEffect
    split
    · exact hat
    · exact h
    · exact hat
    · exact hat
  have hclear (k : Fin 4) (code : Byte) (e f : Bool) : WindowOk (clearEffect k code e f s) := by
    unfold clearEffect
    split
    · exact hat
    · exact hat
    · exact hfault
    · exact hfault
  have hwrite (k : Fin 4) (w : SlotWord) (v : Word) : WindowOk (slotWriteEffect k w v s) := by
    unfold slotWriteEffect
    split
    · exact hat
    · exact hfault
  cases c <;> cases hc
  case go k code e f => exact hgo k code e f
  case cancel k code e f => exact hcancel k code e f
  case clear k code e f => exact hclear k code e f
  case slotParameterWrite k w v =>
    change WindowOk (slotWordWrite k w v s)
    cases w with
    | op =>
      unfold slotWordWrite opWordWrite
      dsimp only
      split
      · exact hwrite ..
      · exact hgo ..
      · exact hcancel ..
      · exact hclear ..
      · exact hfault
    | point | argument | data => exact hwrite ..
  case take =>
    change WindowOk (takeEffect s)
    unfold takeEffect
    split
    · exact hfault
    next hfree => exact h.taken (Bool.eq_false_iff.2 hfree) nofun
  case ack =>
    change WindowOk (ackEffect s)
    unfold ackEffect
    split
    · exact hfault
    next hopen =>
      obtain ⟨hfree, hsnapshot⟩ := not_or.1 hopen
      exact h.taken (Bool.eq_false_iff.2 hfree) fun _ => Option.isSome_iff_ne_none.2 hsnapshot

/-! ## Grants at the window -/

theorem leaveRequester_sameWindow {o : Origin} (ho : o ≠ .window) (s : State) : SameWindow s (leaveRequester o s) := by
  cases o with
  | window => exact absurd rfl ho
  | link | slot | deadline | clear => exact .of_links rfl rfl rfl fun l => by cases l <;> rfl

/-- What the slots and the window present acts for station 0 (R36). -/
theorem Presents.local_ {r : Requester} {o : Origin} {w : Work} (h : Presents s r o w) (ho : originLocal o = true) :
    ∀ st ∈ workStation w, st = 0 := by
  cases h with
  | fetch | ack | slot => rintro _ ⟨⟩; rfl
  | link | expire | chunk => cases ho

theorem WindowOk.started {r : Requester} {o : Origin} {w : Work} {p : Requester} (hpresents : Presents s r o w)
    (hfree : s.running = none) (h : WindowOk s) :
    WindowOk (startWork o w (leaveRequester o { s with pointer := p })) := by
  rw [windowOk_iff] at h ⊢
  obtain ⟨⟨hbusy, -, hack, hshown⟩, hvisits, -, -⟩ := h
  rw [runningFor_of_none hfree] at hbusy
  have hrunning (x : Origin) :
      runningFor (startWork o w (leaveRequester o { s with pointer := p })) x = decide (o = x) :=
    runningFor_some (s := startWork o w (leaveRequester o { s with pointer := p })) rfl x
  refine ⟨?_, hvisits.of_links fun l => by cases o <;> cases l <;> rfl, ?_, ?_⟩
  · by_cases ho : o = .window
    · subst ho
      have hwaiting : s.window.busy = true := by
        rw [hbusy]
        cases hpresents with
        | fetch hw | ack hw => rw [hw]; exact .inl rfl
      refine ⟨⟨fun _ => .inr ?_, fun _ => hwaiting⟩, fun hboth => Bool.false_ne_true hboth.1, nofun, hshown⟩
      rw [hrunning]
      exact decide_eq_true rfl
    · have hwindow : (startWork o w (leaveRequester o { s with pointer := p })).window = s.window :=
        (leaveRequester_sameWindow ho { s with pointer := p }).window
      have hinflight : ((startWork o w (leaveRequester o { s with pointer := p })).station 0).inflight =
          (s.station 0).inflight := (leaveRequester_sameWindow ho { s with pointer := p }).inflight
      refine ⟨?_, ?_, ?_, ?_⟩
      · rw [hrunning, decide_eq_false ho, hwindow]
        exact hbusy
      · rw [hrunning, decide_eq_false ho]
        exact fun hboth => Bool.false_ne_true hboth.2
      · rw [hwindow]
        exact hack
      · rw [hwindow, hinflight]
        exact hshown
  · rintro g ⟨⟩ st hst
    refine ⟨fun hlocal => hpresents.local_ hlocal st hst, fun hlink => ?_⟩
    obtain ⟨l, hl⟩ := Option.isSome_iff_exists.1 hlink
    have ho : o = .link l := by
      cases o <;> cases hl
      rfl
    exact hpresents.remote ⟨hvisits .a, hvisits .b⟩ ho st hst
  · rintro g ⟨⟩
    exact hpresents.fits

theorem WindowOk.refused {r : Requester} {o : Origin} {w : Work} {code : ResultCode} {p : Requester}
    (hpresents : Presents s r o w) (hrefused : grantRefusal s o w = some code) (h : WindowOk s) :
    WindowOk (refuseAtGrant o w code (leaveRequester o { s with pointer := p })) := by
  have ho : o ≠ .window := by
    obtain ⟨l, rfl⟩ | ⟨k, q, rfl, -⟩ := hpresents.refused hrefused <;> exact nofun
  have hmoved : SameWindow s { s with pointer := p } := .of_links rfl rfl rfl fun l => by cases l <;> rfl
  refine SameWindow.windowOk ((hmoved.trans (leaveRequester_sameWindow ho _)).trans ?_) h
  cases w with
  | request st q => exact deliver_sameWindow o st q _ _
  | noticeFetch st => exact deliverFetch_sameWindow none _ ho
  | noticeAck st id => exact deliverAck_sameWindow _ ho
  | expire | clearChunk => exact .refl _

theorem WindowOk.grant (h : WindowOk s) : WindowOk (grantEffect s) := by
  obtain hsame | ⟨hfree, r, o, w, hr, ⟨-, heffect⟩ | ⟨code, hrefused, heffect⟩⟩ := grantEffect_cases s
  · rwa [hsame]
  · rw [heffect]
    exact h.started (presents_of_presented hr) hfree
  · rw [heffect]
    exact (look_sameWindow _).windowOk (h.refused (presents_of_presented hr) hrefused)

/-! ## Completions at the window -/

/-- An operation that is not the window's ends. -/
theorem WindowOk.freed {g : Granted} (hrunning : s.running = some g) (ho : g.origin ≠ .window) (h : WindowOk s) :
    WindowOk { s with running := none } := by
  rw [windowOk_iff] at h ⊢
  obtain ⟨⟨hbusy, -, hack, hshown⟩, hvisits, -, -⟩ := h
  rw [runningFor_some hrunning, decide_eq_false ho] at hbusy
  exact ⟨⟨hbusy, fun hboth => Bool.false_ne_true hboth.2, hack, hshown⟩, hvisits.of_links fun l => by cases l <;> rfl,
    nofun, nofun⟩

/-- The window's own operation ends, with the notice it then shows. -/
theorem WindowOk.shown {g : Granted} (hrunning : s.running = some g) (ho : g.origin = .window) (h : WindowOk s)
    (hfree : t.running = none) (hbusy : t.window.busy = false) (hwaiting : t.window.waiting = s.window.waiting)
    (hshown : ∀ n ∈ t.window.snapshot, (t.station 0).inflight = some n.id) (hvisits : VisitsRemote s → VisitsRemote t) :
    WindowOk t := by
  rw [windowOk_iff] at h ⊢
  obtain ⟨⟨-, hapart, -, -⟩, hremote, -, -⟩ := h
  have hnone : t.window.waiting = none := by
    rw [hwaiting, ← Option.not_isSome_iff_eq_none]
    refine fun hsome => hapart ⟨hsome, ?_⟩
    rw [runningFor_some hrunning, ho]
    exact decide_eq_true rfl
  refine ⟨⟨?_, ?_, ?_, hshown⟩, hvisits hremote, ?_, ?_⟩
  · rw [hbusy, hnone, runningFor_of_none hfree]
    exact ⟨nofun, fun hor => by obtain h | h := hor <;> cases h⟩
  · rw [runningFor_of_none hfree]
    exact fun hboth => Bool.false_ne_true hboth.2
  · rw [hnone]
    exact nofun
  · intro g' hg'
    rw [hfree] at hg'
    cases hg'
  · intro g' hg'
    rw [hfree] at hg'
    cases hg'

/-- The window presents fetches and acks alone (R37). -/
theorem origin_ne_window {g : Granted} (hfits : originFits g.origin g.work = true)
    (hwork : (∀ st, g.work ≠ .noticeFetch st) ∧ ∀ st id, g.work ≠ .noticeAck st id) : g.origin ≠ .window := by
  intro ho
  rw [ho] at hfits
  cases hw : g.work with
  | noticeFetch st => exact hwork.1 st hw
  | noticeAck st id => exact hwork.2 st id hw
  | request | expire | clearChunk => rw [hw] at hfits; cases hfits

/-- Fetches and acks come from links, for remote stations, and from the window, for station 0 (R36, R37). -/
theorem origin_of_notice {g : Granted} {st : Station} (hrunning : s.running = some g) (h : WindowOk s)
    (hwork : g.work = .noticeFetch st ∨ ∃ id, g.work = .noticeAck st id) :
    (g.origin = .window ∧ st = 0) ∨ (g.origin ≠ .window ∧ st ≠ 0) := by
  obtain ⟨-, -, horigin, hfits⟩ := (windowOk_iff s).1 h
  have hst : st ∈ workStation g.work := by
    obtain hw | ⟨id, hw⟩ := hwork <;> rw [hw] <;> rfl
  have hfits := hfits g hrunning
  obtain ⟨hlocal, hremote⟩ := horigin g hrunning st hst
  cases ho : g.origin with
  | window => exact .inl ⟨rfl, hlocal (by rw [ho]; rfl)⟩
  | link l => exact .inr ⟨nofun, hremote (by rw [ho]; rfl)⟩
  | slot | deadline | clear =>
    rw [ho] at hfits
    obtain hw | ⟨id, hw⟩ := hwork <;> rw [hw] at hfits <;> cases hfits

theorem WindowOk.fetched {g : Granted} {st : Station} {found : Option Record} (hrunning : s.running = some g)
    (hwork : g.work = .noticeFetch st) (h : WindowOk s) :
    WindowOk (deliverFetch g.origin (found.map snapshotOf) (fetchMark st found { s with running := none })) := by
  obtain ⟨ho, rfl⟩ | ⟨ho, hst⟩ := origin_of_notice hrunning h (.inl hwork)
  · rw [ho]
    cases found with
    | none => exact h.shown hrunning ho rfl rfl rfl nofun fun hs => hs.of_links fun l => by cases l <;> rfl
    | some r =>
      refine h.shown hrunning ho rfl rfl rfl ?_ fun hs => hs.of_links fun l => by cases l <;> rfl
      rintro n ⟨⟩
      have hentry := modStation_station { s with running := none } 0 0
        fun e => { e with inflight := some (snapshotOf r).id, cursor := r.point }
      rw [if_pos rfl] at hentry
      exact congrArg StationEntry.inflight hentry
  · refine SameWindow.windowOk (.trans ?_ (deliverFetch_sameWindow _ _ ho)) (h.freed hrunning ho)
    unfold fetchMark
    split
    · exact .refl _
    · exact modStation_sameWindow st fun hzero => absurd hzero hst

theorem ackNotice_window (st : Station) (id : NoticeId) (s : State) :
    (ackNotice st id s).window = s.window ∧ (ackNotice st id s).running = s.running ∧
      (st ≠ 0 → ((ackNotice st id s).station 0).inflight = (s.station 0).inflight) ∧
      ∀ l, (ackNotice st id s).link l = s.link l := by
  unfold ackNotice countStray
  split
  · have hack := ackRecord_change (ctx := True) (who := none) (st := st) id
      (s := s.modStation st fun e => { e with inflight := none })
    have hframe := hack.alone.frame
    have hsame := hack.sameWindow
    refine ⟨hsame.window, hsame.running, fun hst => hsame.inflight.trans ?_, fun l => ?_⟩
    · rw [modStation_station, if_neg hst.symm]
    · rw [hframe]
      cases l <;> rfl
  · split
    · exact ⟨rfl, rfl, fun _ => rfl, fun _ => rfl⟩
    · refine ⟨rfl, rfl, fun hst => ?_, fun l => by cases l <;> rfl⟩
      rw [modStation_station, if_neg hst.symm]

theorem WindowOk.acked {g : Granted} {st : Station} {id : NoticeId} (hrunning : s.running = some g)
    (hwork : g.work = .noticeAck st id) (h : WindowOk s) :
    WindowOk (deliverAck g.origin (ackNotice st id { s with running := none })) := by
  obtain ⟨hwindow, hfree, hinflight, hlinks⟩ := ackNotice_window st id { s with running := none }
  obtain ⟨ho, rfl⟩ | ⟨ho, hst⟩ := origin_of_notice hrunning h (.inr ⟨id, hwork⟩)
  · rw [ho]
    refine h.shown hrunning ho hfree rfl ?_ nofun fun hs => hs.of_links fun l => ?_
    · have hwaiting := congrArg NoticeWindow.waiting hwindow
      exact hwaiting
    · have hl := hlinks l
      cases l <;> exact hl
  · exact SameWindow.windowOk ((SameWindow.of_links hwindow hfree (hinflight hst) hlinks).trans
      (deliverAck_sameWindow _ ho)) (h.freed hrunning ho)

theorem WindowOk.completed {g : Granted} (hclear : ClearOk s) (hrunning : s.running = some g)
    (hcompletion : Completion s g t) (h : WindowOk s) : WindowOk t := by
  have hfits := ((windowOk_iff s).1 h).2.2.2 g hrunning
  cases hcompletion with
  | @request st q u hwork hchange n res =>
    have ho := origin_ne_window hfits (by rw [hwork]; exact ⟨nofun, nofun⟩)
    have hu := hchange.sameWindow
    have hpool : SameWindow { u with running := none } (poolLowTest n { u with running := none }) := by
      rw [poolLowTest_eq]
      exact .of_links rfl rfl rfl fun l => by cases l <;> rfl
    have hfreed : WindowOk { u with running := none } :=
      (hu.windowOk h).freed (hu.running.trans hrunning) ho
    exact ((hpool.trans (deliver_sameWindow ..)).trans (look_sameWindow _)).windowOk hfreed
  | @fetch st found hwork => exact (look_sameWindow _).windowOk (h.fetched hrunning hwork)
  | @ack st id hwork => exact (look_sameWindow _).windowOk (h.acked hrunning hwork)
  | expire hwork =>
    have ho := origin_ne_window hfits (by rw [hwork]; exact ⟨nofun, nofun⟩)
    exact ((expireHead_change (ctx := True) (who := none) _).sameWindow.trans (look_sameWindow _)).windowOk
      (h.freed hrunning ho)
  | @chunk st k hwork =>
    have ho := origin_ne_window hfits (by rw [hwork]; exact ⟨nofun, nofun⟩)
    obtain ⟨htable, -, hworks⟩ := (clearOk_iff s).1 hclear
    obtain ⟨hhead, -⟩ := (hworks g hrunning).2 (st, k) (by rw [hwork]; rfl)
    have hleaving := (htable.leaving st).1 (List.mem_of_mem_head? hhead)
    have hremote : st ≠ 0 := by
      rintro rfl
      rw [(htable.entries 0).1.2 rfl] at hleaving
      cases hleaving
    have hcleared (v : State) : SameWindow v ((chunkRange k).foldl (clearSlot st) v) :=
      (clearSlots_changes (ctx := True) (who := none) (chunkRange k)).keeps (P := SameWindow v)
        (fun _ _ hchange hu => hu.trans hchange.sameWindow) (.refl v)
    refine SameWindow.windowOk (.trans ?_ (look_sameWindow _)) (h.freed hrunning ho)
    unfold clearChunkOn
    refine (hcleared _).trans ?_
    generalize (chunkRange k).foldl (clearSlot st) { s with running := none } = u
    have hend (v : State) : SameWindow v (clearEnd st v) := by
      refine .of_links rfl rfl ?_ fun l => by cases l <;> rfl
      rw [clearEnd_station, if_neg hremote.symm]
    have hprogress : SameWindow u { u with clearProgress := k + 1 } := .of_links rfl rfl rfl fun l => by cases l <;> rfl
    dsimp only
    split
    · exact hprogress.trans (hend _)
    · exact hprogress

theorem WindowOk.reset {c : Instr} (hc : isReset c = true) (s : State) : WindowOk (effectOf c s) := by
  have hreset {t : State} (hwindow : t.window = NoticeWindow.reset) (hfree : t.running = none)
      (hlinks : ∀ l, (t.link l).visit = none) : WindowOk t := by
    rw [windowOk_iff]
    refine ⟨⟨?_, ?_, ?_, ?_⟩, fun l v hv => ?_, fun g hg => ?_, fun g hg => ?_⟩
    · rw [hwindow, runningFor_of_none hfree]
      decide
    · rw [hwindow, runningFor_of_none hfree]
      decide
    · rw [hwindow]
      exact nofun
    · rw [hwindow]
      exact nofun
    · rw [hlinks l] at hv
      cases hv
    · rw [hfree] at hg
      cases hg
    · rw [hfree] at hg
      cases hg
  cases c <;> cases hc
  case fullReset => exact hreset rfl rfl fun l => by cases l <;> rfl
  case softReset latch =>
    have heffect : effectOf (.softReset latch) s = portControlReset latch s := rfl
    rw [heffect, portControlReset_frame]
    exact hreset rfl rfl fun l => by cases l <;> rfl

end

theorem step_windowOk {s t : State} (hclear : ClearOk s) (h : WindowOk s) (hstep : step s = .next t) : WindowOk t :=
  step_keeps_by_kind (Q := ClearOk) (D := True) (fun _ _ hu => hu)
    (fun _ _ htouch hu => (htouch.sameWindow trivial).windowOk hu) (fun _ _ _ hdesk hu => WindowOk.deskWrite hdesk hu)
    (fun _ u hreset _ _ => WindowOk.reset hreset u) (fun _ _ hu => WindowOk.grant hu)
    (fun _ _ _ hrunning hclear hcompletion hu => WindowOk.completed hclear hrunning hcompletion hu) hclear h hstep

/-- Settles O58, by the kinds of command: each that takes a slot or the window to work, or ends its work, says so there. -/
theorem stepsKeepTheSlotsAndTheWindow : Obligations.StepsKeepTheSlotsAndTheWindow :=
  ⟨fun _ _ h hstep => step_slotsOk h hstep, fun _ _ hclear h hstep => step_windowOk hclear h hstep⟩

end Sys2Proof.Machine
end

