-- ==== Sys2Proof/Proofs/Links.lean ====
section
/-! The links (O59): an engine keeps its order through every phase of a visit, and no step but FULL_RESET writes to the
bank that was active. -/

namespace Sys2Proof.Machine

open Sys2Proof.Spec

/-! ## The parts of the claim -/

/-- The clauses on one engine, by name. -/
structure EngineOk (e : LinkEngine) : Prop where
  parameters : parametersOk e
  visits : ∀ v ∈ e.visit, visitOk e v
  stopped : e.state = .stopped → e.visit = none
  sending : e.sending.isSome = true →
    e.receiver = .hunting ∧ (sendingIn e .sendVisit = true ∨ sendingIn e .sendResult = true)
  inside : e.receiver = .inFrame true → windowOpen e = true
  outside : windowOpen e = true → e.receiver ≠ .inFrame false
  switch : e.switchRequest = true → e.atWrapPoint = false

theorem linkOk_iff (e : LinkEngine) : LinkOk e ↔ EngineOk e :=
  ⟨fun ⟨h1, h2, h3, h4, h5, h6, h7⟩ => ⟨h1, h2, h3, h4, h5, h6, h7⟩,
    fun h => ⟨h.parameters, h.visits, h.stopped, h.sending, h.inside, h.outside, h.switch⟩⟩

/-- An ONLINE station's link is not STOPPED and its miss count is below that link's limit (R129, R170). -/
def OnlineOk (s : State) : Prop :=
  ∀ st : Station, ∀ l ∈ (s.station st).link, (s.station st).state = .online →
    (s.link l).state ≠ .stopped ∧ (s.station st).missCount < (s.link l).missLimit

theorem linksOk_iff (s : State) : LinksOk s ↔ (∀ l, EngineOk (s.link l)) ∧ linkWorkOk s ∧ OnlineOk s := by
  constructor
  · rintro ⟨hA, hB, hwork, honline⟩
    exact ⟨fun l => by cases l; exacts [(linkOk_iff _).1 hA, (linkOk_iff _).1 hB], hwork, honline⟩
  · rintro ⟨hengines, hwork, honline⟩
    exact ⟨(linkOk_iff _).2 (hengines .a), (linkOk_iff _).2 (hengines .b), hwork, honline⟩

/-- The link has an operation in progress. -/
def WorksFor (s : State) (l : Link) : Prop := ∃ g ∈ s.running, originLink g.origin = some l

section
variable {s t u : State} {l : Link}

theorem LinksOk.engine (h : LinksOk s) (l : Link) : EngineOk (s.link l) := ((linksOk_iff s).1 h).1 l

theorem LinksOk.work (h : LinksOk s) : linkWorkOk s := ((linksOk_iff s).1 h).2.1

theorem LinksOk.online (h : LinksOk s) : OnlineOk s := ((linksOk_iff s).1 h).2.2

/-- A link with an operation in progress has a visit whose phase waits on it. -/
theorem LinksOk.waits (h : LinksOk s) (hworks : WorksFor s l) : ∃ w, ((s.link l).visit.bind visitWork) = some w := by
  obtain ⟨g, hg, ho⟩ := hworks
  exact ⟨g.work, h.work g hg l ho⟩

/-! ## Changes of stations -/

/-- Every ONLINE station after a step was ONLINE before it on the same link with the same miss count. -/
def StaysIn (s t : State) : Prop :=
  ∀ x, (t.station x).state = .online → (s.station x).state = .online ∧ (t.station x).link = (s.station x).link ∧
    (t.station x).missCount = (s.station x).missCount

theorem LinksOk.of_online (h : LinksOk s) (hlinks : ∀ l, t.link l = s.link l) (hrunning : t.running = s.running)
    (honline : OnlineOk t) : LinksOk t := by
  rw [linksOk_iff]
  refine ⟨fun l => by rw [hlinks]; exact h.engine l, fun g hg l hl => ?_, honline⟩
  rw [hrunning] at hg
  rw [hlinks]
  exact h.work g hg l hl

theorem LinksOk.of_stations (h : LinksOk s) (hlinks : ∀ l, t.link l = s.link l) (hrunning : t.running = s.running)
    (hstays : StaysIn s t) : LinksOk t := by
  refine h.of_online hlinks hrunning fun x l hl hx => ?_
  obtain ⟨hbefore, hlink, hmiss⟩ := hstays x hx
  rw [hlink] at hl
  rw [hlinks, hmiss]
  exact h.online x l hl hbefore

theorem StaysIn.of_eq (h : t.stations = s.stations) : StaysIn s t := fun x hx => by
  have hstation : t.station x = s.station x := by simp only [State.station, h]
  rw [hstation] at hx ⊢
  exact ⟨hx, rfl, rfl⟩

/-- Links, stations and the operation in progress stay. -/
theorem LinksOk.of_fields (h : LinksOk s) (hA : t.linkA = s.linkA) (hB : t.linkB = s.linkB)
    (hrunning : t.running = s.running) (hstations : t.stations = s.stations) : LinksOk t :=
  h.of_stations (fun l => by cases l; exacts [hA, hB]) hrunning (.of_eq hstations)

theorem LinksOk.setCause (c : Cause) (h : LinksOk s) : LinksOk (setCause c s) := h.of_fields rfl rfl rfl rfl

theorem LinksOk.modStation (h : LinksOk s) (st : Station) {f : StationEntry → StationEntry}
    (hf : (f (s.station st)).state = .online → (s.station st).state = .online ∧
      (f (s.station st)).link = (s.station st).link ∧ (f (s.station st)).missCount = (s.station st).missCount) :
    LinksOk (s.modStation st f) := by
  refine h.of_stations (fun l => by cases l <;> rfl) rfl fun x hx => ?_
  rw [modStation_station] at hx ⊢
  split at hx
  next he =>
    subst he
    rw [if_pos rfl]
    exact hf hx
  next he =>
    rw [if_neg he]
    exact ⟨hx, rfl, rfl⟩

theorem LinksOk.changeState (st : Station) {new : StationState} (hnew : new ≠ .online) (h : LinksOk s) :
    LinksOk (s.changeState st new) := by
  refine h.of_stations (fun l => by cases l <;> rfl) rfl fun x hx => ?_
  rw [changeState_station] at hx ⊢
  split at hx
  next => exact absurd hx hnew
  next he =>
    rw [if_neg he]
    exact ⟨hx, rfl, rfl⟩

theorem departing_linksOk (sts : List Station) (h : LinksOk s) : LinksOk (departing s sts) := by
  refine h.of_stations (fun l => departing_link s sts l) (departing_running s sts) fun x hx => ?_
  rw [departing_station] at hx ⊢
  split at hx
  next => cases hx
  next he =>
    rw [if_neg he]
    exact ⟨hx, rfl, rfl⟩

theorem LinksOk.leave (st : Station) (h : LinksOk s) : LinksOk (s.leave st) := by
  refine h.of_stations (fun l => by rw [leave_eq]; cases l <;> rfl) (by rw [leave_eq]) fun x hx => ?_
  rw [leave_station] at hx ⊢
  split at hx
  next => cases hx
  next he =>
    rw [if_neg he]
    exact ⟨hx, rfl, rfl⟩

/-! ## Changes of one engine -/

theorem OnlineOk.modLink {f : LinkEngine → LinkEngine}
    (hstate : (s.link l).state ≠ .stopped → (f (s.link l)).state ≠ .stopped)
    (hlimit : (s.link l).state ≠ .stopped → (f (s.link l)).missLimit = (s.link l).missLimit) (h : OnlineOk s) :
    OnlineOk (s.modLink l f) := by
  have hstation (x : Station) : (s.modLink l f).station x = s.station x := by simp [State.station]
  intro x l' hl' hx
  rw [hstation] at hl' hx ⊢
  obtain ⟨hrunning, hmiss⟩ := h x l' hl' hx
  rw [modLink_link]
  split
  next hsame =>
    subst hsame
    rw [hlimit hrunning]
    exact ⟨hstate hrunning, hmiss⟩
  next => exact ⟨hrunning, hmiss⟩

theorem LinksOk.modLink {f : LinkEngine → LinkEngine} (h : LinksOk s) (hengine : EngineOk (f (s.link l)))
    (hwork : WorksFor s l → (f (s.link l)).visit.bind visitWork = (s.link l).visit.bind visitWork)
    (honline : OnlineOk (s.modLink l f)) : LinksOk (s.modLink l f) := by
  rw [linksOk_iff]
  refine ⟨fun l' => ?_, fun g hg l' hl' => ?_, honline⟩
  · rw [modLink_link]
    split
    · exact hengine
    · exact h.engine l'
  · rw [modLink_running] at hg
    rw [modLink_link]
    split
    next hsame =>
      subst hsame
      rw [hwork ⟨g, hg, hl'⟩]
      exact h.work g hg l' hl'
    next => exact h.work g hg l' hl'

/-- A change of an engine that leaves its visit, its line, its state and its parameters alone. -/
theorem LinksOk.gear {f : LinkEngine → LinkEngine} (h : LinksOk s)
    (hf : ∀ e, (f e).visit = e.visit ∧ (f e).sending = e.sending ∧ (f e).receiver = e.receiver ∧ (f e).state = e.state ∧
      (f e).replyTimeout = e.replyTimeout ∧ (f e).retryLimit = e.retryLimit ∧ (f e).missLimit = e.missLimit)
    (hswitch : (f (s.link l)).switchRequest = true → (f (s.link l)).atWrapPoint = false) :
    LinksOk (s.modLink l f) := by
  obtain ⟨hvisit, hsending, hreceiver, hstate, htimeout, hretry, hmiss⟩ := hf (s.link l)
  have he := h.engine l
  refine h.modLink ⟨?_, ?_, ?_, ?_, ?_, ?_, hswitch⟩ (fun _ => by rw [hvisit])
    (h.online.modLink (fun hs => by rwa [hstate]) fun _ => hmiss)
  · rw [parametersOk, htimeout, hretry, hmiss]
    exact he.parameters
  · rw [hvisit]
    intro v hv
    rw [visitOk, hretry]
    exact he.visits v hv
  · rw [hstate, hvisit]
    exact he.stopped
  · rw [sendingIn, sendingIn, hsending, hreceiver, hvisit]
    exact he.sending
  · rw [windowOpen, hreceiver, hvisit]
    exact he.inside
  · rw [windowOpen, hreceiver, hvisit]
    exact he.outside

theorem LinksOk.modCounters (l : Link) (f : LinkCounters → LinkCounters) (h : LinksOk s) :
    LinksOk (s.modCounters l f) :=
  h.gear (fun _ => ⟨rfl, rfl, rfl, rfl, rfl, rfl, rfl⟩) (h.engine l).switch

theorem LinksOk.takeSwitch (l : Link) (h : LinksOk s) : LinksOk (s.takeSwitch l) := by
  rw [takeSwitch_eq_switchTaken, switchTaken_eq]
  refine departing_linksOk _ (LinksOk.setCause _ ?_)
  exact h.gear (fun _ => ⟨rfl, rfl, rfl, rfl, rfl, rfl, rfl⟩) fun hs => by cases hs

theorem LinksOk.wrap (l : Link) (h : LinksOk s) : LinksOk (s.wrap l) := by
  have hwalk : LinksOk (s.modLink l fun e => { e with walk := 0 }) :=
    h.gear (fun _ => ⟨rfl, rfl, rfl, rfl, rfl, rfl, rfl⟩) (h.engine l).switch
  unfold State.wrap
  dsimp only
  split
  · exact hwalk.takeSwitch l
  · exact hwalk

theorem LinksOk.advance (l : Link) (h : LinksOk s) : LinksOk (s.advance l) := by
  unfold State.advance
  split
  · exact h.wrap l
  · exact h.gear (fun _ => ⟨rfl, rfl, rfl, rfl, rfl, rfl, rfl⟩) (h.engine l).switch

/-- Without a visit nothing is sent and the receiver is in no frame of a reply window. -/
theorem EngineOk.quiet {e : LinkEngine} (h : EngineOk e) (hphase : ∀ v ∈ e.visit, (visitWork v).isSome = true) :
    e.sending = none ∧ e.receiver ≠ .inFrame true := by
  have hnot (p : VisitPhase) (hp : p = .sendVisit ∨ p = .awaitReply ∨ p = .sendResult) :
      (e.visit.map fun v => v.phase) ≠ some p := by
    intro heq
    obtain ⟨v, hv, rfl⟩ := Option.map_eq_some_iff.1 heq
    have hworks := hphase v hv
    obtain hp | hp | hp := hp <;> rw [visitWork, hp] at hworks <;> cases hworks
  constructor
  · by_contra hsome
    obtain ⟨-, hphase | hphase⟩ := h.sending (Option.isSome_iff_ne_none.2 hsome)
    · exact hnot _ (.inl rfl) (of_decide_eq_true hphase).1
    · exact hnot _ (.inr (.inr rfl)) (of_decide_eq_true hphase).1
  · intro hframe
    exact hnot _ (.inr (.inl rfl)) (of_decide_eq_true (h.inside hframe))

/-- An engine is STOPPED with no visit; a switch request that waited is taken then (R170, R176). -/
theorem EngineOk.ofStopped {e : LinkEngine} (h : EngineOk e) (hvisit : e.visit = none) (bank : Fin 2) :
    EngineOk { e with state := .stopped, visit := none, walk := 0, activeBank := bank, switchRequest := false } := by
  obtain ⟨hsending, hreceiver⟩ := h.quiet fun v hv => absurd hv (by rw [hvisit]; exact Option.not_mem_none v)
  refine ⟨h.parameters, ?_, fun _ => rfl, ?_, fun hframe => absurd hframe hreceiver, ?_, ?_⟩
  · exact fun v hv => absurd hv (Option.not_mem_none v)
  · intro hsome
    dsimp only at hsome
    rw [hsending] at hsome
    cases hsome
  · exact fun hopen => absurd (of_decide_eq_true hopen) (by exact nofun)
  · exact fun hs => absurd hs Bool.false_ne_true

theorem LinksOk.completeStop (h : LinksOk s) (hvisit : (s.link l).visit = none) : LinksOk (s.completeStop l) := by
  rw [completeStop_eq_stopDone]
  have hgone := departing_linksOk (onlineOf s l fun _ => true) h
  have hlink : (departing s (onlineOf s l fun _ => true)).link l = s.link l := departing_link s _ l
  have hnone (x : Station) (hstate : ((departing s (onlineOf s l fun _ => true)).station x).state = .online) :
      ((departing s (onlineOf s l fun _ => true)).station x).link ≠ some l := by
    intro hx
    have hmem := (mem_onlineOf (departing s (onlineOf s l fun _ => true)) l (fun _ => true) x).2 ⟨hstate, hx, rfl⟩
    rw [onlineOf_departing] at hmem
    cases hmem
  unfold stopDone
  generalize departing s (onlineOf s l fun _ => true) = u at *
  refine LinksOk.of_fields (s := u.modLink l _) (LinksOk.modLink hgone ?_ (fun hworks => ?_) ?_) rfl rfl rfl rfl
  · exact (hgone.engine l).ofStopped (by rw [hlink]; exact hvisit) _
  · obtain ⟨w, hw⟩ := hgone.waits hworks
    rw [hlink, hvisit] at hw
    cases hw
  · intro x l' hl' hx
    have hstation : (u.modLink l fun e =>
        { e with
          state := .stopped, visit := none, walk := 0
          activeBank := if e.switchRequest then e.activeBank + 1 else e.activeBank, switchRequest := false }).station x =
        u.station x := modLink_station u l _ x
    rw [hstation] at hl' hx ⊢
    have hne : l' ≠ l := by
      rintro rfl
      exact hnone x hx hl'
    rw [modLink_link, if_neg hne]
    exact hgone.online x l' hl' hx

/-! ## A link that rests between two phases of its visit -/

/-- Everything is in order but for what the visit of link `l` holds: nothing is sent on the link and no frame of a reply
window arrives. -/
structure Resting (s : State) (l : Link) : Prop where
  parameters : parametersOk (s.link l)
  sending : (s.link l).sending = none
  receiver : (s.link l).receiver ≠ .inFrame true
  stopped : (s.link l).state = .stopped → (s.link l).visit = none
  switch : (s.link l).switchRequest = true → (s.link l).atWrapPoint = false
  tries : ∀ v ∈ (s.link l).visit, 1 ≤ v.tryNumber ∧ v.tryNumber ≤ (s.link l).retryLimit + 1
  others : ∀ l', l' ≠ l → EngineOk (s.link l')
  work : linkWorkOk s
  idle : ¬ WorksFor s l
  online : OnlineOk s

theorem LinksOk.resting (h : LinksOk s) (hsending : (s.link l).sending = none)
    (hreceiver : (s.link l).receiver ≠ .inFrame true) (hidle : ¬ WorksFor s l) : Resting s l where
  parameters := (h.engine l).parameters
  sending := hsending
  receiver := hreceiver
  stopped := (h.engine l).stopped
  switch := (h.engine l).switch
  tries v hv := ⟨((h.engine l).visits v hv).1, ((h.engine l).visits v hv).2.1⟩
  others l' _ := h.engine l'
  work := h.work
  idle := hidle
  online := h.online

/-- A link whose visit waits on an operation rests once that is no longer in progress. -/
theorem LinksOk.resting_of_waits (h : LinksOk s) {w : Work} (hwaits : ((s.link l).visit.bind visitWork) = some w)
    (hidle : ¬ WorksFor s l) : Resting s l := by
  obtain ⟨hsending, hreceiver⟩ := (h.engine l).quiet fun v hv => by
    rw [show (s.link l).visit = some v from hv, Option.bind_some] at hwaits
    rw [hwaits]
    rfl
  exact h.resting hsending hreceiver hidle

/-- A link in a phase that waits on no operation has none in progress. -/
theorem LinksOk.idle_of_phase (h : LinksOk s) {p : VisitPhase} (hphase : ((s.link l).visit.map fun v => v.phase) = some p)
    (hp : p = .sendVisit ∨ p = .awaitReply ∨ p = .sendResult) : ¬ WorksFor s l := by
  intro hworks
  obtain ⟨w, hw⟩ := h.waits hworks
  obtain ⟨v, hv, rfl⟩ := Option.map_eq_some_iff.1 hphase
  rw [hv, Option.bind_some] at hw
  obtain hp | hp | hp := hp <;> rw [visitWork, hp] at hw <;> cases hw

/-- A link whose reply window is open rests once it hunts. -/
theorem LinksOk.resting_of_window (h : LinksOk s) (hopen : windowOpen (s.link l) = true)
    (hhunting : (s.link l).receiver = .hunting) : Resting s l := by
  have hphase := of_decide_eq_true hopen
  refine h.resting ?_ (by rw [hhunting]; exact nofun) (h.idle_of_phase hphase (.inr (.inl rfl)))
  by_contra hsome
  obtain ⟨-, hsending | hsending⟩ := (h.engine l).sending (Option.isSome_iff_ne_none.2 hsome)
  · cases hphase.symm.trans (of_decide_eq_true hsending).1
  · cases hphase.symm.trans (of_decide_eq_true hsending).1

/-- A resting link goes on with a visit that holds what its phase waits on and awaits no reply. -/
theorem Resting.setVisit (h : Resting s l) (v : Option Visit)
    (hv : ∀ x ∈ v, visitOk (s.link l) x ∧ x.phase ≠ .awaitReply ∧ (s.link l).state ≠ .stopped) :
    LinksOk (s.modLink l fun e => { e with visit := v }) := by
  have hclosed : windowOpen { s.link l with visit := v } ≠ true := by
    intro hopen
    obtain ⟨x, hx, hphase⟩ := Option.map_eq_some_iff.1 (of_decide_eq_true hopen)
    exact (hv x hx).2.1 hphase
  have hengine : EngineOk { s.link l with visit := v } := by
    refine ⟨h.parameters, fun x hx => (hv x hx).1, fun hstopped => ?_, fun hsome => ?_, fun hframe => ?_, fun hopen => ?_,
      h.switch⟩
    · cases hvisit : v with
      | none => rfl
      | some x => exact absurd hstopped (hv x hvisit).2.2
    · rw [show ({ s.link l with visit := v } : LinkEngine).sending = none from h.sending] at hsome
      cases hsome
    · exact absurd hframe h.receiver
    · exact absurd hopen hclosed
  rw [linksOk_iff]
  refine ⟨fun l' => ?_, fun g hg l' hl' => ?_, h.online.modLink id fun _ => rfl⟩
  · rw [modLink_link]
    split
    · exact hengine
    next hne => exact h.others l' hne
  · rw [modLink_running] at hg
    rw [modLink_link]
    split
    next hsame => exact absurd ⟨g, hg, hsame ▸ hl'⟩ h.idle
    next => exact h.work g hg l' hl'

theorem modVisit_eq_setVisit (s : State) (l : Link) (f : Visit → Visit) :
    s.modVisit l f = s.modLink l fun e => { e with visit := (s.link l).visit.map f } := modLink_congr rfl

/-- A resting link whose visit goes on in another phase. -/
theorem Resting.modVisit (h : Resting s l) {f : Visit → Visit}
    (hf : ∀ v ∈ (s.link l).visit, visitOk (s.link l) (f v) ∧ (f v).phase ≠ .awaitReply) : LinksOk (s.modVisit l f) := by
  rw [modVisit_eq_setVisit]
  refine h.setVisit _ fun x hx => ?_
  obtain ⟨v, hv, rfl⟩ := Option.map_eq_some_iff.1 hx
  obtain ⟨hok, hphase⟩ := hf v hv
  refine ⟨hok, hphase, fun hstopped => ?_⟩
  rw [h.stopped hstopped] at hv
  cases hv

/-- A resting link whose visit changes but in its try number rests. -/
theorem Resting.hold (h : Resting s l) {f : Visit → Visit} (hf : ∀ v, (f v).tryNumber = v.tryNumber) :
    Resting (s.modVisit l f) l := by
  have hlink : (s.modVisit l f).link l = { s.link l with visit := (s.link l).visit.map f } := by
    rw [State.modVisit, modLink_link, if_pos rfl]
  have hother {l' : Link} (hne : l' ≠ l) : (s.modVisit l f).link l' = s.link l' := by
    rw [State.modVisit, modLink_link, if_neg hne]
  have hrunning : (s.modVisit l f).running = s.running := modLink_running ..
  have hidle : ¬ WorksFor (s.modVisit l f) l := by
    unfold WorksFor
    rw [hrunning]
    exact h.idle
  refine ⟨?_, ?_, ?_, ?_, ?_, ?_, fun l' hne => ?_, fun g hg l' hl' => ?_, hidle, h.online.modLink id fun _ => rfl⟩
  · rw [hlink]
    exact h.parameters
  · rw [hlink]
    exact h.sending
  · rw [hlink]
    exact h.receiver
  · rw [hlink]
    intro hstopped
    dsimp only
    rw [h.stopped hstopped]
    rfl
  · rw [hlink]
    exact h.switch
  · rw [hlink]
    intro x hx
    obtain ⟨v, hv, rfl⟩ := Option.map_eq_some_iff.1 hx
    rw [hf]
    exact h.tries v hv
  · rw [hother hne]
    exact h.others l' hne
  · have hne : l' ≠ l := by
      rintro rfl
      exact hidle ⟨g, hg, hl'⟩
    rw [hrunning] at hg
    rw [hother hne]
    exact h.work g hg l' hl'

theorem Resting.endVisit (h : Resting s l) : LinksOk (s.endVisit l) := by
  have hdropped := h.setVisit none fun x hx => absurd hx (Option.not_mem_none x)
  unfold State.endVisit
  dsimp only
  split
  · exact hdropped.completeStop (by rw [modLink_link, if_pos rfl])
  · exact hdropped.advance l

/-- A resting link without a visit is in order. -/
theorem Resting.linksOk (h : Resting s l) (hvisit : (s.link l).visit = none) : LinksOk s := by
  have hsame : (s.modLink l fun e => { e with visit := (s.link l).visit }) = s := by cases l <;> rfl
  rw [← hsame]
  refine h.setVisit _ fun x hx => absurd hx ?_
  rw [hvisit]
  exact Option.not_mem_none x

/-- Past its ACK phase a visit ends, answers a repeat, or waits for its request (R159, R160). -/
theorem Resting.enterRequest (h : Resting s l) (hreply : ∀ v ∈ (s.link l).visit, v.reply.isSome = true) :
    LinksOk (s.enterRequest l) := by
  cases hvisit : (s.link l).visit with
  | none =>
    have hsame : s.enterRequest l = s := by simp only [State.enterRequest, hvisit]
    rw [hsame]
    exact h.linksOk hvisit
  | some v =>
    obtain ⟨reply, hsome⟩ := Option.isSome_iff_exists.1 (hreply v hvisit)
    obtain ⟨hlow, hhigh⟩ := h.tries v hvisit
    have hsame {x : Visit} (hx : x ∈ (s.link l).visit) : x = v := Option.some.inj (hx.symm.trans hvisit)
    unfold State.enterRequest
    rw [hvisit]
    dsimp only
    rw [hsome]
    dsimp only
    split
    next => exact h.endVisit
    next q hrequest =>
      split
      next t _ =>
        have hanswered : LinksOk (s.modVisit l fun v => { v with phase := .sendResult, result := some t }) :=
          h.modVisit fun x hx => by rw [hsame hx]; exact ⟨⟨hlow, hhigh, rfl⟩, nofun⟩
        exact (hanswered.modCounters l _).modStation v.station fun hx => ⟨hx, rfl, rfl⟩
      next =>
        refine h.modVisit fun x hx => ?_
        rw [hsame hx]
        have hholds : (v.reply.bind (·.request)).isSome = true := by
          rw [hsome, Option.bind_some, hrequest]
          rfl
        exact ⟨⟨hlow, hhigh, hholds⟩, nofun⟩

/-! ## Tries and replies (R128, R129, R156, R157) -/

theorem LinksOk.missStation (h : LinksOk s) (l : Link) (st : Station) : LinksOk (missStation l st s) := by
  unfold Machine.missStation
  split
  next honline =>
    obtain ⟨hstate, hlink⟩ := of_decide_eq_true honline
    obtain ⟨hrunning, hbelow⟩ := h.online st l hlink hstate
    have hentry (x : Station) : (s.modStation st fun e => { e with missCount := e.missCount + 1 }).station x =
        if x = st then { s.station st with missCount := (s.station st).missCount + 1 } else s.station x :=
      modStation_station ..
    have hmiss : ((s.modStation st fun e => { e with missCount := e.missCount + 1 }).station st).missCount =
        (s.station st).missCount + 1 := by rw [hentry, if_pos rfl]
    dsimp only
    rw [hmiss]
    split
    · refine h.of_stations (fun l' => by rw [leave_eq]; cases l' <;> rfl) (by rw [leave_eq]; rfl) fun x hx => ?_
      rw [leave_station] at hx ⊢
      by_cases he : x = st
      · rw [if_pos he] at hx
        cases hx
      · rw [if_neg he, hentry, if_neg he] at hx ⊢
        exact ⟨hx, rfl, rfl⟩
    next hlimit =>
      refine h.of_online (fun l' => by cases l' <;> rfl) rfl fun x l' hl' hx => ?_
      have hlinks : (s.modStation st fun e => { e with missCount := e.missCount + 1 }).link l' = s.link l' :=
        modStation_link ..
      rw [hentry] at hl' hx ⊢
      rw [hlinks]
      split at hx
      next he =>
        subst he
        rw [if_pos rfl] at hl' ⊢
        have hsame : l' = l := Option.some.inj (hl'.symm.trans hlink)
        subst hsame
        exact ⟨hrunning, by dsimp only; omega⟩
      next he =>
        rw [if_neg he] at hl' ⊢
        exact h.online x l' hl' hx
  next => exact h

theorem missStation_link (l l' : Link) (st : Station) (s : State) : (missStation l st s).link l' = s.link l' := by
  unfold Machine.missStation
  dsimp only
  split_ifs
  · rw [leave_eq]
    cases l' <;> rfl
  · cases l' <;> rfl
  · rfl

theorem LinksOk.failTry (h : LinksOk s) (hopen : windowOpen (s.link l) = true)
    (hhunting : (s.link l).receiver = .hunting) : LinksOk (failTry l s) := by
  unfold Machine.failTry
  split
  · exact h
  next v hvisit =>
    split
    next hleft =>
      refine LinksOk.modCounters l _ ((h.resting_of_window hopen hhunting).modVisit fun x hx => ?_)
      have hsame : x = v := Option.some.inj (hx.symm.trans hvisit)
      rw [hsame]
      exact ⟨⟨Nat.le_add_left 1 _, hleft.1, rfl⟩, nofun⟩
    next =>
      have hcounted := h.modCounters l fun c => { c with misses := c.misses + 1 }
      have hlink : ((Machine.missStation l v.station (s.modCounters l fun c => { c with misses := c.misses + 1 })).link l) =
          { s.link l with counters := { (s.link l).counters with misses := (s.link l).counters.misses + 1 } } := by
        rw [missStation_link, State.modCounters, modLink_link, if_pos rfl]
      refine Resting.endVisit ((hcounted.missStation l v.station).resting_of_window ?_ ?_)
      · rw [hlink]
        exact hopen
      · rw [hlink]
        exact hhunting

theorem modCounters_link (s : State) (l : Link) (f : LinkCounters → LinkCounters) :
    (s.modCounters l f).link l = { s.link l with counters := f (s.link l).counters } := by
  rw [State.modCounters, modLink_link, if_pos rfl]

theorem LinksOk.failTry_counted (h : LinksOk s) (f : LinkCounters → LinkCounters)
    (hopen : windowOpen (s.link l) = true) (hhunting : (s.link l).receiver = .hunting) :
    LinksOk (Machine.failTry l (s.modCounters l f)) := by
  refine LinksOk.failTry (h.modCounters l f) ?_ ?_
  · rw [modCounters_link]
    exact hopen
  · rw [modCounters_link]
    exact hhunting

theorem LinksOk.replyStation (h : LinksOk s) (hstate : (s.link l).state ≠ .stopped) (st : Station) :
    LinksOk (replyStation l st s) := by
  have hmiss : 0 < (s.link l).missLimit := (h.engine l).parameters.2.2.2.1
  have hready {u : State} (hlinks : ∀ l', u.link l' = s.link l') (hrunning : u.running = s.running)
      (hother : ∀ x, x ≠ st → u.station x = s.station x) (hlink : (u.station st).link = some l)
      (hzero : (u.station st).missCount = 0) : LinksOk u := by
    refine h.of_online hlinks hrunning fun x l' hl' hx => ?_
    rw [hlinks]
    by_cases he : x = st
    · subst he
      have hsame : l' = l := Option.some.inj (hl'.symm.trans hlink)
      subst hsame
      rw [hzero]
      exact ⟨hstate, hmiss⟩
    · rw [hother x he] at hl' hx ⊢
      exact h.online x l' hl' hx
  unfold Machine.replyStation
  dsimp only
  split
  next hoffline =>
    have hentry (x : Station) : (cameOnline s st).station x =
        if x = st then { s.station st with state := .online, missCount := 0, freshOwed := false } else s.station x :=
      cameOnline_station s st x
    change LinksOk (cameOnline s st)
    refine hready (fun l' => by cases l' <;> rfl) rfl (fun x hx => ?_) ?_ ?_ <;> rw [hentry]
    · rw [if_neg hx]
    · rw [if_pos rfl]
      exact hoffline.2
    · rw [if_pos rfl]
  next =>
    split
    next honline =>
      obtain ⟨-, hlink⟩ := of_decide_eq_true honline
      refine hready (fun l' => by cases l' <;> rfl) rfl (fun x hx => ?_) ?_ ?_ <;> rw [modStation_station]
      · rw [if_neg hx]
      · rw [if_pos rfl]
        exact hlink
      · rw [if_pos rfl]
    next => exact h

theorem replyStation_link (l l' : Link) (st : Station) (s : State) : (replyStation l st s).link l' = s.link l' := by
  unfold Machine.replyStation
  dsimp only
  split_ifs <;> cases l' <;> rfl

theorem LinksOk.validReply (h : LinksOk s) (hopen : windowOpen (s.link l) = true)
    (hhunting : (s.link l).receiver = .hunting) (st : Station) (reply : Reply) : LinksOk (validReply l st reply s) := by
  obtain ⟨v, hvisit, -⟩ := Option.map_eq_some_iff.1 (of_decide_eq_true hopen)
  have hstate : (s.link l).state ≠ .stopped := fun hstopped => by
    rw [(h.engine l).stopped hstopped] at hvisit
    cases hvisit
  have hcounted := h.modCounters l fun c => { c with goodReplies := c.goodReplies + 1 }
  have hcounters := modCounters_link s l fun c => { c with goodReplies := c.goodReplies + 1 }
  have hentry : LinksOk (Machine.replyStation l st (s.modCounters l fun c => { c with goodReplies := c.goodReplies + 1 })) :=
    hcounted.replyStation (by rw [hcounters]; exact hstate) st
  have hlink := (replyStation_link l l st (s.modCounters l fun c => { c with goodReplies := c.goodReplies + 1 })).trans
    hcounters
  unfold Machine.validReply
  dsimp only
  generalize Machine.replyStation l st (s.modCounters l fun c => { c with goodReplies := c.goodReplies + 1 }) = u at *
  have hresting : Resting u l := hentry.resting_of_window (by rw [hlink]; exact hopen) (by rw [hlink]; exact hhunting)
  split
  next id hack =>
    refine hresting.modVisit fun x hx => ?_
    obtain ⟨hlow, hhigh⟩ := hresting.tries x hx
    have hholds : (reply.ack).isSome = true := by rw [hack]; rfl
    exact ⟨⟨hlow, hhigh, hholds⟩, nofun⟩
  next =>
    refine (hresting.hold (f := fun v => { v with phase := .ack, reply := some reply }) fun _ => rfl).enterRequest
      fun x hx => ?_
    rw [State.modVisit, modLink_link, if_pos rfl] at hx
    obtain ⟨v', -, rfl⟩ := Option.map_eq_some_iff.1 hx
    rfl

/-! ## Frames (R145, R149, R155, R156, R162) -/

theorem LinksOk.hunt (h : LinksOk s) (l : Link) : LinksOk (s.hunt l) := by
  have he := h.engine l
  refine h.modLink ⟨he.parameters, he.visits, he.stopped, fun hsome => ⟨rfl, (he.sending hsome).2⟩, fun hframe => ?_,
    fun _ => ?_, he.switch⟩ (fun _ => rfl) (h.online.modLink id fun _ => rfl)
  · cases hframe
  · exact nofun

theorem hunt_link (s : State) (l : Link) : (s.hunt l).link l = { s.link l with receiver := .hunting } := by
  rw [State.hunt, modLink_link, if_pos rfl]

/-- A frame that fails its try was of the reply window, which is open. -/
theorem LinksOk.windowOpen_of_hunt (h : LinksOk s) {w : Bool} (hreceiver : (s.link l).receiver = .inFrame w)
    (hw : w = true) : windowOpen ((s.hunt l).link l) = true := by
  rw [hunt_link]
  exact (h.engine l).inside (by rw [hreceiver, hw])

theorem LinksOk.badFrame (h : LinksOk s) {w : Bool} (hopen : w = true → windowOpen (s.link l) = true)
    (hhunting : (s.link l).receiver = .hunting) : LinksOk (badFrame l w s) := by
  unfold Machine.badFrame
  dsimp only
  split
  next hw => exact h.failTry_counted _ (hopen hw) hhunting
  next => exact h.modCounters l _

theorem LinksOk.strayFrame (h : LinksOk s) {w : Bool} (hopen : w = true → windowOpen (s.link l) = true)
    (hhunting : (s.link l).receiver = .hunting) : LinksOk (strayFrame l w s) := by
  unfold Machine.strayFrame
  dsimp only
  split
  next hw => exact h.failTry_counted _ (hopen hw) hhunting
  next => exact h.modCounters l _

theorem LinksOk.frameReceived (h : LinksOk s) (l : Link) (a ty f : Byte) (p : List Byte) (lo hi : Byte) :
    LinksOk (frameReceivedEffect l a ty f p lo hi s) := by
  unfold frameReceivedEffect
  split
  next => exact h
  next w hreceiver =>
    have hopen := h.windowOpen_of_hunt hreceiver
    have hhunting : ((s.hunt l).link l).receiver = .hunting := by rw [hunt_link]
    unfold wholeFrame
    split
    · exact (h.hunt l).badFrame hopen hhunting
    · split
      next hw =>
        split
        next st reply _ => exact (h.hunt l).validReply (hopen hw) hhunting st reply
        next => exact (h.hunt l).strayFrame (fun _ => hopen hw) hhunting
      next => exact (h.hunt l).strayFrame (fun hw => absurd hw Bool.false_ne_true) hhunting

theorem LinksOk.frameBroken (h : LinksOk s) (l : Link) : LinksOk (frameBrokenEffect l s) := by
  unfold frameBrokenEffect
  split
  next => exact h
  next w hreceiver => exact (h.hunt l).badFrame (h.windowOpen_of_hunt hreceiver) (by rw [hunt_link])

theorem LinksOk.replyTimeout (h : LinksOk s) (l : Link) : LinksOk (replyTimeoutEffect l s) := by
  unfold replyTimeoutEffect
  split
  next hopen => exact h.failTry_counted _ hopen.1 hopen.2
  next => exact h

theorem LinksOk.startOctet (h : LinksOk s) (l : Link) (octet : Byte) (stopBit : Bool) :
    LinksOk (startOctetEffect l octet stopBit s) := by
  unfold startOctetEffect
  dsimp only
  split
  next hstart =>
    have he := h.engine l
    refine h.modLink ⟨he.parameters, he.visits, he.stopped, fun hsome => ?_, fun hframe => ?_, fun hopen hframe => ?_,
      he.switch⟩ (fun _ => rfl) (h.online.modLink id fun _ => rfl)
    · dsimp only at hsome
      rw [hstart.1] at hsome
      cases hsome
    · exact Receiver.inFrame.inj hframe
    · exact Bool.false_ne_true ((Receiver.inFrame.inj hframe).symm.trans hopen)
  next => exact h

theorem LinksOk.sendVisit (h : LinksOk s) (l : Link) : LinksOk (sendVisitEffect l s) := by
  unfold sendVisitEffect
  split
  next hbegin =>
    obtain ⟨hphase, -, hhunting⟩ := of_decide_eq_true hbegin
    have he := h.engine l
    refine LinksOk.modCounters l _ (h.modLink ⟨he.parameters, he.visits, he.stopped, fun hsome => ⟨hhunting, .inl ?_⟩,
      he.inside, he.outside, he.switch⟩ (fun _ => rfl) (h.online.modLink id fun _ => rfl))
    exact decide_eq_true ⟨hphase, hsome⟩
  next => exact h

theorem LinksOk.sendResult (h : LinksOk s) (l : Link) : LinksOk (sendResultEffect l s) := by
  unfold sendResultEffect
  split
  next hbegin =>
    obtain ⟨hphase, -, hhunting⟩ := of_decide_eq_true hbegin
    have he := h.engine l
    refine h.modLink ⟨he.parameters, he.visits, he.stopped, fun hsome => ⟨hhunting, .inr ?_⟩, he.inside, he.outside,
      he.switch⟩ (fun _ => rfl) (h.online.modLink id fun _ => rfl)
    exact decide_eq_true ⟨hphase, hsome⟩
  next => exact h

/-- The end of a frame sent, whatever the visit goes on to. -/
theorem LinksOk.sent (h : LinksOk s) (l : Link) : LinksOk (s.modLink l fun e => { e with sending := none }) := by
  have he := h.engine l
  refine h.modLink ⟨he.parameters, he.visits, he.stopped, fun hsome => ?_, he.inside, he.outside, he.switch⟩
    (fun _ => rfl) (h.online.modLink id fun _ => rfl)
  exact absurd hsome Bool.false_ne_true

theorem LinksOk.visitSent (h : LinksOk s) (l : Link) : LinksOk (visitSentEffect l s) := by
  unfold visitSentEffect
  split
  next hsending =>
    obtain ⟨hphase, hsome⟩ := of_decide_eq_true hsending
    obtain ⟨v, hvisit, -⟩ := Option.map_eq_some_iff.1 hphase
    have he := h.engine l
    obtain ⟨hhunting, -⟩ := he.sending hsome
    have hidle := h.idle_of_phase hphase (.inl rfl)
    rw [State.modVisit, modLink_modLink]
    refine h.modLink ⟨he.parameters, fun x hx => ?_, fun hstopped => ?_, fun hsome' => ?_, fun hframe => ?_, fun _ => ?_,
      he.switch⟩ (fun hworks => absurd hworks hidle) (h.online.modLink id fun _ => rfl)
    · obtain ⟨v', hv', rfl⟩ := Option.map_eq_some_iff.1 hx
      obtain ⟨hlow, hhigh, -⟩ := he.visits v' hv'
      exact ⟨hlow, hhigh, rfl⟩
    · rw [he.stopped hstopped] at hvisit
      cases hvisit
    · exact absurd hsome' Bool.false_ne_true
    · dsimp only at hframe
      rw [hhunting] at hframe
      cases hframe
    · dsimp only
      rw [hhunting]
      exact nofun
  next => exact h

theorem LinksOk.resultSent (h : LinksOk s) (l : Link) : LinksOk (resultSentEffect l s) := by
  unfold resultSentEffect
  split
  next hsending =>
    obtain ⟨hphase, hsome⟩ := of_decide_eq_true hsending
    obtain ⟨hhunting, -⟩ := (h.engine l).sending hsome
    have hlink : (s.modLink l fun e => { e with sending := none }).link l = { s.link l with sending := none } := by
      rw [modLink_link, if_pos rfl]
    refine Resting.endVisit ((h.sent l).resting ?_ ?_ ((h.sent l).idle_of_phase (p := .sendResult) ?_ (.inr (.inr rfl))))
    · rw [hlink]
    · rw [hlink]
      dsimp only
      rw [hhunting]
      exact nofun
    · rw [hlink]
      exact hphase
  next => exact h

/-! ## The walk (R173) -/

theorem LinksOk.beginVisit (h : LinksOk s) (l : Link) (st : Station) (hrunning : (s.link l).state = .running)
    (hvisit : (s.link l).visit = none) : LinksOk (beginVisit l st s) := by
  have hnone (v : Visit) : v ∉ (s.link l).visit := by
    rw [hvisit]
    exact Option.not_mem_none v
  obtain ⟨hsending, hreceiver⟩ := (h.engine l).quiet fun v hv => absurd hv (hnone v)
  have hidle : ¬ WorksFor s l := by
    intro hworks
    obtain ⟨w, hw⟩ := h.waits hworks
    rw [hvisit] at hw
    cases hw
  unfold Machine.beginVisit
  dsimp only
  have hsame := (h.resting hsending hreceiver hidle).setVisit
    (some { station := st, entry := (s.link l).walk
            phase := if decide ((s.station st).state = .online ∧ 0 < (s.station st).pendingCount) then .fetch else .sendVisit
            tryNumber := 1, fresh := (s.station st).freshOwed, notice := none, reply := none, result := none })
    (by
      rintro _ ⟨⟩
      refine ⟨⟨le_refl 1, Nat.le_add_left 1 _, ?_⟩, ?_, by rw [hrunning]; exact nofun⟩
      · dsimp only [phaseHolds]
        split_ifs <;> rfl
      · dsimp only
        split_ifs <;> exact nofun)
  rwa [modLink_congr (f' := fun e => { e with visit := _ })] at hsame
  rfl

theorem LinksOk.walk (h : LinksOk s) (l : Link) : LinksOk (walkEffect l s) := by
  unfold walkEffect
  dsimp only
  split
  next hready =>
    split
    · exact h.wrap l
    · exact h.advance l
    next st _ =>
      unfold walkStation
      split
      · exact h.advance l
      · split
        · exact (h.modCounters l _).advance l
        · split
          · exact h.advance l
          · exact h.advance l
          · exact h.beginVisit l st hready.1 hready.2
          · exact h.beginVisit l st hready.1 hready.2
          · exact h.advance l
  next => exact h

/-! ## The sweep window (R167 to R172, R175, R176) -/

theorem LinksOk.switchControl (h : LinksOk s) (l : Link) (b : Bool) : LinksOk (switchControl l b s) := by
  unfold Machine.switchControl
  dsimp only
  split
  · split
    next hwrap =>
      have hsame : (s.modLink l fun e => { e with switchRequest := true }).takeSwitch l = s.takeSwitch l := by
        cases l <;> rfl
      rw [hsame]
      exact h.takeSwitch l
    next hwrap =>
      exact h.gear (fun _ => ⟨rfl, rfl, rfl, rfl, rfl, rfl, rfl⟩) fun _ => Bool.eq_false_iff.2 hwrap
  · exact h.gear (fun _ => ⟨rfl, rfl, rfl, rfl, rfl, rfl, rfl⟩) fun hs => absurd hs Bool.false_ne_true

theorem LinksOk.runControl (h : LinksOk s) (l : Link) (b : Bool) : LinksOk (runControl l b s) := by
  have he := h.engine l
  unfold Machine.runControl
  split
  next hstopped =>
    have hvisit := he.stopped hstopped
    have hswitch : (s.link l).switchRequest = false := by
      refine Bool.eq_false_iff.2 fun hs => Bool.eq_false_iff.1 (he.switch hs) ?_
      exact decide_eq_true (.inl hstopped)
    refine h.modLink ⟨he.parameters, he.visits, fun _ => hvisit, he.sending, he.inside, he.outside, fun hs => ?_⟩
      (fun _ => rfl) (h.online.modLink (fun _ => by exact nofun) fun _ => rfl)
    dsimp only at hs
    rw [hswitch] at hs
    cases hs
  next hrunning =>
    have hstopping : LinksOk (s.modLink l fun e => { e with state := .stopping }) := by
      refine h.modLink ⟨he.parameters, he.visits, fun hs => ?_, he.sending, he.inside, he.outside, fun _ => ?_⟩
        (fun _ => rfl) (h.online.modLink (fun _ => by exact nofun) fun _ => rfl)
      · cases hs
      · refine Bool.eq_false_iff.2 fun hwrap => ?_
        obtain hs | ⟨hs, -⟩ := of_decide_eq_true hwrap <;> cases hs
    dsimp only
    split
    next hvisit => exact hstopping.completeStop (by rw [modLink_link, if_pos rfl]; exact hvisit)
    next => exact hstopping
  next => exact h.setCause .portFault
  all_goals exact h

theorem LinksOk.parameter (h : LinksOk s) (which : LinkParameter) (value : Word) :
    LinksOk (parameterEffect which value s) := by
  have he := h.engine s.linkSelect
  unfold parameterEffect
  split
  next hstopped =>
    have hvisit := he.stopped hstopped
    have hnone (v : Visit) : v ∉ (s.link s.linkSelect).visit := by
      rw [hvisit]
      exact Option.not_mem_none v
    split
    next e hstored =>
      have hkept : parametersOk e ∧ e.visit = (s.link s.linkSelect).visit ∧ e.sending = (s.link s.linkSelect).sending ∧
          e.receiver = (s.link s.linkSelect).receiver ∧ e.switchRequest = (s.link s.linkSelect).switchRequest ∧
          e.atWrapPoint = (s.link s.linkSelect).atWrapPoint := by
        obtain ⟨hlow, hhigh, hretry, hmissLow, hmissHigh⟩ := he.parameters
        unfold storeParameter at hstored
        split at hstored
        · split at hstored
          · cases hstored
            exact ⟨⟨hlow, hhigh, hretry, hmissLow, hmissHigh⟩, rfl, rfl, rfl, rfl, rfl⟩
          · cases hstored
        · cases hstored
          exact ⟨⟨le_max_left _ _, max_le (by decide) (min_le_right _ _), hretry, hmissLow, hmissHigh⟩, rfl, rfl, rfl, rfl,
            rfl⟩
        · cases hstored
          exact ⟨⟨hlow, hhigh, min_le_right _ _, hmissLow, hmissHigh⟩, rfl, rfl, rfl, rfl, rfl⟩
        · cases hstored
          exact ⟨⟨hlow, hhigh, hretry, le_max_left _ _, max_le (by decide) (min_le_right _ _)⟩, rfl, rfl, rfl, rfl, rfl⟩
      obtain ⟨hparameters, hvisit', hsending, hreceiver, hswitch, hwrap⟩ := hkept
      refine h.modLink ⟨hparameters, fun v hv => ?_, fun _ => hvisit'.trans hvisit, ?_, ?_, ?_, ?_⟩
        (fun _ => by rw [hvisit']) (h.online.modLink (fun hs => absurd hstopped hs) fun hs => absurd hstopped hs)
      · rw [hvisit'] at hv
        exact absurd hv (hnone v)
      · rw [sendingIn, sendingIn, hsending, hreceiver, hvisit']
        exact he.sending
      · rw [windowOpen, hreceiver, hvisit']
        exact he.inside
      · rw [windowOpen, hreceiver, hvisit']
        exact he.outside
      · rw [hswitch, hwrap]
        exact he.switch
    next => exact h.setCause .portFault
  next => exact h.setCause .portFault

theorem LinksOk.entryValue (h : LinksOk s) (value : Word) : LinksOk (entryEffect value s) := by
  unfold entryEffect
  split
  · split
    next => exact h.setCause .portFault
    next hother =>
      have he := h.engine s.linkSelect
      refine h.modLink ⟨he.parameters, he.visits, he.stopped, he.sending, he.inside, he.outside, fun hs => ?_⟩
        (fun _ => rfl) (h.online.modLink id fun _ => rfl)
      have hwrap := he.switch hs
      have hval : s.bankSelect.val ≠ (s.link s.linkSelect).activeBank.val := fun heq => hother (Fin.ext heq)
      have hbank (x : Vector (Fin 32) 32) :
          ({ s.link s.linkSelect with banks := (s.link s.linkSelect).banks.set s.bankSelect x } : LinkEngine).bank =
            (s.link s.linkSelect).bank := by simp [LinkEngine.bank, hval]
      rw [LinkEngine.atWrapPoint, LinkEngine.emptyBank, hbank]
      exact hwrap
  · exact h.setCause .portFault

/-! ## The station window (R131, R133, R141) -/

theorem LinksOk.assignment (h : LinksOk s) (value : Word) : LinksOk (assignmentEffect value s) := by
  unfold assignmentEffect
  dsimp only
  split
  · exact h.setCause .portFault
  · split
    next hstate => exact h.modStation _ fun hx => by rw [hstate] at hx; cases hx
    next hstate => exact h.modStation _ fun hx => by rw [hstate] at hx; cases hx
    all_goals exact h.setCause .portFault

theorem LinksOk.bar (h : LinksOk s) : LinksOk (barEffect s) := by
  unfold barEffect
  dsimp only
  split
  · exact h.setCause .portFault
  · split
    next =>
      exact (h.modStation s.stationSelect (f := fun e => { e with barredMark := true }) fun hx => ⟨hx, rfl, rfl⟩).leave _
    next => exact h.modStation _ fun hx => ⟨hx, rfl, rfl⟩
    next => exact h.changeState _ nofun
    all_goals exact h

theorem LinksOk.unbar (h : LinksOk s) : LinksOk (unbarEffect s) := by
  unfold unbarEffect
  dsimp only
  split
  · exact h.setCause .portFault
  · split
    next => exact h.modStation _ fun hx => ⟨hx, rfl, rfl⟩
    next =>
      exact (h.modStation s.stationSelect (f := fun e => { e with freshOwed := true }) fun hx => ⟨hx, rfl, rfl⟩).changeState
        _ nofun
    all_goals exact h

theorem LinksOk.stationCounter (h : LinksOk s) (which : StationCounter) : LinksOk (stationCounterEffect which s) :=
  h.modStation s.stationSelect fun hx => by cases which <;> exact ⟨hx, rfl, rfl⟩

/-! ## The other commands -/

/-- A write to a slot or to the notice window changes the slots, their queue, the window and the causes alone. -/
theorem deskWrite_frame {c : Instr} (hc : isDeskWrite c = true) (s : State) :
    ∃ slots submission window causes, effectOf c s = { s with slots, submission, window, causes } := by
  have hgo (k : Fin 4) (code : Byte) (e f : Bool) :
      ∃ slots submission window causes, goEffect k code e f s = { s with slots, submission, window, causes } := by
    unfold goEffect
    split <;> exact ⟨_, _, _, _, rfl⟩
  have hcancel (k : Fin 4) (code : Byte) (e f : Bool) :
      ∃ slots submission window causes, cancelEffect k code e f s = { s with slots, submission, window, causes } := by
    unfold cancelEffect
    split <;> exact ⟨_, _, _, _, rfl⟩
  have hclear (k : Fin 4) (code : Byte) (e f : Bool) :
      ∃ slots submission window causes, clearEffect k code e f s = { s with slots, submission, window, causes } := by
    unfold clearEffect
    split <;> exact ⟨_, _, _, _, rfl⟩
  have hwrite (k : Fin 4) (w : SlotWord) (v : Word) :
      ∃ slots submission window causes, slotWriteEffect k w v s = { s with slots, submission, window, causes } := by
    unfold slotWriteEffect
    split <;> exact ⟨_, _, _, _, rfl⟩
  have htake : ∃ slots submission window causes, takeEffect s = { s with slots, submission, window, causes } := by
    unfold takeEffect
    split <;> exact ⟨_, _, _, _, rfl⟩
  have hack : ∃ slots submission window causes, ackEffect s = { s with slots, submission, window, causes } := by
    unfold ackEffect
    split <;> exact ⟨_, _, _, _, rfl⟩
  cases c <;> cases hc
  case go k code e f => exact hgo k code e f
  case cancel k code e f => exact hcancel k code e f
  case clear k code e f => exact hclear k code e f
  case slotParameterWrite k w v =>
    change ∃ slots submission window causes, slotWordWrite k w v s = { s with slots, submission, window, causes }
    cases w with
    | op =>
      unfold slotWordWrite opWordWrite
      dsimp only
      split
      · exact hwrite ..
      · exact hgo ..
      · exact hcancel ..
      · exact hclear ..
      · exact ⟨_, _, _, _, rfl⟩
    | point | argument | data => exact hwrite ..
  case take => exact htake
  case ack => exact hack

theorem LinksOk.deskWrite {c : Instr} (h : LinksOk s) (hc : isDeskWrite c = true) : LinksOk (effectOf c s) := by
  obtain ⟨slots, submission, window, causes, heffect⟩ := deskWrite_frame hc s
  rw [heffect]
  exact h.of_fields rfl rfl rfl rfl

theorem LinksOk.select (h : LinksOk s) (which : Select) (value : Word) : LinksOk (selectEffect which value s) := by
  cases which <;> unfold selectEffect <;> dsimp only <;> split <;> exact h.of_fields rfl rfl rfl rfl

theorem LinksOk.look (h : LinksOk s) : LinksOk (monitorLook s) := by
  rw [monitorLook_eq]
  exact h.of_fields rfl rfl rfl rfl

theorem LinksOk.effect {c : Instr} (hc : touchesDirectory c = false) (hgrant : c ≠ .grant) (h : LinksOk s) :
    LinksOk (effectOf c s) := by
  cases hdesk : isDeskWrite c with
  | true => exact h.deskWrite hdesk
  | false =>
    cases c
    case grant => exact absurd rfl hgrant
    case deadlineDue => exact h.look
    case walkEntry l => exact h.walk l
    case sendVisit l => exact h.sendVisit l
    case visitFrameSent l => exact h.visitSent l
    case frameReceived l a ty f p lo hi => exact h.frameReceived l a ty f p lo hi
    case frameBroken l b => exact h.frameBroken l
    case replyTimeout l => exact h.replyTimeout l
    case sendResult l => exact h.sendResult l
    case resultFrameSent l => exact h.resultSent l
    case startOctetReceived l o b => exact h.startOctet l o b
    case selectWrite w v => exact h.select w v
    case linkAssignmentWrite v => exact h.assignment v
    case bar => exact h.bar
    case unbar => exact h.unbar
    case stationCounterWrite w v => exact h.stationCounter w
    case entryValueWrite v => exact h.entryValue v
    case run b => exact (h.switchControl s.linkSelect b).runControl _ true
    case runCleared b => exact (h.switchControl s.linkSelect b).runControl _ false
    case switch b => exact (h.switchControl s.linkSelect true).runControl _ b
    case switchWithdraw b => exact (h.switchControl s.linkSelect false).runControl _ b
    case linkParameterWrite w v => exact h.parameter w v
    case linkCounterWrite w x v => exact h.modCounters _ _
    case go | cancel | clear | slotParameterWrite | take | ack => cases hdesk
    case read | write | create | retire | claim | release | subscribe | unsubscribe | next | pin | unpin | purge |
      noticeFetch | noticeAck | expire | clearChunk | fullReset | softReset | registerWrite => cases hc
    all_goals exact h.of_fields rfl rfl rfl rfl

/-! ## Outcomes, grants and completions -/

theorem Resting.buildVisit (h : Resting s l) (found : Option Snapshot) : LinksOk (s.buildVisit l found) := by
  unfold State.buildVisit
  refine h.modVisit fun v hv => ?_
  obtain ⟨hlow, hhigh⟩ := h.tries v hv
  exact ⟨⟨hlow, hhigh, rfl⟩, nofun⟩

theorem Resting.completeLinkRequest (h : Resting s l) (st : Station) (q : Request) (res : Result) :
    LinksOk (completeLinkRequest l st q res s) := by
  unfold Machine.completeLinkRequest
  refine LinksOk.modStation (h.modVisit fun v hv => ?_) st fun hx => ⟨hx, rfl, rfl⟩
  obtain ⟨hlow, hhigh⟩ := h.tries v hv
  exact ⟨⟨hlow, hhigh, rfl⟩, nofun⟩

/-- An outcome handed over while no operation is in progress: a link that gets one waited on its work. -/
theorem LinksOk.deliver (h : LinksOk s) {o : Origin} (st : Station) (q : Request) (res : Result)
    (hidle : s.running = none) (hwaits : ∀ l, o = .link l → ∃ w, ((s.link l).visit.bind visitWork) = some w) :
    LinksOk (deliver o st q res s) := by
  cases o with
  | link l =>
    obtain ⟨w, hw⟩ := hwaits l rfl
    refine (h.resting_of_waits hw ?_).completeLinkRequest st q res
    rintro ⟨g, hg, -⟩
    rw [hidle] at hg
    cases hg
  | slot k => exact h.of_fields rfl rfl rfl rfl
  | window | deadline | clear => exact h

theorem LinksOk.deliverFetch (h : LinksOk s) {o : Origin} (found : Option Snapshot) (hidle : s.running = none)
    (hwaits : ∀ l, o = .link l → ∃ w, ((s.link l).visit.bind visitWork) = some w) :
    LinksOk (deliverFetch o found s) := by
  cases o with
  | link l =>
    obtain ⟨w, hw⟩ := hwaits l rfl
    refine (h.resting_of_waits hw ?_).buildVisit found
    rintro ⟨g, hg, -⟩
    rw [hidle] at hg
    cases hg
  | window => exact h.of_fields rfl rfl rfl rfl
  | slot | deadline | clear => exact h

/-- A visit that waits on an acknowledgement holds a reply. -/
theorem reply_of_noticeAck {v : Visit} {st : Station} {id : NoticeId} (h : visitWork v = some (.noticeAck st id)) :
    v.reply.isSome = true := by
  unfold visitWork at h
  split at h
  · cases h
  · cases hreply : v.reply with
    | none => rw [hreply] at h; cases h
    | some => rfl
  · obtain ⟨q, -, hq⟩ := Option.map_eq_some_iff.1 h
    cases hq
  all_goals cases h

theorem LinksOk.deliverAck (h : LinksOk s) {o : Origin} {st : Station} {id : NoticeId} (hidle : s.running = none)
    (hwaits : ∀ l, o = .link l → ((s.link l).visit.bind visitWork) = some (.noticeAck st id)) :
    LinksOk (deliverAck o s) := by
  cases o with
  | link l =>
    have hw := hwaits l rfl
    refine (h.resting_of_waits hw ?_).enterRequest fun v hv => ?_
    · rintro ⟨g, hg, -⟩
      rw [hidle] at hg
      cases hg
    · rw [show (s.link l).visit = some v from hv] at hw
      exact reply_of_noticeAck hw
  | window => exact h.of_fields rfl rfl rfl rfl
  | slot | deadline | clear => exact h

theorem LinksOk.withdrawn (h : LinksOk s) (o : Origin) (p : Requester) :
    LinksOk (leaveRequester o { s with pointer := p }) := by
  cases o <;> exact h.of_fields rfl rfl rfl rfl

theorem leaveRequester_links (o : Origin) (p : Requester) (s : State) (l : Link) :
    (leaveRequester o { s with pointer := p }).link l = s.link l := by
  cases o <;> cases l <;> rfl

theorem leaveRequester_running (o : Origin) (p : Requester) (s : State) :
    (leaveRequester o { s with pointer := p }).running = s.running := by
  cases o <;> rfl

/-- What a link presents is what the phase of its visit waits on. -/
theorem Presents.waits {r : Requester} {o : Origin} {w : Work} (h : Presents s r o w) (ho : o = .link l) :
    ((s.link l).visit.bind visitWork) = some w := by
  cases h with
  | link l' hwork =>
    cases ho
    exact hwork
  | fetch | ack | slot | expire | chunk => cases ho

theorem LinksOk.started (h : LinksOk s) {r : Requester} {o : Origin} {w : Work} (hpresents : Presents s r o w)
    (p : Requester) : LinksOk (startWork o w (leaveRequester o { s with pointer := p })) := by
  have hlinks (l : Link) : (startWork o w (leaveRequester o { s with pointer := p })).link l = s.link l := by
    rw [← leaveRequester_links o p s l]
    cases l <;> rfl
  have hstations (x : Station) : (startWork o w (leaveRequester o { s with pointer := p })).station x = s.station x :=
    leaveRequester_station o p s x
  rw [linksOk_iff]
  refine ⟨fun l => by rw [hlinks]; exact h.engine l, ?_, fun x l hl hx => ?_⟩
  · rintro g ⟨⟩ l hl
    rw [hlinks]
    refine hpresents.waits ?_
    cases o <;> cases hl
    rfl
  · rw [hstations] at hl hx ⊢
    rw [hlinks]
    exact h.online x l hl hx

theorem LinksOk.grant (h : LinksOk s) : LinksOk (grantEffect s) := by
  obtain hsame | ⟨hfree, r, o, w, hr, ⟨-, heffect⟩ | ⟨code, hrefused, heffect⟩⟩ := grantEffect_cases s
  · rwa [hsame]
  · rw [heffect]
    exact h.started (presents_of_presented hr) _
  · rw [heffect]
    refine LinksOk.look ?_
    have hleft := h.withdrawn o (nextRequester r)
    have hidle := (leaveRequester_running o (nextRequester r) s).trans hfree
    have hwaits (l : Link) (ho : o = .link l) :
        ((leaveRequester o { s with pointer := nextRequester r }).link l).visit.bind visitWork = some w := by
      rw [leaveRequester_links]
      exact (presents_of_presented hr).waits ho
    cases w with
    | request st q => exact hleft.deliver st q _ hidle fun l ho => ⟨_, hwaits l ho⟩
    | noticeFetch st => exact hleft.deliverFetch none hidle fun l ho => ⟨_, hwaits l ho⟩
    | noticeAck st id => exact hleft.deliverAck hidle hwaits
    | expire | clearChunk => exact hleft

theorem LinksOk.free (h : LinksOk s) : LinksOk { s with running := none } := by
  have hlinks (l : Link) : ({ s with running := none } : State).link l = s.link l := by cases l <;> rfl
  rw [linksOk_iff]
  refine ⟨fun l => by rw [hlinks]; exact h.engine l, fun g hg => absurd hg (Option.not_mem_none g), fun x l hl hx => ?_⟩
  rw [hlinks]
  exact h.online x l hl hx

theorem LinksOk.change {ctx : Prop} {who : Option Station} (h : LinksOk s) (hchange : RecordChange ctx who s t) :
    LinksOk t := by
  refine h.of_stations (fun l => ?_) (by rw [hchange.alone.frame]) fun x hx => ?_
  · rw [hchange.alone.frame]
    cases l <;> rfl
  · rw [hchange.alone.entries x] at hx ⊢
    exact ⟨hx, rfl, rfl⟩

theorem RecordChange.link {ctx : Prop} {who : Option Station} (h : RecordChange ctx who s t) (l : Link) :
    t.link l = s.link l := by
  rw [h.alone.frame]
  cases l <;> rfl

theorem RecordChange.running {ctx : Prop} {who : Option Station} (h : RecordChange ctx who s t) :
    t.running = s.running := by rw [h.alone.frame]

theorem LinksOk.completed {g : Granted} (h : LinksOk s) (hrunning : s.running = some g)
    (hcompletion : Completion s g t) : LinksOk t := by
  have hwaits (l : Link) (ho : g.origin = .link l) : ((s.link l).visit.bind visitWork) = some g.work :=
    h.work g hrunning l (by rw [ho]; rfl)
  have hfree (l : Link) : ({ s with running := none } : State).link l = s.link l := by cases l <;> rfl
  cases hcompletion with
  | @request st q u hwork hchange n res =>
    have hu := (h.change hchange).free
    have hpool : LinksOk (poolLowTest n { u with running := none }) := by
      rw [poolLowTest_eq]
      exact hu.of_fields rfl rfl rfl rfl
    have hlink (l : Link) : (poolLowTest n { u with running := none }).link l = s.link l := by
      rw [← hchange.link l, poolLowTest_eq]
      cases l <;> rfl
    refine (hpool.deliver st q res (by rw [poolLowTest_eq]) fun l ho => ⟨g.work, ?_⟩).look
    rw [hlink]
    exact hwaits l ho
  | @fetch st found hwork =>
    refine LinksOk.look ?_
    unfold fetchMark
    split
    · exact h.free.deliverFetch _ rfl fun l ho => ⟨_, by rw [hfree]; exact hwaits l ho⟩
    next r =>
      have hmarked := h.free.modStation st (f := fun e => { e with inflight := some (snapshotOf r).id, cursor := r.point })
        fun hx => ⟨hx, rfl, rfl⟩
      exact hmarked.deliverFetch _ rfl fun l ho => ⟨_, by rw [modStation_link, hfree]; exact hwaits l ho⟩
  | @ack st id hwork =>
    refine LinksOk.look ?_
    have hworks (l : Link) (ho : g.origin = .link l) :
        ((s.link l).visit.bind visitWork) = some (.noticeAck st id) := by rw [hwaits l ho, hwork]
    unfold ackNotice countStray
    split
    · have hmarked := h.free.modStation st (f := fun e => { e with inflight := none }) fun hx => ⟨hx, rfl, rfl⟩
      have hack := ackRecord_change (ctx := True) (who := none) (st := st) id
        (s := ({ s with running := none } : State).modStation st fun e => { e with inflight := none })
      exact (hmarked.change hack).deliverAck (st := st) (id := id) hack.running fun l ho => by
        rw [hack.link l, modStation_link, hfree]
        exact hworks l ho
    · split
      · exact h.free.deliverAck rfl fun l ho => by rw [hfree]; exact hworks l ho
      · have hcounted := h.free.modStation st (f := fun e => { e with strayAcks := e.strayAcks + 1 })
          fun hx => ⟨hx, rfl, rfl⟩
        exact hcounted.deliverAck rfl fun l ho => by rw [modStation_link, hfree]; exact hworks l ho
  | expire hwork => exact (h.free.change (expireHead_change (ctx := True) (who := none) _)).look
  | @chunk st k hwork =>
    refine LinksOk.look ?_
    have hcleared : LinksOk ((chunkRange k).foldl (clearSlot st) { s with running := none }) :=
      (clearSlots_changes (ctx := True) (who := none) (chunkRange k)).keeps
        (fun _ _ hchange hu => LinksOk.change hu hchange) h.free
    unfold clearChunkOn
    generalize (chunkRange k).foldl (clearSlot st) { s with running := none } = u at hcleared ⊢
    have hprogress : LinksOk { u with clearProgress := k + 1 } := hcleared.of_fields rfl rfl rfl rfl
    dsimp only
    split
    · refine hprogress.of_stations (fun l => by cases l <;> rfl) rfl fun x hx => ?_
      rw [clearEnd_station] at hx ⊢
      split at hx
      next =>
        dsimp only at hx
        split at hx <;> cases hx
      next hne =>
        rw [if_neg hne]
        exact ⟨hx, rfl, rfl⟩
    · exact hprogress

/-! ## Resets (R166, R179, R180) -/

theorem EngineOk.softReset {e : LinkEngine} (h : parametersOk e) : EngineOk e.softReset := by
  refine ⟨h, fun v hv => absurd hv (Option.not_mem_none v), fun _ => rfl, fun hsome => absurd hsome Bool.false_ne_true,
    fun hframe => ?_, fun _ => by exact nofun, fun hs => absurd hs Bool.false_ne_true⟩
  cases hframe

theorem EngineOk.reset : EngineOk LinkEngine.reset :=
  EngineOk.softReset (e := LinkEngine.reset) (by decide)

theorem LinksOk.reset {c : Instr} (hc : isReset c = true) (h : LinksOk s) : LinksOk (effectOf c s) := by
  rw [linksOk_iff]
  cases c <;> cases hc
  case fullReset =>
    refine ⟨fun l => by cases l <;> exact EngineOk.reset, fun g hg => absurd hg (Option.not_mem_none g), fun x l _ hx => ?_⟩
    rw [effectOf_fullReset_station] at hx
    split at hx <;> cases hx
  case softReset latch =>
    refine ⟨fun l => ?_, ?_, fun x l _ hx => ?_⟩
    · have heffect : effectOf (.softReset latch) s = portControlReset latch s := rfl
      rw [heffect, portControlReset_frame]
      cases l
      · exact EngineOk.softReset (h.engine .a).parameters
      · exact EngineOk.softReset (h.engine .b).parameters
    · have heffect : effectOf (.softReset latch) s = portControlReset latch s := rfl
      rw [heffect, portControlReset_frame]
      exact fun g hg => absurd hg (Option.not_mem_none g)
    · rw [effectOf_softReset_station] at hx
      exact absurd hx (softResetStationState_out _).1

end

theorem effectOf_linksOk {c : Instr} {s : State} (hbus : isBusWrite c = false) (h : LinksOk s) :
    LinksOk (effectOf c s) := by
  obtain hr | ⟨hc, hne⟩ | rfl | hsame | ⟨g, hrunning, -, hdone⟩ := effectOf_kinds hbus s
  · exact h.reset hr
  · exact h.effect hc hne
  · exact h.grant
  · rwa [hsame]
  · exact h.completed hrunning hdone

theorem step_linksOk {s t : State} (h : LinksOk s) (hstep : step s = .next t) : LinksOk t :=
  step_keeps (P := LinksOk) (Q := fun _ => True) (fun _ _ _ => trivial) (fun _ _ hu => LinksOk.of_fields hu rfl rfl rfl rfl)
    (fun _ hu => LinksOk.of_fields hu rfl rfl rfl rfl) (fun _ hu => LinksOk.setCause .portFault hu)
    (fun _ _ hbus _ _ hu => effectOf_linksOk hbus hu) trivial h hstep

/-! ## Banks (R172) -/

/-- The sweep banks stay as they are. -/
def KeepsBanks (s t : State) : Prop := ∀ l, (t.link l).banks = (s.link l).banks

section
variable {s t u : State}

theorem KeepsBanks.refl (s : State) : KeepsBanks s s := fun _ => rfl

theorem KeepsBanks.trans (h1 : KeepsBanks s t) (h2 : KeepsBanks t u) : KeepsBanks s u := fun l => (h2 l).trans (h1 l)

theorem KeepsBanks.of_links (h : ∀ l, t.link l = s.link l) : KeepsBanks s t := fun l => by rw [h]

theorem Touch.keepsBanks {desk banks : Prop} (hb : banks) (h : Touch desk banks s t) : KeepsBanks s t := by
  obtain hplain | ⟨l, f, hengine, rfl⟩ | ⟨v, q, c, k, rfl⟩ := h.kinds
  · exact .of_links fun l => by cases l; exacts [hplain.linkA, hplain.linkB]
  · intro l'
    rw [modLink_link]
    split
    next hsame => rw [hsame, hengine.banks hb]
    next => rfl
  · exact .of_links fun l => by cases l <;> rfl

theorem Touches.keepsBanks {desk banks : Prop} (hb : banks) (h : Touches desk banks s t) : KeepsBanks s t :=
  h.keeps (P := KeepsBanks s) (fun _ _ htouch hu => hu.trans (htouch.keepsBanks hb)) (.refl s)

theorem RecordChange.keepsBanks {ctx : Prop} {who : Option Station} (h : RecordChange ctx who s t) : KeepsBanks s t :=
  .of_links h.link

theorem look_keepsBanks (s : State) : KeepsBanks s (monitorLook s) :=
  (Touches.monitorLook (desk := False) (banks := True) s).keepsBanks trivial

theorem deliver_keepsBanks (o : Origin) (st : Station) (q : Request) (res : Result) (s : State) :
    KeepsBanks s (deliver o st q res s) := by
  intro l
  cases o with
  | link l' => cases l <;> cases l' <;> rfl
  | slot | window | deadline | clear => cases l <;> rfl

theorem deliverFetch_keepsBanks (o : Origin) (found : Option Snapshot) (s : State) :
    KeepsBanks s (deliverFetch o found s) := by
  cases o with
  | link l => exact (Touches.buildVisit (desk := False) (banks := True) s l found).keepsBanks trivial
  | slot | window | deadline | clear => exact .of_links fun l => by cases l <;> rfl

theorem deliverAck_keepsBanks (o : Origin) (s : State) : KeepsBanks s (deliverAck o s) := by
  cases o with
  | link l => exact (Touches.enterRequest (desk := False) (banks := True) s l).keepsBanks trivial
  | slot | window | deadline | clear => exact .of_links fun l => by cases l <;> rfl

theorem grant_keepsBanks (s : State) : KeepsBanks s (grantEffect s) := by
  obtain hsame | ⟨-, r, o, w, -, ⟨-, heffect⟩ | ⟨code, -, heffect⟩⟩ := grantEffect_cases s
  · rw [hsame]
    exact .refl s
  · rw [heffect]
    exact .trans (.of_links (leaveRequester_links o (nextRequester r) s)) (.of_links fun l => by cases l <;> rfl)
  · rw [heffect]
    refine .trans (.of_links (leaveRequester_links o (nextRequester r) s)) (.trans ?_ (look_keepsBanks _))
    cases w with
    | request st q => exact deliver_keepsBanks o st q _ _
    | noticeFetch st => exact deliverFetch_keepsBanks o none _
    | noticeAck st id => exact deliverAck_keepsBanks o _
    | expire | clearChunk => exact .refl _

theorem ackNotice_link (st : Station) (id : NoticeId) (s : State) (l : Link) :
    (ackNotice st id s).link l = s.link l := (ackNotice_window st id s).2.2.2 l

theorem completion_keepsBanks {g : Granted} (hcompletion : Completion s g t) : KeepsBanks s t := by
  have hfree (v : State) : KeepsBanks v { v with running := none } := .of_links fun l => by cases l <;> rfl
  cases hcompletion with
  | @request st q u hwork hchange n res =>
    have hpool : KeepsBanks u (poolLowTest n { u with running := none }) := by
      rw [poolLowTest_eq]
      exact .of_links fun l => by cases l <;> rfl
    exact hchange.keepsBanks.trans (hpool.trans ((deliver_keepsBanks _ st q res _).trans (look_keepsBanks _)))
  | @fetch st found hwork =>
    refine (hfree s).trans (.trans ?_ ((deliverFetch_keepsBanks _ _ _).trans (look_keepsBanks _)))
    unfold fetchMark
    split
    · exact .refl _
    · exact .of_links fun l => modStation_link ..
  | @ack st id hwork =>
    have hack : KeepsBanks { s with running := none } (ackNotice st id { s with running := none }) :=
      .of_links (ackNotice_link st id _)
    exact (hfree s).trans (hack.trans ((deliverAck_keepsBanks _ _).trans (look_keepsBanks _)))
  | expire hwork =>
    exact (hfree s).trans
      ((expireHead_change (ctx := True) (who := none) _).keepsBanks.trans (look_keepsBanks _))
  | @chunk st k hwork =>
    have hcleared (v : State) : KeepsBanks v ((chunkRange k).foldl (clearSlot st) v) :=
      (clearSlots_changes (ctx := True) (who := none) (chunkRange k)).keeps (P := KeepsBanks v)
        (fun _ _ hchange hu => hu.trans hchange.keepsBanks) (.refl v)
    refine (hfree s).trans (.trans ?_ (look_keepsBanks _))
    unfold clearChunkOn
    refine (hcleared _).trans ?_
    generalize (chunkRange k).foldl (clearSlot st) { s with running := none } = u
    dsimp only
    split <;> exact .of_links fun l => by cases l <;> rfl

theorem modLink_active {k : Link} {f : LinkEngine → LinkEngine}
    (hf : (f (s.link k)).banks[(s.link k).activeBank] = (s.link k).banks[(s.link k).activeBank]) (l : Link) :
    ((s.modLink k f).link l).banks[(s.link l).activeBank] = (s.link l).banks[(s.link l).activeBank] := by
  cases k with
  | a =>
    cases l with
    | a => exact hf
    | b => rfl
  | b =>
    cases l with
    | a => rfl
    | b => exact hf

/-- A write to a sweep entry goes to the other bank (R172). -/
theorem entryEffect_active (value : Word) (s : State) (l : Link) :
    ((entryEffect value s).link l).banks[(s.link l).activeBank] = (s.link l).banks[(s.link l).activeBank] := by
  unfold entryEffect
  split
  · split
    · cases l <;> rfl
    next hother =>
      have hval : s.bankSelect.val ≠ (s.link s.linkSelect).activeBank.val := fun heq => hother (Fin.ext heq)
      exact modLink_active (by simp [hval]) l
  · cases l <;> rfl

theorem KeepsBanks.active (h : KeepsBanks s t) (l : Link) :
    (t.link l).banks[(s.link l).activeBank] = (s.link l).banks[(s.link l).activeBank] := by rw [h l]

theorem reset_keepsBanks {c : Instr} (hr : isReset c = true) (hc : c ≠ .fullReset) (s : State) :
    KeepsBanks s (effectOf c s) := by
  cases c <;> cases hr
  case fullReset => exact absurd rfl hc
  case softReset latch =>
    have heffect : effectOf (.softReset latch) s = portControlReset latch s := rfl
    rw [heffect, portControlReset_frame]
    exact fun l => by cases l <;> rfl

theorem entryWrite_active {c : Instr} (hc : isEntryWrite c = true) (s : State) (l : Link) :
    ((effectOf c s).link l).banks[(s.link l).activeBank] = (s.link l).banks[(s.link l).activeBank] := by
  cases c <;> cases hc
  case entryValueWrite value => exact entryEffect_active value s l

theorem effectOf_active {c : Instr} (hbus : isBusWrite c = false) (hc : c ≠ .fullReset) (s : State) (l : Link) :
    ((effectOf c s).link l).banks[(s.link l).activeBank] = (s.link l).banks[(s.link l).activeBank] := by
  obtain hr | ⟨htouches, hne⟩ | rfl | hsame | ⟨g, -, -, hdone⟩ := effectOf_kinds hbus s
  · exact (reset_keepsBanks hr hc s).active l
  · cases hentry : isEntryWrite c with
    | false => exact ((effectOf_touches htouches hne s).keepsBanks hentry).active l
    | true => exact entryWrite_active hentry s l
  · exact (grant_keepsBanks s).active l
  · rw [hsame]
  · exact (completion_keepsBanks hdone).active l

end

theorem step_active {s t : State} (l : Link) (hreset : s.pending.head? ≠ some .fullReset) (hstep : step s = .next t) :
    (t.link l).banks[(s.link l).activeBank] = (s.link l).banks[(s.link l).activeBank] := by
  cases hpending : s.pending with
  | nil =>
    rw [step_empty hpending] at hstep
    cases hstep
    rfl
  | cons c rest =>
    rw [stepRunsTheFrontCommand c rest s hpending] at hstep
    obtain rfl | rfl | rfl | ⟨c', hbus, hfull, -, rfl⟩ := exec_cases hstep
    · cases l <;> rfl
    · cases l <;> rfl
    · cases l <;> rfl
    · have hother : c' ≠ .fullReset := fun hc => hreset (by rw [hpending, hfull hc]; rfl)
      have hactive := effectOf_active hbus hother { s with pending := rest } l
      cases l <;> exact hactive

/-- Settles O59, by the kinds of command: a link's operation, its frames and its stations agree with the phase of its
visit, and the writes to a bank meet the one that is not active. -/
theorem stepsKeepTheLinks : Obligations.StepsKeepTheLinks :=
  ⟨fun _ _ h hstep => step_linksOk h hstep, fun _ _ l hreset hstep => step_active l hreset hstep⟩

end Sys2Proof.Machine
end

