-- ==== Sys2Proof/Proofs/Visits.lean ====
section
/-! The visits (O34, O35, O38, O39, O40, O42): the walk, the frames, the tries, the replies and the control word do what
the terms write out. -/

namespace Sys2Proof.Machine

open Sys2Proof.Spec

/-! ## The walk (R173) -/

section
variable {s : State} {l : Link}

theorem entryMeaning_of_code {code : Fin 32} :
    (code.val = 0 → entryMeaning code = .end_) ∧ (code.val = 31 → entryMeaning code = .skip) ∧
      ∀ x : Station, x ≠ 0 → code.val = x.val → entryMeaning code = .station x := by
  refine ⟨fun h => ?_, fun h => ?_, fun x hx h => (entryMeaning_eq_station_iff code x).2 ⟨fun hzero => hx ?_, h⟩⟩
  · rw [entryMeaning, if_pos (Fin.ext h)]
  · rw [entryMeaning, if_neg (fun hzero => by rw [hzero] at h; cases h), dif_neg (by omega)]
  · refine Fin.ext ?_
    rw [← h, hzero]
    rfl

theorem beginVisit_eq_begun (s : State) (l : Link) (x : Station) : beginVisit l x s = begun s l x := by
  unfold beginVisit begun
  simp only [decide_eq_true_eq]
  exact modLink_congr rfl

/-- What the walk does at an entry that names a station, with the cases as the terms order them. -/
theorem walkStation_eq (s : State) (l : Link) (x : Station) :
    walkStation l x s =
      if (s.station x).link = none then passed s l
      else if (s.station x).link ≠ some l then
        passed (s.modCounters l fun c => { c with mismatchedSlots := c.mismatchedSlots + 1 }) l
      else if (s.station x).state = .offline ∨ (s.station x).state = .online then begun s l x
      else passed s l := by
  unfold walkStation
  cases hlink : (s.station x).link with
  | none => rw [if_pos rfl, advance_eq_passed]
  | some l' =>
    rw [if_neg (by exact nofun)]
    by_cases hsame : l' = l
    · rw [if_neg (fun h => h (congrArg some hsame))]
      dsimp only
      rw [if_neg (fun h => h hsame)]
      cases hstate : (s.station x).state <;> simp [advance_eq_passed, beginVisit_eq_begun]
    · rw [if_pos (fun h => hsame (Option.some.inj h))]
      dsimp only
      rw [if_pos hsame, advance_eq_passed]

end

/-- Settles O34, by the meaning of the entry. -/
theorem walkDecidesEachEntry : Obligations.WalkDecidesEachEntry := by
  intro s l hreleased
  have hexec : exec (.walkEntry l) s = .next (walkEffect l s) := exec_released hreleased _
  have hidle (h : (s.link l).state ≠ .running ∨ (s.link l).visit ≠ none) : walkEffect l s = s := by
    unfold walkEffect
    dsimp only
    rw [if_neg fun hready => h.elim (fun hstate => hstate hready.1) fun hvisit => hvisit hready.2]
  obtain ⟨hend, hskip, hstation⟩ := entryMeaning_of_code (code := (s.link l).bank[(s.link l).walk])
  refine ⟨fun h => by rw [hexec, hidle h], fun hrunning hvisit => ?_⟩
  have hready {m : EntryMeaning} (hm : entryMeaning (s.link l).bank[(s.link l).walk] = m) :
      (m = .end_ → walkEffect l s = s.wrap l) ∧ (m = .skip → walkEffect l s = s.advance l) ∧
        ∀ x, m = .station x → walkEffect l s = walkStation l x s := by
    unfold walkEffect
    dsimp only
    rw [if_pos ⟨hrunning, hvisit⟩, hm]
    exact ⟨fun h => by rw [h], fun h => by rw [h], fun x h => by rw [h]⟩
  rw [hexec]
  refine ⟨fun hcode => ?_, fun hcode => ?_, fun x hx hcode => ?_⟩
  · rw [(hready (hend hcode)).1 rfl, wrap_eq_wrapped]
  · rw [(hready (hskip hcode)).2.1 rfl, advance_eq_passed]
  · rw [(hready (hstation x hx hcode)).2.2 x rfl, walkStation_eq]

/-! ## Frames (R145, R155, R162) -/

/-- Settles O35: each event finds its phase, and what it does to the engine is written on the visit. -/
theorem framesAreSentInTheirPhases : Obligations.FramesAreSentInTheirPhases := by
  intro s l v hreleased hvisit
  have hphase (p : VisitPhase) (hp : v.phase = p) : ((s.link l).visit.map fun v => v.phase) = some p := by
    rw [hvisit, Option.map_some, hp]
  have hbegin {p : VisitPhase} (hp : v.phase = p) (hsending : (s.link l).sending = none)
      (hreceiver : (s.link l).receiver = .hunting) : mayBegin (s.link l) p = true :=
    decide_eq_true ⟨hphase p hp, hsending, hreceiver⟩
  have hend {p : VisitPhase} (hp : v.phase = p) (hsending : (s.link l).sending.isSome = true) :
      sendingIn (s.link l) p = true := decide_eq_true ⟨hphase p hp, hsending⟩
  refine ⟨by rw [driverEnable, hreleased]; rfl, fun hp hsending hreceiver => ?_, fun hp hsending => ?_,
    fun t hp hresult hsending hreceiver => ?_, fun hp hsending => ?_⟩
  · have hsent : sendVisitEffect l s = _ := if_pos (hbegin hp hsending hreceiver)
    refine (exec_released hreleased _).trans (congrArg _ (hsent.trans ?_))
    rw [State.modCounters, modLink_modLink]
    exact modLink_congr (by dsimp only; rw [hvisit]; rfl)
  · have hsent : visitSentEffect l s = _ := if_pos (hend hp hsending)
    refine (exec_released hreleased _).trans (congrArg _ (hsent.trans ?_))
    rw [State.modVisit, modLink_modLink]
    exact modLink_congr (by dsimp only; rw [hvisit]; rfl)
  · have hsent : sendResultEffect l s = _ := if_pos (hbegin hp hsending hreceiver)
    refine (exec_released hreleased _).trans (congrArg _ (hsent.trans ?_))
    exact modLink_congr (by rw [hvisit, Option.bind_some, hresult]; rfl)
  · have hsent : resultSentEffect l s = _ := if_pos (hend hp hsending)
    refine (exec_released hreleased _).trans (congrArg _ (hsent.trans ?_))
    exact endVisit_eq_visitEnded _ l

/-! ## Failed tries (R129, R149, R156, R157) -/

section
variable {s : State} {l : Link} {v : Visit}

theorem leave_eq_departing (s : State) (st : Station) : s.leave st = departing s [st] :=
  leaveAll_eq_departing (List.nodup_singleton st) s

theorem missVisit_eq_missed (s : State) (l : Link) (v : Visit) : missVisit l v.station s = missed s l v := by
  have hlimit : ((s.modCounters l fun c => { c with misses := c.misses + 1 }).link l).missLimit =
      (s.link l).missLimit := by rw [modCounters_link]
  have hstation (x : Station) : (s.modCounters l fun c => { c with misses := c.misses + 1 }).station x = s.station x :=
    modLink_station ..
  rw [missVisit, missed, endVisit_eq_visitEnded]
  congr 1
  unfold missStation
  simp only [onlineOn, decide_eq_true_eq, modStation_station, hstation, if_true, hlimit, leave_eq_departing]

theorem failTry_eq_tryFailed (hvisit : (s.link l).visit = some v) : failTry l s = tryFailed s l v := by
  unfold failTry tryFailed
  rw [hvisit]
  simp only [Nat.lt_succ_iff, missVisit_eq_missed]
  rw [modVisit_eq hvisit, State.modCounters, modLink_modLink]

theorem frameEnded_eq (s : State) (l : Link) (f : LinkCounters → LinkCounters) :
    (s.hunt l).modCounters l f = frameEnded s l f := modLink_modLink ..

theorem frameEnded_visit (s : State) (l : Link) (f : LinkCounters → LinkCounters) :
    ((frameEnded s l f).link l).visit = (s.link l).visit := by
  rw [frameEnded, modLink_link, if_pos rfl]

/-- A whole frame of the reply window that is no valid REPLY, by its CRC (R149, R156). -/
theorem badFrame_eq (hvisit : (s.link l).visit = some v) :
    badFrame l true (s.hunt l) = tryFailed (frameEnded s l fun c => { c with crcFailures := c.crcFailures + 1 }) l v := by
  rw [badFrame, if_pos rfl, frameEnded_eq]
  exact failTry_eq_tryFailed ((frameEnded_visit ..).trans hvisit)

theorem strayFrame_eq (hvisit : (s.link l).visit = some v) :
    strayFrame l true (s.hunt l) =
      tryFailed (frameEnded s l fun c => { c with strayFrames := c.strayFrames + 1 }) l v := by
  rw [strayFrame, if_pos rfl, frameEnded_eq]
  exact failTry_eq_tryFailed ((frameEnded_visit ..).trans hvisit)

theorem frameReceivedEffect_eq {w : Bool} (hreceiver : (s.link l).receiver = .inFrame w) (a ty f : Byte)
    (p : List Byte) (lo hi : Byte) : frameReceivedEffect l a ty f p lo hi s = wholeFrame l w a ty f p lo hi (s.hunt l) := by
  unfold frameReceivedEffect
  rw [hreceiver]

theorem frameBrokenEffect_eq {w : Bool} (hreceiver : (s.link l).receiver = .inFrame w) :
    frameBrokenEffect l s = badFrame l w (s.hunt l) := by
  unfold frameBrokenEffect
  rw [hreceiver]

theorem crcGood_eq_crcMatches (a ty f : Byte) (p : List Byte) (lo hi : Byte) :
    crcGood a ty f p lo hi = crcMatches a ty f p lo hi := rfl

/-- A whole frame of 96 octets or less, by its CRC and by where it began (R149, R156, R164). -/
theorem wholeFrame_of_bad {w : Bool} {a ty f : Byte} {p : List Byte} {lo hi : Byte}
    (hcrc : crcMatches a ty f p lo hi = false) : wholeFrame l w a ty f p lo hi s = badFrame l w s := by
  rw [wholeFrame, if_pos (.inr (by rw [crcGood_eq_crcMatches, hcrc]; exact Bool.false_ne_true))]

theorem wholeFrame_of_good {a ty f : Byte} {p : List Byte} {lo hi : Byte} (hlength : p.length ≤ 96)
    (hcrc : crcMatches a ty f p lo hi = true) :
    wholeFrame l false a ty f p lo hi s = strayFrame l false s ∧
      (replyOf (s.link l) a ty f p = none → wholeFrame l true a ty f p lo hi s = strayFrame l true s) ∧
      ∀ st reply, replyOf (s.link l) a ty f p = some (st, reply) →
        wholeFrame l true a ty f p lo hi s = validReply l st reply s := by
  have hgood : ¬ (Config.maxPayload < p.length ∨ ¬ crcGood a ty f p lo hi = true) := by
    rw [crcGood_eq_crcMatches, hcrc]
    rintro (hlong | hbad)
    · exact absurd hlong (Nat.not_lt.2 hlength)
    · exact hbad rfl
  unfold wholeFrame
  rw [if_neg hgood, if_neg hgood, if_pos rfl, if_neg Bool.false_ne_true]
  exact ⟨rfl, fun h => by rw [h], fun st reply h => by rw [h]⟩

/-- The frame a link takes for a REPLY is a valid one (R156). -/
theorem replyOf_eq_some_iff {e : LinkEngine} (hvisit : e.visit = some v) {a ty f : Byte} {p : List Byte} {st : Station}
    {reply : Reply} : replyOf e a ty f p = some (st, reply) ↔
      st = v.station ∧ ty = 2 ∧ a.toNat = v.station.val ∧ parseReply f p = some reply := by
  have haddress : a = stationOctet v.station ↔ a.toNat = v.station.val := by
    have hval : (stationOctet v.station).toNat = v.station.val := by
      have hst := v.station.isLt
      rw [stationOctet, octetOf, BitVec.toNat_ofNat]
      omega
    rw [← BitVec.toNat_inj, hval]
  unfold replyOf
  simp only [hvisit]
  split
  next h =>
    rw [Option.map_eq_some_iff]
    constructor
    · rintro ⟨r, hr, hpair⟩
      cases hpair
      exact ⟨rfl, h.1, haddress.1 h.2, hr⟩
    · rintro ⟨rfl, -, -, hr⟩
      exact ⟨reply, hr, rfl⟩
  next h => exact ⟨nofun, fun ⟨_, hty, ha, _⟩ => absurd ⟨hty, haddress.2 ha⟩ h⟩

end

/-- Settles O39: each way for a try to fail counts once and hands the visit to the next try or the miss. -/
theorem triesFailAndAreRetried : Obligations.TriesFailAndAreRetried := by
  intro s l v hreleased hvisit
  have hhunt : ((s.hunt l).link l).visit = some v := by rw [hunt_link]; exact hvisit
  refine ⟨fun hreceiver => ⟨fun cause => ?_, fun a ty f p lo hi hlength => ⟨fun hcrc => ?_, fun hcrc hinvalid => ?_⟩⟩,
    fun hphase hreceiver => ?_⟩
  · refine (exec_released hreleased _).trans (congrArg _ ?_)
    exact (frameBrokenEffect_eq hreceiver).trans (badFrame_eq hvisit)
  · refine (exec_released hreleased _).trans (congrArg _ ?_)
    exact (frameReceivedEffect_eq hreceiver ..).trans ((wholeFrame_of_bad hcrc).trans (badFrame_eq hvisit))
  · have hnone : replyOf ((s.hunt l).link l) a ty f p = none := by
      by_contra hsome
      obtain ⟨⟨st, reply⟩, hreply⟩ := Option.ne_none_iff_exists'.1 hsome
      obtain ⟨-, hty, ha, hparse⟩ := (replyOf_eq_some_iff hhunt).1 hreply
      exact hinvalid reply ⟨hlength, hcrc, hty, ha, hparse⟩
    refine (exec_released hreleased _).trans (congrArg _ ?_)
    exact (frameReceivedEffect_eq hreceiver ..).trans
      (((wholeFrame_of_good hlength hcrc).2.1 hnone).trans (strayFrame_eq hvisit))
  · have hopen : windowOpen (s.link l) = true := decide_eq_true (by rw [hvisit, Option.map_some, hphase])
    have htimeout : replyTimeoutEffect l s = _ := if_pos ⟨hopen, hreceiver⟩
    refine (exec_released hreleased _).trans (congrArg _ (htimeout.trans ?_))
    exact failTry_eq_tryFailed (by rw [modCounters_link]; exact hvisit)

/-- Settles O40: such a frame reaches the counter of its kind and nothing else. -/
theorem framesOutsideTheWindowAreCounted : Obligations.FramesOutsideTheWindowAreCounted := by
  intro s l hreleased hreceiver
  have hbad : badFrame l false (s.hunt l) = frameEnded s l fun c => { c with crcFailures := c.crcFailures + 1 } := by
    rw [badFrame, if_neg Bool.false_ne_true, frameEnded_eq]
  have hstray : strayFrame l false (s.hunt l) = frameEnded s l fun c => { c with strayFrames := c.strayFrames + 1 } := by
    rw [strayFrame, if_neg Bool.false_ne_true, frameEnded_eq]
  refine ⟨fun cause => ?_, fun a ty f p lo hi hlength => ?_⟩
  · exact (exec_released hreleased _).trans (congrArg _ ((frameBrokenEffect_eq hreceiver).trans hbad))
  · refine (exec_released hreleased _).trans (congrArg _ ((frameReceivedEffect_eq hreceiver ..).trans ?_))
    cases hcrc : crcMatches a ty f p lo hi with
    | false => rw [wholeFrame_of_bad hcrc, hbad]; rfl
    | true => rw [(wholeFrame_of_good hlength hcrc).1, hstray]; rfl

/-! ## Valid replies (R128, R156, R158) -/

theorem modStation_modStation (s : State) (st : Station) (f f' : StationEntry → StationEntry) :
    (s.modStation st f).modStation st f' = s.modStation st fun e => f' (f e) := by
  simp [State.modStation, Vector.set_set]

theorem cameOnline_eq (s : State) (st : Station) :
    cameOnline s st =
      { s.modStation st (fun e => { e with state := .online, missCount := 0, freshOwed := false }) with
        stationChanged := setAdd s.stationChanged st
        causes := s.causes ||| BitVec.twoPow 16 5 } := by
  have htable := modStation_modStation s st (fun e => { e with state := .online }) fun e =>
    { e with missCount := 0, freshOwed := false }
  rw [← htable]
  rfl

theorem replyStation_eq_contacted (s : State) (l : Link) (st : Station) : replyStation l st s = contacted s l st := by
  unfold replyStation contacted
  rw [← cameOnline_eq]
  simp only [onlineOn, decide_eq_true_eq, and_comm (a := (s.station st).state = _)]
  rfl

theorem contacted_modLink (s : State) (l l' : Link) (st : Station) (f : LinkEngine → LinkEngine) :
    contacted (s.modLink l' f) l st = (contacted s l st).modLink l' f := by
  unfold contacted
  simp only [modLink_station]
  split_ifs <;> cases l' <;> rfl

theorem contacted_link (s : State) (l l' : Link) (st : Station) : (contacted s l st).link l' = s.link l' := by
  rw [← replyStation_eq_contacted, replyStation_link]

theorem validReply_eq_replied {s : State} {l : Link} {v : Visit} (hvisit : (s.link l).visit = some v) (reply : Reply) :
    validReply l v.station reply (s.hunt l) = replied s l v reply := by
  have hstate : (replyStation l v.station
      ((s.hunt l).modCounters l fun c => { c with goodReplies := c.goodReplies + 1 })).modVisit l
        (fun v => { v with phase := .ack, reply := some reply }) =
      (contacted s l v.station).modLink l fun e =>
        { e with
          receiver := .hunting
          visit := some { v with phase := .ack, reply := some reply }
          counters := { e.counters with goodReplies := e.counters.goodReplies + 1 } } := by
    rw [replyStation_eq_contacted, State.hunt, State.modCounters, modLink_modLink, contacted_modLink, State.modVisit,
      modLink_modLink]
    exact modLink_congr (by dsimp only; rw [contacted_link, hvisit]; rfl)
  unfold validReply replied
  dsimp only
  rw [hstate]
  cases hack : reply.ack with
  | some id => rfl
  | none =>
    refine enterRequest_eq_requestPhase (v := { v with phase := .ack, reply := some reply }) ?_ rfl
    rw [modLink_link, if_pos rfl]

/-- Settles O38: the frame is taken for the REPLY it is. -/
theorem validReplyMeetsTheStation : Obligations.ValidReplyMeetsTheStation := by
  rintro s l v a ty f p lo hi reply hreleased hreceiver hvisit ⟨hlength, hcrc, hty, ha, hparse⟩
  have hhunt : ((s.hunt l).link l).visit = some v := by rw [hunt_link]; exact hvisit
  have hreply := (replyOf_eq_some_iff hhunt).2 ⟨rfl, hty, ha, hparse⟩
  refine (exec_released hreleased _).trans (congrArg _ ((frameReceivedEffect_eq hreceiver ..).trans ?_))
  rw [(wholeFrame_of_good hlength hcrc).2.2 _ _ hreply]
  exact validReply_eq_replied hvisit reply

/-! ## The control word (R167 to R170, R175, R176) -/

theorem switchControl_eq_switchWritten (s : State) (l : Link) (b : Bool) : switchControl l b s = switchWritten s l b := by
  unfold switchControl switchWritten
  cases b with
  | false => simp
  | true =>
    have hwrap : (s.link l).atWrapPoint = true ↔
        (s.link l).state = .stopped ∨ (s.link l).state = .running ∧ (s.link l).banks[(s.link l).activeBank][0] = 0 :=
      ⟨fun h => (of_decide_eq_true h).imp_right (And.imp_right of_decide_eq_true),
        fun h => decide_eq_true (h.imp_right (And.imp_right fun hempty => decide_eq_true hempty))⟩
    simp only [if_true, true_and, hwrap, takeSwitch_eq_switchTaken]

theorem completeStop_of_state (s : State) (l : Link) :
    (s.modLink l fun e => { e with state := .stopping }).completeStop l = s.completeStop l := by
  unfold State.completeStop
  cases l <;> rfl

theorem runControl_eq_runWritten (s : State) (l : Link) (b : Bool) : runControl l b s = runWritten s l b := by
  unfold runControl runWritten
  cases (s.link l).state <;> cases b <;> dsimp only
  case running.false => rw [completeStop_of_state, completeStop_eq_stopDone]
  case stopping.true => exact portFault_eq s

/-- Settles O42: SWITCH and RUN of the model are those of the terms. -/
theorem controlWordActs : Obligations.ControlWordActs := by
  intro s b hreleased
  have hcontrol (run switch : Bool) :
      linkControl run switch s = runWritten (switchWritten s s.linkSelect switch) s.linkSelect run := by
    rw [linkControl, switchControl_eq_switchWritten, runControl_eq_runWritten]
  exact ⟨(exec_released hreleased _).trans (congrArg _ (hcontrol true b)),
    (exec_released hreleased _).trans (congrArg _ (hcontrol false b)),
    (exec_released hreleased _).trans (congrArg _ (hcontrol b true)),
    (exec_released hreleased _).trans (congrArg _ (hcontrol b false))⟩

end Sys2Proof.Machine
end

