-- ==== Sys2Proof/Proofs/Resets.lean ====
section
/-! The resets (O4 to O7, O60): the values after them, and what acts while RESET is held. -/

namespace Sys2Proof.Machine

open Sys2Proof.Spec

/-- Settles O4, value by value. -/
theorem resetHoldsTheStatedValues : Obligations.ResetHoldsTheStatedValues := by
  have hpresented : ∀ r : Requester, presented State.reset r = none := fun r => by cases r <;> rfl
  have hentry (x : Station) : State.reset.station x = StationEntry.reset (if x = 0 then .local_ else .offline) :=
    resetStations_entry x
  have hengine (e : LinkEngine) (he : e ∈ [State.reset.linkA, State.reset.linkB]) : e = LinkEngine.reset := by
    obtain rfl | rfl := List.mem_pair.1 he <;> rfl
  refine ⟨rfl, rfl, rfl, rfl, rfl, rfl, hpresented, by decide, rfl, rfl, rfl, rfl, fun x => ?_, rfl, rfl, rfl,
    fun e he => ?_, by decide, rfl, rfl, rfl, rfl, rfl, rfl, rfl, rfl, rfl, rfl, rfl, rfl⟩
  · rw [hentry]
    exact ⟨rfl, rfl⟩
  · rw [hengine e he]
    exact ⟨rfl, rfl, rfl, rfl, rfl, rfl, rfl, by decide, rfl, rfl, rfl⟩

/-- Settles O6, from what each command answers whether RESET is held or not. -/
theorem fullResetThenRelease : Obligations.FullResetThenRelease := by
  have hfull (s : State) : exec .fullReset s =
      .next { State.reset with resetHeld := true, fills := s.fills, pending := s.pending } := by
    rw [exec_eq_next]
    exact congrArg _ (ite_self _)
  have hrelease (s : State) : exec .resetRelease s = .next { s with resetHeld := false } := by
    rw [exec_eq_next]
    exact congrArg _ (ite_self _)
  refine fun s => ⟨hfull s, hrelease s, fun t ht => ?_⟩
  rw [hfull] at ht
  cases ht
  exact hrelease _

/-- Settles O5: reads, ATTN and the drivers ask whether RESET is held, and so does every other command. -/
theorem heldResetActsOnNothing : Obligations.HeldResetActsOnNothing := by
  intro s hheld
  have hexec (c : Instr) : exec c s = .next (heldEffect c s) := by
    rw [exec_eq_next, hheld]
    rfl
  refine ⟨fun c hfull hrelease hread => ?_, fun w => hexec _, fun a => ?_, ?_, fun l => ?_⟩
  · rw [hexec]
    unfold heldEffect
    split
    · exact absurd rfl hfull
    · exact absurd rfl hrelease
    · exact absurd rfl (hread _)
    · rfl
  · rw [State.readWord, hheld]
    rfl
  · rw [attnAsserted, hheld]
    rfl
  · rw [driverEnable, hheld]
    rfl

/-- Settles O7, from the frame of the reset and its entries. -/
theorem softResetEmptiesAndKeeps : Obligations.SoftResetEmptiesAndKeeps := by
  intro s latch hreleased
  have heffect : effectOf (.softReset latch) s = portControlReset latch s := rfl
  refine ⟨effectOf (.softReset latch) s, exec_released hreleased _, ?_, fun x => ?_, fun l => ?_⟩
  · rw [heffect, portControlReset_frame]
    unfold softResetEffect State.reset
    rw [hreleased]
  · rw [effectOf_softReset_station, StationEntry.softReset]
    cases (s.station x).state <;> rfl
  · rw [heffect, portControlReset_frame]
    cases l <;> rfl

/-- Settles O60, clause by clause. -/
theorem invariantsHoldAtReset : Obligations.InvariantsHoldAtReset := by
  have hclear : ClearOk State.reset := ClearOk.of_empty rfl rfl rfl rfl (by decide) (by decide)
  have hsources : SourcesOk State.reset :=
    ⟨by decide, fun g hg => absurd hg (Option.not_mem_none g), fun q hq => absurd hq (Option.not_mem_none q),
      fun l q hq => by cases l <;> exact absurd hq (Option.not_mem_none q)⟩
  have hrecords : RecordsOk State.reset :=
    (recordsOk_iff _).2 ⟨fun r hr => absurd hr List.not_mem_nil, hsources⟩
  exact ⟨by decide, hrecords, by decide, by decide, by decide, by decide, hclear, by decide, by decide, by decide,
    by decide, by decide, by decide⟩

end Sys2Proof.Machine
end

