-- ==== Sys2Proof/Proofs/Port.lean ====
section
/-! The requesters, the clock and the registers (O8, O33, O41, O43, O44, O46, O47, O48): what is presented, and what each
write does. -/

namespace Sys2Proof.Machine

open Sys2Proof.Spec

/-! ## What the requesters present (R36, R37) -/

theorem lowByte_eq_setWidth (w : Word) : lowByte w = w.setWidth 8 := by
  simp [lowByte, BitVec.setWidth_eq_extractLsb']

theorem highByte_eq_setWidth (w : Word) : highByte w = (w >>> 8).setWidth 8 := by
  ext i hi
  simp [highByte]

/-- The octets of words laid out one after the other: word `k` at octets 2k and 2k + 1 (R182). -/
theorem getElem?_flatMap_twoOctets (l : List Word) (k : Nat) :
    (l.flatMap twoOctets)[2 * k]? = l[k]?.map lowByte ∧ (l.flatMap twoOctets)[2 * k + 1]? = l[k]?.map highByte := by
  induction l generalizing k with
  | nil => exact ⟨rfl, rfl⟩
  | cons w rest ih =>
    cases k with
    | zero => exact ⟨rfl, rfl⟩
    | succ k => exact ih k

theorem slotAsks_slotRequest (x : Slot) : SlotAsks x (slotRequest x) := by
  refine ⟨rfl, rfl, rfl, rfl, rfl, rfl, rfl, rfl, dataOctets_length x.data, fun k => ?_⟩
  obtain ⟨hlow, hhigh⟩ := getElem?_flatMap_twoOctets x.data.toList k.val
  have hword : x.data.toList[k.val]? = some x.data[k] := by simp
  rw [hword, Option.map_some] at hlow hhigh
  exact ⟨hlow.trans (congrArg some (lowByte_eq_setWidth _)), hhigh.trans (congrArg some (highByte_eq_setWidth _))⟩

/-- Settles O8, requester by requester. -/
theorem requestersPresentTheirOperations : Obligations.RequestersPresentTheirOperations := by
  intro s
  have hlink (l : Link) : presented s (match l with | .a => .linkA | .b => .linkB) = linkPresented s l := by
    cases l <;> rfl
  have hlocal : presented s .local_ = localPresented s := rfl
  have hclear : presented s .clear = clearPresented s := rfl
  refine ⟨fun l v hvisit hidle => ?_, fun l hnone => ?_, fun hwaiting => ?_, fun n hwaiting hsnapshot => ?_,
    fun k rest hwaiting hqueue => ?_, slotAsks_slotRequest, fun hwaiting hqueue => ?_, rfl, fun st rest hqueue hidle => ?_,
    fun hnone => ?_⟩
  · have hpresented : linkPresented s l = (visitWork v).map fun w => (.link l, w) := by
      rw [linkPresented, hidle, if_neg Bool.false_ne_true, hvisit, Option.bind_some]
    refine (hlink l).trans (hpresented.trans ?_)
    unfold visitWork
    cases v.phase <;> simp [Option.map_map, Function.comp_def]
  · refine (hlink l).trans ?_
    unfold linkPresented
    split
    · rfl
    next hidle =>
      rw [hnone.resolve_right hidle]
      rfl
  · simp only [hlocal, localPresented, hwaiting]
  · simp only [hlocal, localPresented, hwaiting, windowId, hsnapshot]
  · simp only [hlocal, localPresented, hwaiting, hqueue]
  · simp only [hlocal, localPresented, hwaiting, hqueue]
  · simp only [hclear, clearPresented, hqueue, hidle, Bool.false_eq_true, if_false]
  · rw [hclear, clearPresented]
    obtain hqueue | hbusy := hnone
    · rw [hqueue]
    · rw [hbusy]
      cases s.clearQueue <;> rfl

/-! ## The clock and the deadline list (R84, R94, R96) -/

theorem headDue_eq_headIsDue (s : State) : headDue s s.clock = headIsDue s := by
  unfold headDue headIsDue
  cases s.deadlines <;> rfl

theorem expireRunning_eq (s : State) : expireRunning s = ((s.running.map fun g => g.work) == some .expire) := by
  rw [Bool.eq_iff_iff, beq_iff_eq]
  exact decide_eq_true_iff

/-- Settles O33: a new entry stands where the entries due no later end. -/
theorem clockAndDeadlineList : Obligations.ClockAndDeadlineList := by
  refine ⟨fun s hreleased => exec_released hreleased _, fun s hreleased => ?_, fun d l => ?_⟩
  · refine (exec_released hreleased _).trans (congrArg _ ((monitorLook_eq s).trans ?_))
    rw [headDue_eq_headIsDue, expireRunning_eq]
  · refine ⟨_, _, (List.takeWhile_append_dropWhile (p := fun x => notAfter x.due d.due)).symm,
      insertDeadline_eq_takeWhile d l, fun x hx => ?_, fun x hx => ?_⟩
    · have hearlier := List.mem_takeWhile_imp hx
      exact of_decide_eq_true hearlier
    · have hlater := List.head?_dropWhile_not (fun x : Deadline => notAfter x.due d.due) l
      rw [show _ = some x from hx] at hlater
      simpa [notAfter] using hlater

/-! ## A start octet (R145, R149, R156) -/

theorem windowOpen_eq_any (e : LinkEngine) : windowOpen e = e.visit.any fun v => v.phase = .awaitReply := by
  unfold windowOpen
  cases e.visit <;> simp

/-- Settles O41, by the conditions that a frame begins under. -/
theorem startOctetBeginsAFrame : Obligations.StartOctetBeginsAFrame := by
  intro s l octet stop hreleased
  have hexec (t : State) (h : startOctetEffect l octet stop s = t) : exec (.startOctetReceived l octet stop) s = .next t :=
    (exec_released hreleased _).trans (congrArg _ h)
  have hstart : octet = Config.startOctet ↔ octet.toNat = 0xC5 := by
    rw [← BitVec.toNat_inj]
    rfl
  have hsame (h : ¬ ((s.link l).sending = none ∧ (s.link l).receiver = .hunting ∧ octet = Config.startOctet ∧
      stop = true)) : startOctetEffect l octet stop s = s := if_neg h
  refine ⟨fun hsending hreceiver hoctet hstop => hexec _ ?_, fun _ hbad => hexec s (hsame ?_),
    fun hsending => hexec s (hsame fun h => hsending h.1), fun hreceiver => hexec s (hsame fun h => hreceiver h.2.1)⟩
  · have hbegins : startOctetEffect l octet stop s = _ := if_pos ⟨hsending, hreceiver, hstart.2 hoctet, hstop⟩
    refine hbegins.trans (modLink_congr ?_)
    rw [windowOpen_eq_any]
  · rintro ⟨-, -, hoctet, hstop⟩
    obtain h | h := hbad
    · exact h (hstart.1 hoctet)
    · rw [h] at hstop
      cases hstop

/-! ## The sweep window (R171, R172, R178, R189) -/

theorem portFault_eq_faulted (s : State) : portFault s = faulted s := rfl

/-- A word clamped from 1 to a limit (R92, R171). -/
theorem clamp_eq (v : Word) {n : Nat} (hn : 1 ≤ n) :
    max 1 (min v.toNat n) = if v = 0 then 1 else if n < v.toNat then n else v.toNat := by
  have hzero : v = 0 ↔ v.toNat = 0 := BitVec.toNat_inj.symm
  simp only [hzero]
  split_ifs <;> omega

theorem clampTop_eq (v : Word) (n : Nat) : min v.toNat n = if n < v.toNat then n else v.toNat := by
  split_ifs <;> omega

theorem counterValue_zeroCounter (x w : LinkCounter) (c : LinkCounters) :
    counterValue x (zeroCounter w c) = if x = w then 0 else counterValue x c := by
  cases w <;> cases x <;> rfl

theorem lowHalf_eq (n : LongWord) : lowHalf n = n.setWidth 16 := by
  simp [lowHalf, BitVec.setWidth_eq_extractLsb']

theorem highHalf_eq (n : LongWord) : highHalf n = (n >>> 16).setWidth 16 := by
  ext i hi
  simp [highHalf]

theorem parameterEffect_of_stopped {s : State} (hstopped : (s.link s.linkSelect).state = .stopped) {w : LinkParameter}
    {v : Word} (e : LinkEngine) (he : storeParameter w v (s.link s.linkSelect) = some e) (f : LinkEngine → LinkEngine)
    (hf : e = f (s.link s.linkSelect)) : parameterEffect w v s = s.modLink s.linkSelect f := by
  rw [parameterEffect, if_pos hstopped, he]
  exact modLink_congr hf

theorem parameterEffect_bitRate {s : State} {v : Word} (hstopped : (s.link s.linkSelect).state = .stopped) :
    (∀ c : Fin 6, v.toNat = c.val →
      parameterEffect .bitRate v s = s.modLink s.linkSelect fun e => { e with bitRate := c }) ∧
    (6 ≤ v.toNat → parameterEffect .bitRate v s = faulted s) := by
  refine ⟨fun c hc => ?_, fun hlarge => ?_⟩
  · have hlow : v.toNat < 6 := by omega
    have hcode : (⟨v.toNat, hlow⟩ : Fin 6) = c := Fin.ext hc
    have hstored : storeParameter .bitRate v (s.link s.linkSelect) = _ := dif_pos hlow
    exact parameterEffect_of_stopped hstopped _ hstored _ (by rw [hcode])
  · have hnone : storeParameter .bitRate v (s.link s.linkSelect) = none := dif_neg (Nat.not_lt.2 hlarge)
    rw [parameterEffect, if_pos hstopped, hnone]
    exact portFault_eq_faulted s

theorem entryEffect_eq (s : State) (v : Word) :
    (s.bankSelect = (s.link s.linkSelect).activeBank ∨ 31 < v.toNat → entryEffect v s = faulted s) ∧
    ∀ c : Fin 32, s.bankSelect ≠ (s.link s.linkSelect).activeBank → v.toNat = c.val →
      entryEffect v s = s.modLink s.linkSelect fun e =>
        { e with banks := e.banks.set s.bankSelect ((e.banks[s.bankSelect]).set s.entrySelect c) } := by
  refine ⟨fun hbad => ?_, fun c hother hc => ?_⟩
  · unfold entryEffect
    split
    next hcode => exact if_pos (hbad.resolve_right (by omega))
    next => exact portFault_eq_faulted s
  · have hcode : v.toNat < 32 := by omega
    have hentry : (⟨v.toNat, hcode⟩ : Fin 32) = c := Fin.ext hc
    rw [entryEffect, dif_pos hcode, if_neg hother, hentry]

theorem counterWriteEffect_eq (w : LinkCounter) (s : State) :
    counterWriteEffect w s = s.modLink s.linkSelect (fun e =>
        { e with counters := ((counterWriteEffect w s).link s.linkSelect).counters }) ∧
      ∀ x, counterValue x ((counterWriteEffect w s).link s.linkSelect).counters =
        if x = w then 0 else counterValue x (s.link s.linkSelect).counters := by
  have hlink : (counterWriteEffect w s).link s.linkSelect = _ := modCounters_link s s.linkSelect (zeroCounter w)
  rw [hlink]
  have hwritten : counterWriteEffect w s =
      s.modLink s.linkSelect fun e => { e with counters := zeroCounter w e.counters } := rfl
  exact ⟨hwritten.trans (modLink_congr rfl), fun x => counterValue_zeroCounter x w _⟩

/-- Settles O43, register by register. -/
theorem sweepWindowActs : Obligations.SweepWindowActs := by
  intro s v hreleased
  have hexec {c : Instr} {t : State} (h : effectOf c s = t) : exec c s = .next t :=
    (exec_released hreleased c).trans (congrArg _ h)
  refine ⟨fun hstate w => hexec (if_neg hstate), fun hstopped => ⟨fun c hc => hexec ?_, fun hlarge => hexec ?_, hexec ?_,
    hexec ?_, hexec ?_⟩, fun hbad => hexec ((entryEffect_eq s v).1 hbad),
    fun c hother hc => hexec ((entryEffect_eq s v).2 c hother hc),
    fun w high => ⟨counterWriteEffect w s, hexec rfl, counterWriteEffect_eq w s⟩, fun w => hexec ?_⟩
  · exact (parameterEffect_bitRate hstopped).1 c hc
  · exact (parameterEffect_bitRate hstopped).2 hlarge
  · exact parameterEffect_of_stopped (w := .replyTimeout) hstopped _ rfl _ (by rw [clamp_eq v (by decide)])
  · exact parameterEffect_of_stopped (w := .retryLimit) hstopped _ rfl _ (by rw [clampTop_eq])
  · exact parameterEffect_of_stopped (w := .missLimit) hstopped _ rfl _ (by rw [clamp_eq v (by decide)])
  · change counterReadEffect w s = _
    rw [counterReadEffect, lowHalf_eq, highHalf_eq]

/-! ## Slots (R183, R184, R185) -/

theorem storeSlotWord_eq_wordStored (x : Slot) (w : SlotWord) (v : Word) : storeSlotWord w v x = wordStored x w v := by
  cases w with
  | op => exact congrArg (fun code => { x with code, expect := v.getLsbD 8, force := v.getLsbD 9 }) (lowByte_eq_setWidth v)
  | point | argument | data => rfl

theorem slotWordWrite_of_parameter {w : SlotWord} {v : Word} (h : parameterOnly w v = true) (k : Fin 4) (s : State) :
    slotWordWrite k w v s = slotWriteEffect k w v s := by
  cases w with
  | op =>
    simp only [parameterOnly, Bool.and_eq_true, Bool.not_eq_true'] at h
    obtain ⟨⟨hgo, hcancel⟩, hclear⟩ := h
    simp only [slotWordWrite, opWordWrite, hgo, hcancel, hclear]
  | point | argument | data => rfl

theorem cancelEffect_cases (k : Fin 4) (code : Byte) (expect force : Bool) (s : State) :
    (slotOpen s.slots[k] = true → cancelEffect k code expect force s = s.modSlot k (storeOp code expect force)) ∧
    (s.slots[k].state = .queued → cancelEffect k code expect force s =
      setCause (.slotDone k)
        { s.modSlot k (fun x => { x with state := .done, result := .cancelled, fields := .none }) with
          submission := s.submission.filter fun j => j ≠ k }) ∧
    (s.slots[k].state = .running → cancelEffect k code expect force s = s) := by
  unfold cancelEffect slotOpen
  refine ⟨fun hopen => ?_, fun hstate => by rw [hstate], fun hstate => by rw [hstate]⟩
  obtain hstate | hstate := of_decide_eq_true hopen <;> rw [hstate]

theorem clearEffect_cases (k : Fin 4) (code : Byte) (expect force : Bool) (s : State) :
    (s.slots[k].state = .idle → clearEffect k code expect force s = s.modSlot k (storeOp code expect force)) ∧
    (s.slots[k].state = .done → clearEffect k code expect force s =
      s.modSlot k fun x => { storeOp code expect force x with state := .idle, result := .ok, fields := .none }) ∧
    (s.slots[k].state = .queued ∨ s.slots[k].state = .running → clearEffect k code expect force s = portFault s) := by
  unfold clearEffect
  refine ⟨fun hstate => by rw [hstate], fun hstate => by rw [hstate], fun hstate => ?_⟩
  obtain hstate | hstate := hstate <;> rw [hstate]

/-- A write of an OP word that carries a command is the command, or misuse with more than one (R183). -/
theorem opWordWrite_of_command (k : Fin 4) (v : Word) {s : State} (hreleased : s.resetHeld = false)
    (hv : parameterOnly .op v = false) :
    (∀ c, opCommand k v = some c → .next (opWordWrite k v s) = exec c s) ∧
      (opCommand k v = none → opWordWrite k v s = faulted s) := by
  have hone {c c' : Instr} (h : some c = some c') : .next (effectOf c s) = exec c' s := by
    cases h
    exact (exec_released hreleased c).symm
  rw [opWordWrite, lowByte_eq_setWidth]
  unfold opCommand
  cases hgo : v.getLsbD 12 <;> cases hcancel : v.getLsbD 13 <;> cases hclear : v.getLsbD 14 <;> dsimp only
  case false.false.false =>
    rw [parameterOnly, hgo, hcancel, hclear] at hv
    cases hv
  case true.false.false | false.true.false | false.false.true => exact ⟨fun c hc => hone hc, nofun⟩
  all_goals exact ⟨nofun, fun _ => rfl⟩

/-- Settles O44, by the state of the slot and the command bits of the word. -/
theorem slotCommandsActByTheState : Obligations.SlotCommandsActByTheState := by
  intro s k code expect force hreleased
  have hexec {c : Instr} {t : State} (h : effectOf c s = t) : exec c s = .next t :=
    (exec_released hreleased c).trans (congrArg _ h)
  have hwrite {w : SlotWord} {v : Word} (hw : parameterOnly w v = true) {t : State} (h : slotWriteEffect k w v s = t) :
      exec (.slotParameterWrite k w v) s = .next t := hexec ((slotWordWrite_of_parameter hw k s).trans h)
  have hshut (hstate : s.slots[k].state = .queued ∨ s.slots[k].state = .running) : ¬ slotOpen s.slots[k] = true := by
    intro hopen
    obtain h | h := hstate <;> rw [slotOpen, h] at hopen <;> cases hopen
  obtain ⟨hcancelOpen, hcancelQueued, hcancelRunning⟩ := cancelEffect_cases k code expect force s
  obtain ⟨hclearIdle, hclearDone, hclearShut⟩ := clearEffect_cases k code expect force s
  refine ⟨fun hstate => ⟨hexec ?_, hexec ?_, hexec ?_, fun w v hw => hwrite hw ?_⟩,
    fun hstate => ⟨hexec ?_, hexec ?_, fun w v hw => hwrite hw ?_⟩, fun hstate => hexec ?_, fun hstate => hexec ?_,
    fun v hv => ?_⟩
  · exact if_pos (decide_eq_true hstate)
  · exact hcancelOpen (decide_eq_true hstate)
  · by_cases hdone : s.slots[k].state = .done
    · rw [if_pos hdone]
      exact hclearDone hdone
    · rw [if_neg hdone]
      exact hclearIdle (hstate.resolve_right hdone)
  · have hopen : slotOpen s.slots[k] = true := decide_eq_true hstate
    rw [slotWriteEffect, if_pos hopen, State.modSlot, storeSlotWord_eq_wordStored]
  · exact if_neg (hshut hstate)
  · exact hclearShut hstate
  · exact if_neg (hshut hstate)
  · exact hcancelQueued hstate
  · exact hcancelRunning hstate
  · obtain ⟨hsome, hnone⟩ := opWordWrite_of_command k v hreleased hv
    refine (exec_released hreleased _).trans ?_
    split
    next c hc => exact hsome c hc
    next hc => exact congrArg _ (hnone hc)

/-! ## Sets of stations in two words (R182, R188) -/

/-- The stations of two words: 1 to 15 in the low one, 16 to 30 in the high one (R182, R188). -/
theorem setHas_setOfWords (low high : Word) (x : Station) :
    setHas (setOfWords low high) x =
      if x.val ≤ 15 then decide (1 ≤ x.val) && low.getLsbD x.val else high.getLsbD (x.val - 16) := by
  have hmask : (0x7FFFFFFE#32).getLsbD x.val = decide (1 ≤ x.val) := by
    revert x
    decide
  have hx := x.isLt
  rw [setHas, setOfWords, BitVec.getLsbD_setWidth, BitVec.getLsbD_and, hmask, BitVec.getLsbD_append]
  by_cases hlow : x.val ≤ 15
  · have hlt : x.val < 16 := by omega
    simp [hlow, hlt, hx, Bool.and_comm]
  · have hge : ¬ x.val < 16 := by omega
    have hone : 1 ≤ x.val := by omega
    simp [hlow, hge, hx, hone]

theorem getLsbD_setHighWord (set : StationSet) (x : Station) (hx : ¬ x.val ≤ 15) :
    (setHighWord set).getLsbD (x.val - 16) = setHas set x := by
  have hlt := x.isLt
  have hsum : 16 + (x.val - 16) = x.val := by omega
  have hin : x.val - 16 < 16 := by omega
  simp [setHighWord, setHas, hsum, hin]

theorem getLsbD_setLowWord (set : StationSet) (x : Station) (hx : x.val ≤ 15) :
    (setLowWord set).getLsbD x.val = setHas set x := by
  have hin : x.val < 16 := by omega
  simp [setLowWord, setHas, hin]

/-! ## Attention (R119, R142, R190) -/

theorem bits_of_clearable (i : Fin 16) :
    clearableBits.getLsbD i = (decide (i.val < 12) && decide (i.val ≠ 4)) := by
  revert i
  decide

theorem bits_of_attn (i : Fin 16) : attnBits.getLsbD i = decide (i.val < 12) := by
  revert i
  decide

/-- A word is not 0 exactly when a bit of it is set. -/
theorem ne_zero_iff_getLsbD (w : Word) : (w != 0) = true ↔ ∃ i : Fin 16, w.getLsbD i = true := by
  rw [bne_iff_ne, ne_eq, ← not_iff_not, not_not, not_exists]
  refine ⟨fun h i => by rw [h]; simp, fun h => BitVec.eq_of_getLsbD_eq fun i hi => ?_⟩
  rw [Bool.eq_false_iff.2 (h ⟨i, hi⟩)]
  simp

theorem getLsbD_attnCause (s : State) (i : Fin 16) :
    (attnCause s).getLsbD i =
      if i.val = 4 then decide (0 < (s.station 0).pendingCount) else decide (i.val < 12) && s.causes.getLsbD i := by
  have hnotice : noticeLevel s = decide (0 < (s.station 0).pendingCount) := rfl
  have hbit : (BitVec.twoPow 16 noticeBit).getLsbD i = decide (i.val = 4) := by
    revert i
    decide
  have hlevel (b : Bool) : (if b then BitVec.twoPow 16 noticeBit else 0).getLsbD i = (b && decide (i.val = 4)) := by
    cases b with
    | false => simp
    | true => exact hbit
  rw [attnCause, BitVec.getLsbD_or, BitVec.getLsbD_and, bits_of_clearable, hnotice, hlevel]
  by_cases hi : i.val = 4 <;> simp [hi, Bool.and_comm]

/-- Settles O46, bit by bit. -/
theorem attentionActsBitByBit : Obligations.AttentionActsBitByBit := by
  intro s v hreleased
  refine ⟨⟨_, exec_released hreleased _, rfl, fun i => ?_⟩, ⟨_, exec_released hreleased _, rfl, fun i => ?_⟩,
    fun high => ⟨_, exec_released hreleased _, rfl, fun x => ?_⟩, ?_⟩
  · change (s.causes &&& ~~~(v &&& clearableBits)).getLsbD i = _
    rw [BitVec.getLsbD_and, BitVec.getLsbD_not, BitVec.getLsbD_and, bits_of_clearable]
    simp [Bool.and_assoc]
  · change (v &&& attnBits).getLsbD i = _
    rw [BitVec.getLsbD_and, bits_of_attn]
  · have hx := x.isLt
    have hchanged (removed : StationSet) :
        setHas (s.stationChanged &&& ~~~removed) x = (setHas s.stationChanged x && !setHas removed x) := by
      simp [setHas, hx]
    refine (hchanged _).trans (congrArg (fun b => setHas s.stationChanged x && !b) ?_)
    cases high with
    | true =>
      rw [if_pos rfl, if_pos rfl, setHas_setOfWords]
      by_cases hlow : x.val ≤ 15
      · simp [hlow, Nat.not_le.2 (Nat.lt_succ_of_le hlow)]
      · simp [hlow, Nat.succ_le_of_lt (Nat.lt_of_not_le hlow)]
    | false =>
      rw [if_neg Bool.false_ne_true, if_neg Bool.false_ne_true, setHas_setOfWords]
      by_cases hlow : x.val ≤ 15 <;> simp [hlow]
  · rw [attnAsserted, hreleased, Bool.not_false, Bool.true_and, ne_zero_iff_getLsbD]
    constructor
    · rintro ⟨i, hi⟩
      rw [BitVec.getLsbD_and, getLsbD_attnCause, Bool.and_eq_true] at hi
      obtain ⟨hcause, henabled⟩ := hi
      split at hcause
      next hnotice =>
        refine ⟨4, ?_, by simpa using hcause⟩
        rwa [hnotice] at henabled
      next hother =>
        obtain ⟨hlow, hset⟩ := Bool.and_eq_true_iff.1 hcause
        exact ⟨⟨i.val, of_decide_eq_true hlow⟩, henabled, by rw [if_neg hother]; exact hset⟩
    · rintro ⟨i, henabled, hcause⟩
      refine ⟨⟨i.val, by omega⟩, ?_⟩
      rw [BitVec.getLsbD_and, getLsbD_attnCause, Bool.and_eq_true]
      refine ⟨?_, henabled⟩
      split at hcause
      next hnotice => simpa [hnotice] using hcause
      next hother => simpa [hother, i.isLt] using hcause

/-! ## Plain registers (R32, R46, R92, R182, R188, R189) -/

/-- A mask after a write of one of its words holds the stations of that word and, else, those it held (R46, R188). -/
theorem setHas_setOfWords_low (v : Word) (set : StationSet) (x : Station) (hx : x ≠ 0) :
    setHas (setOfWords v (setHighWord set)) x = if x.val ≤ 15 then v.getLsbD x.val else setHas set x := by
  have hone : 1 ≤ x.val := Nat.one_le_iff_ne_zero.2 fun h => hx (Fin.ext h)
  rw [setHas_setOfWords]
  split
  next => simp [hone]
  next hge => exact getLsbD_setHighWord set x hge

theorem setHas_setOfWords_high (v : Word) (set : StationSet) (x : Station) (hx : x ≠ 0) :
    setHas (setOfWords (setLowWord set) v) x = if x.val ≤ 15 then setHas set x else v.getLsbD (x.val - 16) := by
  have hone : 1 ≤ x.val := Nat.one_le_iff_ne_zero.2 fun h => hx (Fin.ext h)
  rw [setHas_setOfWords]
  split
  next hle => simp [hone, getLsbD_setLowWord set x hle]
  next => rfl

theorem fenceEffect_fence (field : FenceField) (v : Word) (s : State) :
    (fenceEffect field v s).fences[s.fenceSelect] = storeFence field v s.fences[s.fenceSelect] := by
  simp [fenceEffect, State.modFence]

/-- Settles O47, register by register. -/
theorem plainRegistersHoldWhatIsWritten : Obligations.PlainRegistersHoldWhatIsWritten := by
  intro s v hreleased
  have hexec {c : Instr} {t : State} (h : effectOf c s = t) : exec c s = .next t :=
    (exec_released hreleased c).trans (congrArg _ h)
  refine ⟨hexec ?_, hexec ?_, hexec rfl, fun x hx => hexec ?_, fun x hx => hexec ?_, fun hv => hexec ?_,
    fun hv => hexec ?_, fun x hx => hexec ?_, fun x hx => hexec ?_, fun w hw => hexec ?_,
    fun field => ⟨fenceEffect field v s, hexec rfl, ?_⟩⟩
  · exact congrArg (fun n => { s with poolThreshold := n }) (clampTop_eq v 2048)
  · exact congrArg (fun n => { s with leaseMax := n }) (clamp_eq v (n := 6000) (by decide))
  · have hlow : v.toNat < 31 := by omega
    have hselect : (⟨v.toNat, hlow⟩ : Fin 31) = x := Fin.ext hx
    exact (dif_pos hlow).trans (by rw [hselect])
  · have hlow : v.toNat < 8 := by omega
    have hselect : (⟨v.toNat, hlow⟩ : Fin 8) = x := Fin.ext hx
    exact (dif_pos hlow).trans (by rw [hselect])
  · rw [hv]
    rfl
  · rw [hv]
    rfl
  · have hlow : v.toNat < 2 := by omega
    have hselect : (⟨v.toNat, hlow⟩ : Fin 2) = x := Fin.ext hx
    exact (dif_pos hlow).trans (by rw [hselect])
  · have hlow : v.toNat < 32 := by omega
    have hselect : (⟨v.toNat, hlow⟩ : Fin 32) = x := Fin.ext hx
    exact (dif_pos hlow).trans (by rw [hselect])
  · cases w with
    | station | fence | bank | entry => exact (dif_neg (Nat.not_lt.2 hw)).trans (portFault_eq_faulted s)
    | link => exact (if_neg (Nat.not_lt.2 hw)).trans (portFault_eq_faulted s)
  · have hfence := fenceEffect_fence field v s
    dsimp only
    rw [hfence]
    refine ⟨rfl, ?_, ?_, ?_, fun x hx => ?_⟩
    · cases field <;> rfl
    · rintro (rfl | rfl) <;> exact setHas_setOfWords_zero _ _
    · rintro (rfl | rfl) <;> exact setHas_setOfWords_zero _ _
    · cases field with
      | enable | low | high => exact ⟨rfl, rfl⟩
      | readMaskLow => exact ⟨setHas_setOfWords_low v _ x hx, rfl⟩
      | readMaskHigh => exact ⟨setHas_setOfWords_high v _ x hx, rfl⟩
      | writeMaskLow => exact ⟨rfl, setHas_setOfWords_low v _ x hx⟩
      | writeMaskHigh => exact ⟨rfl, setHas_setOfWords_high v _ x hx⟩

/-! ## The station window (R125, R131, R133, R141) -/

section
variable {s : State}

/-- BAR and UNBAR of a remote station, by its state (R125, R131). -/
theorem barEffect_cases (hremote : s.stationSelect ≠ 0) :
    ((s.station s.stationSelect).state = .online → barEffect s =
      (s.modStation s.stationSelect fun e => { e with barredMark := true }).leave s.stationSelect) ∧
    ((s.station s.stationSelect).state = .leaving → barEffect s =
      s.modStation s.stationSelect fun e => { e with barredMark := true }) ∧
    ((s.station s.stationSelect).state = .offline → barEffect s = s.changeState s.stationSelect .barred) ∧
    ((s.station s.stationSelect).state = .barred → barEffect s = s) := by
  unfold barEffect
  dsimp only
  rw [if_neg hremote]
  exact ⟨fun h => by rw [h], fun h => by rw [h], fun h => by rw [h], fun h => by rw [h]⟩

theorem unbarEffect_cases (hremote : s.stationSelect ≠ 0) :
    ((s.station s.stationSelect).state = .leaving → unbarEffect s =
      s.modStation s.stationSelect fun e => { e with barredMark := false }) ∧
    ((s.station s.stationSelect).state = .barred → unbarEffect s = letIn s s.stationSelect) ∧
    ((s.station s.stationSelect).state = .online ∨ (s.station s.stationSelect).state = .offline → unbarEffect s = s) := by
  unfold unbarEffect letIn
  dsimp only
  rw [if_neg hremote]
  refine ⟨fun h => by rw [h], fun h => by rw [h], fun h => ?_⟩
  obtain h | h := h <;> rw [h]

theorem assignmentEffect_cases (hremote : s.stationSelect ≠ 0) (v : Word) :
    ((s.station s.stationSelect).state = .online ∨ (s.station s.stationSelect).state = .leaving ∨ 2 < v.toNat →
      assignmentEffect v s = portFault s) ∧
    ((s.station s.stationSelect).state = .offline ∨ (s.station s.stationSelect).state = .barred → v.toNat ≤ 2 →
      assignmentEffect v s = s.modStation s.stationSelect fun e => { e with link := assignmentOf v.toNat }) := by
  unfold assignmentEffect
  dsimp only
  refine ⟨fun h => ?_, fun h hv => ?_⟩
  · split
    · rfl
    next hrange =>
      obtain h | h | h := h
      · rw [h]
      · rw [h]
      · exact absurd (.inr h) hrange
  · rw [if_neg fun hbad => hbad.elim hremote (Nat.not_lt.2 hv)]
    obtain h | h := h <;> rw [h]

theorem letIn_eq_told (s : State) (x : Station) :
    letIn s x =
      told { s with stations := s.stations.set x { s.station x with state := .offline, freshOwed := true } } x := by
  have htable := modStation_modStation s x (fun e => { e with freshOwed := true }) fun e => { e with state := .offline }
  have hletIn : letIn s x = told ((s.modStation x fun e => { e with freshOwed := true }).modStation x fun e =>
      { e with state := .offline }) x := rfl
  rw [hletIn, htable]
  rfl

end

/-- Settles O48, by the state of the selected station. -/
theorem stationWindowActs : Obligations.StationWindowActs := by
  intro s v hreleased
  have hexec {c : Instr} {t : State} (h : effectOf c s = t) : exec c s = .next t :=
    (exec_released hreleased c).trans (congrArg _ h)
  refine ⟨fun hzero => ⟨hexec ?_, hexec ?_, hexec ?_⟩, fun hremote => ?_,
    hexec rfl, hexec rfl, hexec rfl, hexec rfl, hexec rfl⟩
  · exact (if_pos hzero).trans (portFault_eq_faulted s)
  · exact (if_pos hzero).trans (portFault_eq_faulted s)
  · exact (if_pos (.inl hzero)).trans (portFault_eq_faulted s)
  · obtain ⟨honline, hleaving, hoffline, hbarred⟩ := barEffect_cases hremote
    obtain ⟨huleaving, hubarred, hukept⟩ := unbarEffect_cases hremote
    obtain ⟨hmisuse, hassign⟩ := assignmentEffect_cases hremote v
    have hassigned (n : Nat) (hn : n ≤ 2) (hv : v = BitVec.ofNat 16 n)
        (hstate : (s.station s.stationSelect).state = .offline ∨ (s.station s.stationSelect).state = .barred) :
        assignmentEffect v s = s.modStation s.stationSelect fun e => { e with link := assignmentOf n } := by
      have hvalue : v.toNat = n := by
        rw [hv, BitVec.toNat_ofNat]
        exact Nat.mod_eq_of_lt (by omega)
      rw [hassign hstate (by omega), hvalue]
    refine ⟨fun h => ⟨hexec ((honline h).trans (leave_eq_departing _ _)), hexec (hukept (.inl h))⟩,
      fun h => ⟨hexec (hleaving h), hexec (huleaving h)⟩,
      fun h => ⟨hexec (hoffline h), hexec (hukept (.inr h))⟩,
      fun h => ⟨hexec (hbarred h), hexec ((hubarred h).trans (letIn_eq_told s _))⟩,
      fun h => hexec ((hmisuse h).trans (portFault_eq_faulted s)),
      fun h => ⟨fun hv => hexec (hassigned 0 (by omega) hv h), fun hv => hexec (hassigned 1 (by omega) hv h),
        fun hv => hexec (hassigned 2 (by omega) hv h)⟩⟩

end Sys2Proof.Machine
end

