-- ==== Sys2Proof/Proofs/NoticeWindow.lean ====
section
/-! Notices (O29, O45): what a fetch finds and marks, and what shows in the notice window. -/

namespace Sys2Proof.Machine

open Sys2Proof.Spec

/-! ## The search of a fetch (R111) -/

/-- In a list that ascends in rank, the first element with a property is the one of least rank. -/
theorem find_of_least {α : Type} {rank : α → Nat} {l : List α} (hascends : l.Pairwise fun a b => rank a < rank b)
    {p : α → Bool} {r : α} (hr : r ∈ l) (hp : p r = true) (hleast : ∀ x ∈ l, p x = true → rank r ≤ rank x) :
    l.find? p = some r := by
  cases hfind : l.find? p with
  | none => exact absurd hp (List.find?_eq_none.1 hfind r hr)
  | some x =>
    obtain ⟨hx, before, after, rfl, hbefore⟩ := List.find?_eq_some_iff_append.1 hfind
    obtain hr | hr := List.mem_append.1 hr
    · simpa [hp] using hbefore r hr
    · obtain rfl | hr := List.mem_cons.1 hr
      · rfl
      · have hlt := (List.pairwise_cons.1 (List.pairwise_append.1 hascends).2.1).1 r hr
        have hle := hleast x (by simp) hx
        omega

/-- The ranks of the two runs of the search: up from just above the cursor, and on from the wrap (R111). -/
theorem searchRank_above {cursor p : Word} (h : cursor.toNat < p.toNat) :
    searchRank cursor p = p.toNat - cursor.toNat - 1 := by
  have hp := p.isLt
  have hone : (1 : Word).toNat = 1 := rfl
  simp only [searchRank, BitVec.toNat_sub, hone, Nat.reducePow]
  omega

theorem searchRank_upTo {cursor p : Word} (h : p.toNat ≤ cursor.toNat) :
    searchRank cursor p = p.toNat + 65535 - cursor.toNat := by
  have hcursor := cursor.isLt
  have hone : (1 : Word).toNat = 1 := rfl
  simp only [searchRank, BitVec.toNat_sub, hone, Nat.reducePow]
  omega

/-- The search goes through the index in the order of the ranks. -/
theorem fetchOrder_ascends {s : State} (hindex : IndexOk s) (cursor : Word) :
    ((s.index.filter fun r => cursor.toNat < r.point.toNat) ++
      s.index.filter fun r => r.point.toNat ≤ cursor.toNat).Pairwise
        fun a b => searchRank cursor a.point < searchRank cursor b.point := by
  obtain ⟨hpoints, -⟩ := hindex
  have hkept (q : Record → Bool) : (s.index.filter q).Pairwise fun a b => a.point.toNat < b.point.toNat :=
    hpoints.sublist List.filter_sublist
  have hin {q : Record → Bool} {r : Record} (h : r ∈ s.index.filter q) : q r = true := (List.mem_filter.1 h).2
  refine List.pairwise_append.2 ⟨?_, ?_, fun a ha b hb => ?_⟩
  · refine (hkept _).imp_of_mem fun {a b} ha hb hlt => ?_
    have ha' : cursor.toNat < a.point.toNat := by simpa using hin ha
    have hb' : cursor.toNat < b.point.toNat := by simpa using hin hb
    rw [searchRank_above ha', searchRank_above hb']
    omega
  · refine (hkept _).imp_of_mem fun {a b} ha hb hlt => ?_
    have ha' : a.point.toNat ≤ cursor.toNat := by simpa using hin ha
    have hb' : b.point.toNat ≤ cursor.toNat := by simpa using hin hb
    have hcursor := cursor.isLt
    rw [searchRank_upTo ha', searchRank_upTo hb']
    omega
  · have ha' : cursor.toNat < a.point.toNat := by simpa using hin ha
    have hb' : b.point.toNat ≤ cursor.toNat := by simpa using hin hb
    have hpoint := a.point.isLt
    have hcursor := cursor.isLt
    rw [searchRank_above ha', searchRank_upTo hb']
    omega

theorem mem_fetchOrder {s : State} (cursor : Word) {r : Record} :
    r ∈ ((s.index.filter fun r => cursor.toNat < r.point.toNat) ++
      s.index.filter fun r => r.point.toNat ≤ cursor.toNat) ↔ r ∈ s.index := by
  simp only [List.mem_append, List.mem_filter, decide_eq_true_eq, ← and_or_left, Nat.lt_or_ge, and_true]

theorem fetchSearch_of_finds {s : State} {st : Station} {r : Record} (hindex : IndexOk s) (h : FetchFinds s st r) :
    fetchSearch s st = some r := by
  obtain ⟨hr, hpending, hleast⟩ := h
  refine find_of_least (fetchOrder_ascends hindex _) ((mem_fetchOrder _).2 hr) hpending fun x hx hxp => ?_
  exact hleast x ((mem_fetchOrder _).1 hx) hxp

theorem fetchSearch_of_none {s : State} {st : Station} (h : ∀ r ∈ s.index, setHas r.pendingSet st = false) :
    fetchSearch s st = none := by
  refine List.find?_eq_none.2 fun r hr hpending => ?_
  rw [h r ((mem_fetchOrder _).1 hr)] at hpending
  cases hpending

theorem deliverFetch_eq_fetchHanded (o : Origin) (found : Option Snapshot) (s : State) :
    deliverFetch o found s = fetchHanded s o found := by
  cases o <;> rfl

theorem fetchHanded_running (o : Origin) (found : Option Snapshot) (s : State) :
    (fetchHanded s o found).running = s.running := by
  cases o with
  | link l => exact modLink_running ..
  | slot | window | deadline | clear => rfl

/-- The completion of a fetch, by what the search finds (R53, R113). -/
theorem noticeFetchEffect_eq {s : State} {g : Granted} {st : Station} (hrunning : s.running = some g)
    (hwork : g.work = .noticeFetch st) :
    noticeFetchEffect s = looked (fetchHanded (fetchMark st (fetchSearch s st) { s with running := none }) g.origin
      ((fetchSearch s st).map snapshotOf)) := by
  have hmark (found : Option Record) : (fetchMark st found { s with running := none }).running = none := by
    cases found <;> rfl
  unfold noticeFetchEffect
  rw [hrunning]
  dsimp only
  rw [hwork]
  dsimp only
  rw [deliverFetch_eq_fetchHanded]
  exact monitorLook_eq_looked ((fetchHanded_running ..).trans (hmark _))

/-- Settles O29: the search goes in the order of the ranks, and what it finds is marked and handed over. -/
theorem noticeFetchMarksTheNotice : Obligations.NoticeFetchMarksTheNotice := by
  intro s g st hreleased hrunning hwork hindex
  have heffect := noticeFetchEffect_eq hrunning hwork
  refine ⟨fun r hfinds => ?_, fun hnone => ?_⟩
  · refine (exec_released hreleased _).trans (congrArg _ (heffect.trans ?_))
    rw [fetchSearch_of_finds hindex hfinds, Option.map_some, snapshotOf]
    cases r.phase <;> rfl
  · refine (exec_released hreleased _).trans (congrArg _ (heffect.trans ?_))
    rw [fetchSearch_of_none hnone]
    rfl

/-! ## What the window shows (R120, R122) -/

/-- Reads of the snapshot stay as they are: the snapshot, the count of fills, and RESET not newly held. -/
structure SameShown (s t : State) : Prop where
  snapshot : t.window.snapshot = s.window.snapshot
  fills : t.fills = s.fills
  held : t.resetHeld = true → s.resetHeld = true

section
variable {s t u : State}

theorem SameShown.refl (s : State) : SameShown s s := ⟨rfl, rfl, id⟩

theorem SameShown.trans (h1 : SameShown s t) (h2 : SameShown t u) : SameShown s u :=
  ⟨h2.snapshot.trans h1.snapshot, h2.fills.trans h1.fills, h1.held ∘ h2.held⟩

theorem Touch.sameShown {desk banks : Prop} (h : Touch desk banks s t) : SameShown s t := by
  obtain hplain | ⟨l, f, -, rfl⟩ | ⟨v, q, c, k, rfl⟩ := h.kinds
  · exact ⟨hplain.shown, hplain.fills, hplain.held⟩
  · exact ⟨by simp, by simp, fun h => by simpa using h⟩
  · exact ⟨rfl, rfl, id⟩

theorem Touches.sameShown {desk banks : Prop} (h : Touches desk banks s t) : SameShown s t :=
  h.keeps (P := SameShown s) (fun _ _ htouch hu => hu.trans htouch.sameShown) (.refl s)

theorem RecordChange.sameShown {ctx : Prop} {who : Option Station} (h : RecordChange ctx who s t) : SameShown s t := by
  rw [h.alone.frame]
  exact ⟨rfl, rfl, id⟩

theorem look_sameShown (s : State) : SameShown s (monitorLook s) :=
  (Touches.monitorLook (desk := False) (banks := False) s).sameShown

theorem deliver_sameShown (o : Origin) (st : Station) (q : Request) (res : Result) (s : State) :
    SameShown s (deliver o st q res s) := by
  obtain ⟨stations, linkA, linkB, slots, hdeliver⟩ := deliver_frame o st q res s
  rw [hdeliver]
  exact ⟨rfl, rfl, id⟩

theorem leaveRequester_sameShown (o : Origin) (p : Requester) (s : State) :
    SameShown s (leaveRequester o { s with pointer := p }) := by
  cases o <;> exact ⟨rfl, rfl, id⟩

theorem grant_sameShown (s : State) : SameShown s (grantEffect s) := by
  obtain hsame | ⟨-, r, o, w, hr, ⟨-, heffect⟩ | ⟨code, hrefused, heffect⟩⟩ := grantEffect_cases s
  · rw [hsame]
    exact .refl s
  · rw [heffect]
    exact (leaveRequester_sameShown o (nextRequester r) s).trans ⟨rfl, rfl, id⟩
  · rw [heffect]
    refine (leaveRequester_sameShown o (nextRequester r) s).trans (.trans ?_ (look_sameShown _))
    obtain ⟨l, rfl⟩ | ⟨k, q, rfl, rfl⟩ := (presents_of_presented hr).refused hrefused
    · cases w with
      | request st q => exact deliver_sameShown (.link l) st q _ _
      | noticeFetch st => exact (Touches.buildVisit (desk := False) (banks := False) _ l none).sameShown
      | noticeAck st id => exact (Touches.enterRequest (desk := False) (banks := False) _ l).sameShown
      | expire | clearChunk => exact .refl _
    · exact deliver_sameShown (.slot k) 0 q { code, fields := .none } _

/-- A completion of other work than a fetch or an ack leaves what the window shows. -/
theorem completion_sameShown {g : Granted} (hcompletion : Completion s g t) (hfetch : ∀ st, g.work ≠ .noticeFetch st)
    (hack : ∀ st id, g.work ≠ .noticeAck st id) : SameShown s t := by
  have hfree (v : State) : SameShown v { v with running := none } := ⟨rfl, rfl, id⟩
  cases hcompletion with
  | @request st q u hwork hchange n res =>
    have hpool : SameShown u (poolLowTest n { u with running := none }) := by
      rw [poolLowTest_eq]
      exact ⟨rfl, rfl, id⟩
    exact hchange.sameShown.trans (hpool.trans ((deliver_sameShown _ st q res _).trans (look_sameShown _)))
  | @fetch st found hwork => exact absurd hwork (hfetch st)
  | @ack st id hwork => exact absurd hwork (hack st id)
  | expire hwork =>
    exact (hfree s).trans ((expireHead_change (ctx := True) (who := none) _).sameShown.trans (look_sameShown _))
  | @chunk st k hwork =>
    have hcleared (v : State) : SameShown v ((chunkRange k).foldl (clearSlot st) v) :=
      (clearSlots_changes (ctx := True) (who := none) (chunkRange k)).keeps (P := SameShown v)
        (fun _ _ hchange hu => hu.trans hchange.sameShown) (.refl v)
    refine (hfree s).trans (.trans ?_ (look_sameShown _))
    unfold clearChunkOn
    refine (hcleared _).trans ?_
    generalize (chunkRange k).foldl (clearSlot st) { s with running := none } = u
    dsimp only
    split <;> exact ⟨rfl, rfl, id⟩

theorem effectOf_sameShown {c : Instr} (hbus : isBusWrite c = false) (hfetch : c ≠ .noticeFetch) (hack : c ≠ .noticeAck)
    (hreset : isReset c = false) (s : State) : SameShown s (effectOf c s) := by
  obtain hr | ⟨hc, hne⟩ | rfl | hsame | ⟨g, -, hfits, hdone⟩ := effectOf_kinds hbus s
  · rw [hreset] at hr
    cases hr
  · exact (effectOf_touches hc hne s).sameShown
  · exact grant_sameShown s
  · rw [hsame]
    exact .refl s
  · refine completion_sameShown hdone (fun st hw => ?_) fun st id hw => ?_
    · rw [hw] at hfits
      exact hfetch (of_decide_eq_true hfits)
    · rw [hw] at hfits
      exact hack (of_decide_eq_true hfits)

/-- A command of an OP word. -/
theorem opCommand_plain {k : Fin 4} {v : Word} {c : Instr} (h : opCommand k v = some c) :
    isReset c = false ∧ c ≠ .noticeFetch ∧ c ≠ .noticeAck := by
  unfold opCommand at h
  split at h <;> cases h <;> exact ⟨rfl, by simp, by simp⟩

/-- A bus write off PORT_CONTROL is no reset, and no bus write completes a fetch or an ack (R182). -/
theorem placeCommand_plain {p : Place} {v : Word} {c : Instr} (h : placeCommand p v = some c) (hp : p ≠ .portControl) :
    isReset c = false ∧ c ≠ .noticeFetch ∧ c ≠ .noticeAck := by
  cases p
  case portControl => exact absurd rfl hp
  case slotWord k w =>
    cases w
    case op => exact opCommand_plain h
    all_goals cases h; exact ⟨rfl, by simp, by simp⟩
  case noticeControl =>
    simp only [placeCommand] at h
    split at h <;> cases h <;> exact ⟨rfl, by simp, by simp⟩
  case stationCommand =>
    simp only [placeCommand] at h
    split_ifs at h <;> cases h <;> exact ⟨rfl, by simp, by simp⟩
  case linkControl =>
    cases h
    split <;> exact ⟨rfl, by simp, by simp⟩
  case portStatus | recordsInUse | freeCells | clockWord | slotState | slotResult | snapshot | snapshotValue | nothing
      | stationState | stationCount | inflight | lastRequest => cases h
  all_goals cases h; exact ⟨rfl, by simp, by simp⟩

/-- PORT_CONTROL stands at address 0 alone (R182). -/
theorem eq_zero_of_portControl {a : BitVec 9} (h : placeOf a = .portControl) : a = 0 := by
  have hport {n : Nat} (hn : portPlace n = .portControl) : n = 0 := by
    unfold portPlace at hn
    split at hn <;> first | rfl | cases hn
  have hslot (k : Fin 4) (o : Nat) : slotPlace k o ≠ .portControl := by
    unfold slotPlace
    split_ifs <;> simp
  have hnotice (n : Nat) : noticePlace n ≠ .portControl := by
    unfold noticePlace
    split_ifs <;> simp
  have hstation (n : Nat) : stationPlace n ≠ .portControl := by
    unfold stationPlace
    split_ifs <;> simp
  have hsweep (n : Nat) : sweepPlace n ≠ .portControl := by
    unfold sweepPlace
    split_ifs <;> simp
  simp only [placeOf] at h
  split_ifs at h
  · exact BitVec.eq_of_toNat_eq (hport h)
  · exact absurd h (hslot _ _)
  · exact absurd h (hnotice _)
  · exact absurd h (hstation _)
  · exact absurd h (hsweep _)

/-- The words of the snapshot: the snapshot itself, the open words by the count of fills, or nothing (R120, R182). -/
theorem readWord_shown (h : SameShown s t) (hreleased : s.resetHeld = false) {a : BitVec 9} (hlow : 0x101 ≤ a.toNat)
    (hhigh : a.toNat ≤ 0x12F) : t.readWord a = s.readWord a := by
  have hheld : t.resetHeld = false := Bool.eq_false_iff.2 fun ht => Bool.eq_false_iff.1 hreleased (h.held ht)
  have hplace : placeOf a = noticePlace a.toNat := placeOf_notice (by omega) (by omega)
  have hword (i : Fin 8) : snapshotWord t i = snapshotWord s i := by
    funext n
    simp only [snapshotWord, openWindowField, h.fills]
  have hvalue (i : Fin 32) : snapshotValueWord t i = snapshotValueWord s i := by
    funext n
    simp only [snapshotValueWord, openWindowField, h.fills]
  have hread (p : Place) (hp : p = noticePlace a.toNat) : readPlace t p = readPlace s p := by
    rw [noticePlace, if_neg (by omega)] at hp
    split at hp
    · simp only [hp, readPlace, h.snapshot, hword]
    · split at hp
      · simp only [hp, readPlace, h.snapshot, hvalue]
      · rw [hp]
        rfl
  have hreleased' (u : State) (hu : u.resetHeld = false) : u.readWord a = readPlace u (placeOf a) := by
    rw [State.readWord, hu]
    rfl
  rw [hreleased' t hheld, hreleased' s hreleased]
  exact hread _ hplace

/-- Settles O45: a bus write is its command (R181), and every command but those named leaves what the window shows. -/
theorem noticeWindowTakesAndAcks : Obligations.NoticeWindowTakesAndAcks := by
  intro s hreleased
  refine ⟨exec_released hreleased _, exec_released hreleased _, fun c t hstep hfetch hack hfull hrelease hsoft hwrite a => ?_⟩
  refine readWord_shown ?_ hreleased
  rw [exec_released hreleased] at hstep
  obtain rfl := Host.Outcome.next.inj hstep
  have hreset : isReset c = false := by
    cases c
    case fullReset => exact absurd rfl hfull
    case softReset b => exact absurd rfl (hsoft b)
    all_goals rfl
  cases hbus : isBusWrite c with
  | false => exact effectOf_sameShown hbus hfetch hack hreset s
  | true =>
    cases c
    case registerWrite a v =>
      change SameShown s (busWrite a v s)
      obtain hsame | hfault | ⟨c, hcommand, heffect⟩ := busWrite_cases hreleased a v
      · exact hsame.symm ▸ .refl s
      · exact hfault.symm ▸ ⟨rfl, rfl, id⟩
      · have hplain := placeCommand_plain hcommand fun hp => hwrite v (by rw [eq_zero_of_portControl hp])
        obtain ⟨hreset, hfetch, hack⟩ := hplain
        exact heffect.symm ▸ effectOf_sameShown (placeCommand_ne hcommand).2 hfetch hack hreset s
    all_goals cases hbus

end

end Sys2Proof.Machine
end

