-- ==== Sys2Proof/Proofs/Frames.lean ====
section
/-! Frames (O36, O37): the octets that are sent, and the REPLY read back by its table (R147 to R152). -/

namespace Sys2Proof.Machine

open Sys2Proof.Spec

/-! ## The frames sent -/

theorem twoOctets_eq_pair (w : Word) : twoOctets w = pair w := by
  rw [twoOctets, pair, lowByte_eq_setWidth, highByte_eq_setWidth]

theorem frameOctets_eq (address type flags : Byte) (payload : List Byte) :
    frameOctets address type flags payload = 0xC5 :: ([address, type, flags, octetOf payload.length] ++ payload) ++
      pair (crcOf ([address, type, flags, octetOf payload.length] ++ payload)) := by
  rw [frameOctets, twoOctets_eq_pair]
  rfl

theorem ownerOctet_eq (o : Option Station) : ownerOctet o = (o.map fun st => BitVec.ofNat 8 st.val).getD 0xFF := by
  cases o <;> rfl

/-- Settles O36, table by table. -/
theorem framesAreLaidOut : Obligations.FramesAreLaidOut := by
  refine ⟨⟨rfl, rfl, rfl, fun _ => rfl, rfl⟩, ⟨rfl, rfl, rfl⟩, rfl, by decide +kernel, fun v => ?_, fun st t => ?_,
    fun id => ?_, fun id v => ?_, fun code c => ⟨rfl, fun g => ?_, fun i n => ?_, fun n => ?_, fun p k => ?_,
      fun o => rfl, fun rev inc v => ?_⟩⟩
  · unfold visitFrame
    rw [frameOctets_eq]
    cases v.notice <;> rfl
  · exact frameOctets_eq ..
  · simp [snapshotPayload, twoOctets_eq_pair, kindCode]
  · simp [snapshotPayload, twoOctets_eq_pair, kindCode, ownerOctet_eq, flagOctet, octetOf]
  all_goals simp [resultPayload, fieldOctets, twoOctets_eq_pair, ownerOctet_eq, flagOctet, octetOf]

/-! ## The REPLY (R151) -/

section

theorem pair_wordOf (low high : Byte) : pair (wordOf low high) = [low, high] := by
  rw [← twoOctets_eq_pair, twoOctets, lowByte, highByte, wordOf]
  congr 1
  · exact BitVec.extractLsb'_append_eq_right
  · exact congrArg (fun b => [b]) BitVec.extractLsb'_append_eq_left

theorem wordOf_pair (w : Word) : wordOf (w.setWidth 8) ((w >>> 8).setWidth 8) = w := by
  rw [← lowByte_eq_setWidth, ← highByte_eq_setWidth, wordOf, lowByte, highByte]
  exact BitVec.extractLsb'_append_extractLsb'

theorem toNat_wordOf_zero (n : Byte) : (wordOf n 0).toNat = n.toNat := by
  rw [wordOf, BitVec.toNat_append]
  exact Nat.zero_or _

theorem setWidth_wordOf_zero (n : Byte) : (wordOf n 0).setWidth 8 = n := by
  have hn := n.isLt
  refine BitVec.eq_of_toNat_eq ?_
  rw [BitVec.toNat_setWidth, toNat_wordOf_zero, Nat.mod_eq_of_lt hn]

theorem wordOf_setWidth {w : Word} (h : w.toNat < 256) : wordOf (w.setWidth 8) 0 = w := by
  refine BitVec.eq_of_toNat_eq ?_
  rw [toNat_wordOf_zero, BitVec.toNat_setWidth, Nat.mod_eq_of_lt h]

/-- What the table carries after the point number, by operation code. -/
def argumentPart (q : Request) : List Byte :=
  if q.code = 2 then (if q.expect then pair q.arg0 else []) ++ q.arg1.setWidth 8 :: q.data
  else if q.code = 3 then [q.arg0.setWidth 8, q.arg1.setWidth 8] ++ pair q.arg2 ++ pair q.arg3
  else if q.code = 5 ∨ q.code = 9 then pair q.arg0
  else []

/-- What a request holds beside its code and its point, by operation code. -/
def Carries (q : Request) : Prop :=
  q.force = false ∧
  if q.code = 2 then
    q.data.length = q.arg1.toNat ∧ q.arg1.toNat < 256 ∧ (q.expect = true ∨ q.arg0 = 0) ∧ q.arg2 = 0 ∧ q.arg3 = 0
  else if q.code = 3 then q.expect = false ∧ q.arg0.toNat < 256 ∧ q.arg1.toNat < 256 ∧ q.data = []
  else if q.code = 5 ∨ q.code = 9 then q.expect = false ∧ q.arg1 = 0 ∧ q.arg2 = 0 ∧ q.arg3 = 0 ∧ q.data = []
  else q.expect = false ∧ q.arg0 = 0 ∧ q.arg1 = 0 ∧ q.arg2 = 0 ∧ q.arg3 = 0 ∧ q.data = []

theorem requestPart_eq (q : Request) : requestPart q = q.code :: (pair q.point ++ argumentPart q) := by
  have h2 : q.code = 2 ↔ q.code.toNat = 2 := BitVec.toNat_eq
  have h3 : q.code = 3 ↔ q.code.toNat = 3 := BitVec.toNat_eq
  have h5 : q.code = 5 ↔ q.code.toNat = 5 := BitVec.toNat_eq
  have h9 : q.code = 9 ↔ q.code.toNat = 9 := BitVec.toNat_eq
  simp only [requestPart, argumentPart, h2, h3, h5, h9]
  split <;> simp_all

theorem carried_iff (q : Request) : carried q = true ↔ Carries q := by
  have h2 : q.code = 2 ↔ q.code.toNat = 2 := BitVec.toNat_eq
  have h3 : q.code = 3 ↔ q.code.toNat = 3 := BitVec.toNat_eq
  have h5 : q.code = 5 ↔ q.code.toNat = 5 := BitVec.toNat_eq
  have h9 : q.code = 9 ↔ q.code.toNat = 9 := BitVec.toNat_eq
  simp only [carried, Carries, h2, h3, h5, h9]
  split <;> simp_all

/-- A request parsed from its arguments carries them and nothing else. -/
theorem parseArguments_some {code : Byte} {point : Word} {expect : Bool} {octets : List Byte} {q : Request}
    (h : parseArguments code point expect octets = some q) :
    q.code = code ∧ q.point = point ∧ argumentPart q = octets ∧ Carries q ∧ (q.code = 2 → expect = q.expect) := by
  unfold parseArguments at h
  split_ifs at h with hwrite hcreate hpoint
  · subst hwrite
    split at h
    · next n value =>
      split_ifs at h with hlength
      cases h
      refine ⟨rfl, rfl, ?_, ⟨rfl, ?_⟩, fun _ => rfl⟩
      · simp only [argumentPart, if_true, pair_wordOf, setWidth_wordOf_zero, List.cons_append, List.nil_append]
      · rw [if_pos rfl, toNat_wordOf_zero]
        exact ⟨hlength, n.isLt, .inl rfl, rfl, rfl⟩
    · next n value =>
      split_ifs at h with hlength
      cases h
      refine ⟨rfl, rfl, ?_, ⟨rfl, ?_⟩, fun _ => rfl⟩
      · simp only [argumentPart, if_true, Bool.false_eq_true, if_false, setWidth_wordOf_zero, List.nil_append]
      · rw [if_pos rfl, toNat_wordOf_zero]
        exact ⟨hlength, n.isLt, .inr rfl, rfl, rfl⟩
    · cases h
  · subst hcreate
    split at h
    · next cls length _ _ _ _ =>
      cases h
      refine ⟨rfl, rfl, ?_, ⟨rfl, ?_⟩, fun h => absurd h hwrite⟩
      · simp only [argumentPart, if_neg hwrite, if_true, pair_wordOf, setWidth_wordOf_zero, List.cons_append,
          List.nil_append]
      · rw [if_neg hwrite, if_pos rfl, toNat_wordOf_zero, toNat_wordOf_zero]
        exact ⟨rfl, cls.isLt, length.isLt, rfl⟩
    · cases h
  · split at h
    · cases h
      refine ⟨rfl, rfl, ?_, ⟨rfl, ?_⟩, fun h => absurd h hwrite⟩
      · simp only [argumentPart, if_neg hwrite, if_neg hcreate, if_pos hpoint, pair_wordOf]
      · rw [if_neg hwrite, if_neg hcreate, if_pos hpoint]
        exact ⟨rfl, rfl, rfl, rfl, rfl⟩
    · cases h
  · split at h
    · cases h
      refine ⟨rfl, rfl, ?_, ⟨rfl, ?_⟩, fun h => absurd h hwrite⟩
      · simp only [argumentPart, if_neg hwrite, if_neg hcreate, if_neg hpoint]
      · rw [if_neg hwrite, if_neg hcreate, if_neg hpoint]
        exact ⟨rfl, rfl, rfl, rfl, rfl, rfl⟩
    · cases h

/-- A request is read back from what it carries. -/
theorem parseArguments_argumentPart {q : Request} (h : Carries q) {expect : Bool}
    (hexpect : q.code = 2 → expect = q.expect) :
    parseArguments q.code q.point expect (argumentPart q) = some q := by
  obtain ⟨code, expected, force, point, arg0, arg1, arg2, arg3, data⟩ := q
  obtain ⟨hforce, h⟩ := h
  dsimp only at hforce h hexpect
  subst hforce
  unfold parseArguments argumentPart
  dsimp only
  split_ifs at h ⊢ with hwrite hexpected hcreate hpoint
  · obtain ⟨hlength, hsmall, -, rfl, rfl⟩ := h
    obtain rfl := hexpect hwrite
    have hn : (arg1.setWidth 8).toNat = arg1.toNat := (BitVec.toNat_setWidth ..).trans (Nat.mod_eq_of_lt hsmall)
    subst hexpected
    simp only [pair, List.cons_append, List.nil_append, wordOf_pair, wordOf_setWidth hsmall, hn, hlength, if_true]
  · obtain ⟨hlength, hsmall, harg, rfl, rfl⟩ := h
    obtain rfl := hexpect hwrite
    have hn : (arg1.setWidth 8).toNat = arg1.toNat := (BitVec.toNat_setWidth ..).trans (Nat.mod_eq_of_lt hsmall)
    obtain rfl := harg.resolve_left hexpected
    obtain rfl := Bool.eq_false_iff.2 hexpected
    simp only [List.nil_append, wordOf_setWidth hsmall, hn, hlength, if_true]
  · obtain ⟨rfl, hclass, hlength, rfl⟩ := h
    simp only [pair, List.cons_append, List.nil_append, wordOf_pair, wordOf_setWidth hclass, wordOf_setWidth hlength]
  · obtain ⟨rfl, rfl, rfl, rfl, rfl⟩ := h
    simp only [pair, wordOf_pair]
  · obtain ⟨rfl, rfl, rfl, rfl, rfl, rfl⟩ := h
    rfl

theorem parseRequest_eq_some {expect : Bool} {octets : List Byte} {q : Request} :
    parseRequest expect octets = some q ↔
      octets = requestPart q ∧ carried q = true ∧ (q.code = 2 → expect = q.expect) := by
  rw [requestPart_eq, carried_iff]
  constructor
  · intro h
    unfold parseRequest at h
    split at h
    · obtain ⟨rfl, hpoint, rfl, hcarries, hexpect⟩ := parseArguments_some h
      rw [hpoint, pair_wordOf]
      exact ⟨rfl, hcarries, hexpect⟩
    · cases h
  · rintro ⟨rfl, hcarries, hexpect⟩
    rw [pair, List.cons_append, List.cons_append, List.nil_append, parseRequest, wordOf_pair]
    exact parseArguments_argumentPart hcarries hexpect

theorem parseAck_eq_some {octets rest : List Byte} {id : NoticeId} :
    parseAck octets = some (id, rest) ↔
      octets = pair id.point ++ pair id.incarnation ++ pair id.revision ++ rest := by
  constructor
  · intro h
    unfold parseAck at h
    split at h
    · cases h
      simp only [pair_wordOf, List.cons_append, List.nil_append]
    · cases h
  · rintro rfl
    simp only [pair, List.cons_append, List.nil_append, parseAck, wordOf_pair]

/-- What a REPLY carries after its acknowledgement part. -/
def requestPartOf (r : Reply) : List Byte :=
  match r.request with
  | some q => requestPart q
  | none => []

theorem parseAfterAck_eq_some {ack : Option NoticeId} {flags : Byte} {rest : List Byte} {r : Reply} :
    parseAfterAck ack flags rest = some r ↔
      ack = r.ack ∧ rest = requestPartOf r ∧ flags.getLsbD 1 = r.request.isSome ∧ flags.getLsbD 2 = r.tag ∧
        ∀ q, r.request = some q → carried q = true ∧ (q.code = 2 → flags.getLsbD 3 = q.expect) := by
  obtain ⟨rack, rrequest, rtag⟩ := r
  constructor
  · intro h
    unfold parseAfterAck at h
    split_ifs at h with hreq hrest
    · obtain ⟨q, hq, hr⟩ := Option.map_eq_some_iff.1 h
      cases hr
      obtain ⟨hrest, hcarried, hexpect⟩ := parseRequest_eq_some.1 hq
      exact ⟨rfl, hrest, hreq, rfl, fun q' hq' => Option.some.inj hq' ▸ ⟨hcarried, hexpect⟩⟩
    · cases h
      exact ⟨rfl, hrest, Bool.eq_false_iff.2 hreq, rfl, fun _ hq => nomatch hq⟩
  · rintro ⟨rfl, rfl, hreq, rfl, hparts⟩
    unfold parseAfterAck
    cases rrequest with
    | some q =>
      obtain ⟨hcarried, hexpect⟩ := hparts q rfl
      have hreq : flags.getLsbD 1 = true := hreq
      rw [if_pos hreq, requestPartOf, parseRequest_eq_some.2 ⟨rfl, hcarried, hexpect⟩]
      rfl
    | none =>
      have hreq : flags.getLsbD 1 = false := hreq
      rw [if_neg (Bool.eq_false_iff.1 hreq), requestPartOf, if_pos rfl]

/-- Settles O37: the acknowledgement part, the request part and the arguments, each read back from its layout. -/
theorem repliesAreReadByTheTable : Obligations.RepliesAreReadByTheTable := by
  intro flags payload r
  have hflags : flagsOf r flags = true ∧ r.request.all carried = true ↔
      flags.getLsbD 0 = r.ack.isSome ∧ flags.getLsbD 1 = r.request.isSome ∧ flags.getLsbD 2 = r.tag ∧
        ∀ q, r.request = some q → carried q = true ∧ (q.code = 2 → flags.getLsbD 3 = q.expect) := by
    simp only [flagsOf, decide_eq_true_eq, Option.all_eq_true, or_iff_not_imp_left, not_not]
    constructor
    · rintro ⟨⟨hack, hreq, htag, hexpect⟩, hcarried⟩
      exact ⟨hack, hreq, htag, fun q hq => ⟨hcarried q hq, hexpect q hq⟩⟩
    · rintro ⟨hack, hreq, htag, hparts⟩
      exact ⟨⟨hack, hreq, htag, fun q hq => (hparts q hq).2⟩, fun q hq => (hparts q hq).1⟩
  rw [hflags]
  obtain ⟨ack, request, tag⟩ := r
  cases hflag : flags.getLsbD 0 with
  | false =>
    rw [parseReply, if_neg (Bool.eq_false_iff.1 hflag), parseAfterAck_eq_some]
    cases ack with
    | none => exact ⟨fun ⟨_, hpayload, hrest⟩ => ⟨hpayload, rfl, hrest⟩, fun ⟨hpayload, _, hrest⟩ => ⟨rfl, hpayload, hrest⟩⟩
    | some id => exact ⟨fun ⟨hack, _⟩ => (nomatch hack), fun ⟨_, hack, _⟩ => (nomatch hack)⟩
  | true =>
    rw [parseReply, if_pos hflag]
    cases ack with
    | none =>
      refine ⟨fun h => ?_, fun ⟨_, hack, _⟩ => nomatch hack⟩
      split at h
      · cases (parseAfterAck_eq_some.1 h).1
      · cases h
    | some id =>
      constructor
      · intro h
        split at h
        next id' rest hparse =>
          obtain ⟨hack, hrest, hparts⟩ := parseAfterAck_eq_some.1 h
          cases hack
          rw [parseAck_eq_some.1 hparse, hrest]
          exact ⟨rfl, rfl, hparts⟩
        next => cases h
      · rintro ⟨rfl, -, hparts⟩
        rw [parseAck_eq_some.2 (rfl : replyPart ⟨some id, request, tag⟩ = _ ++ requestPartOf ⟨some id, request, tag⟩)]
        exact parseAfterAck_eq_some.2 ⟨rfl, rfl, hparts⟩

end

end Sys2Proof.Machine
end

