-- ==== Sys2Proof/Proofs/Shows.lean ====
section
/-! What the window shows (O50): each word of each part of the map, read at its place (R181, R182, R186). -/

namespace Sys2Proof.Machine

open Sys2Proof.Spec

/-! ## Words of two octets, of flags and of codes -/

theorem word_eq_iff (v : Word) (n : Nat) : v = word n ↔ v.toNat = n % 65536 := by
  rw [BitVec.toNat_eq, word, BitVec.toNat_ofNat]

theorem packed_eq_octets (low high : Byte) : packed low high = octets low.toNat high.toNat := by
  have hlow := low.isLt
  have hhigh := high.isLt
  rw [octets, word_eq_iff, packed, wordOf, BitVec.toNat_append, ← Nat.shiftLeft_add_eq_or_of_lt hlow, Nat.shiftLeft_eq]
  omega

theorem ownerOctet_toNat (o : Option Station) : (ownerOctet o).toNat = ownerNumber o := by
  cases o with
  | none => rfl
  | some st =>
    have hst := st.isLt
    exact Nat.mod_eq_of_lt (by omega)

theorem flagOctet_toNat (b : Bool) : (flagOctet b).toNat = b.toNat := by
  cases b <;> rfl

theorem bitWord_eq_word (b : Bool) : bitWord b = word b.toNat := by
  cases b <;> rfl

theorem setLowWord_eq (set : StationSet) : setLowWord set = lowStations set := by
  simp [setLowWord, lowStations, BitVec.setWidth_eq_extractLsb']

theorem setHighWord_eq (set : StationSet) : setHighWord set = highStations set := by
  ext i hi
  simp [setHighWord, highStations]

/-! ## The port and the slots -/

/-- PORT_STATUS and ATTN_CAUSE apart, the words below the slots. -/
theorem readPlace_portPlace {n : Nat} (h1 : n ≠ 0x001) (h2 : n ≠ 0x002) (s : State) :
    readPlace s (portPlace n) = portShown s n := by
  unfold portPlace
  split
  case h_2 => exact absurd rfl h1
  case h_3 => exact absurd rfl h2
  case h_5 => exact setLowWord_eq _
  case h_6 => exact setHighWord_eq _
  case h_11 => exact lowHalf_eq _
  case h_12 => exact highHalf_eq _
  case h_13 =>
    unfold portShown
    split <;> first | rfl | exact absurd rfl ‹_›
  all_goals rfl

theorem resultWord_eq (f : ResultFields) (i : Fin 7) : resultWord i f = resultShown (i.val + 9) f := by
  cases f with
  | none => fin_cases i <;> rfl
  | read revision incarnation v =>
    have hcodes := packed_eq_octets (classCode v.cls) (qualityCode v.quality)
    have howner := packed_eq_octets (ownerOctet v.owner) (flagOctet v.pinned)
    rw [ownerOctet_toNat, flagOctet_toNat] at howner
    fin_cases i
    · exact hcodes
    · rfl
    · rfl
    · rfl
    · exact howner
    · rfl
    · rfl
  | generation g => fin_cases i <;> rfl
  | created incarnation lease => fin_cases i <;> rfl
  | lease granted => fin_cases i <;> rfl
  | next point cls =>
    have hclass := packed_eq_octets (classCode cls) 0
    fin_cases i
    · exact hclass
    all_goals rfl
  | owner st =>
    have hstation : packed (stationOctet st) 0 = octets st.val 0 :=
      (packed_eq_octets _ 0).trans (congrArg (octets · 0) (ownerOctet_toNat (some st)))
    fin_cases i
    · rfl
    · rfl
    · rfl
    · rfl
    · exact hstation
    · rfl
    · rfl

/-- The result words of a block from 09h to 0Fh are its result fields; 06h and 07h are no register. -/
theorem resultShown_free {o : Nat} (ho : o < 9 ∨ 15 < o) (f : ResultFields) : resultShown o f = 0 := by
  unfold resultShown
  split <;> first | rfl | omega

theorem slotParameter_op (x : Slot) :
    slotParameter x .op = word (x.code.toNat + 256 * x.expect.toNat + 512 * x.force.toNat) := by
  have hflags : (flagOctet x.expect ||| (if x.force then 2 else 0)).toNat = x.expect.toNat + 2 * x.force.toNat := by
    cases x.expect <;> cases x.force <;> rfl
  rw [slotParameter, packed_eq_octets, hflags, octets]
  congr 1
  omega

theorem readPlace_slotPlace {o : Nat} (ho : o < 0x30) (k : Fin 4) (s : State) :
    readPlace s (slotPlace k o) = slotShown s.slots[k] o := by
  unfold slotPlace
  split_ifs with h0 h1 harg h8 hresult hdata
  · rw [h0]
    exact slotParameter_op _
  · rw [h1]
    rfl
  · rw [slotShown, if_neg h0, if_neg h1, dif_pos (by omega)]
    rfl
  · rw [h8]
    exact (packed_eq_octets _ _).trans (by rw [slotShown]; cases (s.slots[k]).state <;> rfl)
  · rw [slotShown, if_neg h0, if_neg h1, dif_neg (by omega), if_neg h8, dif_neg (by omega)]
    exact (resultWord_eq _ _).trans (congrArg (resultShown · _) (by simp only; omega))
  · rw [slotShown, if_neg h0, if_neg h1, dif_neg (by omega), if_neg h8, dif_pos (by omega)]
    rfl
  · rw [slotShown, if_neg h0, if_neg h1, dif_neg (by omega), if_neg h8, dif_neg (by omega), resultShown_free (by omega)]
    rfl

/-! ## The notice window -/

theorem readPlace_noticeControl (s : State) :
    readPlace s .noticeControl = word (s.window.snapshot.isSome.toNat + 2 * s.window.busy.toNat) := by
  simp only [readPlace]
  cases s.window.snapshot.isSome <;> cases s.window.busy <;> rfl

theorem snapshotWord_shown {n : Snapshot} {i : Fin 8} {w : Word} (hshown : noticeShown n (0x101 + i.val) = some w)
    (s : State) : snapshotWord s i n = w := by
  obtain ⟨id, body⟩ := n
  cases body with
  | state v =>
    have hcodes := packed_eq_octets 1 (classCode v.cls)
    have hquality := packed_eq_octets (qualityCode v.quality) (flagOctet v.pinned)
    have howner := packed_eq_octets (ownerOctet v.owner) 0
    rw [flagOctet_toNat] at hquality
    rw [ownerOctet_toNat] at howner
    fin_cases i <;> cases hshown
    · rfl
    · rfl
    · rfl
    · exact hcodes
    · exact hquality
    · rfl
    · exact howner
    · rfl
  | retired => fin_cases i <;> cases hshown <;> rfl

theorem snapshotValueWord_shown {n : Snapshot} {i : Fin 32} {w : Word}
    (hshown : noticeShown n (0x110 + i.val) = some w) (s : State) : snapshotValueWord s i n = w := by
  obtain ⟨id, body⟩ := n
  unfold noticeShown at hshown
  split at hshown
  case h_10 v _ hbody _ _ _ _ _ _ _ _ =>
    cases hbody
    rw [Nat.add_sub_cancel_left] at hshown
    split at hshown
    next low high hlow hhigh =>
      cases hshown
      unfold snapshotValueWord
      dsimp only
      rw [packed_eq_octets, List.getD_eq_getElem?_getD, List.getD_eq_getElem?_getD, hlow, hhigh]
      rfl
    next => cases hshown
  case h_9 => cases hshown
  all_goals omega

theorem readPlace_noticePlace {n : Nat} (hn : (0x101 ≤ n ∧ n ≤ 0x108) ∨ (0x110 ≤ n ∧ n ≤ 0x12F)) {s : State} {w : Word}
    (hempty : s.window.snapshot = none → w = 0)
    (hshown : ∀ x, s.window.snapshot = some x → noticeShown x n = some w) : readPlace s (noticePlace n) = w := by
  unfold noticePlace
  rw [if_neg (by omega)]
  obtain hlow | hhigh := hn
  · rw [dif_pos (by omega)]
    simp only [readPlace]
    cases hsnapshot : s.window.snapshot with
    | none => exact (hempty hsnapshot).symm
    | some x =>
      have hsum : 0x101 + (n - 0x101) = n := by omega
      rw [Option.map_some, Option.getD_some]
      exact snapshotWord_shown (i := ⟨n - 0x101, by omega⟩) ((congrArg (noticeShown x) hsum).trans (hshown x hsnapshot)) s
  · rw [dif_neg (by omega), dif_pos (by omega)]
    simp only [readPlace]
    cases hsnapshot : s.window.snapshot with
    | none => exact (hempty hsnapshot).symm
    | some x =>
      have hsum : 0x110 + (n - 0x110) = n := by omega
      rw [Option.map_some, Option.getD_some]
      exact snapshotValueWord_shown (i := ⟨n - 0x110, by omega⟩)
        ((congrArg (noticeShown x) hsum).trans (hshown x hsnapshot)) s

/-! ## The station window -/

theorem stationState_shown (e : StationEntry) :
    packed (stationStateCode e.state) (flagOctet e.barredMark ||| (if e.freshOwed then 2 else 0)) =
      octets (stationStateCode e.state).toNat (e.barredMark.toNat + 2 * e.freshOwed.toNat) := by
  have hflags : (flagOctet e.barredMark ||| (if e.freshOwed then 2 else 0)).toNat =
      e.barredMark.toNat + 2 * e.freshOwed.toNat := by
    cases e.barredMark <;> cases e.freshOwed <;> rfl
  rw [packed_eq_octets, hflags]

theorem lastRequestWord_shown {s : State} {t : TaggedPayload} (h : (s.station s.stationSelect).last = some t) :
    lastRequestWord s = octets (1 + 2 * t.tag.toNat) t.payload.length := by
  have htag : ((1 : Byte) ||| (if t.tag then 2 else 0)).toNat = 1 + 2 * t.tag.toNat := by
    cases t.tag <;> rfl
  have hlength : (octetOf t.payload.length).toNat = t.payload.length % 256 := BitVec.toNat_ofNat ..
  unfold lastRequestWord
  rw [h]
  dsimp only
  rw [packed_eq_octets, htag, hlength, octets, octets, word_eq_iff, word, BitVec.toNat_ofNat]
  omega

theorem lastRequestWord_of_none {s : State} (h : (s.station s.stationSelect).last = none) :
    lastRequestWord s = 0 ∨ lastRequestWord s = 2 := by
  have hbit (w : Word) : w &&& 2 = 0 ∨ w &&& 2 = 2 := by
    have hand : (w &&& 2).toNat = (w.toNat.testBit 1).toNat * 2 ^ 1 := Nat.and_two_pow w.toNat 1
    cases hw : w.toNat.testBit 1 with
    | false => exact .inl (BitVec.eq_of_toNat_eq (hand.trans (by rw [hw]; rfl)))
    | true => exact .inr (BitVec.eq_of_toNat_eq (hand.trans (by rw [hw]; rfl)))
  unfold lastRequestWord
  rw [h]
  exact hbit _

theorem inflightWord_shown {s : State} {id : NoticeId} (h : (s.station s.stationSelect).inflight = some id) :
    inflightWord s 1 = id.point ∧ inflightWord s 2 = id.incarnation ∧ inflightWord s 3 = id.revision := by
  unfold inflightWord
  rw [h]
  exact ⟨rfl, rfl, rfl⟩

theorem readPlace_stationPlace {n : Nat} (h1 : 0x141 ≤ n) (h2 : n ≤ 0x152) {s : State} {w : Word}
    (hshown : stationShown (s.station s.stationSelect) n = some w) : readPlace s (stationPlace n) = w := by
  unfold stationShown at hshown
  split at hshown
  case h_1 =>
    cases hshown
    refine (stationState_shown _).trans (congrArg (octets · _) ?_)
    cases (s.station s.stationSelect).state <;> rfl
  case h_2 =>
    cases hshown
    change readPlace s .assignment = _
    simp only [readPlace]
    split
    next h => rw [h]
    next l h =>
      rw [h]
      cases l <;> rfl
  case h_8 =>
    cases hshown
    change inflightWord s 0 = _
    unfold inflightWord
    cases (s.station s.stationSelect).inflight <;> rfl
  case h_9 =>
    obtain ⟨id, hid, rfl⟩ := Option.map_eq_some_iff.1 hshown
    exact (inflightWord_shown hid).1
  case h_10 =>
    obtain ⟨id, hid, rfl⟩ := Option.map_eq_some_iff.1 hshown
    exact (inflightWord_shown hid).2.1
  case h_11 =>
    obtain ⟨id, hid, rfl⟩ := Option.map_eq_some_iff.1 hshown
    exact (inflightWord_shown hid).2.2
  case h_12 =>
    obtain ⟨t, ht, rfl⟩ := Option.map_eq_some_iff.1 hshown
    exact lastRequestWord_shown ht
  case h_18 =>
    cases hshown
    obtain rfl : n = 0x143 := by simp only [imp_false] at *; omega
    rfl
  all_goals
    cases hshown
    rfl

/-! ## The fence and sweep windows -/

theorem readPlace_fence {n : Nat} (h1 : 0x161 ≤ n) (h2 : n ≤ 0x167) (s : State) :
    readPlace s (sweepPlace n) = fenceShown s.fences[s.fenceSelect] n := by
  unfold fenceShown
  split
  case h_1 => exact bitWord_eq_word _
  case h_4 | h_6 => exact setLowWord_eq _
  case h_5 | h_7 => exact setHighWord_eq _
  case h_8 => simp only [imp_false] at *; omega
  all_goals rfl

theorem linkControlWord_shown (e : LinkEngine) :
    linkControlWord e = word ((linkStateCode e.state).toNat + 4 * e.switchRequest.toNat + 8 * e.activeBank.val) := by
  unfold linkControlWord
  generalize e.activeBank = b
  cases e.state <;> cases e.switchRequest <;> revert b <;> decide

theorem readPlace_sweep {n : Nat} (h1 : 0x173 ≤ n) (h2 : n ≤ 0x18A) (s : State) :
    readPlace s (sweepPlace n) = sweepShown s n := by
  unfold sweepShown
  split
  case h_2 =>
    refine (linkControlWord_shown _).trans ?_
    dsimp only
    cases (s.link s.linkSelect).state <;> rfl
  case h_16 =>
    unfold counterShown
    split
    case h_10 => simp only [imp_false] at *; omega
    all_goals exact lowHalf_eq _
  all_goals rfl

/-! ## The whole window -/

theorem stationPlace_free {n : Nat} (h : 0x152 < n) : stationPlace n = .nothing := by
  unfold stationPlace
  split_ifs <;> first | rfl | omega

theorem noticePlace_free {n : Nat} (h0 : n ≠ 0x100) (h1 : ¬ (0x101 ≤ n ∧ n ≤ 0x108)) (h2 : ¬ (0x110 ≤ n ∧ n ≤ 0x12F)) :
    noticePlace n = .nothing := by
  unfold noticePlace
  split_ifs <;> first | rfl | omega

theorem sweepPlace_free {n : Nat} (h1 : ¬ (0x160 ≤ n ∧ n ≤ 0x167)) (h2 : ¬ (0x170 ≤ n ∧ n ≤ 0x18A)) :
    sweepPlace n = .nothing := by
  unfold sweepPlace
  split_ifs <;> first | rfl | omega

theorem shown_port {n : Nat} (h : n < 0x040) (h1 : n ≠ 0x001) (h2 : n ≠ 0x002) (s : State) :
    shown s n = some (portShown s n) := by
  rw [shown, if_neg (by omega), if_pos h]

theorem readPlace_shown_slot {a : BitVec 9} (h1 : 0x040 ≤ a.toNat) (h2 : a.toNat < 0x100) {s : State} {w : Word}
    (h : shown s a.toNat = some w) : readPlace s (placeOf a) = w := by
  rw [shown, if_neg (by omega), if_neg (by omega)] at h
  by_cases h0 : a.toNat < 0x070
  · rw [if_pos h0] at h
    rw [placeOf_slot (k := 0) (o := a.toNat - 0x040) (by omega) (by omega), readPlace_slotPlace (by omega)]
    exact Option.some.inj h
  rw [if_neg h0] at h
  by_cases h1 : a.toNat < 0x0A0
  · rw [if_pos h1] at h
    rw [placeOf_slot (k := 1) (o := a.toNat - 0x070) (by omega) (by omega), readPlace_slotPlace (by omega)]
    exact Option.some.inj h
  rw [if_neg h1] at h
  by_cases h2 : a.toNat < 0x0D0
  · rw [if_pos h2] at h
    rw [placeOf_slot (k := 2) (o := a.toNat - 0x0A0) (by omega) (by omega), readPlace_slotPlace (by omega)]
    exact Option.some.inj h
  · rw [if_neg h2, if_pos (by omega)] at h
    rw [placeOf_slot (k := 3) (o := a.toNat - 0x0D0) (by omega) (by omega), readPlace_slotPlace (by omega)]
    exact Option.some.inj h

theorem readPlace_shown_notice {n : Nat} (h1 : 0x100 ≤ n) (h2 : n < 0x140) {s : State} {w : Word}
    (h : shown s n = some w) : readPlace s (noticePlace n) = w := by
  rw [shown, if_neg (by omega), if_neg (by omega), if_neg (by omega), if_neg (by omega), if_neg (by omega),
    if_neg (by omega)] at h
  by_cases hcontrol : n = 0x100
  · rw [if_pos hcontrol] at h
    rw [hcontrol, ← Option.some.inj h]
    exact readPlace_noticeControl s
  rw [if_neg hcontrol] at h
  by_cases hnotice : (0x101 ≤ n ∧ n ≤ 0x108) ∨ (0x110 ≤ n ∧ n ≤ 0x12F)
  · rw [if_pos hnotice] at h
    refine readPlace_noticePlace hnotice (fun hnone => ?_) fun x hx => ?_
    · rw [hnone] at h
      exact (Option.some.inj h).symm
    · rwa [hx] at h
  · rw [if_neg hnotice, if_neg (by omega), if_neg (by omega), if_neg (by omega), if_neg (by omega), if_neg (by omega),
      if_neg (by omega), if_neg (by omega), if_neg (by omega)] at h
    rw [noticePlace_free hcontrol (by omega) (by omega)]
    exact Option.some.inj h

theorem readPlace_shown_station {n : Nat} (h1 : 0x140 ≤ n) (h2 : n < 0x160) {s : State} {w : Word}
    (h : shown s n = some w) : readPlace s (stationPlace n) = w := by
  rw [shown, if_neg (by omega), if_neg (by omega), if_neg (by omega), if_neg (by omega), if_neg (by omega),
    if_neg (by omega), if_neg (by omega), if_neg (by omega)] at h
  by_cases hselect : n = 0x140
  · rw [if_pos hselect] at h
    rw [hselect]
    exact Option.some.inj h
  rw [if_neg hselect] at h
  by_cases hstation : n ≤ 0x152
  · rw [if_pos (by omega)] at h
    exact readPlace_stationPlace (by omega) hstation h
  · rw [if_neg (by omega), if_neg (by omega), if_neg (by omega), if_neg (by omega), if_neg (by omega), if_neg (by omega),
      if_neg (by omega)] at h
    rw [stationPlace_free (by omega)]
    exact Option.some.inj h

theorem readPlace_shown_sweep {n : Nat} (h1 : 0x160 ≤ n) {s : State} {w : Word}
    (h : shown s n = some w) : readPlace s (sweepPlace n) = w := by
  rw [shown, if_neg (by omega), if_neg (by omega), if_neg (by omega), if_neg (by omega), if_neg (by omega),
    if_neg (by omega), if_neg (by omega), if_neg (by omega), if_neg (by omega), if_neg (by omega)] at h
  by_cases hfence : n = 0x160
  · rw [if_pos hfence] at h
    rw [hfence]
    exact Option.some.inj h
  rw [if_neg hfence] at h
  by_cases hfences : n ≤ 0x167
  · rw [if_pos (by omega)] at h
    exact (readPlace_fence (by omega) hfences s).trans (Option.some.inj h)
  rw [if_neg (by omega)] at h
  by_cases hlink : n = 0x170
  · rw [if_pos hlink] at h
    rw [hlink, ← Option.some.inj h]
    change wordOfNat (linkNumber s.linkSelect) = _
    cases s.linkSelect <;> rfl
  rw [if_neg hlink] at h
  by_cases hbank : n = 0x171
  · rw [if_pos hbank] at h
    rw [hbank]
    exact Option.some.inj h
  rw [if_neg hbank] at h
  by_cases hentry : n = 0x172
  · rw [if_pos hentry] at h
    rw [hentry]
    exact Option.some.inj h
  rw [if_neg hentry] at h
  by_cases hsweep : 0x173 ≤ n ∧ n ≤ 0x18A
  · rw [if_pos hsweep] at h
    exact (readPlace_sweep hsweep.1 hsweep.2 s).trans (Option.some.inj h)
  · rw [if_neg hsweep] at h
    rw [sweepPlace_free (by omega) (by omega)]
    exact Option.some.inj h

theorem shown_some_ne {s : State} {n : Nat} {w : Word} (h : shown s n = some w) : n ≠ 0x001 ∧ n ≠ 0x002 := by
  refine not_or.1 fun hopen => ?_
  rw [shown, if_pos hopen] at h
  cases h

/-- What a word shows, where the manual states it, is what stands at its place. -/
theorem readPlace_shown {s : State} {a : BitVec 9} {w : Word} (h : shown s a.toNat = some w) :
    readPlace s (placeOf a) = w := by
  obtain ⟨h1, h2⟩ := shown_some_ne h
  by_cases hport : a.toNat < 0x040
  · rw [shown_port hport h1 h2] at h
    rw [placeOf_port hport, readPlace_portPlace h1 h2]
    exact Option.some.inj h
  by_cases hslot : a.toNat < 0x100
  · exact readPlace_shown_slot (by omega) hslot h
  by_cases hnotice : a.toNat < 0x140
  · rw [placeOf_notice (by omega) hnotice]
    exact readPlace_shown_notice (by omega) hnotice h
  by_cases hstation : a.toNat < 0x160
  · rw [placeOf_station (by omega) hstation]
    exact readPlace_shown_station (by omega) hstation h
  · rw [placeOf_sweep (by omega)]
    exact readPlace_shown_sweep (by omega) h

theorem portStatusWord_shown {s : State} (h : s.submission.length ≤ 4) :
    portStatusWord s = word (s.submission.length + 16 * s.window.busy.toNat + 32 * s.running.isSome.toNat) := by
  unfold portStatusWord
  generalize s.submission.length = n at h ⊢
  cases s.window.busy <;> cases s.running.isSome <;> interval_cases n <;> rfl

theorem lowOctet_packed (low high : Byte) : (packed low high).setWidth 8 = low := by
  rw [← lowByte_eq_setWidth]
  exact BitVec.extractLsb'_append_eq_right

theorem packed_zero_shift (low : Byte) : packed low 0 >>> 8 = 0 := by
  have hlow := low.isLt
  refine BitVec.eq_of_toNat_eq ?_
  rw [BitVec.toNat_ushiftRight, packed, toNat_wordOf_zero, Nat.shiftRight_eq_div_pow]
  exact Nat.div_eq_of_lt hlow

/-- Settles O50, part of the map by part of the map. -/
theorem windowReadsShowTheState : Obligations.WindowReadsShowTheState := by
  intro s hreleased
  have hread (a : BitVec 9) : s.readWord a = readPlace s (placeOf a) := by
    rw [State.readWord, hreleased]
    rfl
  simp only [hread]
  refine ⟨fun a w h => readPlace_shown h, portStatusWord_shown, fun i => getLsbD_attnCause s i, fun id hid => ?_,
    fun id v k hv hodd => ?_, lastRequestWord_of_none⟩
  · change (((s.window.snapshot).map (snapshotWord s 3)).getD 0).setWidth 8 = _ ∧
      ((s.window.snapshot).map (snapshotWord s 6)).getD 0 >>> 8 = _
    rw [hid]
    exact ⟨lowOctet_packed _ _, packed_zero_shift _⟩
  · have hk := k.isLt
    have haddress : (0x110 + BitVec.ofNat 9 k.val).toNat = 0x110 + k.val := by
      have hbase : (0x110 : BitVec 9).toNat = 0x110 := rfl
      rw [BitVec.toNat_add, BitVec.toNat_ofNat, hbase]
      omega
    have hindex : (⟨0x110 + k.val - 0x110, by omega⟩ : Fin 32) = k := Fin.ext (Nat.add_sub_cancel_left ..)
    rw [placeOf_notice (by omega) (by omega), haddress, noticePlace, if_neg (by omega), dif_neg (by omega),
      dif_pos (by omega), hindex]
    simp only [readPlace, hv, Option.map_some, Option.getD_some]
    unfold snapshotValueWord
    dsimp only
    rw [lowOctet_packed, List.getD_eq_getElem?_getD, List.getD_eq_getElem?_getD, List.getElem?_eq_getElem (by omega)]
    rfl

end Sys2Proof.Machine
end

