-- ==== Sys2Proof/Proofs/Queue.lean ====
section
/-! The queue (O3): no command looks at the queue or changes it. Each operation of the model commutes with putting
another queue in the state. -/

namespace Sys2Proof.Machine

open Sys2Proof.Spec

/-- The state with another queue. -/
def State.requeue (s : State) (q : List Instr) : State := { s with pending := q }

section
variable (s : State) (q : List Instr)

theorem ite_requeue {q : List Instr} {c : Prop} [Decidable c] {a a' b b' : State} (ha : a' = a.requeue q)
    (hb : b' = b.requeue q) : (if c then a' else b') = (if c then a else b).requeue q := by
  rw [ha, hb]
  exact (apply_ite (fun x : State => x.requeue q) c a b).symm

/-! ## What is read, and the shared operations -/

@[simp] theorem link_requeue (l : Link) : (s.requeue q).link l = s.link l := by
  cases l <;> rfl

@[simp] theorem station_requeue (st : Station) : (s.requeue q).station st = s.station st := rfl

@[simp] theorem running_requeue : (s.requeue q).running = s.running := rfl

@[simp] theorem pointer_requeue : (s.requeue q).pointer = s.pointer := rfl

@[simp] theorem index_requeue : (s.requeue q).index = s.index := rfl

@[simp] theorem freeCells_requeue : (s.requeue q).freeCells = s.freeCells := rfl

@[simp] theorem setCause_requeue (c : Cause) : setCause c (s.requeue q) = (setCause c s).requeue q := rfl

@[simp] theorem portFault_requeue : portFault (s.requeue q) = (portFault s).requeue q := rfl

@[simp] theorem poolLowTest_requeue (n : Nat) : poolLowTest n (s.requeue q) = (poolLowTest n s).requeue q :=
  ite_requeue rfl rfl

@[simp] theorem modStation_requeue (st : Station) (f : StationEntry → StationEntry) :
    (s.requeue q).modStation st f = (s.modStation st f).requeue q := rfl

@[simp] theorem modLink_requeue (l : Link) (f : LinkEngine → LinkEngine) :
    (s.requeue q).modLink l f = (s.modLink l f).requeue q := by
  cases l <;> rfl

@[simp] theorem modCounters_requeue (l : Link) (f : LinkCounters → LinkCounters) :
    (s.requeue q).modCounters l f = (s.modCounters l f).requeue q := modLink_requeue s q l _

@[simp] theorem modVisit_requeue (l : Link) (f : Visit → Visit) :
    (s.requeue q).modVisit l f = (s.modVisit l f).requeue q := modLink_requeue s q l _

@[simp] theorem modSlot_requeue (k : Fin 4) (f : Slot → Slot) :
    (s.requeue q).modSlot k f = (s.modSlot k f).requeue q := rfl

@[simp] theorem monitorLook_requeue : monitorLook (s.requeue q) = (monitorLook s).requeue q := ite_requeue rfl rfl

/-! ## Records and deadlines -/

@[simp] theorem putRecord_requeue (old new : Record) :
    (s.requeue q).putRecord old new = (s.putRecord old new).requeue q := rfl

@[simp] theorem freeRecord_requeue (old : Record) : (s.requeue q).freeRecord old = (s.freeRecord old).requeue q := rfl

@[simp] theorem putOrFree_requeue (old new : Record) :
    (s.requeue q).putOrFree old new = (s.putOrFree old new).requeue q := ite_requeue rfl rfl

@[simp] theorem dropDeadline_requeue (r : Record) (k : DeadlineKind) :
    (s.requeue q).dropDeadline r k = (s.dropDeadline r k).requeue q := rfl

@[simp] theorem requeue_rearm (r : Record) (k : DeadlineKind) (due : LongWord) :
    (s.requeue q).rearm r k due = (s.rearm r k due).requeue q := rfl

/-! ## Stations, banks and visits -/

@[simp] theorem changeState_requeue (st : Station) (new : StationState) :
    (s.requeue q).changeState st new = (s.changeState st new).requeue q := rfl

@[simp] theorem leave_requeue (st : Station) : (s.requeue q).leave st = (s.leave st).requeue q := rfl

@[simp] theorem onlineStations_requeue (l : Link) (p : Station → Bool) :
    onlineStations (s.requeue q) l p = onlineStations s l p := rfl

@[simp] theorem leaveAll_requeue (sts : List Station) : (s.requeue q).leaveAll sts = (s.leaveAll sts).requeue q := by
  induction sts generalizing s with
  | nil => rfl
  | cons st sts ih =>
    change ((s.requeue q).leave st).leaveAll sts = ((s.leave st).leaveAll sts).requeue q
    rw [leave_requeue, ih]

@[simp] theorem takeSwitch_requeue (l : Link) : (s.requeue q).takeSwitch l = (s.takeSwitch l).requeue q := by
  simp [State.takeSwitch]

@[simp] theorem wrap_requeue (l : Link) : (s.requeue q).wrap l = (s.wrap l).requeue q := by
  simp only [State.wrap, modLink_requeue, takeSwitch_requeue, link_requeue]
  exact ite_requeue rfl rfl

@[simp] theorem advance_requeue (l : Link) : (s.requeue q).advance l = (s.advance l).requeue q := by
  unfold State.advance
  rw [modLink_requeue, wrap_requeue, link_requeue]
  exact ite_requeue rfl rfl

@[simp] theorem completeStop_requeue (l : Link) : (s.requeue q).completeStop l = (s.completeStop l).requeue q := by
  simp only [State.completeStop, modLink_requeue, onlineStations_requeue, leaveAll_requeue, setCause_requeue,
    takeSwitch_requeue, link_requeue]
  exact ite_requeue rfl rfl

@[simp] theorem endVisit_requeue (l : Link) : (s.requeue q).endVisit l = (s.endVisit l).requeue q := by
  simp only [State.endVisit, modLink_requeue, completeStop_requeue, advance_requeue, link_requeue]
  exact ite_requeue rfl rfl

@[simp] theorem buildVisit_requeue (l : Link) (n : Option Snapshot) :
    (s.requeue q).buildVisit l n = (s.buildVisit l n).requeue q := modVisit_requeue s q l _

@[simp] theorem enterRequest_requeue (l : Link) : (s.requeue q).enterRequest l = (s.enterRequest l).requeue q := by
  simp only [State.enterRequest, link_requeue, station_requeue, modVisit_requeue, modCounters_requeue, modStation_requeue,
    endVisit_requeue]
  cases (s.link l).visit with
  | none => rfl
  | some v =>
    dsimp only
    cases v.reply with
    | none => rfl
    | some reply =>
      dsimp only
      cases reply.request with
      | none => rfl
      | some r =>
        dsimp only
        cases repeatOf (s.station v.station) l reply.tag <;> rfl

/-! ## Delivery and grant -/

@[simp] theorem deliver_requeue (o : Origin) (st : Station) (r : Request) (res : Result) :
    deliver o st r res (s.requeue q) = (deliver o st r res s).requeue q := by
  cases o with
  | link l => simp [deliver, completeLinkRequest]
  | slot | window | deadline | clear => rfl

@[simp] theorem deliverFetch_requeue (o : Origin) (found : Option Snapshot) :
    deliverFetch o found (s.requeue q) = (deliverFetch o found s).requeue q := by
  cases o with
  | link l => exact buildVisit_requeue s q l found
  | slot | window | deadline | clear => rfl

@[simp] theorem deliverAck_requeue (o : Origin) : deliverAck o (s.requeue q) = (deliverAck o s).requeue q := by
  cases o with
  | link l => exact enterRequest_requeue s q l
  | slot | window | deadline | clear => rfl

@[simp] theorem refuseAtGrant_requeue (o : Origin) (w : Work) (code : ResultCode) :
    refuseAtGrant o w code (s.requeue q) = (refuseAtGrant o w code s).requeue q := by
  cases w with
  | request st r => exact deliver_requeue s q o st r _
  | noticeFetch st => exact deliverFetch_requeue s q o none
  | noticeAck st id => exact deliverAck_requeue s q o
  | expire | clearChunk => rfl

@[simp] theorem leaveRequester_requeue (o : Origin) : leaveRequester o (s.requeue q) = (leaveRequester o s).requeue q := by
  cases o <;> rfl

@[simp] theorem presented_requeue (r : Requester) : presented (s.requeue q) r = presented s r := by
  cases r <;> rfl

@[simp] theorem firstWaiting_requeue (n : Nat) (r : Requester) : firstWaiting (s.requeue q) n r = firstWaiting s n r := by
  induction n generalizing r with
  | zero => rfl
  | succ n ih => simp only [firstWaiting, presented_requeue, ih]

@[simp] theorem grantRefusal_requeue (o : Origin) (w : Work) : grantRefusal (s.requeue q) o w = grantRefusal s o w := rfl

theorem grantEffect_requeue : grantEffect (s.requeue q) = (grantEffect s).requeue q := by
  unfold grantEffect
  refine ite_requeue rfl ?_
  rw [firstWaiting_requeue, pointer_requeue]
  cases firstWaiting s 5 s.pointer with
  | none => rfl
  | some x =>
    obtain ⟨r, o, w⟩ := x
    dsimp only
    have hleft : leaveRequester o { s.requeue q with pointer := nextRequester r } =
        (leaveRequester o { s with pointer := nextRequester r }).requeue q :=
      leaveRequester_requeue { s with pointer := nextRequester r } q o
    rw [hleft, grantRefusal_requeue]
    cases grantRefusal s o w with
    | none => rfl
    | some code =>
      dsimp only
      rw [refuseAtGrant_requeue, monitorLook_requeue]

/-! ## The operations -/

/-- An answer of an operation with another queue in its state. -/
def requeued (q : List Instr) (out : Result × State) : Result × State := (out.1, out.2.requeue q)

theorem checked_requeue {α : Type} {checks : Except Result α} {effects effects' : α → Result × State}
    (h : ∀ x, effects' x = requeued q (effects x)) :
    checked checks effects' (s.requeue q) = requeued q (checked checks effects s) := by
  cases checks with
  | error res => rfl
  | ok x => exact h x

section
variable (g : Granted) (st : Station) (r : Request)

theorem opRead_requeue : opRead g st r (s.requeue q) = requeued q (opRead g st r s) := by
  exact checked_requeue s q (checks := readChecks g st r s) fun _ => rfl

theorem rearmFreshness_requeue (now : LongWord) (x : Record) (a : Active) :
    rearmFreshness now x a (s.requeue q) = (rearmFreshness now x a s).requeue q := by
  unfold rearmFreshness
  cases a.refresh with
  | none => rfl
  | some n => exact ite_requeue rfl rfl

theorem rearmLease_requeue (now : LongWord) (x : Record) (a : Active) :
    rearmLease now st x a (s.requeue q) = (rearmLease now st x a s).requeue q := by
  unfold rearmLease
  refine ite_requeue ?_ rfl
  cases a.lease <;> rfl

theorem opWrite_requeue : opWrite g st r (s.requeue q) = requeued q (opWrite g st r s) := by
  refine checked_requeue s q (checks := writeChecks g st r s) fun x => ?_
  obtain ⟨x, a⟩ := x
  simp only [writeEffect, putRecord_requeue, rearmFreshness_requeue, rearmLease_requeue]
  rfl

theorem createRoom_requeue : createRoom st r (s.requeue q) = createRoom st r s := by
  have hfree : lowestFreeSlot (s.requeue q) = lowestFreeSlot s := by
    rw [lowestFreeSlot, index_requeue, lowestFreeSlot]
  unfold createRoom
  rw [hfree]
  generalize lowestFreeSlot s = o
  rfl

theorem createChecks_requeue : createChecks g st r (s.requeue q) = createChecks g st r s := by
  have hfind : (s.requeue q).findRecord r.point = s.findRecord r.point := rfl
  rw [createChecks, createRoom_requeue, hfind, createChecks]

theorem createEffect_requeue (cls : PointClass) (n : Nat) :
    createEffect g st r (s.requeue q) cls n = requeued q (createEffect g st r s cls n) := by
  unfold createEffect
  exact congrArg (Prod.mk _) (ite_requeue rfl rfl)

theorem opCreate_requeue : opCreate g st r (s.requeue q) = requeued q (opCreate g st r s) := by
  rw [opCreate, createChecks_requeue]
  exact checked_requeue s q fun x => createEffect_requeue s q g st r x.1 x.2

theorem opRetire_requeue : opRetire g st r (s.requeue q) = requeued q (opRetire g st r s) :=
  checked_requeue s q (checks := retireChecks g st r s) fun _ => congrArg (Prod.mk _) (ite_requeue rfl rfl)

theorem opClaim_requeue : opClaim g st r (s.requeue q) = requeued q (opClaim g st r s) :=
  checked_requeue s q (checks := claimChecks g st r s) fun _ => congrArg (Prod.mk _) (ite_requeue rfl rfl)

theorem opRelease_requeue : opRelease g st r (s.requeue q) = requeued q (opRelease g st r s) := by
  refine checked_requeue s q (checks := releaseChecks st r s) fun x => ?_
  obtain ⟨x, a⟩ := x
  simp only [releaseEffect]
  cases a.owner <;> rfl

theorem opSubscribe_requeue : opSubscribe g st r (s.requeue q) = requeued q (opSubscribe g st r s) :=
  checked_requeue s q (checks := subscribeChecks g st r s) fun _ => congrArg (Prod.mk _) (ite_requeue rfl rfl)

theorem opUnsubscribe_requeue : opUnsubscribe g st r (s.requeue q) = requeued q (opUnsubscribe g st r s) :=
  checked_requeue s q (checks := lookupAny s r.point) fun _ => congrArg (Prod.mk _) (ite_requeue rfl rfl)

theorem opNext_requeue : opNext g st r (s.requeue q) = requeued q (opNext g st r s) := by
  unfold opNext
  rw [index_requeue]
  split
  · rfl
  · cases s.index.findSome? (nextStops g st r.arg0) <;> rfl

theorem opPin_requeue : opPin g st r (s.requeue q) = requeued q (opPin g st r s) :=
  checked_requeue s q (checks := pinChecks r s) fun _ =>
    congrArg (Prod.mk _) (ite_requeue (ite_requeue rfl rfl) rfl)

theorem opUnpin_requeue : opUnpin g st r (s.requeue q) = requeued q (opUnpin g st r s) := by
  refine checked_requeue s q (checks := lookupActive s r.point) fun x => congrArg (Prod.mk _) (ite_requeue ?_ rfl)
  obtain ⟨x, a⟩ := x
  unfold unpinFreshness
  cases a.refresh with
  | none => rfl
  | some n => exact ite_requeue rfl rfl

theorem opPurge_requeue : opPurge g st r (s.requeue q) = requeued q (opPurge g st r s) :=
  checked_requeue s q (checks := lookupAny s r.point) fun _ => rfl

end

theorem finishRequest_requeue {code : Byte} {op : Granted → Station → Request → State → Result × State}
    (hop : ∀ g st r, op g st r (s.requeue q) = requeued q (op g st r s)) :
    finishRequest code op (s.requeue q) = (finishRequest code op s).requeue q := by
  unfold finishRequest
  rw [running_requeue]
  cases s.running with
  | none => rfl
  | some g =>
    dsimp only
    cases g.work with
    | request st r =>
      refine ite_requeue ?_ rfl
      have hfree (u : State) : { u.requeue q with running := none } = State.requeue { u with running := none } q := rfl
      simp only [completeRequest, hop, requeued]
      rw [hfree, freeCells_requeue, poolLowTest_requeue, deliver_requeue,
        monitorLook_requeue]
    | noticeFetch | noticeAck | expire | clearChunk => rfl

/-! ## EXPIRE, NOTICE_FETCH, NOTICE_ACK and CLEAR_CHUNK -/

/-- The directory is freed. -/
theorem freed_requeue : { s.requeue q with running := none } = State.requeue { s with running := none } q := rfl

theorem expireRecord_requeue (k : DeadlineKind) (r : Record) :
    expireRecord k r (s.requeue q) = (expireRecord k r s).requeue q := by
  unfold expireRecord
  cases r.phase with
  | retiring => rfl
  | active a =>
    cases k with
    | freshness => exact ite_requeue rfl rfl
    | lease =>
      dsimp only
      cases a.owner <;> rfl

theorem expireHead_requeue (now : LongWord) : expireHead now (s.requeue q) = (expireHead now s).requeue q := by
  have hdeadlines : (s.requeue q).deadlines = s.deadlines := rfl
  unfold expireHead
  rw [hdeadlines]
  cases s.deadlines with
  | nil => rfl
  | cons d rest =>
    refine ite_requeue ?_ rfl
    have hfind : (s.requeue q).findIncarnation d.point d.incarnation = s.findIncarnation d.point d.incarnation := rfl
    rw [hfind]
    cases s.findIncarnation d.point d.incarnation with
    | none => rfl
    | some r => exact expireRecord_requeue { s with deadlines := rest } q d.kind r

theorem expireEffect_requeue : expireEffect (s.requeue q) = (expireEffect s).requeue q := by
  unfold expireEffect
  rw [running_requeue]
  cases s.running with
  | none => rfl
  | some g =>
    dsimp only
    cases g.work with
    | expire =>
      dsimp only
      rw [freed_requeue, expireHead_requeue, monitorLook_requeue]
    | request | noticeFetch | noticeAck | clearChunk => rfl

theorem fetchMark_requeue (st : Station) (found : Option Record) :
    fetchMark st found (s.requeue q) = (fetchMark st found s).requeue q := by
  cases found <;> rfl

theorem noticeFetchEffect_requeue : noticeFetchEffect (s.requeue q) = (noticeFetchEffect s).requeue q := by
  unfold noticeFetchEffect
  rw [running_requeue]
  cases s.running with
  | none => rfl
  | some g =>
    dsimp only
    cases g.work with
    | noticeFetch st =>
      have hsearch : fetchSearch (s.requeue q) st = fetchSearch s st := rfl
      dsimp only
      rw [hsearch, freed_requeue, fetchMark_requeue, deliverFetch_requeue, monitorLook_requeue]
    | request | noticeAck | expire | clearChunk => rfl

theorem ackRecord_requeue (st : Station) (id : NoticeId) :
    ackRecord st id (s.requeue q) = (ackRecord st id s).requeue q := by
  have hfind : (s.requeue q).findIncarnation id.point id.incarnation = s.findIncarnation id.point id.incarnation := rfl
  unfold ackRecord
  rw [hfind]
  cases s.findIncarnation id.point id.incarnation with
  | none => rfl
  | some r => exact ite_requeue (putOrFree_requeue ..) rfl

theorem ackNotice_requeue (st : Station) (id : NoticeId) :
    ackNotice st id (s.requeue q) = (ackNotice st id s).requeue q := by
  unfold ackNotice
  rw [modStation_requeue]
  exact ite_requeue (ackRecord_requeue ..) (ite_requeue rfl rfl)

theorem noticeAckEffect_requeue : noticeAckEffect (s.requeue q) = (noticeAckEffect s).requeue q := by
  unfold noticeAckEffect
  rw [running_requeue]
  cases s.running with
  | none => rfl
  | some g =>
    dsimp only
    cases g.work with
    | noticeAck st id =>
      dsimp only
      rw [freed_requeue, ackNotice_requeue, deliverAck_requeue, monitorLook_requeue]
    | request | noticeFetch | expire | clearChunk => rfl

theorem clearRecord_requeue (st : Station) (r : Record) :
    clearRecord st r (s.requeue q) = (clearRecord st r s).requeue q := by
  unfold clearRecord
  dsimp only
  rw [ite_requeue (dropDeadline_requeue s q r .lease) rfl, putOrFree_requeue]

theorem clearSlot_requeue (st : Station) (n : Nat) : clearSlot st (s.requeue q) n = (clearSlot st s n).requeue q := by
  unfold clearSlot
  rw [index_requeue]
  cases s.index.find? fun r => r.slot = n with
  | none => rfl
  | some r => exact ite_requeue (clearRecord_requeue ..) rfl

theorem clearSlots_requeue (st : Station) (l : List Nat) :
    l.foldl (clearSlot st) (s.requeue q) = (l.foldl (clearSlot st) s).requeue q := by
  induction l generalizing s with
  | nil => rfl
  | cons n l ih => rw [List.foldl_cons, clearSlot_requeue, ih, List.foldl_cons]

theorem clearChunkOn_requeue (st : Station) (k : Fin 16) :
    clearChunkOn st k (s.requeue q) = (clearChunkOn st k s).requeue q := by
  unfold clearChunkOn
  rw [clearSlots_requeue]
  generalize (chunkRange k).foldl (clearSlot st) s = u
  exact ite_requeue rfl rfl

theorem clearChunkEffect_requeue : clearChunkEffect (s.requeue q) = (clearChunkEffect s).requeue q := by
  unfold clearChunkEffect
  rw [running_requeue]
  cases s.running with
  | none => rfl
  | some g =>
    dsimp only
    cases g.work with
    | clearChunk st k =>
      dsimp only
      rw [freed_requeue, clearChunkOn_requeue, monitorLook_requeue]
    | request | noticeFetch | noticeAck | expire => rfl

/-! ## The link engines -/

theorem beginVisit_requeue (l : Link) (st : Station) :
    beginVisit l st (s.requeue q) = (beginVisit l st s).requeue q := by
  unfold beginVisit
  exact modLink_requeue ..

theorem walkEffect_requeue (l : Link) : walkEffect l (s.requeue q) = (walkEffect l s).requeue q := by
  have hstation (st : Station) : walkStation l st (s.requeue q) = (walkStation l st s).requeue q := by
    simp only [walkStation, station_requeue, advance_requeue, modCounters_requeue, beginVisit_requeue]
    cases (s.station st).link with
    | none => rfl
    | some l' =>
      refine ite_requeue rfl ?_
      cases (s.station st).state <;> rfl
  simp only [walkEffect, link_requeue, wrap_requeue, advance_requeue, hstation]
  refine ite_requeue ?_ rfl
  cases entryMeaning (s.link l).bank[(s.link l).walk] <;> rfl

theorem sendVisitEffect_requeue (l : Link) : sendVisitEffect l (s.requeue q) = (sendVisitEffect l s).requeue q := by
  simp only [sendVisitEffect, link_requeue, modLink_requeue, modCounters_requeue]
  exact ite_requeue rfl rfl

theorem visitSentEffect_requeue (l : Link) : visitSentEffect l (s.requeue q) = (visitSentEffect l s).requeue q := by
  simp only [visitSentEffect, link_requeue, modLink_requeue, modVisit_requeue]
  exact ite_requeue rfl rfl

theorem sendResultEffect_requeue (l : Link) : sendResultEffect l (s.requeue q) = (sendResultEffect l s).requeue q := by
  simp only [sendResultEffect, link_requeue, modLink_requeue]
  exact ite_requeue rfl rfl

theorem resultSentEffect_requeue (l : Link) : resultSentEffect l (s.requeue q) = (resultSentEffect l s).requeue q := by
  simp only [resultSentEffect, link_requeue, modLink_requeue, endVisit_requeue]
  exact ite_requeue rfl rfl

theorem missVisit_requeue (l : Link) (st : Station) : missVisit l st (s.requeue q) = (missVisit l st s).requeue q := by
  have hmiss (u : State) : missStation l st (u.requeue q) = (missStation l st u).requeue q := by
    simp only [missStation, station_requeue, link_requeue, modStation_requeue, leave_requeue]
    exact ite_requeue (ite_requeue rfl rfl) rfl
  rw [missVisit, modCounters_requeue, hmiss, endVisit_requeue]
  rfl

theorem failTry_requeue (l : Link) : failTry l (s.requeue q) = (failTry l s).requeue q := by
  simp only [failTry, link_requeue, modVisit_requeue, modCounters_requeue, missVisit_requeue]
  cases (s.link l).visit with
  | none => rfl
  | some v => exact ite_requeue rfl rfl

theorem replyStation_requeue (l : Link) (st : Station) :
    replyStation l st (s.requeue q) = (replyStation l st s).requeue q :=
  ite_requeue rfl (ite_requeue rfl rfl)

theorem validReply_requeue (l : Link) (st : Station) (reply : Reply) :
    validReply l st reply (s.requeue q) = (validReply l st reply s).requeue q := by
  simp only [validReply, modCounters_requeue, replyStation_requeue, modVisit_requeue, enterRequest_requeue]
  cases reply.ack <;> rfl

theorem badFrame_requeue (l : Link) (b : Bool) : badFrame l b (s.requeue q) = (badFrame l b s).requeue q := by
  simp only [badFrame, modCounters_requeue, failTry_requeue]
  exact ite_requeue rfl rfl

theorem strayFrame_requeue (l : Link) (b : Bool) : strayFrame l b (s.requeue q) = (strayFrame l b s).requeue q := by
  simp only [strayFrame, modCounters_requeue, failTry_requeue]
  exact ite_requeue rfl rfl

theorem wholeFrame_requeue (l : Link) (b : Bool) (a ty f : Byte) (p : List Byte) (lo hi : Byte) :
    wholeFrame l b a ty f p lo hi (s.requeue q) = (wholeFrame l b a ty f p lo hi s).requeue q := by
  simp only [wholeFrame, badFrame_requeue, strayFrame_requeue, validReply_requeue, link_requeue]
  refine ite_requeue rfl (ite_requeue ?_ rfl)
  cases replyOf (s.link l) a ty f p <;> rfl

theorem hunt_requeue (l : Link) : (s.requeue q).hunt l = (s.hunt l).requeue q := modLink_requeue s q l _

theorem frameReceivedEffect_requeue (l : Link) (a ty f : Byte) (p : List Byte) (lo hi : Byte) :
    frameReceivedEffect l a ty f p lo hi (s.requeue q) = (frameReceivedEffect l a ty f p lo hi s).requeue q := by
  simp only [frameReceivedEffect, link_requeue, hunt_requeue, wholeFrame_requeue]
  cases (s.link l).receiver <;> rfl

theorem frameBrokenEffect_requeue (l : Link) : frameBrokenEffect l (s.requeue q) = (frameBrokenEffect l s).requeue q := by
  simp only [frameBrokenEffect, link_requeue, hunt_requeue, badFrame_requeue]
  cases (s.link l).receiver <;> rfl

theorem replyTimeoutEffect_requeue (l : Link) :
    replyTimeoutEffect l (s.requeue q) = (replyTimeoutEffect l s).requeue q := by
  simp only [replyTimeoutEffect, link_requeue, modCounters_requeue, failTry_requeue]
  exact ite_requeue rfl rfl

theorem startOctetEffect_requeue (l : Link) (o : Byte) (b : Bool) :
    startOctetEffect l o b (s.requeue q) = (startOctetEffect l o b s).requeue q := by
  simp only [startOctetEffect, link_requeue, modLink_requeue]
  exact ite_requeue rfl rfl

/-! ## The port -/

theorem goEffect_requeue (k : Fin 4) (c : Byte) (e f : Bool) :
    goEffect k c e f (s.requeue q) = (goEffect k c e f s).requeue q := ite_requeue rfl rfl

theorem cancelEffect_requeue (k : Fin 4) (c : Byte) (e f : Bool) :
    cancelEffect k c e f (s.requeue q) = (cancelEffect k c e f s).requeue q := by
  have hslots : (s.requeue q).slots = s.slots := rfl
  unfold cancelEffect
  rw [hslots]
  cases (s.slots[k]).state <;> rfl

theorem clearEffect_requeue (k : Fin 4) (c : Byte) (e f : Bool) :
    clearEffect k c e f (s.requeue q) = (clearEffect k c e f s).requeue q := by
  have hslots : (s.requeue q).slots = s.slots := rfl
  unfold clearEffect
  rw [hslots]
  cases (s.slots[k]).state <;> rfl

theorem slotWordWrite_requeue (k : Fin 4) (w : SlotWord) (v : Word) :
    slotWordWrite k w v (s.requeue q) = (slotWordWrite k w v s).requeue q := by
  have hword (w : SlotWord) : slotWriteEffect k w v (s.requeue q) = (slotWriteEffect k w v s).requeue q :=
    ite_requeue rfl rfl
  cases w with
  | op =>
    simp only [slotWordWrite, opWordWrite, hword, goEffect_requeue, cancelEffect_requeue, clearEffect_requeue,
      portFault_requeue]
    cases v.getLsbD 12 <;> cases v.getLsbD 13 <;> cases v.getLsbD 14 <;> rfl
  | point | argument i | data i => exact hword _

theorem selectEffect_requeue (which : Select) (v : Word) :
    selectEffect which v (s.requeue q) = (selectEffect which v s).requeue q := by
  cases which <;> simp only [selectEffect] <;> split <;> rfl

theorem assignmentEffect_requeue (v : Word) : assignmentEffect v (s.requeue q) = (assignmentEffect v s).requeue q := by
  refine ite_requeue rfl ?_
  have hselect : (s.requeue q).stationSelect = s.stationSelect := rfl
  rw [hselect, station_requeue]
  cases (s.station s.stationSelect).state <;> rfl

theorem barEffect_requeue : barEffect (s.requeue q) = (barEffect s).requeue q := by
  refine ite_requeue rfl ?_
  have hselect : (s.requeue q).stationSelect = s.stationSelect := rfl
  rw [hselect, station_requeue]
  cases (s.station s.stationSelect).state <;> rfl

theorem unbarEffect_requeue : unbarEffect (s.requeue q) = (unbarEffect s).requeue q := by
  refine ite_requeue rfl ?_
  have hselect : (s.requeue q).stationSelect = s.stationSelect := rfl
  rw [hselect, station_requeue]
  cases (s.station s.stationSelect).state <;> rfl

theorem linkSelect_requeue : (s.requeue q).linkSelect = s.linkSelect := rfl

theorem entryEffect_requeue (v : Word) : entryEffect v (s.requeue q) = (entryEffect v s).requeue q := by
  simp only [entryEffect, linkSelect_requeue, link_requeue, modLink_requeue, portFault_requeue]
  split
  · exact ite_requeue rfl rfl
  · rfl

theorem switchControl_requeue (l : Link) (b : Bool) :
    switchControl l b (s.requeue q) = (switchControl l b s).requeue q := by
  simp only [switchControl, link_requeue, modLink_requeue, takeSwitch_requeue]
  exact ite_requeue (ite_requeue rfl rfl) rfl

theorem runControl_requeue (l : Link) (b : Bool) : runControl l b (s.requeue q) = (runControl l b s).requeue q := by
  simp only [runControl, link_requeue, modLink_requeue, completeStop_requeue, portFault_requeue]
  cases (s.link l).state <;> cases b
  case running.false => exact ite_requeue rfl rfl
  all_goals rfl

theorem linkControl_requeue (r b : Bool) : linkControl r b (s.requeue q) = (linkControl r b s).requeue q := by
  rw [linkControl, linkSelect_requeue, switchControl_requeue, runControl_requeue]
  rfl

theorem parameterEffect_requeue (which : LinkParameter) (v : Word) :
    parameterEffect which v (s.requeue q) = (parameterEffect which v s).requeue q := by
  simp only [parameterEffect, linkSelect_requeue, link_requeue, modLink_requeue, portFault_requeue]
  refine ite_requeue ?_ rfl
  cases storeParameter which v (s.link s.linkSelect) <;> rfl

theorem counterReadEffect_requeue (which : LinkCounter) :
    counterReadEffect which (s.requeue q) = (counterReadEffect which s).requeue q := by
  simp only [counterReadEffect, linkSelect_requeue, link_requeue]
  rfl

/-! ## Every command -/

theorem effectOf_requeue {c : Instr} (hbus : isBusWrite c = false) :
    effectOf c (s.requeue q) = (effectOf c s).requeue q := by
  cases c
  case registerWrite => cases hbus
  case grant => exact grantEffect_requeue s q
  case read => exact finishRequest_requeue s q (opRead_requeue s q)
  case write => exact finishRequest_requeue s q (opWrite_requeue s q)
  case create => exact finishRequest_requeue s q (opCreate_requeue s q)
  case retire => exact finishRequest_requeue s q (opRetire_requeue s q)
  case claim => exact finishRequest_requeue s q (opClaim_requeue s q)
  case release => exact finishRequest_requeue s q (opRelease_requeue s q)
  case subscribe => exact finishRequest_requeue s q (opSubscribe_requeue s q)
  case unsubscribe => exact finishRequest_requeue s q (opUnsubscribe_requeue s q)
  case next => exact finishRequest_requeue s q (opNext_requeue s q)
  case pin => exact finishRequest_requeue s q (opPin_requeue s q)
  case unpin => exact finishRequest_requeue s q (opUnpin_requeue s q)
  case purge => exact finishRequest_requeue s q (opPurge_requeue s q)
  case noticeFetch => exact noticeFetchEffect_requeue s q
  case noticeAck => exact noticeAckEffect_requeue s q
  case expire => exact expireEffect_requeue s q
  case clearChunk => exact clearChunkEffect_requeue s q
  case deadlineDue => exact monitorLook_requeue s q
  case walkEntry l => exact walkEffect_requeue s q l
  case sendVisit l => exact sendVisitEffect_requeue s q l
  case visitFrameSent l => exact visitSentEffect_requeue s q l
  case frameReceived l a ty f p lo hi => exact frameReceivedEffect_requeue s q l a ty f p lo hi
  case frameBroken l _ => exact frameBrokenEffect_requeue s q l
  case replyTimeout l => exact replyTimeoutEffect_requeue s q l
  case sendResult l => exact sendResultEffect_requeue s q l
  case resultFrameSent l => exact resultSentEffect_requeue s q l
  case startOctetReceived l o b => exact startOctetEffect_requeue s q l o b
  case softReset b => cases b <;> rfl
  case go k c e f => exact goEffect_requeue s q k c e f
  case cancel k c e f => exact cancelEffect_requeue s q k c e f
  case clear k c e f => exact clearEffect_requeue s q k c e f
  case slotParameterWrite k w v => exact slotWordWrite_requeue s q k w v
  case take => exact ite_requeue rfl rfl
  case ack => exact ite_requeue rfl rfl
  case selectWrite which v => exact selectEffect_requeue s q which v
  case linkAssignmentWrite v => exact assignmentEffect_requeue s q v
  case bar => exact barEffect_requeue s q
  case unbar => exact unbarEffect_requeue s q
  case entryValueWrite v => exact entryEffect_requeue s q v
  case run b => exact linkControl_requeue s q true b
  case runCleared b => exact linkControl_requeue s q false b
  case switch b => exact linkControl_requeue s q b true
  case switchWithdraw b => exact linkControl_requeue s q b false
  case linkParameterWrite which v => exact parameterEffect_requeue s q which v
  case linkCounterWrite which _ _ => exact modCounters_requeue s q s.linkSelect (zeroCounter which)
  case linkCounterLowRead which => exact counterReadEffect_requeue s q which
  case fullReset | resetRelease | clockLatch | attnCauseWrite | attnEnableWrite | stationChangedWrite
      | poolLowThresholdWrite | leaseMaxWrite | stationCounterWrite | fenceWrite | directoryClockTick => rfl

/-- What commutes with every queue leaves the queue alone. -/
theorem pending_of_requeue {f : State → State} (hf : ∀ q, f (s.requeue q) = (f s).requeue q) :
    (f s).pending = s.pending :=
  (congrArg State.pending (hf s.pending) :)

theorem heldEffect_requeue (c : Instr) : heldEffect c (s.requeue q) = (heldEffect c s).requeue q := by
  cases c <;> rfl

theorem noticeControlWrite_requeue (v : Word) :
    noticeControlWrite v (s.requeue q) = (noticeControlWrite v s).requeue q := by
  have htake : takeEffect (s.requeue q) = (takeEffect s).requeue q := ite_requeue rfl rfl
  have hack : ackEffect (s.requeue q) = (ackEffect s).requeue q := ite_requeue rfl rfl
  simp only [noticeControlWrite, htake, hack, portFault_requeue]
  cases v.getLsbD 0 <;> cases v.getLsbD 1 <;> rfl

theorem writePlace_requeue (p : Place) (v : Word) : writePlace p v (s.requeue q) = (writePlace p v s).requeue q := by
  cases p with
  | portControl => exact ite_requeue (ite_requeue rfl rfl) (ite_requeue rfl rfl)
  | slotWord k w => exact slotWordWrite_requeue s q k w v
  | noticeControl => exact noticeControlWrite_requeue s q v
  | select which => exact selectEffect_requeue s q which v
  | assignment => exact assignmentEffect_requeue s q v
  | stationCommand =>
    exact ite_requeue rfl (ite_requeue (barEffect_requeue s q) (ite_requeue (unbarEffect_requeue s q) rfl))
  | entryValue => exact entryEffect_requeue s q v
  | linkControl => exact linkControl_requeue s q _ _
  | linkParameter which => exact parameterEffect_requeue s q which v
  | linkCounter which => exact modCounters_requeue s q s.linkSelect (zeroCounter which)
  | attnCause | attnEnable | stationChanged | poolThreshold | leaseMax | stationCounter | fence | stationState
  | stationCount | inflight | lastRequest | portStatus | recordsInUse | freeCells | clockWord | slotState | slotResult
  | snapshot | snapshotValue | nothing => rfl

end

theorem everyEffect_requeue (s : State) (q : List Instr) (c : Instr) :
    effectOf c (s.requeue q) = (effectOf c s).requeue q := by
  cases hbus : isBusWrite c with
  | false => exact effectOf_requeue s q hbus
  | true =>
    cases c
    case registerWrite a v => exact writePlace_requeue s q (placeOf a) v
    all_goals cases hbus

/-- Settles O3: what every command does commutes with another queue, also while RESET is held. -/
theorem everyCommandKeepsTheQueue : Obligations.EveryCommandKeepsTheQueue := by
  intro c s
  obtain hheld | hreleased := Bool.eq_false_or_eq_true s.resetHeld
  · have hexec {u : State} (hu : u.resetHeld = true) : exec c u = .next (heldEffect c u) := by
      rw [exec_eq_next, if_pos hu]
    exact ⟨heldEffect c s, hexec hheld, pending_of_requeue s (heldEffect_requeue s · c),
      fun q => (hexec (u := s.requeue q) hheld).trans (congrArg _ (heldEffect_requeue s q c))⟩
  · exact ⟨effectOf c s, exec_released hreleased c, pending_of_requeue s (everyEffect_requeue s · c),
      fun q => (exec_released (s := s.requeue q) hreleased c).trans (congrArg _ (everyEffect_requeue s q c))⟩

end Sys2Proof.Machine
end
